-- ==== Sys2Proof/Word.lean ====
section
/-! DEFINITION. Bytes, station ports, and one value per station port. -/

namespace Sys2Proof

/-- One byte of a frame. -/
abbrev Byte := BitVec 8

/-- A station port: station link 0, 1, 2 or 3 with the device attached to it (00_scope 1.4). -/
inductive Port where
  | p0 | p1 | p2 | p3
  deriving DecidableEq, Repr

/-- The number of the link, as frames carry it. -/
def Port.toNat : Port → Nat
  | .p0 => 0 | .p1 => 1 | .p2 => 2 | .p3 => 3

/-- The four ports in ascending order. -/
def Port.all : List Port := [.p0, .p1, .p2, .p3]

/-- One value for each station port. -/
structure Four (α : Type) where
  v0 : α
  v1 : α
  v2 : α
  v3 : α
  deriving DecidableEq, Repr, Inhabited

/-- The value of one port. -/
def Four.get {α : Type} (f : Four α) : Port → α
  | .p0 => f.v0 | .p1 => f.v1 | .p2 => f.v2 | .p3 => f.v3

/-- Replace the value of one port. -/
def Four.set {α : Type} (f : Four α) (p : Port) (x : α) : Four α :=
  match p with
  | .p0 => { f with v0 := x }
  | .p1 => { f with v1 := x }
  | .p2 => { f with v2 := x }
  | .p3 => { f with v3 := x }

/-- The same value at every port. -/
def Four.all {α : Type} (x : α) : Four α := ⟨x, x, x, x⟩

/-- A function of the value, taken at every port. -/
def Four.map {α β : Type} (g : α → β) (f : Four α) : Four β := ⟨g f.v0, g f.v1, g f.v2, g f.v3⟩

/-- The four values in port order. -/
def Four.toList {α : Type} (f : Four α) : List α := [f.v0, f.v1, f.v2, f.v3]

end Sys2Proof
end

