-- ==== Sys2Proof/Syntax.lean ====
section
/-! DEFINITION. The commands of the CA-2048: one constructor of Instr for each row of
spec/opcode_table.json, and the two kinds of request as the links carry them (R199). -/

namespace Sys2Proof

/-- A station request as its frame carries it: the ten requests of R127 with the body fields of R199
(decimal fields packed, R51), and any other frame, which R127 answers BAD_REQUEST. -/
inductive StationRequest where
  | select (key : BitVec 40)
  | balance
  | stationStatus
  | pin
  | unpin
  | fare (entryZone exitZone trial : Byte)
  | hold (amount : BitVec 24) (lifetime : BitVec 16) (trial : Byte)
  | capture (holdId : BitVec 16) (amount : BitVec 24) (trial : Byte)
  | release (holdId : BitVec 16)
  | topUp (amount : BitVec 24) (trial : Byte)
  | bad (code : Byte) (body : List Byte)
  deriving DecidableEq, Repr

/-- A station request frame without its start byte, length and check bytes (R195). -/
structure StationFrame where
  seq : Byte
  req : StationRequest
  deriving DecidableEq, Repr

/-- The parameter items of one port in SET PARAMETERS (R158, R199): two change indications with
their values. -/
structure PortChange where
  rightsChange : Byte
  rights : Byte
  rateChange : Byte
  rate : Byte
  deriving DecidableEq, Repr

/-- A supervisor request as its frame carries it (R154, R199), and any other good frame, which R154
answers BAD_REQUEST. An optional field is its presence byte and its value (R197). -/
inductive SupervisorRequest where
  | openAccount (key : BitVec 40) (cls sign : Byte) (initial : BitVec 32) (floor : BitVec 24)
      (vePresent : Byte) (ve : BitVec 16) (passPresent : Byte) (zones passEnd : BitVec 16)
  | readAccount (key : BitVec 40)
  | setTerms (key : BitVec 40) (clsChange cls floorChange : Byte) (floor : BitVec 24)
      (veChange : Byte) (ve : BitVec 16) (passChange : Byte) (zones passEnd : BitVec 16)
  | suspend (key : BitVec 40)
  | resume (key : BitVec 40)
  | retire (key : BitVec 40)
  | confirmRetire (key : BitVec 40)
  | dayRoll
  | enumerate (startSlot : BitVec 16) (filter : Byte)
  | credit (key : BitVec 40) (amount : BitVec 32)
  | debit (key : BitVec 40) (amount : BitVec 32)
  | clearUnclaimed
  | cancelHold (holdId : BitVec 16)
  | tariffBegin
  | tariffRow (cls entryZone : Byte) (fares : List (BitVec 16))
  | tariffCap (cls change : Byte) (cap : BitVec 24)
  | tariffCommit
  | readTariffRow (which cls entryZone : Byte)
  | status
  | setParameters (hlChange : Byte) (holdLimit : BitVec 16) (ptChange pinTime : Byte)
      (ports : Four PortChange)
  | readParameters
  | clearBackupFlag
  | wipe
  | bad (code : Byte) (body : List Byte)
  deriving DecidableEq, Repr

/-- The commands. A request row is the arrival of that request's good frame on its link; the other
rows are the link, internal and supply events of the table. -/
inductive Instr where
  | select (p : Port) (seq : Byte) (key : BitVec 40)
  | balance (p : Port) (seq : Byte)
  | stationStatus (p : Port) (seq : Byte)
  | pin (p : Port) (seq : Byte)
  | unpin (p : Port) (seq : Byte)
  | fare (p : Port) (seq entryZone exitZone trial : Byte)
  | hold (p : Port) (seq : Byte) (amount : BitVec 24) (lifetime : BitVec 16) (trial : Byte)
  | capture (p : Port) (seq : Byte) (holdId : BitVec 16) (amount : BitVec 24) (trial : Byte)
  | release (p : Port) (seq : Byte) (holdId : BitVec 16)
  | topUp (p : Port) (seq : Byte) (amount : BitVec 24) (trial : Byte)
  | stationBadRequest (p : Port) (seq code : Byte) (body : List Byte)
  | openAccount (key : BitVec 40) (cls sign : Byte) (initial : BitVec 32) (floor : BitVec 24)
      (vePresent : Byte) (ve : BitVec 16) (passPresent : Byte) (zones passEnd : BitVec 16)
  | readAccount (key : BitVec 40)
  | setTerms (key : BitVec 40) (clsChange cls floorChange : Byte) (floor : BitVec 24)
      (veChange : Byte) (ve : BitVec 16) (passChange : Byte) (zones passEnd : BitVec 16)
  | suspend (key : BitVec 40)
  | resume (key : BitVec 40)
  | retire (key : BitVec 40)
  | confirmRetire (key : BitVec 40)
  | dayRoll
  | enumerate (startSlot : BitVec 16) (filter : Byte)
  | credit (key : BitVec 40) (amount : BitVec 32)
  | debit (key : BitVec 40) (amount : BitVec 32)
  | clearUnclaimed
  | cancelHold (holdId : BitVec 16)
  | tariffBegin
  | tariffRow (cls entryZone : Byte) (fares : List (BitVec 16))
  | tariffCap (cls change : Byte) (cap : BitVec 24)
  | tariffCommit
  | readTariffRow (which cls entryZone : Byte)
  | status
  | setParameters (hlChange : Byte) (holdLimit : BitVec 16) (ptChange pinTime : Byte)
      (ports : Four PortChange)
  | readParameters
  | clearBackupFlag
  | wipe
  | supervisorBadRequest (code : Byte) (body : List Byte)
  | holdClockAdvance
  | holdExpiry (holdId : BitVec 16)
  | pinExpiry (p : Port)
  | stationCharacterReceived (p : Port) (byte : Byte)
  | gapTimeout (p : Port)
  | framingError (p : Port)
  | breakReceived (p : Port)
  | sessionResetPinEnd (p : Port)
  | answerTransmissionEnd (p : Port)
  | writeRequest (bytes : List Byte)
  | readAnswer (count : Nat)
  | readLinkStatus (count : Nat)
  | powerLoss
  | vbatLoss
  | powerReturn
  | resetAssert
  | resetRelease
  | vbatReturn
  | receiveLineReturnHigh (p : Port)
  | startUpCheckEnd
  | stagedChangeComplete
  deriving DecidableEq, Repr

end Sys2Proof
end

