-- ==== Sys2Proof/Machine/Records.lean ====
section
/-! DEFINITION. The records the CA-2048 keeps: accounts, holds, tariff banks, parameters, reply
caches, and what a staged change records. -/

namespace Sys2Proof.Machine

/-- The account states of R11. -/
inductive AcctState where
  | opened | suspended | closing | drained
  deriving DecidableEq, Repr

/-- A period pass: a zone set, one bit per zone, and its end day (R7). -/
structure Pass where
  zones : BitVec 16
  endDay : Nat
  deriving DecidableEq, Repr

/-- The stored fields of a live slot (R1). Amounts are the numbers their decimal digits denote. -/
structure Account where
  key : Nat
  state : AcctState
  cls : Nat
  balance : Int
  floor : Nat
  daySpend : Nat
  spendDay : Nat
  validityEnd : Option Nat
  pass : Option Pass
  deriving DecidableEq, Repr

/-- One active hold of the pool (R71). -/
structure Hold where
  id : Nat
  slot : Nat
  owner : Port
  amount : Nat
  expiry : Nat
  deriving DecidableEq, Repr

/-- Why a hold ended without its owner's doing (R91). -/
inductive EndReason where
  | lapsed | cancelled
  deriving DecidableEq, Repr

/-- One entry of an ended-hold memory (R91). -/
structure EndedHold where
  id : Nat
  reason : EndReason
  deriving DecidableEq, Repr

/-- A port's cursor (R137). -/
inductive Cursor where
  | none
  | sel (slot key : Nat)
  | gone
  deriving DecidableEq, Repr

/-- A pin table entry: the slot pinned and the expiry second (R141). -/
structure PinEntry where
  slot : Nat
  expiry : Nat
  deriving DecidableEq, Repr

/-- The two tariff banks (R101). -/
inductive BankId where
  | bankA | bankB
  deriving DecidableEq, Repr

/-- A tariff bank: rows of fare entries, class caps, BANK GENERATION (R101). -/
structure Bank where
  rows : List (List Nat)
  caps : List (Option Nat)
  gen : Nat
  deriving DecidableEq, Repr, Inhabited

/-- A set of rights (R129). -/
structure Rights where
  fare : Bool
  hold : Bool
  topUp : Bool
  deriving DecidableEq, Repr, Inhabited

/-- The five station link rates (R157, R190). -/
inductive Rate where
  | r9600 | r19200 | r38400 | r57600 | r115200
  deriving DecidableEq, Repr, Inhabited

/-- The parameter set (R157). -/
structure Params where
  holdLimit : Nat
  pinTime : Nat
  rights : Four Rights
  rates : Four Rate
  deriving DecidableEq, Repr, Inhabited

/-- The answer codes of R200. -/
inductive AnswerCode where
  | ok | badFrame | badRequest | seqClash | noRight | badDigit | range
  | noSelection | stale | unknownKey | duplicateKey | tableFull | wrongState | expired | pinned
  | noFunds | overflow | holdLimit | portQuota | poolFull | noHold | lapsed | cancelled | notOwner
  | overHold | noTariff | noRoute | incomplete | inDebt | totalFull
  deriving DecidableEq, Repr

/-- An answer code with the output fields as the body carries them (R197). -/
structure Answer where
  code : AnswerCode
  body : List Byte
  deriving DecidableEq, Repr

/-- A reply cache entry (R132). -/
structure CacheEntry where
  seq : Byte
  code : Byte
  answer : Answer
  trial : Bool
  deriving DecidableEq, Repr

/-- One value a staged change records: an item of retention memory with the value it is to hold
after the event (R173). -/
inductive RetWrite where
  | record (slot : Nat) (a : Account)
  | freeSlot (slot : Nat)
  | balance (slot : Nat) (v : Int)
  | daySpend (slot v : Nat)
  | spendDay (slot v : Nat)
  | acctState (slot : Nat) (st : AcctState)
  | acctClass (slot v : Nat)
  | floor (slot v : Nat)
  | validityEnd (slot : Nat) (v : Option Nat)
  | pass (slot : Nat) (v : Option Pass)
  | chain (bucket : Nat) (slots : List Nat)
  | freeList (slots : List Nat)
  | floatTotal (v : Int)
  | unclaimed (v : Nat)
  | businessDay (v : Nat)
  | tariffRow (b : BankId) (row : Nat) (fares : List Nat)
  | classCap (b : BankId) (cls : Nat) (cap : Option Nat)
  | bankGen (b : BankId) (v : Nat)
  | selector (b : BankId)
  | activeGen (v : Nat)
  | holdLimit (v : Nat)
  | pinTime (v : Nat)
  | rights (p : Port) (r : Rights)
  | rate (p : Port) (r : Rate)
  | cache (p : Port) (entries : List CacheEntry)
  | backupLost (v : Bool)
  | wipe
  deriving DecidableEq, Repr

/-- The retention domain (08_retention 8.1). -/
structure Retained where
  accounts : List (Option Account)
  day : Nat
  chains : List (List Nat)
  free : List Nat
  floatTotal : Int
  unclaimed : Nat
  bankA : Bank
  bankB : Bank
  selector : Option BankId
  activeGen : Nat
  params : Params
  caches : Four (List CacheEntry)
  backupLost : Bool
  /-- The retention mark is intact (R172). -/
  mark : Bool
  /-- The staged-change area: the recorded values (R173). -/
  staged : List RetWrite
  /-- The completion mark (R174). -/
  completion : Bool
  deriving DecidableEq, Repr, Inhabited

/-- One main-memory effect of an event, made together with the apply phase (R174). -/
inductive MainWrite where
  | cursor (p : Port) (c : Cursor)
  | pin (p : Port) (e : Option PinEntry)
  | addHold (h : Hold)
  | dropHold (id : Nat)
  | nextId (v : Nat)
  | recordEnd (p : Port) (id : Nat) (r : EndReason)
  | forgetEnd (id : Nat)
  | slotGone (slot : Nat)
  | standby (loading : Bool)
  | loaded (rows : List Nat)
  | wipe
  deriving DecidableEq, Repr

end Sys2Proof.Machine
end

