-- ==== Sys2Proof/Config.lean ====
section
/-! DEFINITION. The counts and limits of 00_scope 1.6, and the values the manual leaves free. -/

namespace Sys2Proof.Config

/-- Account slots (00_scope 1.6). -/
def slots : Nat := 2048
/-- Directory buckets (R35). -/
def buckets : Nat := 1021
/-- Hold pool entries (R71). -/
def pool : Nat := 384
/-- Active holds per account (R72). -/
def holdsPerAccount : Nat := 4
/-- Active holds per station port (R73). -/
def portQuota : Nat := 128
/-- The greatest hold id and the greatest day number (R77, R13). -/
def maxWord : Nat := 65535
/-- The hold clock counts modulo this (R74). -/
def clockModulus : Nat := 4294967296
/-- The greatest balance (00_scope 1.5.2). -/
def maxBalance : Int := 99999999
/-- The greatest unclaimed total (R60). -/
def maxTotal : Nat := 999999999999
/-- Where day spend is held (R119). -/
def maxDaySpend : Nat := 999999
/-- The fare entry that means NO ROUTE (R101). -/
def noRoute : Nat := 9999
/-- Rows of a tariff bank (R101). -/
def rows : Nat := 128
/-- Entries of an ended-hold memory (R91). -/
def endedMemory : Nat := 4
/-- Entries of a reply cache (R132). -/
def replyCache : Nat := 2
/-- Accounts per ENUMERATE answer (R43). -/
def page : Nat := 8
/-- The longest lifetime a HOLD may ask for, and the greatest HOLD LIMIT (R76, R157). -/
def maxLifetime : Nat := 3600
/-- The greatest PIN TIME (R157). -/
def maxPinTime : Nat := 60

/-- FREE VALUE (log 12): what retention memory holds once it has lost both supplies (R170). -/
opaque lostRetention : Nat → Machine.Retained

/-- FREE VALUE (log 11): which of several events that came to wait together is taken first (R175). -/
opaque choice : Nat → Nat

end Sys2Proof.Config
end

