-- ==== Sys2Proof/Machine/State.lean ====
section
/-! DEFINITION. The state of the CA-2048: retention domain, main memory, supplies and pins, the queue
of commands; and the state after reset. -/

namespace Sys2Proof.Machine

/-- RECEIVE STATE of a station link (R184). -/
inductive RxState where
  | hunt | length | body | check
  deriving DecidableEq, Repr

/-- A station answer frame (R195): echoed sequence and code, the answer, the four flags of R135,
R136, R133 and R63. -/
structure StationAnswer where
  seq : Byte
  code : Byte
  answer : Answer
  fresh : Bool
  overrun : Bool
  replay : Bool
  trial : Bool
  deriving DecidableEq, Repr

/-- TRANSMIT STATE SENDING: the answer frame and its RATE IN USE (R183, R189). -/
structure Sending where
  frame : StationAnswer
  rate : Rate
  deriving DecidableEq, Repr

/-- A station link (R183). -/
structure Link where
  rx : RxState
  /-- FRAME BUFFER, the start byte first. -/
  buffer : List Byte
  /-- The rate read at the start byte, kept for the rest of the frame being received; none outside a
  frame, where RATE IN USE is the port's rate in the parameter set (State.rateInUse, log 21). -/
  rxRate : Option Rate
  pendingSlot : Option StationFrame
  outstanding : Bool
  /-- TRANSMIT STATE: none is IDLE. -/
  tx : Option Sending
  /-- A BREAK was taken and the receive line has not returned high (R188). -/
  lineLow : Bool
  deriving DecidableEq, Repr

/-- The request of a port from its hand-over until its answer is handed to the link or dropped
(R126, R187). -/
structure InHand where
  frame : StationFrame
  /-- Set by a session reset: the answer is not to be sent (R149), and the request is still carried out
  in full (R150), under the cursor kept here, which is the one the reset found (log 7). -/
  dropped : Option Cursor
  deriving DecidableEq, Repr

/-- The session of a port without its reply cache (R125). -/
structure Session where
  cursor : Cursor
  fresh : Bool
  overrun : Bool
  pin : Option PinEntry
  inHand : Option InHand
  deriving DecidableEq, Repr

/-- The states of the supervisor link (R191). -/
inductive SupState where
  | idle | requestPending | answerReady
  deriving DecidableEq, Repr

/-- A supervisor answer frame (R196): the echoed code and the answer. -/
structure SupAnswer where
  code : Byte
  answer : Answer
  deriving DecidableEq, Repr

/-- The supervisor link (R191 to R193). -/
structure SupLink where
  state : SupState
  requestBuffer : List Byte
  request : Option SupervisorRequest
  answer : Option SupAnswer
  /-- What MISO carried in the last select period (log 27). -/
  miso : List Byte
  deriving DecidableEq, Repr

/-- The events that can hold the staged-change area or wait for it (R175). -/
inductive AreaEvent where
  | station (p : Port)
  | supervisor
  | holdExpiry (id : Nat)
  | pinExpiry (p : Port)
  | sessionPinEnd (p : Port)
  | startUpDrain (slot : Nat)
  deriving DecidableEq, Repr

/-- How far the event holding the area is (R174). `write`: the completion mark is clear. `mark`: it
has been set. `apply n`: n recorded values are written into their items. `clear`: all are, the
main-memory effects are made, and the mark still waits to be cleared. -/
inductive Phase where
  | write
  | mark
  | apply (done : Nat)
  | clear
  deriving DecidableEq, Repr

/-- What the session unit or the supervisor link will answer once the change is complete. -/
structure Reply where
  answer : Answer
  trial : Bool
  replay : Bool
  deriving DecidableEq, Repr

/-- The event that holds the staged-change area (R174, R175). -/
structure Holder where
  event : AreaEvent
  phase : Phase
  mains : List MainWrite
  reply : Option Reply
  deriving DecidableEq, Repr

/-- Main memory (08_retention 8.1). -/
structure Main where
  links : Four Link
  sessions : Four Session
  /-- The active holds in the order they were made. Hold lists, held values and the counts of holds
  are views of it (log 16). -/
  pool : List Hold
  clock : Nat
  /-- Advances of the hold clock that fell due and are deferred (R74). -/
  clockOwed : Nat
  nextId : Nat
  ended : Four (List EndedHold)
  /-- The standby state is LOADING (R104). -/
  loading : Bool
  loaded : List Nat
  sup : SupLink
  holder : Option Holder
  waiting : List AreaEvent
  deriving DecidableEq, Repr

/-- How far a start-up check is (R177 to R181). `settle`: the staged-change area is to be settled.
`drains n`: slots below n are examined. `cold`, `coldMark`: cold values, then the retention mark,
are to be written. `complete`: only its end remains. -/
inductive Check where
  | settle
  | drains (next : Nat)
  | cold
  | coldMark
  | complete
  deriving DecidableEq, Repr

/-- The machine. -/
structure State where
  /-- The commands waiting, first in, first out. -/
  pending : List Instr
  /-- VDD is at its operating level (R170). -/
  vdd : Bool
  /-- A backup cell supplies VBAT (R170). -/
  vbat : Bool
  /-- RESET_N is held low (R171). -/
  resetLow : Bool
  /-- The start-up check in progress, if one is (R177). -/
  check : Option Check
  ret : Retained
  main : Main
  /-- Numbers the free values as they are used; the model's own. -/
  freeCount : Nat
  deriving DecidableEq, Repr

/-- A meaning of the CA-2048 never faults: every refusal of the manual is an answer code (R200) and
the part goes on. Raised by nothing; so safe. -/
inductive Fault where
  deriving DecidableEq, Repr

/-- Why a command has no next state. -/
inductive Refusal where
  /-- Raised by exec for a command without a meaning. No arm raises it; it would be safe. -/
  | notModelled (mnemonic : String)
  deriving DecidableEq, Repr

/-- A tariff bank's cold values (R101). -/
def Bank.cold : Bank where
  rows := List.replicate Config.rows (List.replicate 16 Config.noRoute)
  caps := List.replicate 8 none
  gen := 0

/-- The default parameter set (R157). -/
def Params.default : Params where
  holdLimit := 300
  pinTime := 5
  rights := Four.all ⟨true, true, false⟩
  rates := Four.all .r19200

/-- The cold values of retention memory with the retention mark written (R180). -/
def Retained.cold : Retained where
  accounts := List.replicate Config.slots none
  day := 1
  chains := List.replicate Config.buckets []
  free := List.range Config.slots
  floatTotal := 0
  unclaimed := 0
  bankA := Bank.cold
  bankB := Bank.cold
  selector := none
  activeGen := 0
  params := Params.default
  caches := Four.all []
  backupLost := true
  mark := true
  staged := []
  completion := false

/-- A station link after a main reset (R183). -/
def Link.reset : Link where
  rx := .hunt
  buffer := []
  rxRate := none
  pendingSlot := none
  outstanding := false
  tx := none
  lineLow := false

/-- The start values of a session (R151). -/
def Session.reset : Session where
  cursor := .none
  fresh := true
  overrun := false
  pin := none
  inHand := none

/-- The supervisor link after a main reset (R194). -/
def SupLink.reset : SupLink where
  state := .idle
  requestBuffer := []
  request := none
  answer := none
  miso := []

/-- The reset values of main memory (step 1 of R177). -/
def Main.reset : Main where
  links := Four.all Link.reset
  sessions := Four.all Session.reset
  pool := []
  clock := 0
  clockOwed := 0
  nextId := 1
  ended := Four.all []
  loading := false
  loaded := []
  sup := SupLink.reset
  holder := none
  waiting := []

/-- The machine at the end of the start-up check of its first power-up, a cold start (log 2). -/
def State.reset : State where
  pending := []
  vdd := true
  vbat := true
  resetLow := false
  check := none
  ret := Retained.cold
  main := Main.reset
  freeCount := 0

end Sys2Proof.Machine
end

