-- ==== Sys2Proof/Machine/Ops.lean ====
section
/-! DEFINITION. The shared operations: views of the state, the values a staged change records and the
main-memory effects, the hold clock, the staged-change area, and the building blocks of verdicts. -/

namespace Sys2Proof.Machine

/-! Views of the state. -/

/-- VDD is present and RESET_N is high: the part works (R170, R171). -/
def State.powered (s : State) : Bool := s.vdd && !s.resetLow

/-- The part takes requests: it works and no start-up check is in progress (R181). -/
def State.running (s : State) : Bool := s.powered && s.check.isNone

/-- The session of a port (R125). -/
def State.session (s : State) (p : Port) : Session := s.main.sessions.get p

/-- Station link p (R183). -/
def State.link (s : State) (p : Port) : Link := s.main.links.get p

/-- Replace the session of a port. -/
def State.setSession (s : State) (p : Port) (x : Session) : State :=
  { s with main := { s.main with sessions := s.main.sessions.set p x } }

/-- Replace station link p. -/
def State.setLink (s : State) (p : Port) (x : Link) : State :=
  { s with main := { s.main with links := s.main.links.set p x } }

/-- Replace the supervisor link. -/
def State.setSup (s : State) (x : SupLink) : State := { s with main := { s.main with sup := x } }

/-- The account a slot holds; none for a FREE slot (R1). -/
def State.account? (s : State) (slot : Nat) : Option Account := s.ret.accounts.getD slot none

/-- The bucket of a key (02_key_directory 2.1). -/
def bucketOf (key : Nat) : Nat := key % Config.buckets

/-- The chain of a bucket (R35). -/
def State.chain (s : State) (bucket : Nat) : List Nat := s.ret.chains.getD bucket []

/-- The directory's lookup: the slot on the key's chain whose account has the key (R36). -/
def State.lookup (s : State) (key : Nat) : Option Nat :=
  (s.chain (bucketOf key)).find? fun slot =>
    match s.account? slot with
    | some a => a.key == key
    | none => false

/-- The holds on an account's hold list, oldest first (R72). -/
def State.holdsOn (s : State) (slot : Nat) : List Hold := s.main.pool.filter (·.slot == slot)

/-- HELD: the sum of the amounts of an account's holds (R8). -/
def State.held (s : State) (slot : Nat) : Nat := ((s.holdsOn slot).map (·.amount)).sum

/-- AVAILABLE: balance + floor − held (R9). -/
def State.available (s : State) (slot : Nat) (a : Account) : Int :=
  a.balance + a.floor - s.held slot

/-- The count of a port's active holds (R73). -/
def State.portHolds (s : State) (p : Port) : Nat := s.main.pool.countP (·.owner == p)

/-- The active hold with an id (R71). -/
def State.findHold (s : State) (id : Nat) : Option Hold := s.main.pool.find? (·.id == id)

/-- The port that pins a slot, with its entry (R141). -/
def State.pinOn (s : State) (slot : Nat) : Option (Port × PinEntry) :=
  Port.all.findSome? fun p =>
    match (s.session p).pin with
    | some e => if e.slot == slot then some (p, e) else none
    | none => none

/-- The port other than p that pins a slot (R146). -/
def State.pinnedByOther (s : State) (p : Port) (slot : Nat) : Option Port :=
  match s.pinOn slot with
  | some (q, _) => if q == p then none else some q
  | none => none

/-- The seconds left until an expiry second (R75, R141). -/
def State.secondsLeft (s : State) (expiry : Nat) : Nat :=
  (expiry + Config.clockModulus - s.main.clock) % Config.clockModulus

/-- The expiry second of a lifetime that starts now (R75, R141). -/
def State.expiryAfter (s : State) (seconds : Nat) : Nat :=
  (s.main.clock + seconds) % Config.clockModulus

/-- The contents of a bank (R101). -/
def Retained.bank (r : Retained) : BankId → Bank
  | .bankA => r.bankA
  | .bankB => r.bankB

/-- The standby bank: the one not active, or bank A when none is (R103). -/
def Retained.standbyBank (r : Retained) : BankId :=
  match r.selector with
  | some .bankA => .bankB
  | _ => .bankA

/-- The account of a slot is DRAINED. -/
def isDrained : Option Account → Bool
  | some a => a.state == .drained
  | none => false

/-- The DRAINED COUNT (R163). -/
def Retained.drainedCount (r : Retained) : Nat := r.accounts.countP isDrained

/-- The live count: 2,048 minus the free count (R47). -/
def Retained.liveCount (r : Retained) : Nat := Config.slots - r.free.length

/-- The entries of the pin table (R163). -/
def State.pinCount (s : State) : Nat := Port.all.countP fun p => (s.session p).pin.isSome

/-! What a staged change records, and main-memory effects. -/

/-- Change the account of a live slot. -/
def Retained.mapAccount (r : Retained) (slot : Nat) (f : Account → Account) : Retained :=
  { r with accounts := r.accounts.modify slot (Option.map f) }

/-- Replace what a slot holds. -/
def Retained.setSlot (r : Retained) (slot : Nat) (a : Option Account) : Retained :=
  { r with accounts := r.accounts.set slot a }

/-- Change the contents of a bank. -/
def Retained.mapBank (r : Retained) (b : BankId) (f : Bank → Bank) : Retained :=
  match b with
  | .bankA => { r with bankA := f r.bankA }
  | .bankB => { r with bankB := f r.bankB }

/-- The WIPE entry: every retained item that R167 changes takes its WIPE value; the parameter set and
BACKUP LOST stay (R173). -/
def Retained.wiped (r : Retained) : Retained :=
  { r with
    accounts := List.replicate Config.slots none
    day := 1
    chains := List.replicate Config.buckets []
    free := List.range Config.slots
    floatTotal := 0
    unclaimed := 0
    bankA := Bank.cold
    bankB := Bank.cold
    selector := none
    activeGen := 0
    caches := Four.all [] }

/-- Write one recorded value into its item (the apply phase of R174). -/
def applyRet (w : RetWrite) (r : Retained) : Retained :=
  match w with
  | .record slot a => r.setSlot slot (some a)
  | .freeSlot slot => r.setSlot slot none
  | .balance slot v => r.mapAccount slot fun a => { a with balance := v }
  | .daySpend slot v => r.mapAccount slot fun a => { a with daySpend := v }
  | .spendDay slot v => r.mapAccount slot fun a => { a with spendDay := v }
  | .acctState slot st => r.mapAccount slot fun a => { a with state := st }
  | .acctClass slot v => r.mapAccount slot fun a => { a with cls := v }
  | .floor slot v => r.mapAccount slot fun a => { a with floor := v }
  | .validityEnd slot v => r.mapAccount slot fun a => { a with validityEnd := v }
  | .pass slot v => r.mapAccount slot fun a => { a with pass := v }
  | .chain bucket slots => { r with chains := r.chains.set bucket slots }
  | .freeList slots => { r with free := slots }
  | .floatTotal v => { r with floatTotal := v }
  | .unclaimed v => { r with unclaimed := v }
  | .businessDay v => { r with day := v }
  | .tariffRow b row fares => r.mapBank b fun k => { k with rows := k.rows.set row fares }
  | .classCap b cls cap => r.mapBank b fun k => { k with caps := k.caps.set cls cap }
  | .bankGen b v => r.mapBank b fun k => { k with gen := v }
  | .selector b => { r with selector := some b }
  | .activeGen v => { r with activeGen := v }
  | .holdLimit v => { r with params := { r.params with holdLimit := v } }
  | .pinTime v => { r with params := { r.params with pinTime := v } }
  | .rights p x => { r with params := { r.params with rights := r.params.rights.set p x } }
  | .rate p x => { r with params := { r.params with rates := r.params.rates.set p x } }
  | .cache p entries => { r with caches := r.caches.set p entries }
  | .backupLost v => { r with backupLost := v }
  | .wipe => r.wiped

/-- Write recorded values into their items, in the order recorded. -/
def applyRets (ws : List RetWrite) (r : Retained) : Retained :=
  ws.foldl (fun r w => applyRet w r) r

/-- Change a port's session in main memory. -/
def Main.mapSession (m : Main) (p : Port) (f : Session → Session) : Main :=
  { m with sessions := m.sessions.set p (f (m.sessions.get p)) }

/-- A cursor after the freeing of a slot: GONE when it was SET on it (R41). -/
def Cursor.afterFreeing (slot : Nat) : Cursor → Cursor
  | .sel i k => if i == slot then .gone else .sel i k
  | c => c

/-- A cursor after WIPE: GONE when it was SET (R152). -/
def Cursor.afterWipe : Cursor → Cursor
  | .sel _ _ => .gone
  | c => c

/-- Change a session's cursor, and with it the cursor a dropped request is still carried out under
(log 7). -/
def Session.mapCursors (f : Cursor → Cursor) (x : Session) : Session :=
  { x with
    cursor := f x.cursor
    inHand := x.inHand.map fun h => { h with dropped := h.dropped.map f } }

/-- An ended-hold memory with a new ending at its tail; the oldest of four gives way (R91). -/
def pushEnded (l : List EndedHold) (e : EndedHold) : List EndedHold :=
  (if l.length < Config.endedMemory then l else l.drop 1) ++ [e]

/-- Make one main-memory effect. -/
def applyMain (w : MainWrite) (m : Main) : Main :=
  match w with
  | .cursor p c => m.mapSession p fun x => { x with cursor := c }
  | .pin p e => m.mapSession p fun x => { x with pin := e }
  | .addHold h => { m with pool := m.pool ++ [h] }
  | .dropHold id => { m with pool := m.pool.filter (·.id != id) }
  | .nextId v => { m with nextId := v }
  | .recordEnd p id r => { m with ended := m.ended.set p (pushEnded (m.ended.get p) ⟨id, r⟩) }
  | .forgetEnd id => { m with ended := m.ended.map fun l => l.filter (·.id != id) }
  | .slotGone slot =>
    { m with sessions := m.sessions.map (Session.mapCursors (Cursor.afterFreeing slot)) }
  | .standby loading => { m with loading := loading }
  | .loaded rows => { m with loaded := rows }
  | .wipe =>
    { m with
      sessions := m.sessions.map fun x => { x.mapCursors Cursor.afterWipe with pin := none }
      pool := []
      ended := Four.all []
      loading := false
      loaded := [] }

/-! The hold clock (R74). -/

/-- A hold or a pin whose expiry second is the clock's current value still stands. -/
def Main.dueNow (m : Main) : Bool :=
  m.pool.any (·.expiry == m.clock) ||
    m.sessions.toList.any fun x =>
      match x.pin with
      | some e => e.expiry == m.clock
      | none => false

/-- Make n owed advances of the clock, each only when nothing due at the current value remains. -/
def catchUpN : Nat → Main → Main
  | 0, m => { m with clockOwed := 0 }
  | n + 1, m =>
    if m.dueNow then { m with clockOwed := n + 1 }
    else catchUpN n { m with clock := (m.clock + 1) % Config.clockModulus }

/-- Make the deferred advances that nothing holds back any longer. -/
def Main.catchUp (m : Main) : Main := catchUpN m.clockOwed m

/-- Make an event's main-memory effects, and the clock advances they set free. -/
def applyMains (ws : List MainWrite) (m : Main) : Main :=
  (ws.foldl (fun m w => applyMain w m) m).catchUp

/-! The staged-change area (R173 to R175). -/

/-- Bring the change in the area to the end of its apply phase, with its main-memory effects. -/
def State.finishApply (s : State) : State :=
  match s.main.holder with
  | none => s
  | some h =>
    if h.phase = .clear then s
    else
      { s with
        ret := { applyRets s.ret.staged s.ret with completion := true }
        main := { applyMains h.mains s.main with holder := some { h with phase := .clear, mains := [] } } }

/-- A read while another event holds the area: before the mark is set it sees the state as it was,
after that it is taken after the apply phase (R175). -/
def State.settleForRead (s : State) : State :=
  match s.main.holder with
  | some h => if h.phase = .write then s else s.finishApply
  | none => s

/-! What the start-up check makes of retention memory (R178 to R180). -/

/-- The staged-change area is settled: with the completion mark set every recorded value is written,
with it clear the contents are discarded (R178). -/
def Retained.settle (r : Retained) : Retained :=
  { (if r.completion then applyRets r.staged r else r) with staged := [], completion := false }

/-- A CLOSING account is moved to DRAINED, any other is left as it is (R179). -/
def drainSlot : Option Account → Option Account
  | some a => some (if a.state = .closing then { a with state := .drained } else a)
  | none => none

/-- Every CLOSING account is moved to DRAINED (R179). -/
def Retained.drainAll (r : Retained) : Retained := { r with accounts := r.accounts.map drainSlot }

/-- What retention memory holds at the end of the start-up check, from wherever the check stands: the
area settled and every CLOSING account drained, or the cold values with the mark (R178 to R180). -/
def Retained.checked (r : Retained) : Check → Retained
  | .settle | .drains _ => r.settle.drainAll
  | .cold => Retained.cold
  | .coldMark => { r with mark := true }
  | .complete => r

/-- Retention memory as a link reads it, at the start of a frame or in a read-status period: with the area held, as any
read (log 4), and during the start-up check as the check leaves it, for the other blocks meet the check only through
that (8.4). That the links read so before the check has come that far is the model's reading (log 33). -/
def State.readRet (s : State) : Retained :=
  match s.check with
  | some c => s.ret.checked c
  | none => s.settleForRead.ret

/-- The rate a link reads for port p at a start bit, or at the beginning of an answer: the RATE of the
parameter set (R161, R175, R190; log 4, log 33). -/
def State.portRate (s : State) (p : Port) : Rate := s.readRet.params.rates.get p

/-- RATE IN USE of a station link's receiver: the rate kept for the frame being received, and in HUNT
the rate the link reads at the start bit of each character (R183, R190). A BREAK is measured in its bit
times (R188). -/
def State.rateInUse (s : State) (p : Port) : Rate := (s.link p).rxRate.getD (s.portRate p)

/-- One notch of progress of the event that holds the area: set the mark, write the next recorded
value, or, when all are written, make the main-memory effects. -/
def State.advanceHolder (s : State) (h : Holder) : State :=
  match h.phase with
  | .write =>
    { s with
      ret := { s.ret with completion := true }
      main := { s.main with holder := some { h with phase := .mark } } }
  | .mark => { s with main := { s.main with holder := some { h with phase := .apply 0 } } }
  | .apply n =>
    match s.ret.staged[n]? with
    | some w =>
      { s with
        ret := applyRet w s.ret
        main := { s.main with holder := some { h with phase := .apply (n + 1) } } }
    | none => s.finishApply
  | .clear => s

/-- The end of the clear phase: the mark is clear and the area is free (R174). -/
def State.clearArea (s : State) : State :=
  { s with
    ret := { s.ret with staged := [], completion := false }
    main := { s.main with holder := none } }

/-- Give the area to an event, which has written its change into it: the write phase (R174). -/
def State.holdArea (s : State) (e : AreaEvent) (writes : List RetWrite) (mains : List MainWrite)
    (reply : Option Reply) : State :=
  { s with
    ret := { s.ret with staged := writes, completion := false }
    main := { s.main with holder := some ⟨e, .write, mains, reply⟩ } }

/-- Make main-memory effects at once: an event with nothing to stage. -/
def State.doMains (s : State) (mains : List MainWrite) : State :=
  if mains.isEmpty then s else { s with main := applyMains mains s.main }

/-! Verdicts: what a request answers and changes. -/

/-- The outcome of a request's checks: its answer, the final values of the retained items it changes
(R173), its main-memory effects. -/
structure Verdict where
  answer : Answer
  writes : List RetWrite
  mains : List MainWrite
  deriving DecidableEq, Repr

/-- An answer that changes nothing. -/
def report (code : AnswerCode) (body : List Byte) : Verdict := ⟨⟨code, body⟩, [], []⟩

/-- A balance event: the balance and the float total move by the same amount. One of amount 0 changes
neither, so it stages neither (R56, R173; log 32). -/
def State.balanceEvent (s : State) (slot : Nat) (a : Account) (delta : Int) : List RetWrite :=
  if delta = 0 then []
  else [.balance slot (a.balance + delta), .floatTotal (s.ret.floatTotal + delta)]

/-- The account of a slot is CLOSING. -/
def State.isClosing (s : State) (slot : Nat) : Bool :=
  match s.account? slot with
  | some a => a.state == .closing
  | none => false

/-- The drain that the end of a hold causes: the account is CLOSING, the hold was its last and no
port pins it (R28, R93). -/
def State.holdEndDrain (s : State) (h : Hold) : List RetWrite :=
  if s.isClosing h.slot && (s.holdsOn h.slot).all (·.id == h.id) && (s.pinOn h.slot).isNone then
    [.acctState h.slot .drained]
  else []

/-- The drain that the end of a pin causes: the account is CLOSING with an empty hold list (R28,
R148). -/
def State.pinEndDrain (s : State) (slot : Nat) : List RetWrite :=
  if s.isClosing slot && (s.holdsOn slot).isEmpty then [.acctState slot .drained] else []

end Sys2Proof.Machine
end

