-- ==== Sys2Proof/Machine/Flags.lean ====
section
/-! DEFINITION. The flags and levels the manual derives from the state: validity, passes, day spend
today, the attention line. -/

namespace Sys2Proof.Machine

/-- Day spend today (R5). -/
def Account.spendToday (a : Account) (day : Nat) : Nat := if a.spendDay = day then a.daySpend else 0

/-- The account is out of validity on a business day (R6). -/
def Account.outOfValidity (a : Account) (day : Nat) : Bool :=
  match a.validityEnd with
  | some d => decide (d < day)
  | none => false

/-- PASS IN FORCE: a pass is present and its end day has not passed (R20). -/
def Account.passInForce (a : Account) (day : Nat) : Bool :=
  match a.pass with
  | some p => decide (day ≤ p.endDay)
  | none => false

/-- The pass covers a trip: both zones are in its set and its end day has not passed (R7). -/
def Account.passCovers (a : Account) (day entryZone exitZone : Nat) : Bool :=
  match a.pass with
  | some p => p.zones.getLsbD entryZone && p.zones.getLsbD exitZone && decide (day ≤ p.endDay)
  | none => false

/-- The causes of the attention line: a DRAINED account, or BACKUP LOST (R165). -/
def Retained.attnCause (r : Retained) : Bool := decide (0 < r.drainedCount) || r.backupLost

/-- ATTN_N is asserted: a cause stands, RESET_N is high, VDD is present and no start-up check is in
progress (R165). -/
def State.attn (s : State) : Bool := s.running && s.ret.attnCause

/-- The second byte of a read-status period: bit 0 attention, bit 1 BACKUP LOST (R193). R193 gives no value to bits 2 to 7:
the model has them clear (log 35). -/
def State.statusBits (s : State) : Byte :=
  (if s.attn then 1 else 0) + (if s.ret.backupLost then 2 else 0)

/-- The link state byte of a read-status period (R193). -/
def SupState.byte : SupState → Byte
  | .idle => 0
  | .requestPending => 1
  | .answerReady => 2

end Sys2Proof.Machine
end

