-- ==== Sys2Proof/Decode.lean ====
section
/-! DEFINITION. Reading requests from frames and writing them (R185, R195 to R199), and
decodeTableWord over the opcode table, whose rows give no bits. -/

namespace Sys2Proof

/-- The number that bytes carry, most significant byte first (R195). -/
def fromBytes (bs : List Byte) : Nat := bs.foldl (fun n b => n * 256 + b.toNat) 0

/-- The low k bytes of a number, most significant byte first. -/
def toBytes : Nat → Nat → List Byte
  | 0, _ => []
  | k + 1, v => toBytes k (v / 256) ++ [BitVec.ofNat 8 v]

/-- The n bytes of a body from the given offset, as one field. -/
def field (w : Nat) (body : List Byte) (offset n : Nat) : BitVec w :=
  BitVec.ofNat w (fromBytes ((body.drop offset).take n))

/-- A one-byte field. -/
def fieldByte (body : List Byte) (offset : Nat) : Byte := body.getD offset 0

/-! The frame check of R185. -/

/-- One bit of the frame check: combine the top bit with the data bit, shift, and combine with 1021H
when the combined bit was 1. -/
def crcBit (r : BitVec 16) (dataBit : Bool) : BitVec 16 :=
  if r.msb != dataBit then (r <<< 1) ^^^ 0x1021#16 else r <<< 1

/-- One byte of the frame check, its bits from the most significant to the least. -/
def crcByte (r : BitVec 16) (b : Byte) : BitVec 16 :=
  [7, 6, 5, 4, 3, 2, 1, 0].foldl (fun r i => crcBit r (b.getLsbD i)) r

/-- The frame check over the covered bytes, from a register of FFFFH. -/
def crc (covered : List Byte) : BitVec 16 := covered.foldl crcByte 0xFFFF#16

/-- The two check bytes, high byte first. -/
def crcBytes (covered : List Byte) : List Byte := toBytes 2 (crc covered).toNat

/-! Station requests (R199). -/

/-- The request code of R199. -/
def StationRequest.code : StationRequest → Byte
  | .select _ => 0x10
  | .balance => 0x11
  | .stationStatus => 0x12
  | .pin => 0x13
  | .unpin => 0x14
  | .fare .. => 0x20
  | .hold .. => 0x21
  | .capture .. => 0x22
  | .release _ => 0x23
  | .topUp .. => 0x24
  | .bad code _ => code

/-- The body of R199. -/
def StationRequest.body : StationRequest → List Byte
  | .select key => toBytes 5 key.toNat
  | .balance | .stationStatus | .pin | .unpin => []
  | .fare entryZone exitZone trial => [entryZone, exitZone, trial]
  | .hold amount lifetime trial => toBytes 3 amount.toNat ++ toBytes 2 lifetime.toNat ++ [trial]
  | .capture holdId amount trial => toBytes 2 holdId.toNat ++ toBytes 3 amount.toNat ++ [trial]
  | .release holdId => toBytes 2 holdId.toNat
  | .topUp amount trial => toBytes 3 amount.toNat ++ [trial]
  | .bad _ body => body

/-- The station request of a code and a body: the request of R199 whose code and body length they
are, and otherwise one that R127 answers BAD_REQUEST. -/
def StationRequest.parse (code : Byte) (body : List Byte) : StationRequest :=
  match code.toNat, body.length with
  | 0x10, 5 => .select (field 40 body 0 5)
  | 0x11, 0 => .balance
  | 0x12, 0 => .stationStatus
  | 0x13, 0 => .pin
  | 0x14, 0 => .unpin
  | 0x20, 3 => .fare (fieldByte body 0) (fieldByte body 1) (fieldByte body 2)
  | 0x21, 6 => .hold (field 24 body 0 3) (field 16 body 3 2) (fieldByte body 5)
  | 0x22, 6 => .capture (field 16 body 0 2) (field 24 body 2 3) (fieldByte body 5)
  | 0x23, 2 => .release (field 16 body 0 2)
  | 0x24, 4 => .topUp (field 24 body 0 3) (fieldByte body 3)
  | _, _ => .bad code body

/-- The bytes of a station request frame: start byte, LENGTH, SEQUENCE, CODE, body, CRC (R195). -/
def stationFrameBytes (seq code : Byte) (body : List Byte) : List Byte :=
  let covered := BitVec.ofNat 8 (body.length + 2) :: seq :: code :: body
  0xA5 :: covered ++ crcBytes covered

/-- The bytes of a station request's frame. -/
def StationFrame.bytes (f : StationFrame) : List Byte :=
  stationFrameBytes f.seq f.req.code f.req.body

/-! Supervisor requests (R199). -/

/-- The request code of R199. -/
def SupervisorRequest.code : SupervisorRequest → Byte
  | .openAccount .. => 0x40
  | .readAccount _ => 0x41
  | .setTerms .. => 0x42
  | .suspend _ => 0x43
  | .resume _ => 0x44
  | .retire _ => 0x45
  | .confirmRetire _ => 0x46
  | .dayRoll => 0x47
  | .enumerate .. => 0x48
  | .credit .. => 0x50
  | .debit .. => 0x51
  | .clearUnclaimed => 0x52
  | .cancelHold _ => 0x53
  | .tariffBegin => 0x60
  | .tariffRow .. => 0x61
  | .tariffCap .. => 0x62
  | .tariffCommit => 0x63
  | .readTariffRow .. => 0x64
  | .status => 0x70
  | .setParameters .. => 0x71
  | .readParameters => 0x72
  | .clearBackupFlag => 0x73
  | .wipe => 0x7F
  | .bad code _ => code

/-- The four bytes of one port's items in SET PARAMETERS (R199). -/
def PortChange.bytes (c : PortChange) : List Byte := [c.rightsChange, c.rights, c.rateChange, c.rate]

/-- The body of R199. -/
def SupervisorRequest.body : SupervisorRequest → List Byte
  | .openAccount key cls sign initial floor vePresent ve passPresent zones passEnd =>
    toBytes 5 key.toNat ++ [cls, sign] ++ toBytes 4 initial.toNat ++ toBytes 3 floor.toNat
      ++ [vePresent] ++ toBytes 2 ve.toNat ++ [passPresent] ++ toBytes 2 zones.toNat
      ++ toBytes 2 passEnd.toNat
  | .readAccount key | .suspend key | .resume key | .retire key | .confirmRetire key =>
    toBytes 5 key.toNat
  | .setTerms key clsChange cls floorChange floor veChange ve passChange zones passEnd =>
    toBytes 5 key.toNat ++ [clsChange, cls, floorChange] ++ toBytes 3 floor.toNat ++ [veChange]
      ++ toBytes 2 ve.toNat ++ [passChange] ++ toBytes 2 zones.toNat ++ toBytes 2 passEnd.toNat
  | .enumerate startSlot filter => toBytes 2 startSlot.toNat ++ [filter]
  | .credit key amount | .debit key amount => toBytes 5 key.toNat ++ toBytes 4 amount.toNat
  | .cancelHold holdId => toBytes 2 holdId.toNat
  | .tariffRow cls entryZone fares => [cls, entryZone] ++ fares.flatMap (fun v => toBytes 2 v.toNat)
  | .tariffCap cls change cap => [cls, change] ++ toBytes 3 cap.toNat
  | .readTariffRow which cls entryZone => [which, cls, entryZone]
  | .setParameters hlChange holdLimit ptChange pinTime ports =>
    [hlChange] ++ toBytes 2 holdLimit.toNat ++ [ptChange, pinTime]
      ++ ports.v0.bytes ++ ports.v1.bytes ++ ports.v2.bytes ++ ports.v3.bytes
  | .dayRoll | .clearUnclaimed | .tariffBegin | .tariffCommit | .status | .readParameters
  | .clearBackupFlag | .wipe => []
  | .bad _ body => body

/-- One port's items read from a SET PARAMETERS body. -/
def portChangeAt (body : List Byte) (offset : Nat) : PortChange :=
  ⟨fieldByte body offset, fieldByte body (offset + 1), fieldByte body (offset + 2),
    fieldByte body (offset + 3)⟩

/-- The 16 fares of a TARIFF ROW body, for exit zones 0 to 15. -/
def faresOf (body : List Byte) : List (BitVec 16) :=
  (List.range 16).map (fun i => field 16 body (2 + 2 * i) 2)

/-- The supervisor request of a code and a body: the request of R199 whose code and body length they
are, and otherwise one that R154 answers BAD_REQUEST. -/
def SupervisorRequest.parse (code : Byte) (body : List Byte) : SupervisorRequest :=
  match code.toNat, body.length with
  | 0x40, 22 => .openAccount (field 40 body 0 5) (fieldByte body 5) (fieldByte body 6)
      (field 32 body 7 4) (field 24 body 11 3) (fieldByte body 14) (field 16 body 15 2)
      (fieldByte body 17) (field 16 body 18 2) (field 16 body 20 2)
  | 0x41, 5 => .readAccount (field 40 body 0 5)
  | 0x42, 19 => .setTerms (field 40 body 0 5) (fieldByte body 5) (fieldByte body 6)
      (fieldByte body 7) (field 24 body 8 3) (fieldByte body 11) (field 16 body 12 2)
      (fieldByte body 14) (field 16 body 15 2) (field 16 body 17 2)
  | 0x43, 5 => .suspend (field 40 body 0 5)
  | 0x44, 5 => .resume (field 40 body 0 5)
  | 0x45, 5 => .retire (field 40 body 0 5)
  | 0x46, 5 => .confirmRetire (field 40 body 0 5)
  | 0x47, 0 => .dayRoll
  | 0x48, 3 => .enumerate (field 16 body 0 2) (fieldByte body 2)
  | 0x50, 9 => .credit (field 40 body 0 5) (field 32 body 5 4)
  | 0x51, 9 => .debit (field 40 body 0 5) (field 32 body 5 4)
  | 0x52, 0 => .clearUnclaimed
  | 0x53, 2 => .cancelHold (field 16 body 0 2)
  | 0x60, 0 => .tariffBegin
  | 0x61, 34 => .tariffRow (fieldByte body 0) (fieldByte body 1) (faresOf body)
  | 0x62, 5 => .tariffCap (fieldByte body 0) (fieldByte body 1) (field 24 body 2 3)
  | 0x63, 0 => .tariffCommit
  | 0x64, 3 => .readTariffRow (fieldByte body 0) (fieldByte body 1) (fieldByte body 2)
  | 0x70, 0 => .status
  | 0x71, 21 => .setParameters (fieldByte body 0) (field 16 body 1 2) (fieldByte body 3)
      (fieldByte body 4) ⟨portChangeAt body 5, portChangeAt body 9, portChangeAt body 13,
        portChangeAt body 17⟩
  | 0x72, 0 => .readParameters
  | 0x73, 0 => .clearBackupFlag
  | 0x7F, 0 => .wipe
  | _, _ => .bad code body

/-- The bytes of a supervisor request frame: LENGTH, CODE, body, CRC (R196). -/
def supervisorFrameBytes (code : Byte) (body : List Byte) : List Byte :=
  let covered := BitVec.ofNat 8 (body.length + 1) :: code :: body
  covered ++ crcBytes covered

/-- The bytes of a supervisor request's frame. -/
def SupervisorRequest.bytes (r : SupervisorRequest) : List Byte :=
  supervisorFrameBytes r.code r.body

/-- The command a word of the opcode table spells: none, for no row of the table gives bits. -/
def decodeTableWord (_nbits _w : Nat) : Option Instr := none

end Sys2Proof
end

