-- ==== Sys2Proof/Machine/Operands.lean ====
section
/-! DEFINITION. The fields of requests and answers: decimal digits, ranges, enumerations, and the
bytes of answer bodies and answer frames (R51 to R53, R195 to R200). -/

namespace Sys2Proof.Machine

/-! Packed decimal (R51). -/

/-- Every half-byte of an n-digit packed field is a decimal digit. -/
def digitsOk : Nat → Nat → Bool
  | 0, _ => true
  | n + 1, v => decide (v % 16 ≤ 9) && digitsOk n (v / 16)

/-- The number an n-digit packed field denotes. -/
def decVal : Nat → Nat → Nat
  | 0, _ => 0
  | n + 1, v => v % 16 + 10 * decVal n (v / 16)

/-- The n-digit packed field of a number. -/
def packDec : Nat → Nat → Nat
  | 0, _ => 0
  | n + 1, v => v % 10 + 16 * packDec n (v / 10)

/-- The digits of a ten-digit key field are decimal. -/
def keyDigits (k : BitVec 40) : Bool := digitsOk 10 k.toNat
/-- The digits of an eight-digit amount field are decimal. -/
def amount8Digits (k : BitVec 32) : Bool := digitsOk 8 k.toNat
/-- The digits of a six-digit amount field are decimal. -/
def amount6Digits (k : BitVec 24) : Bool := digitsOk 6 k.toNat
/-- The digits of a four-digit fare entry are decimal. -/
def fareDigits (k : BitVec 16) : Bool := digitsOk 4 k.toNat

/-- The number a key field denotes. -/
def keyOf (k : BitVec 40) : Nat := decVal 10 k.toNat
/-- The number an eight-digit amount field denotes. -/
def amount8 (k : BitVec 32) : Nat := decVal 8 k.toNat
/-- The number a six-digit amount field denotes. -/
def amount6 (k : BitVec 24) : Nat := decVal 6 k.toNat
/-- The number a four-digit fare entry denotes. -/
def fareOf (k : BitVec 16) : Nat := decVal 4 k.toNat

/-! Range checks shared by several requests (R53, R62, R197, R198). -/

/-- A TRIAL, flag or presence byte is 00H or 01H. -/
def isFlag (b : Byte) : Bool := b == 0 || b == 1
/-- A day number is from 1 to 65535. -/
def dayOk (d : BitVec 16) : Bool := d != 0
/-- A class is from 0 to 7. -/
def classOk (c : Byte) : Bool := decide (c.toNat ≤ 7)
/-- A zone is from 0 to 15. -/
def zoneOk (z : Byte) : Bool := decide (z.toNat ≤ 15)
/-- A change indication is KEEP or SET. -/
def keepSet (c : Byte) : Bool := c == 0 || c == 1
/-- A change indication is KEEP, SET or REMOVE. -/
def keepSetRemove (c : Byte) : Bool := c == 0 || c == 1 || c == 2

/-- The rights a RIGHTS byte names: bit 0 FARE, bit 1 HOLD, bit 2 TOPUP (R198). -/
def Rights.ofByte (b : Byte) : Rights := ⟨b.getLsbD 0, b.getLsbD 1, b.getLsbD 2⟩

/-- The RIGHTS byte of a set of rights (R198). -/
def Rights.byte (r : Rights) : Byte :=
  (if r.fare then 1 else 0) + (if r.hold then 2 else 0) + (if r.topUp then 4 else 0)

/-- The rate a rate code names (R157). -/
def Rate.ofCode (b : Byte) : Rate :=
  match b.toNat with
  | 0 => .r9600 | 1 => .r19200 | 2 => .r38400 | 3 => .r57600 | _ => .r115200

/-- The rate code of a rate (R157). -/
def Rate.code : Rate → Byte
  | .r9600 => 0 | .r19200 => 1 | .r38400 => 2 | .r57600 => 3 | .r115200 => 4

/-! The fields of answer bodies (R197). -/

/-- A decimal field of k bytes. -/
def dec (k v : Nat) : List Byte := toBytes k (packDec (2 * k) v)
/-- A sign byte and a decimal field of k bytes; zero has sign byte 00H (R52). -/
def signed (k : Nat) (v : Int) : List Byte := (if v < 0 then 1 else 0) :: dec k v.natAbs
/-- A key. -/
def keyB (v : Nat) : List Byte := dec 5 v
/-- A balance. -/
def balanceB (v : Int) : List Byte := signed 4 v
/-- An available. -/
def availableB (v : Int) : List Byte := signed 5 v
/-- A binary field of two bytes. -/
def word (v : Nat) : List Byte := toBytes 2 v
/-- A binary field of one byte. -/
def byte1 (v : Nat) : List Byte := [BitVec.ofNat 8 v]
/-- A flag. -/
def flag (b : Bool) : List Byte := [if b then 1 else 0]
/-- An optional field whose value takes n bytes (R197). -/
def optionalB (n : Nat) : Option (List Byte) → List Byte
  | none => List.replicate (n + 1) 0
  | some v => 1 :: v
/-- A list: a count byte and the entries (R197). -/
def listB (entries : List (List Byte)) : List Byte := byte1 entries.length ++ entries.flatten

/-- Account STATE (R198). An absent STATE, as in a CREDIT refused UNKNOWN_KEY, is the zero of a refusal (R66; log 25). -/
def stateB : Option AcctState → List Byte
  | none => [0]
  | some .opened => [1]
  | some .suspended => [2]
  | some .closing => [3]
  | some .drained => [4]

/-- A bank, or NONE (R198). -/
def bankB : Option BankId → List Byte
  | none => [0]
  | some .bankA => [1]
  | some .bankB => [2]

/-- A REASON of an ended-hold memory (R198). -/
def reasonB : EndReason → List Byte
  | .lapsed => [1]
  | .cancelled => [2]

/-- A cursor state (R198). -/
def cursorB : Cursor → List Byte
  | .none => [0]
  | .sel _ _ => [1]
  | .gone => [2]

/-- A day, when present. -/
def dayB (d : Option Nat) : List Byte := optionalB 2 (d.map word)
/-- A pass, when present: zone set and pass end day. -/
def passB (p : Option Pass) : List Byte :=
  optionalB 4 (p.map fun p => word p.zones.toNat ++ word p.endDay)

/-- The values of R200. -/
def AnswerCode.byte : AnswerCode → Byte
  | .ok => 0x00 | .badFrame => 0x01 | .badRequest => 0x02 | .seqClash => 0x03
  | .noRight => 0x04 | .badDigit => 0x05 | .range => 0x06
  | .noSelection => 0x10 | .stale => 0x11 | .unknownKey => 0x12 | .duplicateKey => 0x13
  | .tableFull => 0x14 | .wrongState => 0x15 | .expired => 0x16 | .pinned => 0x17
  | .noFunds => 0x20 | .overflow => 0x21 | .holdLimit => 0x22 | .portQuota => 0x23
  | .poolFull => 0x24 | .noHold => 0x25 | .lapsed => 0x26 | .cancelled => 0x27
  | .notOwner => 0x28 | .overHold => 0x29
  | .noTariff => 0x30 | .noRoute => 0x31 | .incomplete => 0x32 | .inDebt => 0x33
  | .totalFull => 0x34

/-- The FLAGS byte of a station answer (R195). -/
def StationAnswer.flags (a : StationAnswer) : Byte :=
  (if a.fresh then 1 else 0) + (if a.overrun then 2 else 0) + (if a.replay then 4 else 0)
    + (if a.trial then 8 else 0)

/-- The bytes of a station answer frame, as TXDp sends them (R195). -/
def StationAnswer.bytes (a : StationAnswer) : List Byte :=
  let covered := BitVec.ofNat 8 (a.answer.body.length + 4) :: a.seq :: a.code
    :: a.answer.code.byte :: a.flags :: a.answer.body
  0x5A :: covered ++ crcBytes covered

/-- The bytes of a supervisor answer frame, as MISO carries them (R196). -/
def SupAnswer.bytes (a : SupAnswer) : List Byte :=
  let covered := BitVec.ofNat 8 (a.answer.body.length + 2) :: a.code :: a.answer.code.byte
    :: a.answer.body
  covered ++ crcBytes covered

end Sys2Proof.Machine
end

