-- ==== Sys2Proof/Machine/Sessions.lean ====
section
/-! DEFINITION. The session unit's own requests: SELECT, BALANCE, STATION STATUS, PIN, UNPIN
(06_station_sessions), and the cursor and pin checks every cursor request shares. -/

namespace Sys2Proof.Machine

/-- The first own check of a request that needs the cursor: NO_SELECTION, STALE, or the slot, key and
account of a SET cursor (R137). A SET cursor names a live slot, so the last case of a FREE slot does
not arise (log 19). -/
def State.cursorAccount (s : State) (p : Port) : Except AnswerCode (Nat × Nat × Account) :=
  match (s.session p).cursor with
  | .none => .error .noSelection
  | .gone => .error .stale
  | .sel slot key =>
    match s.account? slot with
    | some a => .ok (slot, key, a)
    | none => .error .stale

/-- Steps 2 to 4 of FARE, HOLD and TOP-UP: PINNED, WRONG_STATE, EXPIRED (R115, R81, R64). -/
def State.spendRefusal (s : State) (p : Port) (slot : Nat) (a : Account) : Option AnswerCode :=
  if (s.pinnedByOther p slot).isSome then some .pinned
  else if a.state != .opened then some .wrongState
  else if a.outOfValidity s.ret.day then some .expired
  else none

/-! SELECT (R138). -/

/-- The output fields of SELECT. -/
def selectBody (key : Nat) (st : Option AcctState) (balance available : Int) (out : Bool)
    (holder : Option Port) : List Byte :=
  keyB key ++ stateB st ++ balanceB balance ++ availableB available ++ flag out
    ++ optionalB 1 (holder.map fun q => byte1 q.toNat)

/-- Every output of SELECT zero. -/
def selectZero : List Byte := selectBody 0 none 0 0 false none

/-- SELECT after the acceptance ladder (R138). -/
def judgeSelect (p : Port) (key : Nat) (s : State) : Verdict :=
  match s.lookup key with
  | none => ⟨⟨.unknownKey, selectZero⟩, [], [.cursor p .none]⟩
  | some slot =>
    match s.account? slot with
    | none => ⟨⟨.unknownKey, selectZero⟩, [], [.cursor p .none]⟩
    | some a =>
      ⟨⟨.ok, selectBody key (some a.state) a.balance (s.available slot a)
          (a.outOfValidity s.ret.day) ((s.pinOn slot).map (·.1))⟩,
        [], [.cursor p (.sel slot key)]⟩

/-! BALANCE (R139). -/

/-- An entry of MY HOLDS. -/
def myHoldB (s : State) (h : Hold) : List Byte :=
  word h.id ++ dec 3 h.amount ++ word (s.secondsLeft h.expiry)

/-- The PIN output: holder port and seconds left. -/
def pinB (s : State) (pin : Option (Port × PinEntry)) : List Byte :=
  optionalB 3 (pin.map fun (q, e) => byte1 q.toNat ++ word (s.secondsLeft e.expiry))

/-- BALANCE with every output zero. -/
def balanceZero : List Byte :=
  keyB 0 ++ stateB none ++ balanceB 0 ++ dec 4 0 ++ availableB 0 ++ dec 3 0 ++ flag false
    ++ flag false ++ listB [] ++ byte1 0 ++ optionalB 3 none

/-- BALANCE after the acceptance ladder (R139). -/
def judgeBalance (p : Port) (s : State) : Verdict :=
  match s.cursorAccount p with
  | .error c => report c balanceZero
  | .ok (slot, key, a) =>
    let holds := s.holdsOn slot
    report .ok
      (keyB key ++ stateB (some a.state) ++ balanceB a.balance ++ dec 4 (s.held slot)
        ++ availableB (s.available slot a) ++ dec 3 (a.spendToday s.ret.day)
        ++ flag (a.outOfValidity s.ret.day) ++ flag (a.passInForce s.ret.day)
        ++ listB ((holds.filter (·.owner == p)).map (myHoldB s))
        ++ byte1 (holds.countP (·.owner != p))
        ++ pinB s (s.pinOn slot))

/-! STATION STATUS (R140). -/

/-- The key of the account a slot holds, zero for a FREE slot. -/
def State.keyAt (s : State) (slot : Nat) : Nat :=
  match s.account? slot with
  | some a => a.key
  | none => 0

/-- STATION STATUS after the acceptance ladder (R140). -/
def judgeStationStatus (p : Port) (s : State) : Verdict :=
  let x := s.session p
  let selected : Option (List Byte) :=
    match x.cursor with
    | .sel _ key => some (keyB key)
    | _ => none
  report .ok
    (byte1 p.toNat ++ cursorB x.cursor ++ optionalB 5 selected
      ++ [(s.ret.params.rights.get p).byte]
      ++ optionalB 7 (x.pin.map fun e => keyB (s.keyAt e.slot) ++ word (s.secondsLeft e.expiry))
      ++ byte1 (s.portHolds p)
      ++ listB ((s.main.ended.get p).map fun e => word e.id ++ reasonB e.reason)
      ++ listB ((s.ret.caches.get p).map fun e => [e.seq, e.code])
      ++ word s.ret.params.holdLimit ++ byte1 s.ret.params.pinTime ++ word s.ret.day
      ++ word s.ret.activeGen)

/-! PIN (R142, R143). -/

/-- The output fields of PIN. OUTCOME: 0 refusal, 1 NEW, 2 REARMED, 3 MOVED (R198). -/
def pinBody (key outcome seconds : Nat) (previous : Option Nat) (holder : Option Port) : List Byte :=
  keyB key ++ byte1 outcome ++ word seconds ++ optionalB 5 (previous.map keyB)
    ++ optionalB 1 (holder.map fun q => byte1 q.toNat)

/-- PIN after the acceptance ladder: NEW, REARMED or MOVED, a MOVED pin's old account draining when it
is CLOSING with an empty hold list (R142, R143). -/
def judgePin (p : Port) (s : State) : Verdict :=
  match s.cursorAccount p with
  | .error c => report c (pinBody 0 0 0 none none)
  | .ok (slot, key, a) =>
    match s.pinnedByOther p slot with
    | some q => report .pinned (pinBody key 0 0 none (some q))
    | none =>
      if a.state == .closing || a.state == .drained then
        report .wrongState (pinBody key 0 0 none none)
      else
        let seconds := s.ret.params.pinTime
        let set := MainWrite.pin p (some ⟨slot, s.expiryAfter seconds⟩)
        match (s.session p).pin with
        | none => ⟨⟨.ok, pinBody key 1 seconds none none⟩, [], [set]⟩
        | some e =>
          if e.slot = slot then ⟨⟨.ok, pinBody key 2 seconds none none⟩, [], [set]⟩
          else
            ⟨⟨.ok, pinBody key 3 seconds (some (s.keyAt e.slot)) none⟩, s.pinEndDrain e.slot, [set]⟩

/-! UNPIN (R144). -/

/-- UNPIN after the acceptance ladder. OUTCOME: 1 RELEASED, 2 NO PIN (R144, R198). -/
def judgeUnpin (p : Port) (s : State) : Verdict :=
  match (s.session p).pin with
  | none => report .ok (byte1 2 ++ keyB 0)
  | some e => ⟨⟨.ok, byte1 1 ++ keyB (s.keyAt e.slot)⟩, s.pinEndDrain e.slot, [.pin p none]⟩

/-- The end of a port's pin by expiry or session reset: the entry goes, and a CLOSING account with an
empty hold list drains (R145, R148, R149). -/
def pinEndVerdict (p : Port) (e : PinEntry) (s : State) : List RetWrite × List MainWrite :=
  (s.pinEndDrain e.slot, [.pin p none])

end Sys2Proof.Machine
end

