-- ==== Sys2Proof/Machine/Accounts.lean ====
section
/-! DEFINITION. The account table's supervisor requests and ENUMERATE (01_accounts,
02_key_directory). -/

namespace Sys2Proof.Machine

/-- The field checks of a request whose only field is a key (R51, R53). -/
def keyRefusal (key : BitVec 40) : Option AnswerCode :=
  if !keyDigits key then some .badDigit
  else if keyOf key = 0 then some .range
  else none

/-- The key lookup of a request that names an account by key: its slot and account, or UNKNOWN_KEY
(R16). A slot on a chain is live (R35), so the case of a FREE slot does not arise (log 19). -/
def State.byKey (s : State) (key : Nat) : Option (Nat × Account) :=
  match s.lookup key with
  | none => none
  | some slot =>
    match s.account? slot with
    | some a => some (slot, a)
    | none => none

/-- The field checks and the key lookup (R16). -/
def State.named (s : State) (key : BitVec 40) : Except AnswerCode (Nat × Account) :=
  match keyRefusal key with
  | some c => .error c
  | none =>
    match s.byKey (keyOf key) with
    | none => .error .unknownKey
    | some x => .ok x

/-! OPEN ACCOUNT (R18, R19). -/

/-- The output fields of OPEN ACCOUNT (R18). -/
def openBody (slot day : Nat) : List Byte := word slot ++ word day

/-- The fields of OPEN ACCOUNT, digits and sign byte first, then ranges (R18, R52, R53, R197). -/
def openRefusal (key : BitVec 40) (cls sign : Byte) (initial : BitVec 32) (floor : BitVec 24)
    (vePresent : Byte) (ve : BitVec 16) (passPresent : Byte) (passEnd : BitVec 16) :
    Option AnswerCode :=
  if !(keyDigits key && isFlag sign && amount8Digits initial && amount6Digits floor) then
    some .badDigit
  else if keyOf key = 0 || !classOk cls || (sign == 1 && amount8 initial != 0)
      || !isFlag vePresent || (vePresent == 1 && !dayOk ve)
      || !isFlag passPresent || (passPresent == 1 && !dayOk passEnd) then
    some .range
  else none

/-- The record a new account starts with (R19). -/
def newAccount (key : BitVec 40) (cls : Byte) (initial : BitVec 32) (floor : BitVec 24)
    (vePresent : Byte) (ve : BitVec 16) (passPresent : Byte) (zones passEnd : BitVec 16)
    (day : Nat) : Account where
  key := keyOf key
  state := .opened
  cls := cls.toNat
  balance := amount8 initial
  floor := amount6 floor
  daySpend := 0
  spendDay := day
  validityEnd := if vePresent == 1 then some ve.toNat else none
  pass := if passPresent == 1 then some ⟨zones, passEnd.toNat⟩ else none

/-- OPEN ACCOUNT (R18, R19, R37). -/
def judgeOpenAccount (key : BitVec 40) (cls sign : Byte) (initial : BitVec 32) (floor : BitVec 24)
    (vePresent : Byte) (ve : BitVec 16) (passPresent : Byte) (zones passEnd : BitVec 16)
    (s : State) : Verdict :=
  match openRefusal key cls sign initial floor vePresent ve passPresent passEnd with
  | some c => report c (openBody 0 s.ret.day)
  | none =>
    if (s.lookup (keyOf key)).isSome then report .duplicateKey (openBody 0 s.ret.day)
    else
      match s.ret.free with
      | [] => report .tableFull (openBody 0 s.ret.day)
      | slot :: rest =>
        let a := newAccount key cls initial floor vePresent ve passPresent zones passEnd s.ret.day
        let bucket := bucketOf (keyOf key)
        ⟨⟨.ok, openBody slot s.ret.day⟩,
          [.freeList rest, .chain bucket (s.chain bucket ++ [slot]), .record slot a,
            .floatTotal (s.ret.floatTotal + a.balance)], []⟩

/-! READ ACCOUNT (R20). -/

/-- An entry of HOLDS. -/
def holdB (s : State) (h : Hold) : List Byte :=
  word h.id ++ byte1 h.owner.toNat ++ dec 3 h.amount ++ word (s.secondsLeft h.expiry)

/-- READ ACCOUNT with every output zero and every optional field absent. -/
def readZero : List Byte :=
  word 0 ++ stateB none ++ byte1 0 ++ balanceB 0 ++ dec 3 0 ++ dec 4 0 ++ availableB 0 ++ dec 3 0
    ++ word 0 ++ dayB none ++ flag false ++ passB none ++ flag false ++ listB []
    ++ optionalB 3 none

/-- READ ACCOUNT (R20). -/
def judgeReadAccount (key : BitVec 40) (s : State) : Verdict :=
  match s.named key with
  | .error c => report c readZero
  | .ok (slot, a) =>
    report .ok
      (word slot ++ stateB (some a.state) ++ byte1 a.cls ++ balanceB a.balance ++ dec 3 a.floor
        ++ dec 4 (s.held slot) ++ availableB (s.available slot a)
        ++ dec 3 (a.spendToday s.ret.day) ++ word a.spendDay
        ++ dayB a.validityEnd ++ flag (a.outOfValidity s.ret.day)
        ++ passB a.pass ++ flag (a.passInForce s.ret.day)
        ++ listB ((s.holdsOn slot).map (holdB s)) ++ pinB s (s.pinOn slot))

/-! SET TERMS (R21, R22). -/

/-- The output fields of SET TERMS (R21). -/
def termsBody (cls floor : Nat) (ve : Option Nat) (pass : Option Pass) (available : Int) :
    List Byte :=
  byte1 cls ++ dec 3 floor ++ dayB ve ++ passB pass ++ availableB available

/-- The terms of an account as they stand, with its available. -/
def termsOf (s : State) (slot : Nat) (a : Account) : List Byte :=
  termsBody a.cls a.floor a.validityEnd a.pass (s.available slot a)

/-- The terms that a SET TERMS refused before its own checks answers: those of the live account its KEY
names, and zero when KEY names none (R21, R154): the model's reading (log 25). -/
def State.standingTerms (s : State) (key : BitVec 40) : List Byte :=
  match s.named key with
  | .ok (slot, a) => termsOf s slot a
  | .error _ => termsBody 0 0 none none 0

/-- The field checks of SET TERMS: a value that comes with KEEP or REMOVE is checked too (R21). -/
def termsRefusal (key : BitVec 40) (clsChange cls floorChange : Byte) (floor : BitVec 24)
    (veChange : Byte) (ve : BitVec 16) (passChange : Byte) (passEnd : BitVec 16) :
    Option AnswerCode :=
  if !(keyDigits key && amount6Digits floor) then some .badDigit
  else if keyOf key = 0 || !keepSet clsChange || !classOk cls || !keepSet floorChange
      || !keepSetRemove veChange || !dayOk ve || !keepSetRemove passChange || !dayOk passEnd then
    some .range
  else none

/-- The account with the changes of a SET TERMS that passed its checks (R22). -/
def Account.withTerms (a : Account) (clsChange cls floorChange : Byte) (floor : BitVec 24)
    (veChange : Byte) (ve : BitVec 16) (passChange : Byte) (zones passEnd : BitVec 16) : Account :=
  { a with
    cls := if clsChange == 1 then cls.toNat else a.cls
    floor := if floorChange == 1 then amount6 floor else a.floor
    validityEnd :=
      if veChange == 1 then some ve.toNat else if veChange == 2 then none else a.validityEnd
    pass :=
      if passChange == 1 then some ⟨zones, passEnd.toNat⟩
      else if passChange == 2 then none else a.pass }

/-- SET TERMS (R21, R22). -/
def judgeSetTerms (key : BitVec 40) (clsChange cls floorChange : Byte) (floor : BitVec 24)
    (veChange : Byte) (ve : BitVec 16) (passChange : Byte) (zones passEnd : BitVec 16)
    (s : State) : Verdict :=
  match termsRefusal key clsChange cls floorChange floor veChange ve passChange passEnd with
  | some c => report c (s.standingTerms key)
  | none =>
    match s.byKey (keyOf key) with
    | none => report .unknownKey (termsBody 0 0 none none 0)
    | some (slot, a) =>
      if a.state == .closing || a.state == .drained then report .wrongState (termsOf s slot a)
      else
        let t := a.withTerms clsChange cls floorChange floor veChange ve passChange zones passEnd
        if t.floor < a.floor ∧ s.available slot t < 0 then report .noFunds (termsOf s slot a)
        else
          ⟨⟨.ok, termsOf s slot t⟩,
            (if clsChange == 1 then [.acctClass slot t.cls] else [])
              ++ (if floorChange == 1 then [.floor slot t.floor] else [])
              ++ (if veChange != 0 then [.validityEnd slot t.validityEnd] else [])
              ++ (if passChange != 0 then [.pass slot t.pass] else []), []⟩

/-! SUSPEND, RESUME (R23, R24). -/

/-- A request that moves an account from one state to another and answers its STATE. -/
def judgeMove (key : BitVec 40) (source target : AcctState) (s : State) : Verdict :=
  match s.named key with
  | .error c => report c (stateB none)
  | .ok (slot, a) =>
    if a.state = source then
      ⟨⟨.ok, stateB (some target)⟩, [.acctState slot target], []⟩
    else report .wrongState (stateB (some a.state))

/-- SUSPEND (R23). -/
def judgeSuspend (key : BitVec 40) (s : State) : Verdict := judgeMove key .opened .suspended s

/-- RESUME (R24). -/
def judgeResume (key : BitVec 40) (s : State) : Verdict := judgeMove key .suspended .opened s

/-! RETIRE, CONFIRM RETIRE (R25, R26, R29). -/

/-- What the retirement move stages: the balance moves to the unclaimed total, the slot leaves its
chain and joins the tail of the free list (R26, R38). -/
def State.retirementWrites (s : State) (slot : Nat) (a : Account) : List RetWrite :=
  let bucket := bucketOf a.key
  [.unclaimed (s.ret.unclaimed + a.balance.toNat), .floatTotal (s.ret.floatTotal - a.balance),
    .balance slot 0, .chain bucket ((s.chain bucket).erase slot),
    .freeList (s.ret.free ++ [slot]), .freeSlot slot]

/-- The unclaimed total has no room for a balance (R60). -/
def State.noRoom (s : State) (a : Account) : Bool :=
  decide (Config.maxTotal < s.ret.unclaimed + a.balance.toNat)

/-- The output fields of RETIRE. OUTCOME: 0 absent, 1 RETIRED, 2 CLOSING, 3 DRAINED (R25, R198). -/
def retireBody (outcome moved : Nat) (balance : Int) (holds : Nat) (pin : Option Port) :
    List Byte :=
  byte1 outcome ++ dec 4 moved ++ balanceB balance ++ byte1 holds
    ++ optionalB 1 (pin.map fun q => byte1 q.toNat)

/-- RETIRE (R25). -/
def judgeRetire (key : BitVec 40) (s : State) : Verdict :=
  match s.named key with
  | .error c => report c (retireBody 0 0 0 0 none)
  | .ok (slot, a) =>
    let holds := (s.holdsOn slot).length
    let pin := (s.pinOn slot).map (·.1)
    let body := fun outcome moved => retireBody outcome moved a.balance holds pin
    if a.state = .closing then report .ok (body 2 0)
    else if a.state = .drained then report .ok (body 3 0)
    else if a.balance < 0 then report .inDebt (body 0 0)
    else if 0 < holds || pin.isSome then
      ⟨⟨.ok, body 2 0⟩, [.acctState slot .closing], []⟩
    else if s.noRoom a then report .totalFull (body 0 0)
    else ⟨⟨.ok, body 1 a.balance.toNat⟩, s.retirementWrites slot a, [.slotGone slot]⟩

/-- The output fields of CONFIRM RETIRE (R29). -/
def confirmBody (moved : Nat) (balance : Int) : List Byte := dec 4 moved ++ balanceB balance

/-- CONFIRM RETIRE (R29). -/
def judgeConfirmRetire (key : BitVec 40) (s : State) : Verdict :=
  match s.named key with
  | .error c => report c (confirmBody 0 0)
  | .ok (slot, a) =>
    if a.state ≠ .drained then report .wrongState (confirmBody 0 a.balance)
    else if a.balance < 0 then report .inDebt (confirmBody 0 a.balance)
    else if s.noRoom a then report .totalFull (confirmBody 0 a.balance)
    else
      ⟨⟨.ok, confirmBody a.balance.toNat a.balance⟩, s.retirementWrites slot a, [.slotGone slot]⟩

/-! DAY ROLL (R14). -/

/-- DAY ROLL (R14). -/
def judgeDayRoll (s : State) : Verdict :=
  if s.ret.day = Config.maxWord then report .range (word s.ret.day)
  else ⟨⟨.ok, word (s.ret.day + 1)⟩, [.businessDay (s.ret.day + 1)], []⟩

/-! ENUMERATE (R43 to R45). -/

/-- A FILTER byte names an account state (R198). -/
def filterHas (filter : Byte) : AcctState → Bool
  | .opened => filter.getLsbD 0
  | .suspended => filter.getLsbD 1
  | .closing => filter.getLsbD 2
  | .drained => filter.getLsbD 3

/-- An entry of ENTRIES (R43). -/
def entryB (s : State) (slot : Nat) (a : Account) : List Byte :=
  word slot ++ keyB a.key ++ stateB (some a.state) ++ balanceB a.balance
    ++ byte1 (s.holdsOn slot).length

/-- The scan of R44 over the slots from `slot` on, with room for `room` more reports: the slots
reported and NEXT START (R45). -/
def scan (filter : Byte) : Nat → Nat → List (Option Account) → List (Nat × Account) × Nat
  | _, _, [] => ([], Config.slots)
  | room, slot, none :: rest => scan filter room (slot + 1) rest
  | room, slot, some a :: rest =>
    if filterHas filter a.state then
      if room ≤ 1 then ([(slot, a)], slot + 1)
      else
        let (found, next) := scan filter (room - 1) (slot + 1) rest
        ((slot, a) :: found, next)
    else scan filter room (slot + 1) rest

/-- ENUMERATE (R43 to R45). COUNT is the count byte of the list of entries (log 13). -/
def judgeEnumerate (startSlot : BitVec 16) (filter : Byte) (s : State) : Verdict :=
  if Config.slots < startSlot.toNat || filter == 0 || decide (15 < filter.toNat) then
    report .range (listB [] ++ word 0)
  else
    let (found, next) :=
      scan filter Config.page startSlot.toNat (s.ret.accounts.drop startSlot.toNat)
    report .ok (listB (found.map fun (slot, a) => entryB s slot a) ++ word next)

end Sys2Proof.Machine
end

