-- ==== Sys2Proof/Machine/Holds.lean ====
section
/-! DEFINITION. The hold unit's requests and expiry: HOLD, CAPTURE, RELEASE, CANCEL HOLD
(04_holds). -/

namespace Sys2Proof.Machine

/-- The id after n in the order of issue: 65535 is followed by 1 (R77). -/
def nextIdAfter (n : Nat) : Nat := if n = Config.maxWord then 1 else n + 1

/-- Step upward from n to an id that is not among the ids in use (R77). -/
def unusedId (used : List Nat) : Nat → Nat → Nat
  | 0, n => n
  | fuel + 1, n => if used.contains n then unusedId used fuel (nextIdAfter n) else n

/-- The id the next HOLD is given: at most as many steps as holds are active pass over ids in use
(R77). A trial reports the same (R78), and a hold that ends between the trial and the real HOLD can give the real one an
id the trial passed over: the model follows the steps of R77 there (log 34). -/
def State.assignedId (s : State) : Nat :=
  unusedId (s.main.pool.map (·.id)) s.main.pool.length s.main.nextId

/-- The output fields of HOLD (R80). -/
def holdBody (key id lifetime : Nat) (available : Int) : List Byte :=
  keyB key ++ word id ++ word lifetime ++ availableB available

/-- Every output of HOLD zero. -/
def holdZero : List Byte := holdBody 0 0 0 0

/-- Steps 2 to 8 of HOLD's own checks (R81). -/
def State.holdRefusal (s : State) (p : Port) (slot : Nat) (a : Account) (amount : Nat) :
    Option AnswerCode :=
  match s.spendRefusal p slot a with
  | some c => some c
  | none =>
    if Config.holdsPerAccount ≤ (s.holdsOn slot).length then some .holdLimit
    else if s.available slot a < amount then some .noFunds
    else if Config.portQuota ≤ s.portHolds p then some .portQuota
    else if Config.pool ≤ s.main.pool.length then some .poolFull
    else none

/-- HOLD after the acceptance ladder (R81, R82, R78). -/
def judgeHold (p : Port) (amount lifetime : Nat) (trial : Bool) (s : State) : Verdict :=
  match s.cursorAccount p with
  | .error c => report c holdZero
  | .ok (slot, key, a) =>
    let av := s.available slot a
    match s.holdRefusal p slot a amount with
    | some c => report c (holdBody key 0 0 av)
    | none =>
      let id := s.assignedId
      let granted := min lifetime s.ret.params.holdLimit
      ⟨⟨.ok, holdBody key id granted (av - amount)⟩, [],
        if trial then []
        else [.addHold ⟨id, slot, p, amount, s.expiryAfter granted⟩, .nextId (nextIdAfter id),
          .forgetEnd id]⟩

/-- The answer to a CAPTURE or RELEASE of an id that is not active: the reason in the requesting
port's own ended-hold memory, or NO_HOLD (step 1 of R84, R92). -/
def State.endedAnswer (s : State) (p : Port) (id : Nat) : AnswerCode :=
  match (s.main.ended.get p).find? (·.id == id) with
  | some e =>
    match e.reason with
    | .lapsed => .lapsed
    | .cancelled => .cancelled
  | none => .noHold

/-- Steps 1 and 2 of CAPTURE and RELEASE: the hold the port owns, with its account, or the refusal
(R84, R87). An active hold names a live slot (R72), so the case of a FREE slot does not arise
(log 19). -/
def State.ownedHold (s : State) (p : Port) (id : Nat) : Except AnswerCode (Hold × Account) :=
  match s.findHold id with
  | none => .error (s.endedAnswer p id)
  | some h =>
    if h.owner != p then .error .notOwner
    else
      match s.account? h.slot with
      | some a => .ok (h, a)
      | none => .error .noHold

/-- The output fields of CAPTURE (R84). -/
def captureBody (key captured released : Nat) (balance : Int) : List Byte :=
  keyB key ++ dec 3 captured ++ dec 3 released ++ balanceB balance

/-- CAPTURE after the acceptance ladder (R84, R85). A capture of 0 stages neither balance nor float total:
the model's choice between texts of the manual that differ (log 32). -/
def judgeCapture (p : Port) (id amount : Nat) (trial : Bool) (s : State) : Verdict :=
  match s.ownedHold p id with
  | .error c => report c (captureBody 0 0 0 0)
  | .ok (h, a) =>
    if h.amount < amount then report .overHold (captureBody a.key 0 0 a.balance)
    else
      let answer : Answer := ⟨.ok, captureBody a.key amount (h.amount - amount) (a.balance - amount)⟩
      if trial then ⟨answer, [], []⟩
      else ⟨answer, s.balanceEvent h.slot a (-amount) ++ s.holdEndDrain h, [.dropHold h.id]⟩

/-- The output fields of RELEASE (R87). -/
def releaseBody (key released : Nat) (available : Int) : List Byte :=
  keyB key ++ dec 3 released ++ availableB available

/-- RELEASE after the acceptance ladder (R87). -/
def judgeRelease (p : Port) (id : Nat) (s : State) : Verdict :=
  match s.ownedHold p id with
  | .error c => report c (releaseBody 0 0 0)
  | .ok (h, a) =>
    ⟨⟨.ok, releaseBody a.key h.amount (s.available h.slot a + h.amount)⟩, s.holdEndDrain h,
      [.dropHold h.id]⟩

/-- The output fields of CANCEL HOLD (R88). -/
def cancelBody (key port amount : Nat) : List Byte := keyB key ++ byte1 port ++ dec 3 amount

/-- CANCEL HOLD (R88). -/
def judgeCancelHold (holdId : BitVec 16) (s : State) : Verdict :=
  if holdId.toNat = 0 then report .range (cancelBody 0 0 0)
  else
    match s.findHold holdId.toNat with
    | none => report .noHold (cancelBody 0 0 0)
    | some h =>
      ⟨⟨.ok, cancelBody (s.keyAt h.slot) h.owner.toNat h.amount⟩, s.holdEndDrain h,
        [.dropHold h.id, .recordEnd h.owner h.id .cancelled]⟩

/-- The expiry of a hold (R89): what it stages and its main-memory effects. -/
def holdExpiryVerdict (h : Hold) (s : State) : List RetWrite × List MainWrite :=
  (s.holdEndDrain h, [.dropHold h.id, .recordEnd h.owner h.id .lapsed])

end Sys2Proof.Machine
end

