-- ==== Sys2Proof/Machine/Supervision.lean ====
section
/-! DEFINITION. Parameters, STATUS, BACKUP LOST and WIPE (07_supervision_and_parameters). -/

namespace Sys2Proof.Machine

/-! The parameter set (R157 to R162). -/

/-- The outputs of READ PARAMETERS (R162). The items of the four ports follow in turn, as in SET PARAMETERS (R199), and are
no list with a count byte: the model's reading (log 13). -/
def paramsBody (q : Params) : List Byte :=
  word q.holdLimit ++ byte1 q.pinTime
    ++ Port.all.flatMap fun p => [(q.rights.get p).byte, (q.rates.get p).code]

/-- The range step of one port's items in SET PARAMETERS (R158). -/
def portChangeOk (c : PortChange) : Bool :=
  keepSet c.rightsChange && decide (c.rights.toNat ≤ 7) && keepSet c.rateChange
    && decide (c.rate.toNat ≤ 4)

/-- What a SET PARAMETERS stages for one port (R159). -/
def portWrites (p : Port) (c : PortChange) : List RetWrite :=
  (if c.rightsChange == 1 then [.rights p (Rights.ofByte c.rights)] else [])
    ++ (if c.rateChange == 1 then [.rate p (Rate.ofCode c.rate)] else [])

/-- SET PARAMETERS (R158, R159): its answer gives the parameter set after it. -/
def judgeSetParameters (hlChange : Byte) (holdLimit : BitVec 16) (ptChange pinTime : Byte)
    (ports : Four PortChange) (s : State) : Verdict :=
  if !(keepSet hlChange && decide (1 ≤ holdLimit.toNat ∧ holdLimit.toNat ≤ Config.maxLifetime)
      && keepSet ptChange && decide (1 ≤ pinTime.toNat ∧ pinTime.toNat ≤ Config.maxPinTime)
      && ports.toList.all portChangeOk) then
    report .range (paramsBody s.ret.params)
  else
    let writes :=
      (if hlChange == 1 then [RetWrite.holdLimit holdLimit.toNat] else [])
        ++ (if ptChange == 1 then [RetWrite.pinTime pinTime.toNat] else [])
        ++ portWrites .p0 ports.v0 ++ portWrites .p1 ports.v1 ++ portWrites .p2 ports.v2
        ++ portWrites .p3 ports.v3
    ⟨⟨.ok, paramsBody (applyRets writes s.ret).params⟩, writes, []⟩

/-- READ PARAMETERS (R162). -/
def judgeReadParameters (s : State) : Verdict := report .ok (paramsBody s.ret.params)

/-! STATUS (R163, R164). -/

/-- STATUS (R163). The four PORT HOLDS are four bytes and no list with a count byte: the model's reading, R197 does not
say (log 13). -/
def judgeStatus (s : State) : Verdict :=
  report .ok
    (flag s.ret.backupLost ++ flag s.attn ++ word s.ret.liveCount ++ word s.ret.free.length
      ++ word s.ret.drainedCount ++ word s.main.pool.length
      ++ Port.all.flatMap (fun p => byte1 (s.portHolds p))
      ++ byte1 s.pinCount ++ word s.ret.day ++ bankB s.ret.selector ++ word s.ret.activeGen
      ++ flag s.main.loading ++ byte1 s.main.loaded.length
      ++ signed 6 s.ret.floatTotal ++ dec 6 s.ret.unclaimed ++ toBytes 4 s.main.clock)

/-! BACKUP LOST (R166). -/

/-- CLEAR BACKUP FLAG (R166): its outputs are WAS SET and ATTENTION after the request. -/
def judgeClearBackupFlag (s : State) : Verdict :=
  ⟨⟨.ok, flag s.ret.backupLost ++ flag (decide (0 < s.ret.drainedCount))⟩,
    if s.ret.backupLost then [.backupLost false] else [], []⟩

/-! WIPE (R167, R168). -/

/-- WIPE (R167): its outputs describe what it removes (R168). PINS DROPPED takes one byte, as PINS does:
the model's reading, the table of R197 does not list it (log 13). -/
def judgeWipe (s : State) : Verdict :=
  ⟨⟨.ok, word s.ret.liveCount ++ word s.main.pool.length ++ byte1 s.pinCount
      ++ signed 6 s.ret.floatTotal ++ dec 6 s.ret.unclaimed ++ word s.ret.activeGen
      ++ flag s.ret.backupLost⟩, [.wipe], [.wipe]⟩

end Sys2Proof.Machine
end

