-- ==== Sys2Proof/Machine/Tariffs.lean ====
section
/-! DEFINITION. The tariff unit: FARE, and the supervisor's load requests (05_tariffs_and_fares). -/

namespace Sys2Proof.Machine

/-- The row number of a class and an entry zone (R102). -/
def rowOf (cls entryZone : Nat) : Nat := cls * 16 + entryZone

/-- The entries of a row; a row number outside the bank has none. -/
def Bank.row (k : Bank) (row : Nat) : List Nat := k.rows.getD row []

/-- A fare entry by class, entry zone and exit zone (R102). -/
def Bank.entry (k : Bank) (cls entryZone exitZone : Nat) : Nat :=
  (k.row (rowOf cls entryZone)).getD exitZone Config.noRoute

/-- The cap of a class (R101). -/
def Bank.cap (k : Bank) (cls : Nat) : Option Nat := k.caps.getD cls none

/-! FARE (R114 to R120). -/

/-- The output fields of FARE (R114). -/
def fareBody (key base charge : Nat) (passUsed capped : Bool) (balance available : Int)
    (generation : Nat) : List Byte :=
  keyB key ++ dec 2 base ++ dec 2 charge ++ flag passUsed ++ flag capped ++ balanceB balance
    ++ availableB available ++ word generation

/-- Every output of FARE zero. -/
def fareZero : List Byte := fareBody 0 0 0 false false 0 0 0

/-- The charge for a base fare under a class cap, and the CAPPED flag (R118). -/
def capCharge (base : Nat) (cap : Option Nat) (spendToday : Nat) : Nat × Bool :=
  match cap with
  | none => (base, false)
  | some c => (min base (c - spendToday), decide (min base (c - spendToday) < base))

/-- What a charged FARE records: balance, float total, DAY SPEND held at 999,999, SPEND DAY (R119). -/
def State.fareWrites (s : State) (slot : Nat) (a : Account) (charge : Nat) : List RetWrite :=
  s.balanceEvent slot a (-charge) ++
    [.daySpend slot (min (a.spendToday s.ret.day + charge) Config.maxDaySpend),
      .spendDay slot s.ret.day]

/-- FARE after the acceptance ladder (R115 to R119). -/
def judgeFare (p : Port) (entryZone exitZone : Nat) (trial : Bool) (s : State) : Verdict :=
  match s.cursorAccount p with
  | .error c => report c fareZero
  | .ok (slot, key, a) =>
    let av := s.available slot a
    let gen := s.ret.activeGen
    match s.spendRefusal p slot a with
    | some c => report c (fareBody key 0 0 false false a.balance av gen)
    | none =>
      match s.ret.selector with
      | none => report .noTariff (fareBody key 0 0 false false a.balance av 0)
      | some b =>
        let base := (s.ret.bank b).entry a.cls entryZone exitZone
        if a.passCovers s.ret.day entryZone exitZone then
          report .ok (fareBody key base 0 true false a.balance av gen)
        else if base = Config.noRoute then
          report .noRoute (fareBody key base 0 false false a.balance av gen)
        else
          let (charge, capped) :=
            capCharge base ((s.ret.bank b).cap a.cls) (a.spendToday s.ret.day)
          if av < charge then
            report .noFunds (fareBody key base charge false capped a.balance av gen)
          else
            ⟨⟨.ok, fareBody key base charge false capped (a.balance - charge) (av - charge) gen⟩,
              if trial then [] else s.fareWrites slot a charge, []⟩

/-! The load requests (R104 to R113). -/

/-- TARIFF BEGIN (R105). -/
def judgeTariffBegin (s : State) : Verdict :=
  let b := s.ret.standbyBank
  ⟨⟨.ok, bankB (some b) ++ word s.ret.activeGen ++ flag s.main.loading⟩,
    (List.range 8).map (fun c => RetWrite.classCap b c none) ++ [.bankGen b 0],
    [.loaded [], .standby true]⟩

/-- The loaded-row set with a row in it: a row appears once however often it is written (R104). -/
def loadRow (rows : List Nat) (row : Nat) : List Nat :=
  if rows.contains row then rows else rows ++ [row]

/-- The output fields of TARIFF ROW (R106). -/
def rowBody (row rowsLoaded : Nat) : List Byte := byte1 row ++ byte1 rowsLoaded

/-- TARIFF ROW (R106). -/
def judgeTariffRow (cls entryZone : Byte) (fares : List (BitVec 16)) (s : State) : Verdict :=
  let row := rowOf cls.toNat entryZone.toNat
  let count := s.main.loaded.length
  if !fares.all fareDigits then report .badDigit (rowBody 0 count)
  else if !(classOk cls && zoneOk entryZone) then report .range (rowBody 0 count)
  else if !s.main.loading then report .wrongState (rowBody row count)
  else
    let rows := loadRow s.main.loaded row
    ⟨⟨.ok, rowBody row rows.length⟩,
      [.tariffRow s.ret.standbyBank row (fares.map fareOf)], [.loaded rows]⟩

/-- The output fields of TARIFF CAP: class, CAP PRESENT, CAP (R107). The last two are carried as an optional field
of R197 is, so CAP is 000000 when CAP PRESENT is clear: the model's reading (log 13). -/
def capBody (cls : Nat) (cap : Option Nat) : List Byte := byte1 cls ++ optionalB 3 (cap.map (dec 3))

/-- TARIFF CAP (R107). CHANGE is 01H SET or 02H REMOVE. -/
def judgeTariffCap (cls change : Byte) (cap : BitVec 24) (s : State) : Verdict :=
  if !amount6Digits cap then report .badDigit (capBody 0 none)
  else if !(classOk cls && (change == 1 || change == 2)) then report .range (capBody 0 none)
  else
    let b := s.ret.standbyBank
    if !s.main.loading then
      report .wrongState (capBody cls.toNat ((s.ret.bank b).cap cls.toNat))
    else
      let v := if change == 1 then some (amount6 cap) else none
      ⟨⟨.ok, capBody cls.toNat v⟩, [.classCap b cls.toNat v], []⟩

/-- The generation after the active one: 65535 is followed by 1 (R109). -/
def nextGeneration (g : Nat) : Nat := if g = Config.maxWord then 1 else g + 1

/-- The output fields of TARIFF COMMIT (R108). -/
def commitBody (generation : Nat) (bank : Option BankId) (rowsLoaded : Nat) : List Byte :=
  word generation ++ bankB bank ++ byte1 rowsLoaded

/-- TARIFF COMMIT (R108, R109). -/
def judgeTariffCommit (s : State) : Verdict :=
  let count := s.main.loaded.length
  if !s.main.loading then
    report .wrongState (commitBody s.ret.activeGen s.ret.selector count)
  else if count < Config.rows then
    report .incomplete (commitBody s.ret.activeGen s.ret.selector count)
  else
    let b := s.ret.standbyBank
    let g := nextGeneration s.ret.activeGen
    ⟨⟨.ok, commitBody g (some b) count⟩, [.bankGen b g, .selector b, .activeGen g],
      [.standby false, .loaded []]⟩

/-- The output fields of READ TARIFF ROW (R112). The 16 FARES stand without a count byte: the model's
reading, the manual does not say whether they are a list of R197; and CAP is 000000 when CAP PRESENT is clear,
its reading too (log 13). -/
def readRowBody (bank : Option BankId) (gen : Nat) (loading rowLoaded : Bool) (fares : List Nat)
    (cap : Option Nat) : List Byte :=
  bankB bank ++ word gen ++ flag loading ++ flag rowLoaded ++ fares.flatMap (dec 2)
    ++ optionalB 3 (cap.map (dec 3))

/-- READ TARIFF ROW of one bank. -/
def readRow (s : State) (b : BankId) (cls entryZone : Nat) (isStandby : Bool) : Verdict :=
  let k := s.ret.bank b
  let row := rowOf cls entryZone
  report .ok (readRowBody (some b) k.gen s.main.loading
    (isStandby && s.main.loading && s.main.loaded.contains row) (k.row row) (k.cap cls))

/-- READ TARIFF ROW (R112). -/
def judgeReadTariffRow (which cls entryZone : Byte) (s : State) : Verdict :=
  if !(isFlag which && classOk cls && zoneOk entryZone) then
    report .range (readRowBody none 0 false false (List.replicate 16 0) none)
  else if which == 1 then readRow s s.ret.standbyBank cls.toNat entryZone.toNat true
  else
    match s.ret.selector with
    | none => report .noTariff (readRowBody none 0 s.main.loading false (List.replicate 16 0) none)
    | some b => readRow s b cls.toNat entryZone.toNat false

end Sys2Proof.Machine
end

