-- ==== Sys2Proof/Machine/Value.lean ====
section
/-! DEFINITION. The value unit's requests: TOP-UP, CREDIT, DEBIT, CLEAR UNCLAIMED
(03_decimal_amounts). -/

namespace Sys2Proof.Machine

/-- The output fields of TOP-UP (R64). -/
def topUpBody (key amount : Nat) (balance available : Int) : List Byte :=
  keyB key ++ dec 3 amount ++ balanceB balance ++ availableB available

/-- TOP-UP after the acceptance ladder (R64, R65). -/
def judgeTopUp (p : Port) (amount : Nat) (trial : Bool) (s : State) : Verdict :=
  match s.cursorAccount p with
  | .error c => report c (topUpBody 0 0 0 0)
  | .ok (slot, key, a) =>
    let av := s.available slot a
    match s.spendRefusal p slot a with
    | some c => report c (topUpBody key 0 a.balance av)
    | none =>
      if Config.maxBalance < a.balance + amount then
        report .overflow (topUpBody key 0 a.balance av)
      else
        ⟨⟨.ok, topUpBody key amount (a.balance + amount) (av + amount)⟩,
          if trial then [] else s.balanceEvent slot a amount, []⟩

/-- The output fields of CREDIT and DEBIT (R66). -/
def creditBody (st : Option AcctState) (balance available : Int) : List Byte :=
  stateB st ++ balanceB balance ++ availableB available

/-- Every output of CREDIT and DEBIT zero. -/
def creditZero : List Byte := creditBody none 0 0

/-- The field checks of CREDIT and DEBIT: digits, then ranges (R51, R53). -/
def amountRefusal (key : BitVec 40) (amount : BitVec 32) : Option AnswerCode :=
  if !(keyDigits key && amount8Digits amount) then some .badDigit
  else if keyOf key = 0 || amount8 amount = 0 then some .range
  else none

/-- CREDIT (R66). -/
def judgeCredit (key : BitVec 40) (amount : BitVec 32) (s : State) : Verdict :=
  match amountRefusal key amount with
  | some c => report c creditZero
  | none =>
    match s.lookup (keyOf key) with
    | none => report .unknownKey creditZero
    | some slot =>
      match s.account? slot with
      | none => report .unknownKey creditZero
      | some a =>
        let n : Int := amount8 amount
        let av := s.available slot a
        if Config.maxBalance < a.balance + n then
          report .overflow (creditBody (some a.state) a.balance av)
        else
          ⟨⟨.ok, creditBody (some a.state) (a.balance + n) (av + n)⟩, s.balanceEvent slot a n, []⟩

/-- DEBIT (R67). -/
def judgeDebit (key : BitVec 40) (amount : BitVec 32) (s : State) : Verdict :=
  match amountRefusal key amount with
  | some c => report c creditZero
  | none =>
    match s.lookup (keyOf key) with
    | none => report .unknownKey creditZero
    | some slot =>
      match s.account? slot with
      | none => report .unknownKey creditZero
      | some a =>
        let n : Int := amount8 amount
        let av := s.available slot a
        if av < n then
          report .noFunds (creditBody (some a.state) a.balance av)
        else
          ⟨⟨.ok, creditBody (some a.state) (a.balance - n) (av - n)⟩,
            s.balanceEvent slot a (-n), []⟩

/-- The output fields of CLEAR UNCLAIMED (R61). -/
def clearBody (cleared after : Nat) : List Byte := dec 6 cleared ++ dec 6 after

/-- CLEAR UNCLAIMED (R61). -/
def judgeClearUnclaimed (s : State) : Verdict :=
  ⟨⟨.ok, clearBody s.ret.unclaimed 0⟩, if 0 < s.ret.unclaimed then [.unclaimed 0] else [], []⟩

end Sys2Proof.Machine
end

