-- ==== Sys2Proof/Machine/Requests.lean ====
section
/-! DEFINITION. The acceptance ladder and the reply cache (06_station_sessions 6.2, 6.3), and the
supervisor's requests as one verdict (R154). -/

namespace Sys2Proof

open Machine

/-! Station requests. -/

/-- The port holds the right a request needs (R129). -/
def StationRequest.permitted (r : StationRequest) (x : Rights) : Bool :=
  match r with
  | .fare .. => x.fare
  | .hold .. | .capture .. | .release _ => x.hold
  | .topUp .. => x.topUp
  | .select _ | .balance | .stationStatus | .pin | .unpin | .bad .. => true

/-- The digit check and the range check of the fourth ladder step (R130). -/
def StationRequest.fieldRefusal : StationRequest → Option AnswerCode
  | .select key =>
    if !keyDigits key then some .badDigit else if keyOf key = 0 then some .range else none
  | .fare entryZone exitZone trial =>
    if zoneOk entryZone && zoneOk exitZone && isFlag trial then none else some .range
  | .hold amount lifetime trial =>
    if !amount6Digits amount then some .badDigit
    else if amount6 amount = 0 || lifetime == 0 || decide (Config.maxLifetime < lifetime.toNat)
        || !isFlag trial then some .range
    else none
  | .capture holdId amount trial =>
    if !amount6Digits amount then some .badDigit
    else if holdId == 0 || !isFlag trial then some .range
    else none
  | .release holdId => if holdId == 0 then some .range else none
  | .topUp amount trial =>
    if !amount6Digits amount then some .badDigit
    else if amount6 amount = 0 || !isFlag trial then some .range
    else none
  | .balance | .stationStatus | .pin | .unpin | .bad .. => none

/-- Every output of a request zero, as an answer of the ladder's third and fourth steps carries them
(R129, R130). -/
def StationRequest.zeroBody : StationRequest → List Byte
  | .select _ => selectZero
  | .fare .. => fareZero
  | .hold .. => holdZero
  | .capture .. => captureBody 0 0 0 0
  | .release _ => releaseBody 0 0 0
  | .topUp .. => topUpBody 0 0 0 0
  | .balance => balanceZero
  | .pin => pinBody 0 0 0 none none
  | .unpin | .stationStatus | .bad .. => []

/-- The request carried TRIAL 01H (R62, R63). -/
def StationRequest.isTrial : StationRequest → Bool
  | .fare _ _ trial | .hold _ _ trial | .capture _ _ trial | .topUp _ trial => trial == 1
  | .select _ | .balance | .stationStatus | .pin | .unpin | .release _ | .bad .. => false

/-- The request's own checks, in the block that owns it (R131). -/
def StationRequest.judge (r : StationRequest) (p : Port) (s : State) : Verdict :=
  match r with
  | .select key => judgeSelect p (keyOf key) s
  | .balance => judgeBalance p s
  | .stationStatus => judgeStationStatus p s
  | .pin => judgePin p s
  | .unpin => judgeUnpin p s
  | .fare entryZone exitZone trial => judgeFare p entryZone.toNat exitZone.toNat (trial == 1) s
  | .hold amount lifetime trial => judgeHold p (amount6 amount) lifetime.toNat (trial == 1) s
  | .capture holdId amount trial => judgeCapture p holdId.toNat (amount6 amount) (trial == 1) s
  | .release holdId => judgeRelease p holdId.toNat s
  | .topUp amount trial => judgeTopUp p (amount6 amount) (trial == 1) s
  | .bad .. => report .badRequest []

/-- Steps three and four of the acceptance ladder, then the request's own checks (R129 to R131). -/
def StationRequest.ladder (r : StationRequest) (p : Port) (s : State) : Verdict :=
  if !r.permitted (s.ret.params.rights.get p) then report .noRight r.zeroBody
  else
    match r.fieldRefusal with
    | some c => report c r.zeroBody
    | none => r.judge p s

/-- The request's kind needs the area even with sequence number 0 (R175). -/
def StationRequest.stagesAlways : StationRequest → Bool
  | .fare .. | .topUp .. | .capture .. | .release _ | .pin | .unpin => true
  | .select _ | .balance | .stationStatus | .hold .. | .bad .. => false

/-! Supervisor requests. -/

/-- A supervisor request as its owner takes it (R153, R154). -/
def SupervisorRequest.judge (r : SupervisorRequest) (s : State) : Verdict :=
  match r with
  | .openAccount key cls sign initial floor vePresent ve passPresent zones passEnd =>
    judgeOpenAccount key cls sign initial floor vePresent ve passPresent zones passEnd s
  | .readAccount key => judgeReadAccount key s
  | .setTerms key clsChange cls floorChange floor veChange ve passChange zones passEnd =>
    judgeSetTerms key clsChange cls floorChange floor veChange ve passChange zones passEnd s
  | .suspend key => judgeSuspend key s
  | .resume key => judgeResume key s
  | .retire key => judgeRetire key s
  | .confirmRetire key => judgeConfirmRetire key s
  | .dayRoll => judgeDayRoll s
  | .enumerate startSlot filter => judgeEnumerate startSlot filter s
  | .credit key amount => judgeCredit key amount s
  | .debit key amount => judgeDebit key amount s
  | .clearUnclaimed => judgeClearUnclaimed s
  | .cancelHold holdId => judgeCancelHold holdId s
  | .tariffBegin => judgeTariffBegin s
  | .tariffRow cls entryZone fares => judgeTariffRow cls entryZone fares s
  | .tariffCap cls change cap => judgeTariffCap cls change cap s
  | .tariffCommit => judgeTariffCommit s
  | .readTariffRow which cls entryZone => judgeReadTariffRow which cls entryZone s
  | .status => judgeStatus s
  | .setParameters hlChange holdLimit ptChange pinTime ports =>
    judgeSetParameters hlChange holdLimit ptChange pinTime ports s
  | .readParameters => judgeReadParameters s
  | .clearBackupFlag => judgeClearBackupFlag s
  | .wipe => judgeWipe s
  | .bad .. => report .badRequest []

/-- The request is of a kind that may write a staged change (the table of 07_supervision 7.1,
R175). -/
def SupervisorRequest.needsArea : SupervisorRequest → Bool
  | .readAccount _ | .enumerate .. | .readTariffRow .. | .status | .readParameters | .bad .. => false
  | .openAccount .. | .setTerms .. | .suspend _ | .resume _ | .retire _ | .confirmRetire _
  | .dayRoll | .credit .. | .debit .. | .clearUnclaimed | .cancelHold _ | .tariffBegin
  | .tariffRow .. | .tariffCap .. | .tariffCommit | .setParameters .. | .clearBackupFlag
  | .wipe => true

end Sys2Proof

namespace Sys2Proof.Machine

/-! The reply cache and the ladder's outcome. -/

/-- A reply cache with an answer entered as its newest entry (R132). -/
def enterCache (cache : List CacheEntry) (e : CacheEntry) : List CacheEntry :=
  let others := cache.filter (·.seq != e.seq)
  (if others.length < Config.replyCache then others else others.drop 1) ++ [e]

/-- The cache entry the sequence check finds: none for sequence number 0 (R128, R134). -/
def State.cached (s : State) (p : Port) (seq : Byte) : Option CacheEntry :=
  if seq = 0 then none else (s.ret.caches.get p).find? (·.seq == seq)

/-- What a station request comes to: its verdict, with the reply cache entry among what it stages, and
the TRIAL and REPLAY flags of its answer. -/
structure StationOutcome where
  verdict : Verdict
  trial : Bool
  replay : Bool
  deriving DecidableEq, Repr

/-- The verdict with the answer's reply cache entry staged when the sequence number is nonzero
(R131, R132). -/
def withCache (p : Port) (f : StationFrame) (v : Verdict) (s : State) : Verdict :=
  if f.seq = 0 then v
  else
    { v with
      writes := v.writes ++
        [.cache p (enterCache (s.ret.caches.get p) ⟨f.seq, f.req.code, v.answer, f.req.isTrial⟩)] }

/-- The acceptance ladder (R127 to R131): code and length, sequence check, rights, fields, own
checks. A replay has the TRIAL flag its entry records (R133), also when the request carried TRIAL 01H and the entry is
a real answer's, where R63 would set it; that, and the flag of a SEQ_CLASH and of a BAD_REQUEST, are the model's
readings (log 14). -/
def stationOutcome (p : Port) (f : StationFrame) (s : State) : StationOutcome :=
  match f.req with
  | .bad .. => ⟨withCache p f (report .badRequest []) s, false, false⟩
  | r =>
    match s.cached p f.seq with
    | some e =>
      if e.code = r.code then ⟨⟨e.answer, [], []⟩, e.trial, true⟩
      else ⟨report .seqClash [], r.isTrial, false⟩
    | none => ⟨withCache p f (r.ladder p s) s, r.isTrial, false⟩

/-- The request needs the staged-change area, by its kind and the sequence check (R175). -/
def stationNeedsArea (p : Port) (f : StationFrame) (s : State) : Bool :=
  match f.req with
  | .bad .. => f.seq != 0
  | r => (s.cached p f.seq).isNone && (f.seq != 0 || r.stagesAlways)

/-- The request, taken without the area, can change more than its own session's flags: a SELECT or a
HOLD with sequence number 0 (log 4). -/
def stationMayChange (f : StationFrame) : Bool :=
  match f.req with
  | .select _ | .hold .. => f.seq == 0
  | _ => false

end Sys2Proof.Machine
end

