-- ==== Sys2Proof/Machine/Events.lean ====
section
/-! DEFINITION. How requests and internal events are taken: hand-over to the session unit, the
staged-change area and the events waiting for it, answers (R126, R153, R174, R175, R187, R189). -/

namespace Sys2Proof.Machine

/-! Answers. -/

/-- Hand the answer of a port's request to its link: FRESH and OVERRUN are written into it and cleared,
and the link enters SENDING at the port's rate (R126, R135, R136, R189). -/
def State.sendAnswer (s : State) (p : Port) (reply : Reply) : State :=
  let x := s.session p
  match x.inHand with
  | none => s
  | some h =>
    let a : StationAnswer :=
      ⟨h.frame.seq, h.frame.req.code, reply.answer, x.fresh, x.overrun, reply.replay, reply.trial⟩
    (s.setSession p { x with fresh := false, overrun := false, inHand := none }).setLink p
      { s.link p with tx := some ⟨a, s.ret.params.rates.get p⟩ }

/-- Drop the answer of a port's request: OUTSTANDING clears, and FRESH and OVERRUN stay (R135, R149,
R188). -/
def State.dropAnswer (s : State) (p : Port) : State :=
  (s.setSession p { s.session p with inHand := none }).setLink p
    { s.link p with outstanding := false }

/-- Place a supervisor answer: the link becomes ANSWER READY (R153, R191). -/
def State.answerSupervisor (s : State) (answer : Answer) : State :=
  match s.main.sup.request with
  | none => s
  | some r =>
    s.setSup { s.main.sup with
      state := .answerReady, requestBuffer := [], request := none, answer := some ⟨r.code, answer⟩ }

/-! Station requests. -/

/-- An event comes to wait for the staged-change area, behind those that wait (R175). -/
def State.wait (s : State) (e : AreaEvent) : State :=
  { s with main := { s.main with waiting := s.main.waiting ++ [e] } }

/-- A station request that needs no area is taken: its answer is placed at once (R126, R175). -/
def State.takeFree (s : State) (p : Port) (f : StationFrame) : State :=
  let s := if stationMayChange f then s.finishApply else s
  let o := stationOutcome p f s
  (s.doMains o.verdict.mains).sendAnswer p ⟨o.verdict.answer, o.trial, o.replay⟩

/-- A frame is handed to the session unit: OUTSTANDING is set, and the request is taken or comes to
wait for the area (R126, R175, R187). -/
def State.handOver (s : State) (p : Port) (f : StationFrame) : State :=
  let s := (s.setSession p { s.session p with inHand := some ⟨f, none⟩ }).setLink p
    { s.link p with outstanding := true }
  let s := s.settleForRead
  if stationNeedsArea p f s then s.wait (.station p) else s.takeFree p f

/-- With OUTSTANDING clear, a frame in the pending slot is handed to the session unit (R187). -/
def State.handOn (s : State) (p : Port) : State :=
  match (s.link p).pendingSlot with
  | some f =>
    if s.running && !(s.link p).outstanding then
      (s.setLink p { s.link p with pendingSlot := none }).handOver p f
    else s
  | none => s

/-- The request of a port is done: its answer is handed to the link, or dropped when a session reset
marked it, and a dropped answer lets the pending frame go on (R149, R187). -/
def State.answerStation (s : State) (p : Port) (reply : Reply) : State :=
  match (s.session p).inHand with
  | some h => if h.dropped.isSome then (s.dropAnswer p).handOn p else s.sendAnswer p reply
  | none => s

/-! The staged-change area. -/

/-- An internal event given the area: it holds the area when it has something to stage, and otherwise
is done at once (R175). -/
def State.stageOrDo (s : State) (e : AreaEvent) (v : List RetWrite × List MainWrite) : State :=
  if v.1.isEmpty then s.doMains v.2 else s.holdArea e v.1 v.2 none

/-- The hold with an id, when the clock stands at its expiry second (R89). -/
def State.dueHold (s : State) (id : Nat) : Option Hold :=
  match s.findHold id with
  | some h => if h.expiry = s.main.clock then some h else none
  | none => none

/-- The pin of a port, when the clock stands at its expiry second (R145). -/
def State.duePin (s : State) (p : Port) : Option PinEntry :=
  match (s.session p).pin with
  | some e => if e.expiry = s.main.clock then some e else none
  | none => none

/-- The state a request in hand is judged against: with its port's cursor as it stands or, when a session
reset has dropped its answer, as the reset found it (R150, log 7). -/
def State.judgedFor (s : State) (p : Port) (h : InHand) : State :=
  match h.dropped with
  | none => s
  | some c => s.setSession p { s.session p with cursor := c }

/-- A main-memory effect other than a cursor's. -/
def MainWrite.sparesCursor : MainWrite → Bool
  | .cursor .. => false
  | _ => true

/-- The main-memory effects that stand of a request in hand: after a session reset the cursor stays
NONE (R150). -/
def InHand.standing (h : InHand) (mains : List MainWrite) : List MainWrite :=
  if h.dropped.isSome then mains.filter MainWrite.sparesCursor else mains

/-- The area is given to an event: it is taken, checks and all, against the state as it now stands
(R175). -/
def State.takeWaiting (s : State) (e : AreaEvent) : State :=
  match e with
  | .station p =>
    match (s.session p).inHand with
    | none => s
    | some h =>
      let o := stationOutcome p h.frame (s.judgedFor p h)
      let mains := h.standing o.verdict.mains
      let reply : Reply := ⟨o.verdict.answer, o.trial, o.replay⟩
      if o.verdict.writes.isEmpty then (s.doMains mains).answerStation p reply
      else s.holdArea e o.verdict.writes mains (some reply)
  | .supervisor =>
    match s.main.sup.request with
    | none => s
    | some r =>
      let v := r.judge s
      if v.writes.isEmpty then (s.doMains v.mains).answerSupervisor v.answer
      else s.holdArea e v.writes v.mains (some ⟨v.answer, false, false⟩)
  | .holdExpiry id =>
    match s.dueHold id with
    | some h => s.stageOrDo e (holdExpiryVerdict h s)
    | none => s
  | .pinExpiry p =>
    match s.duePin p with
    | some x => s.stageOrDo e (pinEndVerdict p x s)
    | none => s
  | .sessionPinEnd p =>
    match (s.session p).pin with
    | some x => s.stageOrDo e (pinEndVerdict p x s)
    | none => s
  | .startUpDrain _ => s

/-- While the area is free, give it to the waiting events in the order they came to wait (R175). -/
def giveAreaN : Nat → State → State
  | 0, s => s
  | n + 1, s =>
    if s.main.holder.isSome then s
    else
      match s.main.waiting with
      | [] => s
      | e :: rest =>
        giveAreaN n ({ s with main := { s.main with waiting := rest } }.takeWaiting e)

/-- Give the area on, once requests are taken (R181). A dropped answer can add one waiting event a port,
so four more turns than events wait are enough. -/
def State.giveArea (s : State) : State :=
  if s.running then giveAreaN (s.main.waiting.length + 4) s else s

/-- An event that needs the area: it waits its turn, which comes at once when the area is free. -/
def State.requestArea (s : State) (e : AreaEvent) : State := (s.wait e).giveArea

/-- The clear phase ends: the answer is placed, and the area is given to the next waiting event
(R174, R175). -/
def State.completeChange (s : State) : State :=
  match s.main.holder with
  | none => s
  | some h =>
    let s := s.finishApply.clearArea
    let s :=
      match h.event, h.reply with
      | .station p, some reply => s.answerStation p reply
      | .supervisor, some reply => s.answerSupervisor reply.answer
      | _, _ => s
    s.giveArea

/-! Arrival of requests. -/

/-- A complete station frame is delivered: handed to the session unit, placed in the pending slot, or
discarded with OVERRUN (R187). -/
def State.deliver (s : State) (p : Port) (f : StationFrame) : State :=
  if s.running && !(s.link p).outstanding then (s.handOver p f).giveArea
  else if (s.link p).pendingSlot.isNone then
    s.setLink p { s.link p with pendingSlot := some f }
  else s.setSession p { s.session p with overrun := true }

/-- A station request arrives: nothing when the part is stopped. -/
def State.arrive (s : State) (p : Port) (f : StationFrame) : State :=
  if s.powered then s.deliver p f else s

/-- The owner takes the supervisor's pending request, or it comes to wait for the area (R153, R175). -/
def State.handSupervisor (s : State) : State :=
  match s.main.sup.request with
  | none => s
  | some r =>
    if r.needsArea then s.wait .supervisor
    else
      let s := s.settleForRead
      s.answerSupervisor (r.judge s).answer

/-- A good frame ends a write period: the link becomes REQUEST PENDING, and the request goes to its
owner unless the start-up check is in progress (R156, R192). -/
def State.acceptSupervisor (s : State) (r : SupervisorRequest) (bytes : List Byte) : State :=
  let s := s.setSup { s.main.sup with
    state := .requestPending, requestBuffer := bytes, request := some r, answer := none }
  if s.running then s.handSupervisor.giveArea else s

/-- What MISO carries in a select period: 0FFH during the direction byte, then the given bytes
(R191). -/
def State.driveMiso (s : State) (bytes : List Byte) : State :=
  s.setSup { s.main.sup with miso := 0xFF :: bytes }

/-- The supervisor link places a BAD_FRAME answer (R192). -/
def State.placeBadFrame (s : State) : State :=
  s.setSup { s.main.sup with
    state := .answerReady, requestBuffer := [], request := none, answer := some ⟨0, ⟨.badFrame, []⟩⟩ }

/-- A write period that carries a supervisor request in a good frame (R192). While a request is
pending it changes nothing and MISO carries the BUSY filler. -/
def State.submit (s : State) (r : SupervisorRequest) : State :=
  if !s.powered then s
  else if s.main.sup.state = .requestPending then
    s.driveMiso (List.replicate r.bytes.length 0xB0)
  else (s.driveMiso (List.replicate r.bytes.length 0xFF)).acceptSupervisor r r.bytes

end Sys2Proof.Machine
end

