-- ==== Sys2Proof/Machine/StationCommands.lean ====
section
/-! DEFINITION. The meanings of the station request rows: the request's good frame arrives at the
session unit (R126, R187; log 1). What the request then does is its verdict in the file of its block. -/

namespace Sys2Proof.Machine

/-- The three outcomes of a command, over this machine. -/
abbrev Result := Host.Outcome State Fault Refusal

/-- SELECT (R138): `judgeSelect`. -/
def execSelect (p : Port) (seq : Byte) (key : BitVec 40) (s : State) : Result :=
  .next (s.arrive p ⟨seq, .select key⟩)

/-- BALANCE (R139): `judgeBalance`. -/
def execBalance (p : Port) (seq : Byte) (s : State) : Result :=
  .next (s.arrive p ⟨seq, .balance⟩)

/-- STATION STATUS (R140): `judgeStationStatus`. -/
def execStationStatus (p : Port) (seq : Byte) (s : State) : Result :=
  .next (s.arrive p ⟨seq, .stationStatus⟩)

/-- PIN (R142, R143): `judgePin`. -/
def execPin (p : Port) (seq : Byte) (s : State) : Result :=
  .next (s.arrive p ⟨seq, .pin⟩)

/-- UNPIN (R144): `judgeUnpin`. -/
def execUnpin (p : Port) (seq : Byte) (s : State) : Result :=
  .next (s.arrive p ⟨seq, .unpin⟩)

/-- FARE (R114 to R120): `judgeFare`. -/
def execFare (p : Port) (seq entryZone exitZone trial : Byte) (s : State) : Result :=
  .next (s.arrive p ⟨seq, .fare entryZone exitZone trial⟩)

/-- HOLD (R80 to R82): `judgeHold`. -/
def execHold (p : Port) (seq : Byte) (amount : BitVec 24) (lifetime : BitVec 16)
    (trial : Byte) (s : State) : Result :=
  .next (s.arrive p ⟨seq, .hold amount lifetime trial⟩)

/-- CAPTURE (R84, R85): `judgeCapture`. -/
def execCapture (p : Port) (seq : Byte) (holdId : BitVec 16) (amount : BitVec 24)
    (trial : Byte) (s : State) : Result :=
  .next (s.arrive p ⟨seq, .capture holdId amount trial⟩)

/-- RELEASE (R87): `judgeRelease`. -/
def execRelease (p : Port) (seq : Byte) (holdId : BitVec 16) (s : State) : Result :=
  .next (s.arrive p ⟨seq, .release holdId⟩)

/-- TOP-UP (R64, R65): `judgeTopUp`. -/
def execTopUp (p : Port) (seq : Byte) (amount : BitVec 24) (trial : Byte) (s : State) : Result :=
  .next (s.arrive p ⟨seq, .topUp amount trial⟩)

/-- A frame with an unknown code or a wrong body length (R127). The code and body are read as any
frame's are, so a pair that is a request after all is that request; a body over 62 bytes is abandoned
at its LENGTH (R184). -/
def execStationBadRequest (p : Port) (seq code : Byte) (body : List Byte) (s : State) : Result :=
  if 62 < body.length then .next s
  else .next (s.arrive p ⟨seq, StationRequest.parse code body⟩)

end Sys2Proof.Machine
end

