-- ==== Sys2Proof/Machine/Clocking.lean ====
section
/-! DEFINITION. The internal events: the hold clock, expiries, the pin end of a session reset, the end
of a staged change (R74, R89, R145, R149, R174). -/

namespace Sys2Proof.Machine

/-- A second falls due (R74): the clock advances, or the advance is deferred while a hold or pin whose
expiry second is the current value still stands. No second falls due before the end of the start-up
check. -/
def execHoldClockAdvance (s : State) : Result :=
  if s.running then
    let s := s.finishApply
    .next { s with main := { s.main with clockOwed := s.main.clockOwed + 1 }.catchUp }
  else .next s

/-- An internal event that may drain comes to be taken: when it would drain it needs the area, and
otherwise it is done at once (R175). -/
def State.raise (s : State) (e : AreaEvent) (v : List RetWrite × List MainWrite) : State :=
  if v.1.isEmpty then s.doMains v.2
  else if s.main.waiting.contains e then s
  else s.requestArea e

/-- The expiry of a hold (R89). It is an event only when the clock stands at the hold's expiry second
(log 9). -/
def execHoldExpiry (holdId : BitVec 16) (s : State) : Result :=
  if s.running then
    let s := s.finishApply
    match s.dueHold holdId.toNat with
    | some h => .next (s.raise (.holdExpiry holdId.toNat) (holdExpiryVerdict h s))
    | none => .next s
  else .next s

/-- The expiry of a pin (R145). It is an event only when the clock stands at the pin's expiry second
(log 9). -/
def execPinExpiry (p : Port) (s : State) : Result :=
  if s.running then
    let s := s.finishApply
    match s.duePin p with
    | some e => .next (s.raise (.pinExpiry p) (pinEndVerdict p e s))
    | none => .next s
  else .next s

/-- The pin end of a session reset (R149): taken when the area is given to it. With the area held it
goes on waiting; a port with no such pin end waiting has no such event (log 6, log 9). -/
def execSessionResetPinEnd (p : Port) (s : State) : Result :=
  if s.running && s.main.waiting.contains (.sessionPinEnd p) then .next s.giveArea else .next s

/-- The end of a start-up drain's clear phase: the next slot is examined (R179). -/
def State.endDrain (s : State) (h : Holder) : State :=
  match h.event with
  | .startUpDrain slot => { s.finishApply.clearArea with check := some (.drains (slot + 1)) }
  | _ => s

/-- The clear phase of a staged change ends (R174): the remaining phases pass, the answer is placed, and
the area is given to the next waiting event. During the start-up check the change is a start-up
drain's. -/
def execStagedChangeComplete (s : State) : Result :=
  if s.running then .next s.completeChange
  else if s.powered then
    match s.check, s.main.holder with
    | some (.drains _), some h => .next (s.endDrain h)
    | _, _ => .next s
  else .next s

end Sys2Proof.Machine
end

