-- ==== Sys2Proof/Machine/SupervisorCommands.lean ====
section
/-! DEFINITION. The meanings of the supervisor request rows: a write period ends with the request's good
frame (R153, R192; log 1). What the request then does is its verdict in the file of its block. -/

namespace Sys2Proof.Machine

/-- OPEN ACCOUNT (R18, R19): `judgeOpenAccount`. -/
def execOpenAccount (key : BitVec 40) (cls sign : Byte) (initial : BitVec 32) (floor : BitVec 24)
    (vePresent : Byte) (ve : BitVec 16) (passPresent : Byte) (zones passEnd : BitVec 16) (s : State) : Result :=
  .next (s.submit (.openAccount key cls sign initial floor vePresent ve passPresent zones passEnd))

/-- READ ACCOUNT (R20): `judgeReadAccount`. -/
def execReadAccount (key : BitVec 40) (s : State) : Result :=
  .next (s.submit (.readAccount key))

/-- SET TERMS (R21, R22): `judgeSetTerms`. -/
def execSetTerms (key : BitVec 40) (clsChange cls floorChange : Byte) (floor : BitVec 24)
    (veChange : Byte) (ve : BitVec 16) (passChange : Byte) (zones passEnd : BitVec 16) (s : State) : Result :=
  .next (s.submit (.setTerms key clsChange cls floorChange floor veChange ve passChange zones passEnd))

/-- SUSPEND (R23): `judgeSuspend`. -/
def execSuspend (key : BitVec 40) (s : State) : Result :=
  .next (s.submit (.suspend key))

/-- RESUME (R24): `judgeResume`. -/
def execResume (key : BitVec 40) (s : State) : Result :=
  .next (s.submit (.resume key))

/-- RETIRE (R25, R26): `judgeRetire`. -/
def execRetire (key : BitVec 40) (s : State) : Result :=
  .next (s.submit (.retire key))

/-- CONFIRM RETIRE (R29): `judgeConfirmRetire`. -/
def execConfirmRetire (key : BitVec 40) (s : State) : Result :=
  .next (s.submit (.confirmRetire key))

/-- DAY ROLL (R14): `judgeDayRoll`. -/
def execDayRoll (s : State) : Result :=
  .next (s.submit .dayRoll)

/-- ENUMERATE (R43 to R45): `judgeEnumerate`. -/
def execEnumerate (startSlot : BitVec 16) (filter : Byte) (s : State) : Result :=
  .next (s.submit (.enumerate startSlot filter))

/-- CREDIT (R66): `judgeCredit`. -/
def execCredit (key : BitVec 40) (amount : BitVec 32) (s : State) : Result :=
  .next (s.submit (.credit key amount))

/-- DEBIT (R67): `judgeDebit`. -/
def execDebit (key : BitVec 40) (amount : BitVec 32) (s : State) : Result :=
  .next (s.submit (.debit key amount))

/-- CLEAR UNCLAIMED (R61): `judgeClearUnclaimed`. -/
def execClearUnclaimed (s : State) : Result :=
  .next (s.submit .clearUnclaimed)

/-- CANCEL HOLD (R88): `judgeCancelHold`. -/
def execCancelHold (holdId : BitVec 16) (s : State) : Result :=
  .next (s.submit (.cancelHold holdId))

/-- TARIFF BEGIN (R105): `judgeTariffBegin`. -/
def execTariffBegin (s : State) : Result :=
  .next (s.submit .tariffBegin)

/-- TARIFF CAP (R107): `judgeTariffCap`. -/
def execTariffCap (cls change : Byte) (cap : BitVec 24) (s : State) : Result :=
  .next (s.submit (.tariffCap cls change cap))

/-- TARIFF COMMIT (R108, R109): `judgeTariffCommit`. -/
def execTariffCommit (s : State) : Result :=
  .next (s.submit .tariffCommit)

/-- READ TARIFF ROW (R112): `judgeReadTariffRow`. -/
def execReadTariffRow (which cls entryZone : Byte) (s : State) : Result :=
  .next (s.submit (.readTariffRow which cls entryZone))

/-- STATUS (R163): `judgeStatus`. -/
def execStatus (s : State) : Result :=
  .next (s.submit .status)

/-- SET PARAMETERS (R158, R159): `judgeSetParameters`. -/
def execSetParameters (hlChange : Byte) (holdLimit : BitVec 16) (ptChange pinTime : Byte)
    (ports : Four PortChange) (s : State) : Result :=
  .next (s.submit (.setParameters hlChange holdLimit ptChange pinTime ports))

/-- READ PARAMETERS (R162): `judgeReadParameters`. -/
def execReadParameters (s : State) : Result :=
  .next (s.submit .readParameters)

/-- CLEAR BACKUP FLAG (R166): `judgeClearBackupFlag`. -/
def execClearBackupFlag (s : State) : Result :=
  .next (s.submit .clearBackupFlag)

/-- WIPE (R167, R168): `judgeWipe`. -/
def execWipe (s : State) : Result :=
  .next (s.submit .wipe)

/-- A write period whose frame has a code and a body: LENGTH above 61 makes the frame bad (R192), and
any other is read as the request its code and body are. -/
def State.submitBody (s : State) (code : Byte) (body : List Byte) : State :=
  if 60 < body.length then
    if !s.powered then s
    else if s.main.sup.state = .requestPending then
      s.driveMiso (List.replicate (body.length + 4) 0xB0)
    else (s.driveMiso (List.replicate (body.length + 4) 0xFF)).placeBadFrame
  else s.submit (SupervisorRequest.parse code body)

/-- TARIFF ROW (R106): `judgeTariffRow`. Other than 16 fares make a frame of another length. -/
def execTariffRow (cls entryZone : Byte) (fares : List (BitVec 16)) (s : State) : Result :=
  if fares.length = 16 then .next (s.submit (.tariffRow cls entryZone fares))
  else .next (s.submitBody 0x61 (SupervisorRequest.tariffRow cls entryZone fares).body)

/-- A good frame with an unknown code or a wrong body length (R154). The code and body are read as any
frame's are, so a pair that is a request after all is that request. -/
def execSupervisorBadRequest (code : Byte) (body : List Byte) (s : State) : Result :=
  .next (s.submitBody code body)

end Sys2Proof.Machine
end

