-- ==== Sys2Proof/Machine/Links.lean ====
section
/-! DEFINITION. The link events: characters, gaps, framing errors, BREAK and transmission on the station
links (R184 to R190), and the select periods of the supervisor link (R191 to R193). -/

namespace Sys2Proof.Machine

/-! Station links. -/

/-- A station link back in HUNT with nothing received. -/
def Link.hunt (l : Link) : Link := { l with rx := .hunt, buffer := [], rxRate := none }

/-- The frame check of R185 on a whole frame in the buffer: the bytes after the start byte up to the
last body byte against the two check bytes. -/
def frameGood (buffer : List Byte) : Bool :=
  let n := (buffer.getD 1 0).toNat
  (buffer.drop (n + 2)) == crcBytes ((buffer.drop 1).take (n + 1))

/-- The request a good frame carries (R195). -/
def frameOf (buffer : List Byte) : StationFrame :=
  let n := (buffer.getD 1 0).toNat
  ⟨buffer.getD 2 0, StationRequest.parse (buffer.getD 3 0) ((buffer.drop 4).take (n - 2))⟩

/-- A character received in CHECK (R184): the first check byte is stored; the second completes the
frame, which is delivered when its CRC is good and discarded when it is not (R185). -/
def State.checkByte (s : State) (p : Port) (b : Byte) : State :=
  let l := s.link p
  let buffer := l.buffer ++ [b]
  if buffer.length < (buffer.getD 1 0).toNat + 4 then s.setLink p { l with buffer := buffer }
  else
    let s := s.setLink p l.hunt
    if frameGood buffer then s.deliver p (frameOf buffer) else s

/-- A character received on RXDp (R184). -/
def State.receive (s : State) (p : Port) (b : Byte) : State :=
  let l := s.link p
  match l.rx with
  | .hunt =>
    if b = 0xA5 then
      s.setLink p { l with
        rx := .length, buffer := [b], rxRate := some (s.portRate p) }
    else s
  | .length =>
    if 2 ≤ b.toNat ∧ b.toNat ≤ 64 then
      s.setLink p { l with rx := .body, buffer := l.buffer ++ [b] }
    else s.setLink p l.hunt
  | .body =>
    let buffer := l.buffer ++ [b]
    if buffer.length < (buffer.getD 1 0).toNat + 2 then s.setLink p { l with buffer := buffer }
    else s.setLink p { l with rx := .check, buffer := buffer }
  | .check => s.checkByte p b

/-- A character with a good stop bit, so the line is high again after it (R184, R190; log 20). -/
def execStationCharacterReceived (p : Port) (byte : Byte) (s : State) : Result :=
  if s.powered then .next ((s.setLink p { s.link p with lineLow := false }).receive p byte)
  else .next s

/-- A gap timeout or a framing error discards the frame being received; in HUNT neither has an effect
(R186). -/
def State.discardFrame (s : State) (p : Port) : State :=
  if s.powered && (s.link p).rx != .hunt then s.setLink p (s.link p).hunt else s

/-- 10 ms pass between two characters (R186). -/
def execGapTimeout (p : Port) (s : State) : Result := .next (s.discardFrame p)

/-- A character whose stop bit is low (R186). -/
def execFramingError (p : Port) (s : State) : Result := .next (s.discardFrame p)

/-- The changes a session reset makes at once (R149): cursor NONE, FRESH set, the pending frame
discarded, the answer of the request in hand marked not to be sent. That request is still carried out,
under the cursor that the first reset found (R150). -/
def State.sessionReset (s : State) (p : Port) : State :=
  let x := s.session p
  (s.setSession p { x with
      cursor := .none
      fresh := true
      inHand := x.inHand.map fun h => { h with dropped := some (h.dropped.getD x.cursor) } }).setLink p
    { s.link p with pendingSlot := none }

/-- Port p's request in hand is a PIN that waits for the area. -/
def State.waitsToPin (s : State) (p : Port) : Bool :=
  match (s.session p).inHand with
  | some h => h.frame.req == .pin && s.main.waiting.contains (.station p)
  | none => false

/-- A session reset leaves a pin end to be taken: of the pin the port holds, or of the one that its
waiting PIN may still set, whose end follows it (R149, R150). One that already waits to be taken then
is enough. -/
def State.pinEndDue (s : State) (p : Port) : Bool :=
  if s.waitsToPin p then
    !(s.main.waiting.dropWhile (· != .station p)).contains (.sessionPinEnd p)
  else (s.session p).pin.isSome && !s.main.waiting.contains (.sessionPinEnd p)

/-- A BREAK (R188): a session reset of the port. The frame being received is gone, and the end of the
port's pin comes to wait for the area (R149, R175). A line that has not returned high gives no further
BREAK. -/
def execBreak (p : Port) (s : State) : Result :=
  if !s.powered || (s.link p).lineLow then .next s
  else
    let s := if s.running then s.finishApply else s
    let s := s.setLink p { (s.link p).hunt with lineLow := true }
    let s := s.sessionReset p
    .next (if s.pinEndDue p then s.wait (.sessionPinEnd p) else s)

/-- The receive line returns high, so that a further low period is a further BREAK (R188). -/
def execReceiveLineReturnHigh (p : Port) (s : State) : Result :=
  if s.powered then .next (s.setLink p { s.link p with lineLow := false }) else .next s

/-- The last stop bit of an answer is sent (R189): IDLE, OUTSTANDING clear, and the pending frame is
handed on (R187). -/
def execAnswerTransmissionEnd (p : Port) (s : State) : Result :=
  if s.powered && (s.link p).tx.isSome then
    let s := s.setLink p { s.link p with tx := none, outstanding := false }
    .next (s.handOn p).giveArea
  else .next s

/-! The supervisor link. -/

/-- The frame is whole and its check bytes agree (R192). -/
def supervisorFrameGood (bytes : List Byte) : Bool :=
  let n := (bytes.getD 0 0).toNat
  bytes.drop (n + 1) == crcBytes (bytes.take (n + 1))

/-- A write period that begins in IDLE or ANSWER READY, judged at its end on the bytes after the
direction byte, the first case that applies (R192). -/
def State.judgeWrite (s : State) (bytes : List Byte) : State :=
  match bytes with
  | [] => s
  | length :: _ =>
    let n := length.toNat
    if n = 0 ∨ 61 < n then s.placeBadFrame
    else if bytes.length < n + 3 then
      s.setSup { s.main.sup with
        state := .idle, requestBuffer := [], request := none, answer := none }
    else if n + 3 < bytes.length then s.placeBadFrame
    else if supervisorFrameGood bytes then
      s.acceptSupervisor
        (SupervisorRequest.parse (bytes.getD 1 0) ((bytes.drop 2).take (n - 1))) bytes
    else s.placeBadFrame

/-- The bytes of a write period after its direction byte (R192). While a request is pending they change
nothing and MISO carries the BUSY filler. -/
def State.writePeriod (s : State) (bytes : List Byte) : State :=
  if s.main.sup.state = .requestPending then s.driveMiso (List.replicate bytes.length 0xB0)
  else (s.driveMiso (List.replicate bytes.length 0xFF)).judgeWrite bytes

/-- The first `count` of the bytes, with 0FFH for every byte beyond them. -/
def padFF (count : Nat) (bytes : List Byte) : List Byte :=
  bytes.take count ++ List.replicate (count - bytes.length) 0xFF

/-- What a read-answer period returns: the answer frame, or the PENDING or NO ANSWER filler (R193). -/
def SupLink.answerBytes (x : SupLink) : List Byte :=
  match x.state with
  | .idle => [0xC0]
  | .requestPending => [0xD0]
  | .answerReady =>
    match x.answer with
    | some a => a.bytes
    | none => []

/-- A select period, from the bytes MOSI carries in it. The first is the direction byte, judged against
the link state as it then stands; a period that ends before it is complete changes nothing, and with a
value that is no direction MISO carries 0FFH to the end and no state changes (R191; log 18). The status
byte of a read-status period is a read like any other: the model has it show the attention line and BACKUP LOST
as they stand after the apply phase once the mark of another event is set (R175; log 4), and BACKUP LOST as the
start-up check leaves it while the check runs (log 33). A stopped part takes no period (R194). -/
def State.selectPeriod (s : State) : List Byte → State
  | [] => s
  | direction :: bytes =>
    if !s.powered then s
    else if direction = 0x01 then s.writePeriod bytes
    else if direction = 0x02 then s.driveMiso (padFF bytes.length s.main.sup.answerBytes)
    else if direction = 0x03 then
      s.driveMiso (padFF bytes.length [s.main.sup.state.byte, ({ s with ret := s.readRet } : State).statusBits])
    else s.driveMiso (List.replicate bytes.length 0xFF)

/-- A write period: direction byte 01H and the given bytes (R192), one step (log 18). -/
def execWriteRequest (bytes : List Byte) (s : State) : Result :=
  .next (s.selectPeriod (0x01 :: bytes))

/-- A read-answer period: direction byte 02H and `count` bytes, whose values on MOSI are not looked at
(R193). -/
def execReadAnswer (count : Nat) (s : State) : Result :=
  .next (s.selectPeriod (0x02 :: List.replicate count 0))

/-- A read-status period: direction byte 03H and `count` bytes (R193). -/
def execReadLinkStatus (count : Nat) (s : State) : Result :=
  .next (s.selectPeriod (0x03 :: List.replicate count 0))

/-! The transmit lines. -/

/-- The line levels of one character, bit time by bit time: start bit low, eight data bits from the least
significant, stop bit high (R190). -/
def charLevels (b : Byte) : List Bool :=
  [false, b.getLsbD 0, b.getLsbD 1, b.getLsbD 2, b.getLsbD 3, b.getLsbD 4, b.getLsbD 5, b.getLsbD 6,
    b.getLsbD 7, true]

/-- The levels TXDp takes in the link's transmit state: held high while IDLE, and while SENDING, bit time
by bit time, the characters of the answer frame with no pause between them (R183, R189). -/
def Link.txd (l : Link) : List Bool :=
  match l.tx with
  | none => [true]
  | some a => a.frame.bytes.flatMap charLevels

end Sys2Proof.Machine
end

