-- ==== Sys2Proof/Machine/Power.lean ====
section
/-! DEFINITION. Supplies, RESET_N and the start-up check (08_retention_and_start_up), and the progress
the retention controller makes between commands. -/

namespace Sys2Proof.Machine

/-! Stopping and starting. -/

/-- The part stops: what it was doing is cut and main memory is lost (R170, R171). Lost main memory is
shown at its reset values, which the next start-up writes before anything reads it (log 12). -/
def State.stop (s : State) : State := { s with main := Main.reset, check := none }

/-- Retention memory loses its contents and the retention mark (R170). What is left is a free value
(log 12). -/
def State.loseRetention (s : State) : State :=
  { s with
    ret := { Config.lostRetention s.freeCount with mark := false }
    freeCount := s.freeCount + 1 }

/-- The start-up check begins: main memory takes its reset values and the retention mark decides
between a warm and a cold start (steps 1 to 3 of R177, R172). -/
def State.beginCheck (s : State) : State :=
  { s with main := Main.reset, check := some (if s.ret.mark then .settle else .cold) }

/-- A power loss (R170). Without a cell on VBAT retention memory is lost too. -/
def execPowerLoss (s : State) : Result :=
  if s.vdd then
    let s := { s.stop with vdd := false }
    .next (if s.vbat then s else s.loseRetention)
  else .next s

/-- The cell on VBAT is absent or exhausted (R170): with VDD present it has no effect yet. -/
def execVbatLoss (s : State) : Result :=
  let s' := { s with vbat := false }
  .next (if s.vdd || !s.vbat then s' else s'.loseRetention)

/-- A cell is present again on VBAT (R170). -/
def execVbatReturn (s : State) : Result := .next { s with vbat := true }

/-- VDD returns (R170): the start-up check begins, unless RESET_N is held low. -/
def execPowerReturn (s : State) : Result :=
  if s.vdd then .next s
  else
    let s := { s with vdd := true }
    .next (if s.resetLow then s else s.beginCheck)

/-- RESET_N goes low (R171): the part stops; retention memory stays on VDD. -/
def execResetAssert (s : State) : Result :=
  if s.resetLow then .next s else .next { s.stop with resetLow := true }

/-- RESET_N is released (R171): with VDD present the start-up check begins. -/
def execResetRelease (s : State) : Result :=
  if s.resetLow then
    let s := { s with resetLow := false }
    .next (if s.vdd then s.beginCheck else s)
  else .next s

/-! The start-up check. -/

/-- The slot of the first CLOSING account in a list that begins at a slot number. -/
def firstClosing : Nat → List (Option Account) → Option Nat
  | _, [] => none
  | slot, some a :: rest =>
    if a.state = .closing then some slot else firstClosing (slot + 1) rest
  | slot, none :: rest => firstClosing (slot + 1) rest

/-- One notch of the start-up check (R177 to R180). -/
def State.advanceCheck (s : State) (c : Check) : State :=
  match c with
  | .settle => { s with ret := s.ret.settle, check := some (.drains 0) }
  | .drains next =>
    match s.main.holder with
    | some h => if h.phase = .clear then s.endDrain h else s.advanceHolder h
    | none =>
      match firstClosing next (s.ret.accounts.drop next) with
      | some slot =>
        { s.holdArea (.startUpDrain slot) [.acctState slot .drained] [] none with
          check := some (.drains slot) }
      | none => { s with check := some .complete }
  | .cold => { s with ret := { Retained.cold with mark := false }, check := some .coldMark }
  | .coldMark => { s with ret := { s.ret with mark := true }, check := some .complete }
  | .complete => s

/-- Who has something waiting at the end of the start-up check (R181). -/
inductive Waiter where
  | port (p : Port)
  | supervisor
  deriving DecidableEq, Repr

/-- The frames and the request that waited for the end of the start-up check. -/
def State.waiters (s : State) : List Waiter :=
  (Port.all.filter fun p => (s.link p).pendingSlot.isSome).map .port
    ++ (if s.main.sup.request.isSome then [.supervisor] else [])

/-- An order for events that came to wait together, by the free choices from number c on (R175,
log 11). One event needs no choice. -/
def chooseOrder : Nat → Nat → List Waiter → List Waiter
  | 0, _, l => l
  | n + 1, c, l =>
    if l.length ≤ 1 then l
    else
      let i := Config.choice c % l.length
      match l[i]? with
      | some x => x :: chooseOrder n (c + 1) (l.eraseIdx i)
      | none => l

/-- What waited is handed to its owner, and given the area when it needs it and the area is free (R181,
R187, R156, R175). -/
def State.handWaiter (s : State) : Waiter → State
  | .port p => (s.handOn p).giveArea
  | .supervisor => s.handSupervisor.giveArea

/-- The start-up check ends (R181): its remaining steps pass, and the frames and the request that
waited are taken in the order chosen (log 11), one that needs no area after one before it that holds the
area as log 4 says. -/
def State.endCheck (s : State) (c : Check) : State :=
  let s := { s with
    ret := s.ret.checked c
    main := { s.main with holder := none }
    check := none }
  let l := s.waiters
  let s' := { s with freeCount := s.freeCount + (if l.length ≤ 1 then 0 else l.length) }
  (chooseOrder l.length s.freeCount l).foldl State.handWaiter s'

/-- START_UP_CHECK_END: only while a start-up check is in progress (log 9). -/
def execStartUpCheckEnd (s : State) : Result :=
  if s.powered then
    match s.check with
    | some c => .next (s.endCheck c)
    | none => .next s
  else .next s

/-! Between commands. -/

/-- What the block does when no command waits (log 3): the start-up check, or the change in the
staged-change area, moves on by one notch; a free area is given to a waiting event. -/
def State.idle (s : State) : State :=
  if s.powered then
    match s.check with
    | some c => s.advanceCheck c
    | none =>
      match s.main.holder with
      | some h => s.advanceHolder h
      | none => s.giveArea
  else s

end Sys2Proof.Machine
end

