-- ==== Sys2Proof/Machine/Dispatch.lean ====
section
/-! DEFINITION. exec: one arm per command, each the direct call of its meaning. -/

namespace Sys2Proof.Machine

def exec (i : Instr) (s : State) : Host.Outcome State Fault Refusal :=
  match i with
  | .select p seq key => Sys2Proof.Machine.execSelect p seq key s
  | .balance p seq => Sys2Proof.Machine.execBalance p seq s
  | .stationStatus p seq => Sys2Proof.Machine.execStationStatus p seq s
  | .pin p seq => Sys2Proof.Machine.execPin p seq s
  | .unpin p seq => Sys2Proof.Machine.execUnpin p seq s
  | .fare p seq entryZone exitZone trial => Sys2Proof.Machine.execFare p seq entryZone exitZone trial s
  | .hold p seq amount lifetime trial => Sys2Proof.Machine.execHold p seq amount lifetime trial s
  | .capture p seq holdId amount trial => Sys2Proof.Machine.execCapture p seq holdId amount trial s
  | .release p seq holdId => Sys2Proof.Machine.execRelease p seq holdId s
  | .topUp p seq amount trial => Sys2Proof.Machine.execTopUp p seq amount trial s
  | .stationBadRequest p seq code body => Sys2Proof.Machine.execStationBadRequest p seq code body s
  | .openAccount key cls sign initial floor vePresent ve passPresent zones passEnd => Sys2Proof.Machine.execOpenAccount key cls sign initial floor vePresent ve passPresent zones passEnd s
  | .readAccount key => Sys2Proof.Machine.execReadAccount key s
  | .setTerms key clsChange cls floorChange floor veChange ve passChange zones passEnd => Sys2Proof.Machine.execSetTerms key clsChange cls floorChange floor veChange ve passChange zones passEnd s
  | .suspend key => Sys2Proof.Machine.execSuspend key s
  | .resume key => Sys2Proof.Machine.execResume key s
  | .retire key => Sys2Proof.Machine.execRetire key s
  | .confirmRetire key => Sys2Proof.Machine.execConfirmRetire key s
  | .dayRoll => Sys2Proof.Machine.execDayRoll s
  | .enumerate startSlot filter => Sys2Proof.Machine.execEnumerate startSlot filter s
  | .credit key amount => Sys2Proof.Machine.execCredit key amount s
  | .debit key amount => Sys2Proof.Machine.execDebit key amount s
  | .clearUnclaimed => Sys2Proof.Machine.execClearUnclaimed s
  | .cancelHold holdId => Sys2Proof.Machine.execCancelHold holdId s
  | .tariffBegin => Sys2Proof.Machine.execTariffBegin s
  | .tariffRow cls entryZone fares => Sys2Proof.Machine.execTariffRow cls entryZone fares s
  | .tariffCap cls change cap => Sys2Proof.Machine.execTariffCap cls change cap s
  | .tariffCommit => Sys2Proof.Machine.execTariffCommit s
  | .readTariffRow which cls entryZone => Sys2Proof.Machine.execReadTariffRow which cls entryZone s
  | .status => Sys2Proof.Machine.execStatus s
  | .setParameters hlChange holdLimit ptChange pinTime ports => Sys2Proof.Machine.execSetParameters hlChange holdLimit ptChange pinTime ports s
  | .readParameters => Sys2Proof.Machine.execReadParameters s
  | .clearBackupFlag => Sys2Proof.Machine.execClearBackupFlag s
  | .wipe => Sys2Proof.Machine.execWipe s
  | .supervisorBadRequest code body => Sys2Proof.Machine.execSupervisorBadRequest code body s
  | .holdClockAdvance => Sys2Proof.Machine.execHoldClockAdvance s
  | .holdExpiry holdId => Sys2Proof.Machine.execHoldExpiry holdId s
  | .pinExpiry p => Sys2Proof.Machine.execPinExpiry p s
  | .stationCharacterReceived p byte => Sys2Proof.Machine.execStationCharacterReceived p byte s
  | .gapTimeout p => Sys2Proof.Machine.execGapTimeout p s
  | .framingError p => Sys2Proof.Machine.execFramingError p s
  | .breakReceived p => Sys2Proof.Machine.execBreak p s
  | .sessionResetPinEnd p => Sys2Proof.Machine.execSessionResetPinEnd p s
  | .answerTransmissionEnd p => Sys2Proof.Machine.execAnswerTransmissionEnd p s
  | .writeRequest bytes => Sys2Proof.Machine.execWriteRequest bytes s
  | .readAnswer count => Sys2Proof.Machine.execReadAnswer count s
  | .readLinkStatus count => Sys2Proof.Machine.execReadLinkStatus count s
  | .powerLoss => Sys2Proof.Machine.execPowerLoss s
  | .vbatLoss => Sys2Proof.Machine.execVbatLoss s
  | .powerReturn => Sys2Proof.Machine.execPowerReturn s
  | .resetAssert => Sys2Proof.Machine.execResetAssert s
  | .resetRelease => Sys2Proof.Machine.execResetRelease s
  | .vbatReturn => Sys2Proof.Machine.execVbatReturn s
  | .receiveLineReturnHigh p => Sys2Proof.Machine.execReceiveLineReturnHigh p s
  | .startUpCheckEnd => Sys2Proof.Machine.execStartUpCheckEnd s
  | .stagedChangeComplete => Sys2Proof.Machine.execStagedChangeComplete s

end Sys2Proof.Machine
end

