-- ==== Sys2Proof/WellFormed.lean ====
section
/-! DEFINITION. Which commands the links and the block itself can produce: the checks a command of
opcode_table.json meets before any of its own. -/

namespace Sys2Proof

/-- A station request is one that a frame can carry (R184, R199): a request outside the ten has a body
of at most 62 bytes, and its code and body are not one of the ten. -/
def StationRequest.wf : StationRequest → Bool
  | .bad code body =>
    decide (body.length ≤ 62) && StationRequest.parse code body == .bad code body
  | .select _ | .balance | .stationStatus | .pin | .unpin | .fare .. | .hold .. | .capture ..
  | .release _ | .topUp .. => true

/-- A supervisor request is one that a frame can carry (R192, R199): a TARIFF ROW has 16 fares; a request
outside the twenty-three has a body of at most 60 bytes, and its code and body are not one of them. -/
def SupervisorRequest.wf : SupervisorRequest → Bool
  | .tariffRow _ _ fares => fares.length == 16
  | .bad code body =>
    decide (body.length ≤ 60) && SupervisorRequest.parse code body == .bad code body
  | .openAccount .. | .readAccount _ | .setTerms .. | .suspend _ | .resume _ | .retire _
  | .confirmRetire _ | .dayRoll | .enumerate .. | .credit .. | .debit .. | .clearUnclaimed
  | .cancelHold _ | .tariffBegin | .tariffCap .. | .tariffCommit | .readTariffRow .. | .status
  | .setParameters .. | .readParameters | .clearBackupFlag | .wipe => true

/-- A command is one that can arise: its request can be carried by a frame, and the id of an expiring
hold is not 0 (R71). The other rows take any operands. -/
def Instr.wf : Instr → Bool
  | .stationBadRequest _ _ code body => (StationRequest.bad code body).wf
  | .tariffRow cls entryZone fares => (SupervisorRequest.tariffRow cls entryZone fares).wf
  | .supervisorBadRequest code body => (SupervisorRequest.bad code body).wf
  | .holdExpiry holdId => holdId != 0
  | .select .. | .balance .. | .stationStatus .. | .pin .. | .unpin .. | .fare .. | .hold ..
  | .capture .. | .release .. | .topUp .. | .openAccount .. | .readAccount _ | .setTerms ..
  | .suspend _ | .resume _ | .retire _ | .confirmRetire _ | .dayRoll | .enumerate .. | .credit ..
  | .debit .. | .clearUnclaimed | .cancelHold _ | .tariffBegin | .tariffCap .. | .tariffCommit
  | .readTariffRow .. | .status | .setParameters .. | .readParameters | .clearBackupFlag | .wipe
  | .holdClockAdvance | .pinExpiry _ | .stationCharacterReceived .. | .gapTimeout _
  | .framingError _ | .breakReceived _ | .sessionResetPinEnd _ | .answerTransmissionEnd _
  | .writeRequest _ | .readAnswer _ | .readLinkStatus _ | .powerLoss | .vbatLoss | .powerReturn
  | .resetAssert | .resetRelease | .vbatReturn | .receiveLineReturnHigh _ | .startUpCheckEnd
  | .stagedChangeComplete => true

end Sys2Proof
end

