-- ==== Sys2Proof/Safety.lean ====
section
/-! DEFINITION. What statements about the CA-2048 speak of: a part ready for a request, the states an
answer leaves, and the conditions every step keeps. -/

namespace Sys2Proof

/-- The command that is a station request's arrival on a port. -/
def StationFrame.command (f : StationFrame) (p : Port) : Instr :=
  match f.req with
  | .select key => .select p f.seq key
  | .balance => .balance p f.seq
  | .stationStatus => .stationStatus p f.seq
  | .pin => .pin p f.seq
  | .unpin => .unpin p f.seq
  | .fare entryZone exitZone trial => .fare p f.seq entryZone exitZone trial
  | .hold amount lifetime trial => .hold p f.seq amount lifetime trial
  | .capture holdId amount trial => .capture p f.seq holdId amount trial
  | .release holdId => .release p f.seq holdId
  | .topUp amount trial => .topUp p f.seq amount trial
  | .bad code body => .stationBadRequest p f.seq code body

/-- The command that is a supervisor request's write. -/
def SupervisorRequest.command : SupervisorRequest → Instr
  | .openAccount key cls sign initial floor vePresent ve passPresent zones passEnd =>
    .openAccount key cls sign initial floor vePresent ve passPresent zones passEnd
  | .readAccount key => .readAccount key
  | .setTerms key clsChange cls floorChange floor veChange ve passChange zones passEnd =>
    .setTerms key clsChange cls floorChange floor veChange ve passChange zones passEnd
  | .suspend key => .suspend key
  | .resume key => .resume key
  | .retire key => .retire key
  | .confirmRetire key => .confirmRetire key
  | .dayRoll => .dayRoll
  | .enumerate startSlot filter => .enumerate startSlot filter
  | .credit key amount => .credit key amount
  | .debit key amount => .debit key amount
  | .clearUnclaimed => .clearUnclaimed
  | .cancelHold holdId => .cancelHold holdId
  | .tariffBegin => .tariffBegin
  | .tariffRow cls entryZone fares => .tariffRow cls entryZone fares
  | .tariffCap cls change cap => .tariffCap cls change cap
  | .tariffCommit => .tariffCommit
  | .readTariffRow which cls entryZone => .readTariffRow which cls entryZone
  | .status => .status
  | .setParameters hlChange holdLimit ptChange pinTime ports =>
    .setParameters hlChange holdLimit ptChange pinTime ports
  | .readParameters => .readParameters
  | .clearBackupFlag => .clearBackupFlag
  | .wipe => .wipe
  | .bad code body => .supervisorBadRequest code body

end Sys2Proof

namespace Sys2Proof.Machine

/-! A part that can take a request at once. -/

/-- The part takes requests, no event holds the staged-change area or waits for it, and the hold clock
owes no advance. -/
structure State.AreaFree (s : State) : Prop where
  running : s.running = true
  holder : s.main.holder = none
  waiting : s.main.waiting = []
  staged : s.ret.staged = []
  completion : s.ret.completion = false
  owed : s.main.clockOwed = 0

/-- A frame of port p that completes now is handed to the session unit (R187). -/
structure State.StationReady (s : State) (p : Port) : Prop extends s.AreaFree where
  outstanding : (s.link p).outstanding = false

/-- A write period that begins now is taken (R192). -/
structure State.SupervisorReady (s : State) : Prop extends s.AreaFree where
  sup : s.main.sup.state ≠ .requestPending

/-! The states that answers leave. -/

/-- The answer to a frame has been handed to station link p: FRESH and OVERRUN are written into it and
cleared, and the link sends it at the port's rate (R126, R135, R136, R189). -/
def State.withStationAnswer (s : State) (p : Port) (f : StationFrame) (a : Answer)
    (trial replay : Bool) : State :=
  { s with main := { s.main with
      sessions := s.main.sessions.set p
        { s.session p with fresh := false, overrun := false, inHand := none }
      links := s.main.links.set p
        { s.link p with
          outstanding := true
          tx := some ⟨⟨f.seq, f.req.code, a, (s.session p).fresh, (s.session p).overrun, replay,
            trial⟩, s.ret.params.rates.get p⟩ } } }

/-- The answer of a frame with a nonzero sequence number is in the port's reply cache as its newest
entry (R132). -/
def State.withCached (s : State) (p : Port) (f : StationFrame) (a : Answer) (trial : Bool) : State :=
  if f.seq = 0 then s
  else
    { s with ret := { s.ret with
        caches := s.ret.caches.set p
          (enterCache (s.ret.caches.get p) ⟨f.seq, f.req.code, a, trial⟩) } }

/-- A station request has been answered, and its answer cached when its sequence number is nonzero. -/
def State.afterStation (s : State) (p : Port) (f : StationFrame) (a : Answer) : State :=
  (s.withCached p f a f.req.isTrial).withStationAnswer p f a f.req.isTrial false

/-- A supervisor request was written in one write period and its answer has been placed (R153, R191,
R192). -/
def State.afterSupervisor (s : State) (r : SupervisorRequest) (a : Answer) : State :=
  s.setSup
    { state := .answerReady
      requestBuffer := []
      request := none
      answer := some ⟨r.code, a⟩
      miso := List.replicate (r.bytes.length + 1) 0xFF }

/-- A request is done: its command is run, and then the end of the change it staged, if it staged one
(R174). -/
def Done (c : Instr) (s u : State) : Prop :=
  ∃ t, exec c s = .next t ∧ exec .stagedChangeComplete t = .next u

/-- Commands run one after another. -/
def runAll : List Instr → State → Host.Outcome State Fault Refusal
  | [], s => .next s
  | c :: cs, s =>
    match exec c s with
    | .next t => runAll cs t
    | .fault x => .fault x
    | .refused x => .refused x

/-- The acceptance ladder lets a request through to its own checks: its sequence number is not in the
port's reply cache, the port holds its right, its fields pass (R128 to R130). -/
structure State.Accepts (s : State) (p : Port) (f : StationFrame) : Prop extends
    s.StationReady p where
  uncached : s.cached p f.seq = none
  right : f.req.permitted (s.ret.params.rights.get p) = true
  fields : f.req.fieldRefusal = none

/-- A port's pin stands on a slot (R141). -/
def State.PinnedBy (s : State) (slot : Nat) (q : Port) : Prop :=
  ∃ e, (s.session q).pin = some e ∧ e.slot = slot

/-- No port but p pins a slot (R146). -/
def State.FreeFor (s : State) (p : Port) (slot : Nat) : Prop := ∀ q, s.PinnedBy slot q → q = p

/-- The end of a hold leaves a CLOSING account without hold and pin (R28, R93). -/
def State.LastHold (s : State) (h : Hold) : Prop :=
  (∀ g ∈ s.main.pool, g.slot = h.slot → g.id = h.id) ∧ ∀ q, ¬ s.PinnedBy h.slot q

/-- A live slot with its account. -/
def State.Live (s : State) (slot : Nat) (a : Account) : Prop := s.account? slot = some a

/-- The state with another record in a slot. -/
def State.setAccount (s : State) (slot : Nat) (a : Account) : State :=
  { s with ret := { s.ret with accounts := s.ret.accounts.set slot (some a) } }

/-- The state with a record in a slot whose balance moved from its old value together with the float total
(R56). -/
def State.move (s : State) (slot : Nat) (a : Account) (delta : Int) : State :=
  { s with ret := { s.ret with
      accounts := s.ret.accounts.set slot (some { a with balance := a.balance + delta })
      floatTotal := s.ret.floatTotal + delta } }

/-- The state without an active hold; hold lists, held values and counts follow (R72, R73). -/
def State.withoutHold (s : State) (id : Nat) : State :=
  { s with main := { s.main with pool := s.main.pool.filter (·.id != id) } }

/-- The state with an ending recorded at the tail of a port's ended-hold memory; the oldest of four entries
gives way (R91). -/
def State.withEnded (s : State) (p : Port) (id : Nat) (reason : EndReason) : State :=
  let l := s.main.ended.get p
  { s with main := { s.main with
      ended := s.main.ended.set p ((if l.length < 4 then l else l.drop 1) ++ [⟨id, reason⟩]) } }

/-! Conditions on retention memory. -/

/-- The sum of the balances of all live accounts. -/
def Retained.balanceSum (r : Retained) : Int :=
  (r.accounts.map fun x => match x with
    | some a => a.balance
    | none => 0).sum

/-- The float total is the sum of the live balances (R57), and the free list holds exactly the FREE
slots, each once (R39). -/
structure Retained.Ledger (r : Retained) : Prop where
  slots : r.accounts.length = Config.slots
  float : r.floatTotal = r.balanceSum
  freeOnce : r.free.Nodup
  freeSlots : ∀ i, i ∈ r.free ↔ r.accounts[i]? = some none

/-- Each live slot is on exactly one chain, that of its key's bucket; no FREE slot is on a chain; keys are
pairwise distinct (R35). -/
structure Retained.Directory (r : Retained) : Prop where
  buckets : r.chains.length = Config.buckets
  once : ∀ b, (r.chains.getD b []).Nodup
  onChain : ∀ b i, i ∈ r.chains.getD b [] ↔
    ∃ a, r.accounts.getD i none = some a ∧ bucketOf a.key = b
  keys : ∀ i j a b, r.accounts.getD i none = some a → r.accounts.getD j none = some b →
    a.key = b.key → i = j
  freeOnce : r.free.Nodup
  freeSlots : ∀ i, i ∈ r.free → r.accounts[i]? = some none

/-- The fields of a record lie in their ranges on a business day (R1, R4, R5). -/
structure Account.InRange (a : Account) (day : Nat) : Prop where
  key : 1 ≤ a.key ∧ a.key ≤ 9999999999
  cls : a.cls ≤ 7
  balance : -(a.floor : Int) ≤ a.balance ∧ a.balance ≤ Config.maxBalance
  floor : a.floor ≤ 999999
  daySpend : a.daySpend ≤ Config.maxDaySpend
  spendDay : 1 ≤ a.spendDay ∧ a.spendDay ≤ day
  validity : ∀ d, a.validityEnd = some d → 1 ≤ d ∧ d ≤ Config.maxWord
  pass : ∀ x, a.pass = some x → 1 ≤ x.endDay ∧ x.endDay ≤ Config.maxWord

/-- Every record is in range, and so are the business day and the unclaimed total (R1, R13, R60). -/
structure Retained.Records (r : Retained) : Prop where
  day : 1 ≤ r.day ∧ r.day ≤ Config.maxWord
  unclaimed : r.unclaimed ≤ Config.maxTotal
  inRange : ∀ i a, r.accounts.getD i none = some a → a.InRange r.day

/-- Each reply cache holds at most two entries, with distinct, nonzero sequence numbers (R132). -/
def Retained.ReplyCaches (r : Retained) : Prop :=
  ∀ p, (r.caches.get p).length ≤ Config.replyCache ∧ ((r.caches.get p).map (·.seq)).Nodup ∧
    ∀ e ∈ r.caches.get p, e.seq ≠ 0

/-- Retention memory with the recorded change written into its items. -/
def State.appliedRet (s : State) : Retained := applyRets s.ret.staged s.ret

/-- Retention memory can be relied on: the retention mark is intact, or the cold values are written and
only the mark is still to come (R172, R180). -/
def State.trusted (s : State) : Prop :=
  s.ret.mark = true ∨ (s.powered = true ∧ s.check = some .coldMark)

/-- The holder of the staged-change area, the completion mark and the start-up check agree: a stopped part
has no holder; the mark is clear exactly in the holder's write phase, and clear when nothing holds a
settled area; of the start-up check only the drains hold the area (R170, R174, R177 to R180). -/
structure State.Coherent (s : State) : Prop where
  off : s.powered = false → s.main.holder = none
  phase : ∀ h, s.main.holder = some h → (s.ret.completion = true ↔ h.phase ≠ .write)
  free : s.powered = true → s.main.holder = none → s.check ≠ some .settle → s.check ≠ some .cold →
    s.ret.completion = false
  check : ∀ c, s.check = some c → (∀ n, c ≠ .drains n) → s.main.holder = none

/-- Retention memory meets a condition on whichever side of the staged change a power loss would leave
it: as it stands while the completion mark is clear, and with the recorded values written once it is set
(R174, R176). -/
structure State.Upholds (P : Retained → Prop) (s : State) : Prop where
  now : s.ret.completion = false → P s.ret
  next : s.ret.completion = true → P s.appliedRet
  write : ∀ h, s.main.holder = some h → h.phase = .write → P s.appliedRet
  clear : ∀ h, s.main.holder = some h → h.phase = .clear → P s.ret

/-- Retention memory, wherever it can be relied on, meets a condition on both sides of a staged
change. -/
def State.Keeps (P : Retained → Prop) (s : State) : Prop :=
  s.Coherent ∧ (s.trusted → s.Upholds P)

/-! Conditions on main memory. -/

/-- The limits and the uniqueness of the hold pool, and the ended-hold memories beside it (R71, R73, R74,
R77, R91). -/
structure Main.PoolOk (m : Main) : Prop where
  size : m.pool.length ≤ Config.pool
  ids : (m.pool.map (·.id)).Nodup
  fields : ∀ h ∈ m.pool, (1 ≤ h.id ∧ h.id ≤ Config.maxWord) ∧ (1 ≤ h.amount ∧ h.amount ≤ 999999) ∧
    h.expiry < Config.clockModulus
  perPort : ∀ p, m.pool.countP (·.owner == p) ≤ Config.portQuota
  perSlot : ∀ slot, (m.pool.filter (·.slot == slot)).length ≤ Config.holdsPerAccount
  counter : 1 ≤ m.nextId ∧ m.nextId ≤ Config.maxWord
  ended : ∀ p, (m.ended.get p).length ≤ Config.endedMemory ∧ ((m.ended.get p).map (·.id)).Nodup
  notActive : ∀ p, ∀ e ∈ m.ended.get p, ∀ h ∈ m.pool, e.id ≠ h.id

/-- Main memory once the effects of the event that holds the area are made. -/
def State.appliedMain (s : State) : Main :=
  match s.main.holder with
  | some h =>
    if h.phase = .clear then s.main else h.mains.foldl (fun m w => applyMain w m) s.main
  | none => s.main

/-- The hold pool is within its limits, before and after the effects of the event that holds the area. -/
def State.PoolSound (s : State) : Prop := s.main.PoolOk ∧ s.appliedMain.PoolOk

/-- A cursor of a port: that of its session, or the one a dropped request of it is still carried out under
(log 7). -/
def Session.HasCursor (x : Session) (c : Cursor) : Prop :=
  x.cursor = c ∨ ∃ h, x.inHand = some h ∧ h.dropped = some c

/-- A port's pin stands on a slot (R141). -/
def Main.Pinned (m : Main) (p : Port) (slot : Nat) : Prop :=
  ∃ e, (m.sessions.get p).pin = some e ∧ e.slot = slot

/-- The account table and main memory agree. -/
structure Agree (r : Retained) (m : Main) : Prop where
  /-- Balance + floor − held is at least 0 (R9). -/
  funds : ∀ i a, r.accounts.getD i none = some a →
    (((m.pool.filter (·.slot == i)).map (·.amount)).sum : Nat) ≤ a.balance + a.floor
  /-- A hold stands on an OPEN, SUSPENDED or CLOSING account (R72). -/
  holds : ∀ h ∈ m.pool, ∃ a, r.accounts.getD h.slot none = some a ∧ a.state ≠ .drained
  /-- So does a pin (R141). -/
  pins : ∀ p slot, m.Pinned p slot → ∃ a, r.accounts.getD slot none = some a ∧ a.state ≠ .drained
  /-- At most one port pins an account (R141). -/
  onePin : ∀ p q slot, m.Pinned p slot → m.Pinned q slot → p = q
  /-- A SET cursor holds a live slot and its account's key (R137). -/
  cursors : ∀ p slot key, (m.sessions.get p).HasCursor (.sel slot key) →
    ∃ a, r.accounts.getD slot none = some a ∧ a.key = key
  /-- A CLOSING account has a hold or a pin (R28). -/
  closing : ∀ i a, r.accounts.getD i none = some a → a.state = .closing →
    (∃ h ∈ m.pool, h.slot = i) ∨ ∃ p, m.Pinned p i

/-- No account below a slot is CLOSING. -/
def Retained.NoClosingBelow (r : Retained) (n : Nat) : Prop :=
  ∀ i a, i < n → r.accounts.getD i none = some a → a.state ≠ .closing

/-- Retention memory with the change in the area, if the holder has not written it all. -/
def State.settledRet (s : State) (h : Holder) : Retained :=
  if h.phase = .clear then s.ret else s.appliedRet

/-- The account table and main memory agree on both sides of a staged change, while the part takes requests.
Before that main memory names no account, and the start-up check leaves no CLOSING account behind it (R177,
R179). -/
structure State.Agrees (s : State) : Prop where
  mark : s.powered = true → s.check ≠ some .cold → s.check ≠ some .coldMark → s.ret.mark = true
  stopped : s.running = false → s.main.pool = [] ∧ (∀ h, s.main.holder = some h → h.mains = []) ∧
    ∀ p, (s.session p).cursor = .none ∧ (s.session p).pin = none ∧ (s.session p).inHand = none
  drains : ∀ n, s.check = some (.drains n) →
    (s.main.holder = none → s.ret.NoClosingBelow n) ∧
    ∀ h slot, s.main.holder = some h → h.event = .startUpDrain slot →
      (s.settledRet h).NoClosingBelow (slot + 1)
  checked : s.check = some .coldMark ∨ s.check = some .complete → ∀ n, s.ret.NoClosingBelow n
  now : s.running = true → s.ret.completion = false → Agree s.ret s.main
  next : s.running = true → ∀ h, s.main.holder = some h → Agree (s.settledRet h) s.appliedMain

/-- Second after second, to which the hold clock moves (R74). -/
def nextSecond (c : Nat) : Nat := (c + 1) % Config.clockModulus

/-- A hold or a pin whose expiry second is a clock value stands (R74). -/
def Main.Due (m : Main) (second : Nat) : Prop :=
  (∃ h ∈ m.pool, h.expiry = second) ∨ ∃ p e, (m.sessions.get p).pin = some e ∧ e.expiry = second

/-- Main memory when the clock has made as many of the advances it owes as it can: it stops at the first
second at which a hold or a pin is due (R74; log 10). -/
def Main.CaughtUp (m m' : Main) : Prop :=
  ∃ k, k ≤ m.clockOwed ∧ (∀ j, j < k → ¬ m.Due (nextSecond^[j] m.clock)) ∧
    (k < m.clockOwed → m.Due (nextSecond^[k] m.clock)) ∧
    m' = { m with clock := nextSecond^[k] m.clock, clockOwed := m.clockOwed - k }

/-! Answers and the staged-change area. -/

/-- The event that holds the staged-change area, and those that wait for it, in their order. -/
def State.areaEvents (s : State) : List AreaEvent :=
  (s.main.holder.map (·.event)).toList ++ s.main.waiting

/-- The event is a request, which is answered. -/
def AreaEvent.isRequest : AreaEvent → Bool
  | .station _ | .supervisor => true
  | .holdExpiry _ | .pinExpiry _ | .sessionPinEnd _ | .startUpDrain _ => false

/-- No answer announces a change before the change is safe: a request that holds the area or waits for it
has no answer on its link, and is the one its port or the supervisor link waits for (R126, R153, R174). -/
structure State.AnswersKept (s : State) : Prop where
  station : ∀ p, .station p ∈ s.areaEvents → (s.session p).inHand ≠ none
  inHand : ∀ p, (s.session p).inHand ≠ none → (s.link p).outstanding = true ∧ (s.link p).tx = none
  sending : ∀ p, (s.link p).tx ≠ none → (s.link p).outstanding = true
  supervisor : .supervisor ∈ s.areaEvents → s.main.sup.request ≠ none
  request : s.main.sup.request ≠ none →
    s.main.sup.state = .requestPending ∧ s.main.sup.answer = none
  once : (s.areaEvents.filter AreaEvent.isRequest).Nodup
  reply : ∀ h, s.main.holder = some h → (h.reply ≠ none ↔ h.event.isRequest = true)
  stopped : s.running = false → ∀ e ∈ s.areaEvents, e.isRequest = false

end Sys2Proof.Machine
end

