-- ==== Sys2Proof/Certificates/Slice0/Obligations.lean ====
section
/-! DEFINITION. The statements about the CA-2048. Unless a statement says otherwise it gives the whole next
state, so that what it does not name is unchanged. `Done c s u` runs a request's command and then the end
of the staged change it made, if it made one. -/

open Sys2Proof Sys2Proof.Machine

/-! The queue, reset, the area. -/

/-- With a command at the front of the queue, a step is that command on the state with the rest of the
queue. -/
def Obligations.StepRunsTheFrontCommand : Prop :=
  ∀ (s : State) (c : Instr) (rest : List Instr),
    s.pending = c :: rest → step s = exec c { s with pending := rest }

/-- The state after reset holds the cold values of R180 and the reset values of step 1 of R177; that the
first start-up check has ended with VBAT present is the model's choice (log 2). RATE IN USE in HUNT is the port's
rate (log 21). -/
def Obligations.ResetHoldsTheColdValues : Prop :=
  (State.reset.pending = [] ∧ State.reset.vdd = true ∧ State.reset.vbat = true ∧
    State.reset.resetLow = false ∧ State.reset.check = none) ∧
  (State.reset.ret.accounts.length = 2048 ∧ (∀ i, State.reset.account? i = none) ∧
    State.reset.ret.day = 1 ∧
    State.reset.ret.chains.length = 1021 ∧ (∀ b, State.reset.chain b = []) ∧
    State.reset.ret.free = List.range 2048 ∧
    State.reset.ret.floatTotal = 0 ∧ State.reset.ret.unclaimed = 0) ∧
  (∀ b, (State.reset.ret.bank b).gen = 0 ∧
    (∀ cls entryZone exitZone, cls < 8 → entryZone < 16 → exitZone < 16 →
      (State.reset.ret.bank b).entry cls entryZone exitZone = 9999) ∧
    ∀ cls, (State.reset.ret.bank b).cap cls = none) ∧
  (State.reset.ret.selector = none ∧ State.reset.ret.activeGen = 0 ∧
    State.reset.ret.params.holdLimit = 300 ∧ State.reset.ret.params.pinTime = 5 ∧
    (∀ p, State.reset.ret.params.rights.get p = ⟨true, true, false⟩ ∧
      State.reset.ret.params.rates.get p = .r19200 ∧ State.reset.ret.caches.get p = []) ∧
    State.reset.ret.staged = [] ∧ State.reset.ret.completion = false ∧
    State.reset.ret.backupLost = true ∧ State.reset.ret.mark = true) ∧
  (∀ p, (State.reset.session p).cursor = .none ∧ (State.reset.session p).fresh = true ∧
    (State.reset.session p).overrun = false ∧ (State.reset.session p).pin = none ∧
    (State.reset.link p).rx = .hunt ∧ (State.reset.link p).buffer = [] ∧
    (State.reset.link p).pendingSlot = none ∧ (State.reset.link p).outstanding = false ∧
    (State.reset.link p).tx = none ∧ (State.reset.link p).txd = [true] ∧
    State.reset.rateInUse p = .r19200 ∧ State.reset.main.ended.get p = []) ∧
  (State.reset.main.pool = [] ∧ State.reset.main.clock = 0 ∧ State.reset.main.nextId = 1 ∧
    State.reset.main.loading = false ∧ State.reset.main.loaded = [] ∧
    State.reset.main.sup.state = .idle ∧ State.reset.main.sup.requestBuffer = [] ∧
    State.reset.main.sup.answer = none ∧ State.reset.attn = true)

/-- No answer announces a change before the change is safe. A request whose change is in the area has only its place
on the link, the area and its holder changed, and the end of the change places the answer it came to. Through every
step, from the write phase to the end of the clear phase, a request that holds the area or waits for it has no answer
on its link. -/
def Obligations.NoAnswerBeforeTheChangeIsSafe : Prop :=
  (∀ (s t : State) (p : Port) (f : StationFrame), f.req.wf = true → s.StationReady p →
    exec (f.command p) s = .next t → t.main.holder.isSome = true →
      ∃ writes mains reply, writes ≠ [] ∧
      t = { s with
        ret := { s.ret with staged := writes, completion := false }
        main := { s.main with
          sessions := s.main.sessions.set p { s.session p with inHand := some ⟨f, none⟩ }
          links := s.main.links.set p { s.link p with outstanding := true }
          holder := some ⟨.station p, .write, mains, some reply⟩ } } ∧
      ∃ u a, exec .stagedChangeComplete t = .next u ∧ (u.link p).tx = some a ∧
        a.frame.seq = f.seq ∧ a.frame.code = f.req.code ∧ a.frame.answer = reply.answer) ∧
  (∀ (s t : State) (r : SupervisorRequest), r.wf = true → s.SupervisorReady →
    exec r.command s = .next t → t.main.holder.isSome = true →
      ∃ writes mains reply, writes ≠ [] ∧
      t = { s with
        ret := { s.ret with staged := writes, completion := false }
        main := { s.main with
          sup :=
            { state := .requestPending
              requestBuffer := r.bytes
              request := some r
              answer := none
              miso := List.replicate (r.bytes.length + 1) 0xFF }
          holder := some ⟨.supervisor, .write, mains, some reply⟩ } } ∧
      ∃ u, exec .stagedChangeComplete t = .next u ∧ u.main.sup.state = .answerReady ∧
        u.main.sup.answer = some ⟨r.code, reply.answer⟩) ∧
  ∀ s t : State, s.AnswersKept → step s = .next t → t.AnswersKept

/-! The acceptance ladder. -/

/-- A frame with an unknown code or a wrong body length is answered BAD_REQUEST with no output fields, and
the answer is cached when its sequence number is nonzero; nothing else changes. TRIAL clear on it is the model's
reading (log 14). -/
def Obligations.BadStationRequestIsAnsweredAndCached : Prop :=
  ∀ (s : State) (p : Port) (seq code : Byte) (body : List Byte),
    (StationRequest.bad code body).wf = true → s.StationReady p →
    Done (.stationBadRequest p seq code body) s
      (s.afterStation p ⟨seq, .bad code body⟩ ⟨.badRequest, []⟩)

/-- A request under a cached sequence number is answered at once and changes nothing else: by the cached answer with
REPLAY when the code is the same, by SEQ_CLASH otherwise. TRIAL on a SEQ_CLASH, and on the
replay of a real answer to a request that carries TRIAL 01H, is as log 14 says. -/
def Obligations.CachedSequenceIsReplayedOrClashes : Prop :=
  ∀ (s : State) (p : Port) (f : StationFrame) (e : CacheEntry),
    (∀ c b, f.req ≠ .bad c b) → s.StationReady p → f.seq ≠ 0 → e.seq = f.seq →
    (∀ x ∈ s.ret.caches.get p, x.seq = f.seq → x = e) → e ∈ s.ret.caches.get p →
    (e.code = f.req.code →
      exec (f.command p) s = .next (s.withStationAnswer p f e.answer e.trial true)) ∧
    (e.code ≠ f.req.code →
      exec (f.command p) s =
        .next (s.withStationAnswer p f ⟨.seqClash, []⟩ f.req.isTrial false))

/-- A port without the right a request needs is answered NO_RIGHT with every output zero; only the reply
cache and the answer change. -/
def Obligations.MissingRightIsAnsweredNoRight : Prop :=
  ∀ (s : State) (p : Port) (f : StationFrame), s.StationReady p → s.cached p f.seq = none →
    ((∃ e x t, f.req = .fare e x t) ∧ (s.ret.params.rights.get p).fare = false ∨
      ((∃ a l t, f.req = .hold a l t) ∨ (∃ h a t, f.req = .capture h a t) ∨
        ∃ h, f.req = .release h) ∧ (s.ret.params.rights.get p).hold = false ∨
      (∃ a t, f.req = .topUp a t) ∧ (s.ret.params.rights.get p).topUp = false) →
    Done (f.command p) s (s.afterStation p f ⟨.noRight, f.req.zeroBody⟩)

/-- The field step of the ladder: bad digits are answered BAD_DIGIT before any range failure, and a field
out of range RANGE, with every output zero; only the reply cache and the answer change. -/
def Obligations.StationFieldsAreChecked : Prop :=
  ∀ (s : State) (p : Port) (f : StationFrame), s.StationReady p → s.cached p f.seq = none →
    f.req.permitted (s.ret.params.rights.get p) = true →
    (((∃ k, f.req = .select k ∧ digitsOk 10 k.toNat = false) ∨
      (∃ a l t, f.req = .hold a l t ∧ digitsOk 6 a.toNat = false) ∨
      (∃ h a t, f.req = .capture h a t ∧ digitsOk 6 a.toNat = false) ∨
      ∃ a t, f.req = .topUp a t ∧ digitsOk 6 a.toNat = false) →
      Done (f.command p) s (s.afterStation p f ⟨.badDigit, f.req.zeroBody⟩)) ∧
    ((f.req = .select 0 ∨
      (∃ e x t, f.req = .fare e x t ∧ (15 < e.toNat ∨ 15 < x.toNat ∨ 1 < t.toNat)) ∨
      (∃ a l t, f.req = .hold a l t ∧ digitsOk 6 a.toNat = true ∧
        (a = 0 ∨ l = 0 ∨ 3600 < l.toNat ∨ 1 < t.toNat)) ∨
      (∃ h a t, f.req = .capture h a t ∧ digitsOk 6 a.toNat = true ∧ (h = 0 ∨ 1 < t.toNat)) ∨
      (f.req = .release 0) ∨
      ∃ a t, f.req = .topUp a t ∧ digitsOk 6 a.toNat = true ∧ (a = 0 ∨ 1 < t.toNat)) →
      Done (f.command p) s (s.afterStation p f ⟨.range, f.req.zeroBody⟩))

/-- A request that needs the cursor is refused NO_SELECTION when it is NONE and STALE when it is GONE, with
every output zero. -/
def Obligations.CursorlessRequestIsRefused : Prop :=
  ∀ (s : State) (p : Port) (f : StationFrame), s.Accepts p f →
    (f.req = .balance ∨ f.req = .pin ∨ (∃ e x t, f.req = .fare e x t) ∨
      (∃ a l t, f.req = .hold a l t) ∨ ∃ a t, f.req = .topUp a t) →
    ((s.session p).cursor = .none →
      Done (f.command p) s (s.afterStation p f ⟨.noSelection, f.req.zeroBody⟩)) ∧
    ((s.session p).cursor = .gone →
      Done (f.command p) s (s.afterStation p f ⟨.stale, f.req.zeroBody⟩))

/-- FARE, HOLD and TOP-UP are refused PINNED on an account another port pins, then WRONG_STATE on one that is
not OPEN, then EXPIRED on one out of validity, and change nothing but the reply cache. -/
def Obligations.SpendingIsRefusedInOrder : Prop :=
  ∀ (s : State) (p : Port) (f : StationFrame) (slot key : Nat) (a : Account), s.Accepts p f →
    ((∃ e x t, f.req = .fare e x t) ∨ (∃ n l t, f.req = .hold n l t) ∨ ∃ n t, f.req = .topUp n t) →
    (s.session p).cursor = .sel slot key → s.Live slot a →
    let body := match f.req with
      | .fare .. => fareBody key 0 0 false false a.balance (s.available slot a) s.ret.activeGen
      | .hold .. => holdBody key 0 0 (s.available slot a)
      | _ => topUpBody key 0 a.balance (s.available slot a)
    ((∃ q, q ≠ p ∧ s.PinnedBy slot q ∧ ∀ q', s.PinnedBy slot q' → q' = q) →
      Done (f.command p) s (s.afterStation p f ⟨.pinned, body⟩)) ∧
    (s.FreeFor p slot → a.state ≠ .opened →
      Done (f.command p) s (s.afterStation p f ⟨.wrongState, body⟩)) ∧
    (s.FreeFor p slot → a.state = .opened →
      (∃ d, a.validityEnd = some d ∧ d < s.ret.day) →
      Done (f.command p) s (s.afterStation p f ⟨.expired, body⟩))

/-- A trial FARE, HOLD, CAPTURE or TOP-UP changes nothing but its answer's place in the reply cache and on
the link, and its answer is the one the same request without the flag gets at that moment. -/
def Obligations.TrialChangesNothing : Prop :=
  ∀ (s : State) (p : Port) (f g : StationFrame), s.Accepts p f → s.Accepts p g →
    ((∃ e x, f.req = .fare e x 1 ∧ g.req = .fare e x 0) ∨
      (∃ n l, f.req = .hold n l 1 ∧ g.req = .hold n l 0) ∨
      (∃ h n, f.req = .capture h n 1 ∧ g.req = .capture h n 0) ∨
      ∃ n, f.req = .topUp n 1 ∧ g.req = .topUp n 0) →
    ∃ answer, Done (f.command p) s (s.afterStation p f answer) ∧
      ∃ u a, Done (g.command p) s u ∧ (u.link p).tx = some a ∧ a.frame.answer = answer

/-! Sessions. -/

/-- SELECT of a key that is found sets the cursor on its slot, whatever the account's state, and reports the
account; of a key that is not, it makes the cursor NONE with every output zero. -/
def Obligations.SelectSetsTheCursor : Prop :=
  ∀ (s : State) (p : Port) (seq : Byte) (key : BitVec 40), s.Accepts p ⟨seq, .select key⟩ →
    (∀ slot a, s.lookup (keyOf key) = some slot → s.Live slot a →
      Done (.select p seq key) s
        ((s.setSession p { s.session p with cursor := .sel slot (keyOf key) }).afterStation p
          ⟨seq, .select key⟩
          ⟨.ok, selectBody (keyOf key) (some a.state) a.balance (s.available slot a)
            (a.outOfValidity s.ret.day) ((s.pinOn slot).map (·.1))⟩)) ∧
    (s.lookup (keyOf key) = none →
      Done (.select p seq key) s
        ((s.setSession p { s.session p with cursor := .none }).afterStation p ⟨seq, .select key⟩
          ⟨.unknownKey, selectBody 0 none 0 0 false none⟩))

/-- The directory's lookup finds exactly the live account with the key, in any state. -/
def Obligations.LookupFindsTheLiveAccount : Prop :=
  ∀ (s : State) (key slot : Nat), s.ret.Directory →
    (s.lookup key = some slot ↔ ∃ a, s.Live slot a ∧ a.key = key)

/-- BALANCE and STATION STATUS report the cursor's account and the port's own session, and change nothing but the
reply cache. The one byte of OTHER HOLDS, and one byte each for the sequence number and the code of a CACHED entry,
are the model's readings (log 13). -/
def Obligations.StationReadsChangeNothing : Prop :=
  (∀ (s : State) (p : Port) (seq : Byte) (slot key : Nat) (a : Account),
    s.Accepts p ⟨seq, .balance⟩ → (s.session p).cursor = .sel slot key → s.Live slot a →
    Done (.balance p seq) s (s.afterStation p ⟨seq, .balance⟩
      ⟨.ok, keyB key ++ stateB (some a.state) ++ balanceB a.balance
        ++ dec 4 ((s.main.pool.filter (·.slot == slot)).map (·.amount)).sum
        ++ availableB (a.balance + a.floor -
            (((s.main.pool.filter (·.slot == slot)).map (·.amount)).sum : Nat))
        ++ dec 3 (if a.spendDay = s.ret.day then a.daySpend else 0)
        ++ flag (a.outOfValidity s.ret.day) ++ flag (a.passInForce s.ret.day)
        ++ listB ((s.main.pool.filter (fun h => h.slot == slot && h.owner == p)).map fun h =>
            word h.id ++ dec 3 h.amount ++ word (s.secondsLeft h.expiry))
        ++ byte1 (s.main.pool.countP fun h => h.slot == slot && h.owner != p)
        ++ optionalB 3 ((s.pinOn slot).map fun (q, e) =>
            byte1 q.toNat ++ word (s.secondsLeft e.expiry))⟩)) ∧
  (∀ (s : State) (p : Port) (seq : Byte), s.Accepts p ⟨seq, .stationStatus⟩ →
    Done (.stationStatus p seq) s (s.afterStation p ⟨seq, .stationStatus⟩
      ⟨.ok, byte1 p.toNat ++ cursorB (s.session p).cursor
        ++ (match (s.session p).cursor with
            | .sel _ key => 1 :: keyB key
            | _ => [0, 0, 0, 0, 0, 0])
        ++ [(s.ret.params.rights.get p).byte]
        ++ (match (s.session p).pin with
            | some e => 1 :: keyB (s.keyAt e.slot) ++ word (s.secondsLeft e.expiry)
            | none => [0, 0, 0, 0, 0, 0, 0, 0])
        ++ byte1 (s.main.pool.countP (·.owner == p))
        ++ listB ((s.main.ended.get p).map fun e => word e.id ++ reasonB e.reason)
        ++ listB ((s.ret.caches.get p).map fun e => [e.seq, e.code])
        ++ word s.ret.params.holdLimit ++ byte1 s.ret.params.pinTime ++ word s.ret.day
        ++ word s.ret.activeGen⟩))

/-- PIN is refused PINNED, with the holder, on an account another port pins, and WRONG_STATE on a CLOSING or
DRAINED one. Otherwise it pins the cursor's account for PIN TIME seconds: a new entry, a re-armed one, or one
moved from another account, which drains when it is CLOSING without a hold. -/
def Obligations.PinSetsRearmsOrMoves : Prop :=
  ∀ (s : State) (p : Port) (seq : Byte) (slot key : Nat) (a : Account),
    s.Accepts p ⟨seq, .pin⟩ → (s.session p).cursor = .sel slot key → s.Live slot a →
    (∀ q, q ≠ p → s.PinnedBy slot q → (∀ q', s.PinnedBy slot q' → q' = q) →
      Done (.pin p seq) s (s.afterStation p ⟨seq, .pin⟩
        ⟨.pinned, pinBody key 0 0 none (some q)⟩)) ∧
    (s.FreeFor p slot → (a.state = .closing ∨ a.state = .drained) →
      Done (.pin p seq) s (s.afterStation p ⟨seq, .pin⟩
        ⟨.wrongState, pinBody key 0 0 none none⟩)) ∧
    (s.FreeFor p slot → (a.state = .opened ∨ a.state = .suspended) →
      let pinned : State := s.setSession p { s.session p with
        pin := some ⟨slot, (s.main.clock + s.ret.params.pinTime) % 4294967296⟩ }
      ((s.session p).pin = none →
        Done (.pin p seq) s (pinned.afterStation p ⟨seq, .pin⟩
          ⟨.ok, pinBody key 1 s.ret.params.pinTime none none⟩)) ∧
      (∀ expiry, (s.session p).pin = some ⟨slot, expiry⟩ →
        Done (.pin p seq) s (pinned.afterStation p ⟨seq, .pin⟩
          ⟨.ok, pinBody key 2 s.ret.params.pinTime none none⟩)) ∧
      (∀ old expiry b, (s.session p).pin = some ⟨old, expiry⟩ → old ≠ slot → s.Live old b →
        (b.state = .closing ∧ (∀ h ∈ s.main.pool, h.slot ≠ old) →
          Done (.pin p seq) s ((pinned.setAccount old { b with state := .drained }).afterStation p
            ⟨seq, .pin⟩ ⟨.ok, pinBody key 3 s.ret.params.pinTime (some b.key) none⟩)) ∧
        (b.state ≠ .closing ∨ (∃ h ∈ s.main.pool, h.slot = old) →
          Done (.pin p seq) s (pinned.afterStation p ⟨seq, .pin⟩
            ⟨.ok, pinBody key 3 s.ret.params.pinTime (some b.key) none⟩))))

/-- UNPIN removes the port's pin, draining a CLOSING account without a hold, and answers NO PIN when the port
holds none. -/
def Obligations.UnpinReleasesThePin : Prop :=
  ∀ (s : State) (p : Port) (seq : Byte), s.Accepts p ⟨seq, .unpin⟩ →
    ((s.session p).pin = none →
      Done (.unpin p seq) s (s.afterStation p ⟨seq, .unpin⟩ ⟨.ok, byte1 2 ++ keyB 0⟩)) ∧
    (∀ slot expiry a, (s.session p).pin = some ⟨slot, expiry⟩ → s.Live slot a →
      let unpinned : State := s.setSession p { s.session p with pin := none }
      (a.state = .closing ∧ (∀ h ∈ s.main.pool, h.slot ≠ slot) →
        Done (.unpin p seq) s ((unpinned.setAccount slot { a with state := .drained }).afterStation p
          ⟨seq, .unpin⟩ ⟨.ok, byte1 1 ++ keyB a.key⟩)) ∧
      (a.state ≠ .closing ∨ (∃ h ∈ s.main.pool, h.slot = slot) →
        Done (.unpin p seq) s (unpinned.afterStation p ⟨seq, .unpin⟩
          ⟨.ok, byte1 1 ++ keyB a.key⟩)))

/-! The value unit. -/

/-- TOP-UP raises the balance and the float total by the amount, and is refused OVERFLOW when the balance
would pass 99,999,999. -/
def Obligations.TopUpAddsValue : Prop :=
  ∀ (s : State) (p : Port) (seq : Byte) (amount : BitVec 24) (slot key : Nat) (a : Account),
    s.Accepts p ⟨seq, .topUp amount 0⟩ → (s.session p).cursor = .sel slot key → s.Live slot a →
    s.FreeFor p slot → a.state = .opened → a.outOfValidity s.ret.day = false →
    (a.balance + amount6 amount ≤ 99999999 →
      Done (.topUp p seq amount 0) s
        ((s.move slot a (amount6 amount)).afterStation p ⟨seq, .topUp amount 0⟩
          ⟨.ok, topUpBody key (amount6 amount) (a.balance + amount6 amount)
            (s.available slot a + amount6 amount)⟩)) ∧
    (99999999 < a.balance + amount6 amount →
      Done (.topUp p seq amount 0) s (s.afterStation p ⟨seq, .topUp amount 0⟩
        ⟨.overflow, topUpBody key 0 a.balance (s.available slot a)⟩))

/-- CREDIT and DEBIT move the balance and the float total of a live account in any state; CREDIT is refused
OVERFLOW above 99,999,999 and DEBIT NO_FUNDS above available. -/
def Obligations.CreditAndDebitMoveValue : Prop :=
  ∀ (s : State) (key : BitVec 40) (amount : BitVec 32) (slot : Nat) (a : Account),
    s.SupervisorReady → keyDigits key = true → amount8Digits amount = true → keyOf key ≠ 0 →
    amount8 amount ≠ 0 → s.lookup (keyOf key) = some slot → s.Live slot a →
    (a.balance + amount8 amount ≤ 99999999 →
      Done (.credit key amount) s ((s.move slot a (amount8 amount)).afterSupervisor
        (.credit key amount) ⟨.ok, creditBody (some a.state) (a.balance + amount8 amount)
          (s.available slot a + amount8 amount)⟩)) ∧
    (99999999 < a.balance + amount8 amount →
      Done (.credit key amount) s (s.afterSupervisor (.credit key amount)
        ⟨.overflow, creditBody (some a.state) a.balance (s.available slot a)⟩)) ∧
    (amount8 amount ≤ s.available slot a →
      Done (.debit key amount) s ((s.move slot a (-amount8 amount)).afterSupervisor
        (.debit key amount) ⟨.ok, creditBody (some a.state) (a.balance - amount8 amount)
          (s.available slot a - amount8 amount)⟩)) ∧
    (s.available slot a < amount8 amount →
      Done (.debit key amount) s (s.afterSupervisor (.debit key amount)
        ⟨.noFunds, creditBody (some a.state) a.balance (s.available slot a)⟩))

/-! Holds. -/

/-- The id a HOLD is given is the first one from the counter on, in the order that passes from 65535 to 1,
that no active hold has. -/
def Obligations.HoldIdIsTheFirstUnused : Prop :=
  ∀ s : State, s.main.pool.length ≤ 384 → 1 ≤ s.main.nextId → s.main.nextId ≤ 65535 →
    (∀ h ∈ s.main.pool, h.id ≠ s.assignedId) ∧
    1 ≤ s.assignedId ∧ s.assignedId ≤ 65535 ∧
    ∃ n, s.assignedId = nextIdAfter^[n] s.main.nextId ∧
      ∀ m, m < n → ∃ h ∈ s.main.pool, h.id = nextIdAfter^[m] s.main.nextId

/-- A HOLD that passes every check adds one hold at the tail of the pool, with the assigned id, the cursor's
slot, the requesting port, the amount and the expiry second of the shorter of the lifetime asked for and HOLD
LIMIT; the counter passes the id and the id leaves every ended-hold memory. -/
def Obligations.HoldReserves : Prop :=
  ∀ (s : State) (p : Port) (seq : Byte) (amount : BitVec 24) (lifetime : BitVec 16)
    (slot key : Nat) (a : Account),
    s.Accepts p ⟨seq, .hold amount lifetime 0⟩ → (s.session p).cursor = .sel slot key →
    s.Live slot a → s.FreeFor p slot → a.state = .opened → a.outOfValidity s.ret.day = false →
    (s.main.pool.filter (·.slot == slot)).length < 4 →
    amount6 amount ≤ s.available slot a →
    s.main.pool.countP (·.owner == p) < 128 → s.main.pool.length < 384 →
    let id := s.assignedId
    let granted := min lifetime.toNat s.ret.params.holdLimit
    Done (.hold p seq amount lifetime 0) s
      (({ s with main := { s.main with
          pool := s.main.pool ++
            [⟨id, slot, p, amount6 amount, (s.main.clock + granted) % 4294967296⟩]
          nextId := if id = 65535 then 1 else id + 1
          ended := s.main.ended.map fun l => l.filter (·.id != id) } } : State).afterStation p
        ⟨seq, .hold amount lifetime 0⟩
        ⟨.ok, holdBody key id granted (s.available slot a - amount6 amount)⟩)

/-- HOLD's checks 5 to 8 are made in this order: four holds on the account, funds, the port's quota, the
pool. -/
def Obligations.HoldLimitsAreCheckedInOrder : Prop :=
  ∀ (s : State) (p : Port) (seq : Byte) (amount : BitVec 24) (lifetime : BitVec 16) (trial : Byte)
    (slot key : Nat) (a : Account),
    s.Accepts p ⟨seq, .hold amount lifetime trial⟩ → (s.session p).cursor = .sel slot key →
    s.Live slot a → s.FreeFor p slot → a.state = .opened → a.outOfValidity s.ret.day = false →
    let n := (s.main.pool.filter (·.slot == slot)).length
    let refused := fun code => Done (.hold p seq amount lifetime trial) s
      (s.afterStation p ⟨seq, .hold amount lifetime trial⟩
        ⟨code, holdBody key 0 0 (s.available slot a)⟩)
    (4 ≤ n → refused .holdLimit) ∧
    (n < 4 → s.available slot a < amount6 amount → refused .noFunds) ∧
    (n < 4 → amount6 amount ≤ s.available slot a → 128 ≤ s.main.pool.countP (·.owner == p) →
      refused .portQuota) ∧
    (n < 4 → amount6 amount ≤ s.available slot a → s.main.pool.countP (·.owner == p) < 128 →
      384 ≤ s.main.pool.length → refused .poolFull)

/-- CAPTURE by the owner debits the amount, removes the hold, releases the rest, and drains a CLOSING account
whose last hold it was with no pin. A CAPTURE of 0 with sequence number 0 and no drain stages nothing, so it is answered
at once: the model's choice (log 32). -/
def Obligations.CaptureSettlesTheHold : Prop :=
  ∀ (s : State) (p : Port) (seq : Byte) (holdId : BitVec 16) (amount : BitVec 24) (h : Hold)
    (a : Account),
    s.Accepts p ⟨seq, .capture holdId amount 0⟩ → s.findHold holdId.toNat = some h →
    h.owner = p → s.Live h.slot a → amount6 amount ≤ h.amount →
    let captured := ((s.move h.slot a (-amount6 amount)).withoutHold h.id)
    let answer : Answer := ⟨.ok, captureBody a.key (amount6 amount) (h.amount - amount6 amount)
      (a.balance - amount6 amount)⟩
    (a.state = .closing → s.LastHold h →
      Done (.capture p seq holdId amount 0) s
        ((captured.setAccount h.slot
          { a with balance := a.balance - amount6 amount, state := .drained }).afterStation p
            ⟨seq, .capture holdId amount 0⟩ answer)) ∧
    (a.state ≠ .closing ∨ ¬ s.LastHold h →
      Done (.capture p seq holdId amount 0) s
        (captured.afterStation p ⟨seq, .capture holdId amount 0⟩ answer)) ∧
    (a.state ≠ .closing ∨ ¬ s.LastHold h → seq = 0 → amount = 0 →
      exec (.capture p seq holdId amount 0) s =
        .next ((s.withoutHold h.id).withStationAnswer p ⟨seq, .capture holdId amount 0⟩ answer
          false false))

/-- RELEASE by the owner removes the hold with no debit, and drains a CLOSING account whose last hold it was
with no pin. -/
def Obligations.ReleaseEndsTheHold : Prop :=
  ∀ (s : State) (p : Port) (seq : Byte) (holdId : BitVec 16) (h : Hold) (a : Account),
    s.Accepts p ⟨seq, .release holdId⟩ → s.findHold holdId.toNat = some h →
    h.owner = p → s.Live h.slot a →
    let answer : Answer := ⟨.ok, releaseBody a.key h.amount (s.available h.slot a + h.amount)⟩
    (a.state = .closing → s.LastHold h →
      Done (.release p seq holdId) s
        (((s.withoutHold h.id).setAccount h.slot { a with state := .drained }).afterStation p
          ⟨seq, .release holdId⟩ answer)) ∧
    (a.state ≠ .closing ∨ ¬ s.LastHold h →
      Done (.release p seq holdId) s
        ((s.withoutHold h.id).afterStation p ⟨seq, .release holdId⟩ answer))

/-- CAPTURE and RELEASE of an id that is not active are answered from the requesting port's ended-hold memory,
or NO_HOLD; of another port's hold NOT_OWNER; a CAPTURE of more than the hold OVER_HOLD. Nothing but the reply
cache changes, the memory included. -/
def Obligations.HoldRequestsOfOtherHoldsAreRefused : Prop :=
  ∀ (s : State) (p : Port) (f : StationFrame) (holdId : BitVec 16), s.Accepts p f →
    ((∃ n t, f.req = .capture holdId n t) ∨ f.req = .release holdId) →
    let refused := fun code => Done (f.command p) s (s.afterStation p f ⟨code, f.req.zeroBody⟩)
    (s.findHold holdId.toNat = none →
      (∀ e, (s.main.ended.get p).find? (·.id == holdId.toNat) = some e →
        (e.reason = .lapsed → refused .lapsed) ∧ (e.reason = .cancelled → refused .cancelled)) ∧
      ((∀ e ∈ s.main.ended.get p, e.id ≠ holdId.toNat) → refused .noHold)) ∧
    (∀ h, s.findHold holdId.toNat = some h → h.owner ≠ p → refused .notOwner) ∧
    (∀ h a n t, s.findHold holdId.toNat = some h → h.owner = p → s.Live h.slot a →
      f.req = .capture holdId n t → h.amount < amount6 n →
        Done (f.command p) s (s.afterStation p f ⟨.overHold, captureBody a.key 0 0 a.balance⟩))

/-- CANCEL HOLD removes any port's active hold, records it CANCELLED for its owner and drains a CLOSING
account whose last hold it was; of an id that is not active it is answered NO_HOLD. -/
def Obligations.CancelHoldEndsAnyHold : Prop :=
  ∀ (s : State) (holdId : BitVec 16), s.SupervisorReady → holdId ≠ 0 →
    (∀ h a, s.findHold holdId.toNat = some h → s.Live h.slot a →
      let cancelled := (s.withoutHold h.id).withEnded h.owner h.id .cancelled
      let answer : Answer := ⟨.ok, cancelBody a.key h.owner.toNat h.amount⟩
      (a.state = .closing → s.LastHold h →
        Done (.cancelHold holdId) s
          ((cancelled.setAccount h.slot { a with state := .drained }).afterSupervisor
            (.cancelHold holdId) answer)) ∧
      (a.state ≠ .closing ∨ ¬ s.LastHold h →
        exec (.cancelHold holdId) s =
          .next (cancelled.afterSupervisor (.cancelHold holdId) answer))) ∧
    (s.findHold holdId.toNat = none →
      exec (.cancelHold holdId) s =
        .next (s.afterSupervisor (.cancelHold holdId) ⟨.noHold, cancelBody 0 0 0⟩))

/-! Tariffs and fares. -/

/-- A FARE that no pass covers is charged the smaller of the base fare and the room under the class cap: the
balance and the float total fall by the charge, DAY SPEND becomes day spend today plus the charge, at most
999,999, and SPEND DAY the business day. -/
def Obligations.FareChargesUnderTheCap : Prop :=
  ∀ (s : State) (p : Port) (seq entryZone exitZone : Byte) (slot key : Nat) (a : Account)
    (b : BankId) (base charge today : Nat),
    s.Accepts p ⟨seq, .fare entryZone exitZone 0⟩ → (s.session p).cursor = .sel slot key →
    s.Live slot a → s.FreeFor p slot → a.state = .opened → a.outOfValidity s.ret.day = false →
    s.ret.selector = some b → a.passCovers s.ret.day entryZone.toNat exitZone.toNat = false →
    base = (((s.ret.bank b).rows.getD (a.cls * 16 + entryZone.toNat) []).getD exitZone.toNat 9999) →
    base ≠ 9999 →
    today = (if a.spendDay = s.ret.day then a.daySpend else 0) →
    ((s.ret.bank b).caps.getD a.cls none = none ∧ charge = base ∨
      ∃ cap, (s.ret.bank b).caps.getD a.cls none = some cap ∧ charge = min base (cap - today)) →
    (charge : Int) ≤ s.available slot a →
    Done (.fare p seq entryZone exitZone 0) s
      (({ s with ret := { s.ret with
          accounts := s.ret.accounts.set slot (some { a with
            balance := a.balance - charge
            daySpend := min (today + charge) 999999
            spendDay := s.ret.day })
          floatTotal := s.ret.floatTotal - charge } }).afterStation p
        ⟨seq, .fare entryZone exitZone 0⟩
        ⟨.ok, fareBody key base charge false (decide (charge < base)) (a.balance - charge)
          (s.available slot a - charge) s.ret.activeGen⟩)

/-- A FARE that the account's pass covers is answered with charge 0 and PASS USED, whatever the base fare,
and changes no account. -/
def Obligations.CoveredFareIsFree : Prop :=
  ∀ (s : State) (p : Port) (seq entryZone exitZone trial : Byte) (slot key : Nat) (a : Account)
    (b : BankId) (x : Pass),
    s.Accepts p ⟨seq, .fare entryZone exitZone trial⟩ → (s.session p).cursor = .sel slot key →
    s.Live slot a → s.FreeFor p slot → a.state = .opened → a.outOfValidity s.ret.day = false →
    s.ret.selector = some b → a.pass = some x → x.zones.getLsbD entryZone.toNat = true →
    x.zones.getLsbD exitZone.toNat = true → s.ret.day ≤ x.endDay →
    Done (.fare p seq entryZone exitZone trial) s
      (s.afterStation p ⟨seq, .fare entryZone exitZone trial⟩
        ⟨.ok, fareBody key
          (((s.ret.bank b).rows.getD (a.cls * 16 + entryZone.toNat) []).getD exitZone.toNat 9999)
          0 true false a.balance (s.available slot a) s.ret.activeGen⟩)

/-- FARE's own checks 5 to 7: NO_TARIFF with no active bank, NO_ROUTE on an entry of 9999, NO_FUNDS when
available is less than the charge; none changes an account. -/
def Obligations.FareIsRefusedInOrder : Prop :=
  ∀ (s : State) (p : Port) (seq entryZone exitZone trial : Byte) (slot key : Nat) (a : Account),
    s.Accepts p ⟨seq, .fare entryZone exitZone trial⟩ → (s.session p).cursor = .sel slot key →
    s.Live slot a → s.FreeFor p slot → a.state = .opened → a.outOfValidity s.ret.day = false →
    let refused := fun code body => Done (.fare p seq entryZone exitZone trial) s
      (s.afterStation p ⟨seq, .fare entryZone exitZone trial⟩ ⟨code, body⟩)
    (s.ret.selector = none →
      refused .noTariff (fareBody key 0 0 false false a.balance (s.available slot a) 0)) ∧
    (∀ b base, s.ret.selector = some b →
      a.passCovers s.ret.day entryZone.toNat exitZone.toNat = false →
      base =
        (((s.ret.bank b).rows.getD (a.cls * 16 + entryZone.toNat) []).getD exitZone.toNat 9999) →
      (base = 9999 →
        refused .noRoute
          (fareBody key 9999 0 false false a.balance (s.available slot a) s.ret.activeGen)) ∧
      (base ≠ 9999 → (s.ret.bank b).caps.getD a.cls none = none → s.available slot a < base →
        refused .noFunds
          (fareBody key base base false false a.balance (s.available slot a) s.ret.activeGen)) ∧
      ∀ cap room, base ≠ 9999 → (s.ret.bank b).caps.getD a.cls none = some cap →
        room = cap - (if a.spendDay = s.ret.day then a.daySpend else 0) →
        s.available slot a < (min base room : Nat) →
        refused .noFunds (fareBody key base (min base room) false (decide (room < base)) a.balance
          (s.available slot a) s.ret.activeGen))

/-- TARIFF BEGIN empties the loaded-row set, makes the standby state LOADING, and sets the standby bank's caps
absent and its BANK GENERATION 0; the fare entries and the active bank stay. -/
def Obligations.TariffBeginOpensTheStandbyBank : Prop :=
  ∀ s : State, s.SupervisorReady →
    (∀ b, (s.ret.bank b).caps.length = 8) →
    let b := s.ret.standbyBank
    Done .tariffBegin s (({ s with
      ret := s.ret.mapBank b fun k => { k with caps := List.replicate 8 none, gen := 0 }
      main := { s.main with loading := true, loaded := [] } }).afterSupervisor .tariffBegin
        ⟨.ok, bankB (some b) ++ word s.ret.activeGen ++ flag s.main.loading⟩)

/-- In LOADING, TARIFF ROW writes the sixteen entries of one row of the standby bank and adds the row to the
loaded-row set once; TARIFF CAP sets or removes one cap; in IDLE both are refused WRONG_STATE. The one byte of ROW
and the zero CAP when CAP PRESENT is clear are the model's readings (log 13). -/
def Obligations.TariffRowAndCapWriteTheStandbyBank : Prop :=
  ∀ s : State, s.SupervisorReady →
    (∀ cls entryZone fares, fares.length = 16 → fares.all fareDigits = true → cls.toNat ≤ 7 →
      entryZone.toNat ≤ 15 →
      let row := cls.toNat * 16 + entryZone.toNat
      let r : SupervisorRequest := .tariffRow cls entryZone fares
      (s.main.loading = true → row ∈ s.main.loaded →
        Done r.command s (({ s with
          ret := s.ret.mapBank s.ret.standbyBank fun k =>
            { k with rows := k.rows.set row (fares.map fareOf) } }).afterSupervisor r
              ⟨.ok, byte1 row ++ byte1 s.main.loaded.length⟩)) ∧
      (s.main.loading = true → row ∉ s.main.loaded →
        Done r.command s (({ s with
          ret := s.ret.mapBank s.ret.standbyBank fun k =>
            { k with rows := k.rows.set row (fares.map fareOf) }
          main := { s.main with loaded := s.main.loaded ++ [row] } }).afterSupervisor r
            ⟨.ok, byte1 row ++ byte1 (s.main.loaded.length + 1)⟩)) ∧
      (s.main.loading = false →
        Done r.command s (s.afterSupervisor r
          ⟨.wrongState, byte1 row ++ byte1 s.main.loaded.length⟩))) ∧
    ∀ (cls : Byte) (cap : BitVec 24), amount6Digits cap = true → cls.toNat ≤ 7 →
      let set : SupervisorRequest := .tariffCap cls 1 cap
      let remove : SupervisorRequest := .tariffCap cls 2 cap
      (s.main.loading = true →
        Done set.command s (({ s with
          ret := s.ret.mapBank s.ret.standbyBank fun k =>
            { k with caps := k.caps.set cls.toNat (some (amount6 cap)) } }).afterSupervisor set
              ⟨.ok, byte1 cls.toNat ++ 1 :: dec 3 (amount6 cap)⟩) ∧
        Done remove.command s (({ s with
          ret := s.ret.mapBank s.ret.standbyBank fun k =>
            { k with caps := k.caps.set cls.toNat none } }).afterSupervisor remove
              ⟨.ok, byte1 cls.toNat ++ [0, 0, 0, 0]⟩)) ∧
      (s.main.loading = false →
        ∀ r, (r = set ∨ r = remove) →
          Done r.command s (s.afterSupervisor r ⟨.wrongState, byte1 cls.toNat ++ optionalB 3
            (((s.ret.bank s.ret.standbyBank).caps.getD cls.toNat none).map (dec 3))⟩))

/-- TARIFF COMMIT with all 128 rows loaded makes the standby bank active under the next generation, 65535
being followed by 1, and ends the load; in IDLE it is refused WRONG_STATE and below 128 rows INCOMPLETE. -/
def Obligations.TariffCommitSwitchesBanks : Prop :=
  ∀ s : State, s.SupervisorReady →
    let n := s.main.loaded.length
    let b := s.ret.standbyBank
    let g := if s.ret.activeGen = 65535 then 1 else s.ret.activeGen + 1
    (s.main.loading = true → 128 ≤ n →
      Done .tariffCommit s (({ s with
        ret := { (s.ret.mapBank b fun k => { k with gen := g }) with
          selector := some b, activeGen := g }
        main := { s.main with loading := false, loaded := [] } }).afterSupervisor .tariffCommit
          ⟨.ok, word g ++ bankB (some b) ++ byte1 n⟩)) ∧
    (s.main.loading = true → n < 128 →
      exec .tariffCommit s = .next (s.afterSupervisor .tariffCommit
        ⟨.incomplete, word s.ret.activeGen ++ bankB s.ret.selector ++ byte1 n⟩)) ∧
    (s.main.loading = false →
      exec .tariffCommit s = .next (s.afterSupervisor .tariffCommit
        ⟨.wrongState, word s.ret.activeGen ++ bankB s.ret.selector ++ byte1 n⟩))

/-! The account table. -/

/-- OPEN ACCOUNT with fields in range is refused DUPLICATE_KEY for a live key, then TABLE_FULL on an empty free
list; otherwise the slot at the head of the free list leaves it, joins the tail of the chain of key mod 1021
and holds the new record, and the float total rises by the initial balance. -/
def Obligations.OpenAccountTakesTheHeadOfTheFreeList : Prop :=
  ∀ (s : State) (key : BitVec 40) (cls sign : Byte) (initial : BitVec 32) (floor : BitVec 24)
    (vePresent : Byte) (ve : BitVec 16) (passPresent : Byte) (zones passEnd : BitVec 16),
    s.SupervisorReady → keyDigits key = true → amount8Digits initial = true →
    amount6Digits floor = true → keyOf key ≠ 0 → cls.toNat ≤ 7 →
    (sign = 0 ∨ sign = 1 ∧ amount8 initial = 0) →
    (vePresent = 0 ∨ vePresent = 1 ∧ ve ≠ 0) → (passPresent = 0 ∨ passPresent = 1 ∧ passEnd ≠ 0) →
    let r : SupervisorRequest :=
      .openAccount key cls sign initial floor vePresent ve passPresent zones passEnd
    let bucket := keyOf key % 1021
    (∀ slot, s.lookup (keyOf key) = some slot →
      exec r.command s =
        .next (s.afterSupervisor r ⟨.duplicateKey, word 0 ++ word s.ret.day⟩)) ∧
    (s.lookup (keyOf key) = none → s.ret.free = [] →
      exec r.command s = .next (s.afterSupervisor r ⟨.tableFull, word 0 ++ word s.ret.day⟩)) ∧
    ∀ slot rest, s.lookup (keyOf key) = none → s.ret.free = slot :: rest →
      Done r.command s (({ s with ret := { s.ret with
        accounts := s.ret.accounts.set slot (some
          { key := keyOf key
            state := .opened
            cls := cls.toNat
            balance := amount8 initial
            floor := amount6 floor
            daySpend := 0
            spendDay := s.ret.day
            validityEnd := if vePresent = 1 then some ve.toNat else none
            pass := if passPresent = 1 then some ⟨zones, passEnd.toNat⟩ else none })
        chains := s.ret.chains.set bucket (s.ret.chains.getD bucket [] ++ [slot])
        free := rest
        floatTotal := s.ret.floatTotal + amount8 initial } }).afterSupervisor r
          ⟨.ok, word slot ++ word s.ret.day⟩)

/-- SET TERMS on an OPEN or SUSPENDED account changes the terms marked SET or REMOVE and keeps the others; a floor
set lower than available allows is refused NO_FUNDS, and a CLOSING or DRAINED account WRONG_STATE, with every
term as it was. -/
def Obligations.SetTermsChangesTheTerms : Prop :=
  ∀ (s : State) (key : BitVec 40) (clsChange cls floorChange : Byte) (floor : BitVec 24)
    (veChange : Byte) (ve : BitVec 16) (passChange : Byte) (zones passEnd : BitVec 16)
    (slot : Nat) (a : Account),
    s.SupervisorReady → keyDigits key = true → amount6Digits floor = true → keyOf key ≠ 0 →
    clsChange.toNat ≤ 1 → cls.toNat ≤ 7 → floorChange.toNat ≤ 1 → veChange.toNat ≤ 2 → ve ≠ 0 →
    passChange.toNat ≤ 2 → passEnd ≠ 0 → s.lookup (keyOf key) = some slot → s.Live slot a →
    let r : SupervisorRequest :=
      .setTerms key clsChange cls floorChange floor veChange ve passChange zones passEnd
    let t : Account := { a with
      cls := if clsChange = 1 then cls.toNat else a.cls
      floor := if floorChange = 1 then amount6 floor else a.floor
      validityEnd :=
        if veChange = 1 then some ve.toNat else if veChange = 2 then none else a.validityEnd
      pass :=
        if passChange = 1 then some ⟨zones, passEnd.toNat⟩
        else if passChange = 2 then none else a.pass }
    let terms := fun (x : Account) => byte1 x.cls ++ dec 3 x.floor ++ dayB x.validityEnd
      ++ passB x.pass ++ availableB (x.balance + x.floor - s.held slot)
    (a.state = .opened ∨ a.state = .suspended →
      (a.floor ≤ t.floor ∨ 0 ≤ a.balance + t.floor - s.held slot →
        Done r.command s ((s.setAccount slot t).afterSupervisor r ⟨.ok, terms t⟩)) ∧
      (t.floor < a.floor → a.balance + t.floor - s.held slot < 0 →
        exec r.command s = .next (s.afterSupervisor r ⟨.noFunds, terms a⟩))) ∧
    (a.state = .closing ∨ a.state = .drained →
      exec r.command s = .next (s.afterSupervisor r ⟨.wrongState, terms a⟩))

/-- Each of five supervisor requests changes one retained item: SUSPEND and RESUME the state of an account, DAY
ROLL the business day up to 65535, CLEAR UNCLAIMED the unclaimed total, CLEAR BACKUP FLAG the flag. -/
def Obligations.OneItemRequestsChangeOneItem : Prop :=
  ∀ s : State, s.SupervisorReady →
    (∀ (key : BitVec 40) (slot : Nat) (a : Account), keyDigits key = true → keyOf key ≠ 0 →
      s.lookup (keyOf key) = some slot → s.Live slot a →
      (a.state = .opened → Done (.suspend key) s
        ((s.setAccount slot { a with state := .suspended }).afterSupervisor (.suspend key)
          ⟨.ok, [2]⟩)) ∧
      (a.state ≠ .opened → exec (.suspend key) s =
        .next (s.afterSupervisor (.suspend key) ⟨.wrongState, stateB (some a.state)⟩)) ∧
      (a.state = .suspended → Done (.resume key) s
        ((s.setAccount slot { a with state := .opened }).afterSupervisor (.resume key) ⟨.ok, [1]⟩)) ∧
      (a.state ≠ .suspended → exec (.resume key) s =
        .next (s.afterSupervisor (.resume key) ⟨.wrongState, stateB (some a.state)⟩))) ∧
    (s.ret.day ≠ 65535 → Done .dayRoll s
      (({ s with ret := { s.ret with day := s.ret.day + 1 } }).afterSupervisor .dayRoll
        ⟨.ok, word (s.ret.day + 1)⟩)) ∧
    (s.ret.day = 65535 → exec .dayRoll s =
      .next (s.afterSupervisor .dayRoll ⟨.range, word 65535⟩)) ∧
    Done .clearUnclaimed s (({ s with ret := { s.ret with unclaimed := 0 } }).afterSupervisor
      .clearUnclaimed ⟨.ok, dec 6 s.ret.unclaimed ++ dec 6 0⟩) ∧
    Done .clearBackupFlag s (({ s with ret := { s.ret with backupLost := false } }).afterSupervisor
      .clearBackupFlag
        ⟨.ok, flag s.ret.backupLost ++ flag (s.ret.accounts.any isDrained)⟩)

/-- RETIRE is judged by the first case that applies: CLOSING, DRAINED, IN_DEBT, a hold or a pin (the account
becomes CLOSING), TOTAL_FULL; and CONFIRM RETIRE is refused WRONG_STATE, IN_DEBT, TOTAL_FULL in this order. -/
def Obligations.RetireIsJudgedByTheFirstCase : Prop :=
  ∀ (s : State) (key : BitVec 40) (slot : Nat) (a : Account), s.SupervisorReady →
    keyDigits key = true → keyOf key ≠ 0 → s.lookup (keyOf key) = some slot → s.Live slot a →
    let holds := (s.main.pool.filter (·.slot == slot)).length
    let pin := optionalB 1 ((s.pinOn slot).map fun q => byte1 q.1.toNat)
    let body := fun outcome => byte1 outcome ++ dec 4 0 ++ balanceB a.balance ++ byte1 holds ++ pin
    let retired := fun code outcome =>
      exec (.retire key) s = .next (s.afterSupervisor (.retire key) ⟨code, body outcome⟩)
    let confirmed := fun code => exec (.confirmRetire key) s =
      .next (s.afterSupervisor (.confirmRetire key) ⟨code, dec 4 0 ++ balanceB a.balance⟩)
    let free := holds = 0 ∧ ∀ q, ¬ s.PinnedBy slot q
    let full := (999999999999 : Int) < s.ret.unclaimed + a.balance
    (a.state = .closing → retired .ok 2) ∧
    (a.state = .drained → retired .ok 3) ∧
    ((a.state = .opened ∨ a.state = .suspended) →
      (a.balance < 0 → retired .inDebt 0) ∧
      (0 ≤ a.balance → ¬ free → Done (.retire key) s
        ((s.setAccount slot { a with state := .closing }).afterSupervisor (.retire key)
          ⟨.ok, body 2⟩)) ∧
      (0 ≤ a.balance → free → full → retired .totalFull 0)) ∧
    (a.state ≠ .drained → confirmed .wrongState) ∧
    (a.state = .drained → a.balance < 0 → confirmed .inDebt) ∧
    (a.state = .drained → 0 ≤ a.balance → full → confirmed .totalFull)

/-- The retirement move, by RETIRE of an account without hold and pin or by CONFIRM RETIRE of a DRAINED one: the
balance goes from the float total to the unclaimed total, the slot leaves its chain, the others keeping their
order, joins the tail of the free list and is FREE, and every cursor SET on it turns GONE, that of a dropped request
too (log 7). -/
def Obligations.RetirementMoveFreesTheSlot : Prop :=
  ∀ (s : State) (key : BitVec 40) (slot : Nat) (a : Account), s.SupervisorReady →
    keyDigits key = true → keyOf key ≠ 0 → s.lookup (keyOf key) = some slot → s.Live slot a →
    a.key = keyOf key → 0 ≤ a.balance → s.ret.unclaimed + a.balance ≤ 999999999999 →
    let bucket := keyOf key % 1021
    let moved : State := { s with
      ret := { s.ret with
        accounts := s.ret.accounts.set slot none
        chains := s.ret.chains.set bucket ((s.ret.chains.getD bucket []).erase slot)
        free := s.ret.free ++ [slot]
        floatTotal := s.ret.floatTotal - a.balance
        unclaimed := s.ret.unclaimed + a.balance.toNat }
      main := { s.main with sessions := s.main.sessions.map (Session.mapCursors fun c => match c with
        | .sel i k => if i = slot then .gone else .sel i k
        | c => c) } }
    ((a.state = .opened ∨ a.state = .suspended) → (∀ h ∈ s.main.pool, h.slot ≠ slot) →
      (∀ q, ¬ s.PinnedBy slot q) →
      Done (.retire key) s (moved.afterSupervisor (.retire key)
        ⟨.ok, [1] ++ dec 4 a.balance.toNat ++ balanceB a.balance ++ [0, 0, 0]⟩)) ∧
    (a.state = .drained →
      Done (.confirmRetire key) s (moved.afterSupervisor (.confirmRetire key)
        ⟨.ok, dec 4 a.balance.toNat ++ balanceB a.balance⟩))

/-- ENUMERATE reports the first eight slots from START SLOT on that are live in a state of FILTER, in ascending order;
NEXT START is the slot after the eighth, or 2048 when fewer are reported. That COUNT is the list's count byte is the
model's reading (log 13). -/
def Obligations.EnumerateReportsOnePage : Prop :=
  ∀ (s : State) (start : BitVec 16) (filter : Byte), s.SupervisorReady →
    s.ret.accounts.length = 2048 → start.toNat ≤ 2048 → 1 ≤ filter.toNat → filter.toNat ≤ 15 →
    let qualifies := fun (slot : Nat) => decide (start.toNat ≤ slot) &&
      match s.account? slot with
      | some a => filter.getLsbD (match a.state with
          | .opened => 0
          | .suspended => 1
          | .closing => 2
          | .drained => 3)
      | none => false
    let found := (List.range 2048).filter qualifies
    let entry := fun slot => match s.account? slot with
      | some a => word slot ++ keyB a.key ++ stateB (some a.state) ++ balanceB a.balance
          ++ byte1 (s.main.pool.filter (·.slot == slot)).length
      | none => []
    exec (.enumerate start filter) s = .next (s.afterSupervisor (.enumerate start filter)
      ⟨.ok, listB ((found.take 8).map entry)
        ++ word (if 8 ≤ found.length then found.getD 7 0 + 1 else 2048)⟩)

/-! Supervision. -/

/-- READ ACCOUNT, READ TARIFF ROW, STATUS and READ PARAMETERS give what the state holds and change nothing. The sixteen
FARES, the four PORT HOLDS and the items of the four ports without a count byte, and the zero CAP when CAP PRESENT is
clear, are the model's readings (log 13). -/
def Obligations.SupervisorReadsReportAndChangeNothing : Prop :=
  ∀ s : State, s.SupervisorReady →
    (∀ (key : BitVec 40) (slot : Nat) (a : Account), keyDigits key = true → keyOf key ≠ 0 →
      s.lookup (keyOf key) = some slot → s.Live slot a →
      exec (.readAccount key) s = .next (s.afterSupervisor (.readAccount key)
        ⟨.ok, word slot ++ stateB (some a.state) ++ byte1 a.cls ++ balanceB a.balance ++ dec 3 a.floor
          ++ dec 4 ((s.main.pool.filter (·.slot == slot)).map (·.amount)).sum
          ++ availableB (a.balance + a.floor -
              (((s.main.pool.filter (·.slot == slot)).map (·.amount)).sum : Nat))
          ++ dec 3 (if a.spendDay = s.ret.day then a.daySpend else 0) ++ word a.spendDay
          ++ dayB a.validityEnd ++ flag (a.outOfValidity s.ret.day)
          ++ passB a.pass ++ flag (a.passInForce s.ret.day)
          ++ listB ((s.main.pool.filter (·.slot == slot)).map fun h =>
              word h.id ++ byte1 h.owner.toNat ++ dec 3 h.amount ++ word (s.secondsLeft h.expiry))
          ++ optionalB 3 ((s.pinOn slot).map fun (q, e) =>
              byte1 q.toNat ++ word (s.secondsLeft e.expiry))⟩)) ∧
    (∀ (which cls entryZone : Byte), which.toNat ≤ 1 → cls.toNat ≤ 7 → entryZone.toNat ≤ 15 →
      let r : SupervisorRequest := .readTariffRow which cls entryZone
      let row := cls.toNat * 16 + entryZone.toNat
      let body := fun b loaded => bankB (some b) ++ word (s.ret.bank b).gen ++ flag s.main.loading
        ++ flag loaded ++ ((s.ret.bank b).rows.getD row []).flatMap (dec 2)
        ++ optionalB 3 (((s.ret.bank b).caps.getD cls.toNat none).map (dec 3))
      (which = 1 → exec r.command s = .next (s.afterSupervisor r
        ⟨.ok, body s.ret.standbyBank (s.main.loading && s.main.loaded.contains row)⟩)) ∧
      (∀ b, which = 0 → s.ret.selector = some b →
        exec r.command s = .next (s.afterSupervisor r ⟨.ok, body b false⟩)) ∧
      (which = 0 → s.ret.selector = none → exec r.command s = .next (s.afterSupervisor r
        ⟨.noTariff, [0, 0, 0] ++ flag s.main.loading ++ List.replicate 37 0⟩))) ∧
    exec .status s = .next (s.afterSupervisor .status
      ⟨.ok, flag s.ret.backupLost ++ flag (s.ret.accounts.any isDrained || s.ret.backupLost)
        ++ word (2048 - s.ret.free.length) ++ word s.ret.free.length
        ++ word (s.ret.accounts.countP isDrained) ++ word s.main.pool.length
        ++ byte1 (s.main.pool.countP (·.owner == .p0)) ++ byte1 (s.main.pool.countP (·.owner == .p1))
        ++ byte1 (s.main.pool.countP (·.owner == .p2)) ++ byte1 (s.main.pool.countP (·.owner == .p3))
        ++ byte1 (Port.all.countP fun q => (s.session q).pin.isSome) ++ word s.ret.day
        ++ bankB s.ret.selector ++ word s.ret.activeGen ++ flag s.main.loading
        ++ byte1 s.main.loaded.length ++ signed 6 s.ret.floatTotal ++ dec 6 s.ret.unclaimed
        ++ toBytes 4 s.main.clock⟩) ∧
    exec .readParameters s = .next (s.afterSupervisor .readParameters
      ⟨.ok, paramsBody s.ret.params⟩)

/-- SET PARAMETERS in range writes every item marked SET, keeps every item marked KEEP, and answers the set as it
then stands; out of range it is refused RANGE and changes no item. The items of the four ports without a count byte are
the model's reading (log 13). -/
def Obligations.SetParametersWritesTheItemsMarkedSet : Prop :=
  ∀ (s : State) (hlChange : Byte) (holdLimit : BitVec 16) (ptChange pinTime : Byte)
    (ports : Four PortChange), s.SupervisorReady →
    let r : SupervisorRequest := .setParameters hlChange holdLimit ptChange pinTime ports
    let portOk := fun p => (ports.get p).rightsChange.toNat ≤ 1 ∧ (ports.get p).rights.toNat ≤ 7 ∧
      (ports.get p).rateChange.toNat ≤ 1 ∧ (ports.get p).rate.toNat ≤ 4
    let ok := hlChange.toNat ≤ 1 ∧ 1 ≤ holdLimit.toNat ∧ holdLimit.toNat ≤ 3600 ∧
      ptChange.toNat ≤ 1 ∧ 1 ≤ pinTime.toNat ∧ pinTime.toNat ≤ 60 ∧ ∀ p, portOk p
    (ok → ∃ q : Params,
      q.holdLimit = (if hlChange = 1 then holdLimit.toNat else s.ret.params.holdLimit) ∧
      q.pinTime = (if ptChange = 1 then pinTime.toNat else s.ret.params.pinTime) ∧
      (∀ p, q.rights.get p = (if (ports.get p).rightsChange = 1 then
          ⟨(ports.get p).rights.getLsbD 0, (ports.get p).rights.getLsbD 1,
            (ports.get p).rights.getLsbD 2⟩
          else s.ret.params.rights.get p) ∧
        ((ports.get p).rateChange = 1 → (q.rates.get p).code = (ports.get p).rate) ∧
        ((ports.get p).rateChange = 0 → q.rates.get p = s.ret.params.rates.get p)) ∧
      Done r.command s (({ s with ret := { s.ret with params := q } }).afterSupervisor r
        ⟨.ok, paramsBody q⟩)) ∧
    (¬ ok → exec r.command s = .next (s.afterSupervisor r ⟨.range, paramsBody s.ret.params⟩))

/-- WIPE frees every slot, empties directory, totals, banks, holds, pins, ended-hold memories and reply caches,
makes the day 1, turns every SET cursor GONE, and keeps the parameter set, BACKUP LOST, the clock, the next-id
counter, FRESH, OVERRUN and the station links; its answer tells what it removed. The one byte of PINS DROPPED is the
model's reading (log 13), and the cursor of a dropped request follows the others (log 7). -/
def Obligations.WipeEmptiesTheInstallation : Prop :=
  ∀ s : State, s.SupervisorReady →
    Done .wipe s (({ s with
      ret := { Retained.cold with
        params := s.ret.params
        backupLost := s.ret.backupLost
        mark := s.ret.mark }
      main := { s.main with
        sessions := s.main.sessions.map fun (x : Session) =>
          { x.mapCursors (fun c => match c with
              | .sel _ _ => .gone
              | c => c) with
            pin := none }
        pool := []
        ended := Four.all []
        loading := false
        loaded := [] } }).afterSupervisor .wipe
      ⟨.ok, word (2048 - s.ret.free.length) ++ word s.main.pool.length
        ++ byte1 (Port.all.countP fun q => (s.session q).pin.isSome) ++ signed 6 s.ret.floatTotal
        ++ dec 6 s.ret.unclaimed ++ word s.ret.activeGen ++ flag s.ret.backupLost⟩)

/-- The field checks of the supervisor's requests: a code or length that is no request's is answered BAD_REQUEST,
bad digits or a bad sign byte BAD_DIGIT, a field out of range RANGE, an unknown key UNKNOWN_KEY, in this order;
a refused request changes nothing. A SET TERMS so refused answers the terms of the live account that its KEY names as
they stand, and zero when it names none: the model's reading, and so is 00H for the absent STATE of a CREDIT or DEBIT
refused (log 25). An OPEN ACCOUNT so refused answers SLOT 0 and the business day (R18). ROW 0 of a TARIFF ROW so refused is
the model's choice (log 15); the one byte of ROW, COUNT as the list's count byte, the sixteen FARES without a count byte and
the three bytes of an absent CAP are its readings (log 13). -/
def Obligations.SupervisorFieldsAreChecked : Prop :=
  ∀ s : State, s.SupervisorReady →
    let refused := fun (r : SupervisorRequest) code body =>
      exec r.command s = .next (s.afterSupervisor r ⟨code, body⟩)
    (∀ code body, (SupervisorRequest.bad code body).wf = true →
      refused (.bad code body) .badRequest []) ∧
    (∀ (key : BitVec 40) r n, (r = .readAccount key ∧ n = 42 ∨ r = .suspend key ∧ n = 1 ∨
        r = .resume key ∧ n = 1 ∨ r = .retire key ∧ n = 13 ∨ r = .confirmRetire key ∧ n = 9) →
      (keyDigits key = false → refused r .badDigit (List.replicate n 0)) ∧
      (key = 0 → refused r .range (List.replicate n 0)) ∧
      (keyDigits key = true → keyOf key ≠ 0 → s.lookup (keyOf key) = none →
        refused r .unknownKey (List.replicate n 0))) ∧
    (∀ (key : BitVec 40) (amount : BitVec 32) r,
        (r = .credit key amount ∨ r = .debit key amount) →
      (keyDigits key = false ∨ amount8Digits amount = false →
        refused r .badDigit (List.replicate 12 0)) ∧
      (keyDigits key = true → amount8Digits amount = true → key = 0 ∨ amount = 0 →
        refused r .range (List.replicate 12 0)) ∧
      (keyDigits key = true → amount8Digits amount = true → keyOf key ≠ 0 → amount8 amount ≠ 0 →
        s.lookup (keyOf key) = none → refused r .unknownKey (List.replicate 12 0))) ∧
    (∀ key cls sign initial floor vePresent ve passPresent zones passEnd,
      let r : SupervisorRequest :=
        .openAccount key cls sign initial floor vePresent ve passPresent zones passEnd
      let digits := keyDigits key = true ∧ sign.toNat ≤ 1 ∧ amount8Digits initial = true ∧
        amount6Digits floor = true
      (¬ digits → refused r .badDigit ([0, 0] ++ word s.ret.day)) ∧
      (digits → key = 0 ∨ 7 < cls.toNat ∨ sign = 1 ∧ initial ≠ 0 ∨ 1 < vePresent.toNat ∨
        vePresent = 1 ∧ ve = 0 ∨ 1 < passPresent.toNat ∨ passPresent = 1 ∧ passEnd = 0 →
        refused r .range ([0, 0] ++ word s.ret.day))) ∧
    (∀ key clsChange cls floorChange floor veChange ve passChange zones passEnd,
      let r : SupervisorRequest :=
        .setTerms key clsChange cls floorChange floor veChange ve passChange zones passEnd
      let digits := keyDigits key = true ∧ amount6Digits floor = true
      let ranges := key ≠ 0 ∧ clsChange.toNat ≤ 1 ∧ cls.toNat ≤ 7 ∧ floorChange.toNat ≤ 1 ∧
        veChange.toNat ≤ 2 ∧ ve ≠ 0 ∧ passChange.toNat ≤ 2 ∧ passEnd ≠ 0
      let stopped := fun body =>
        (¬ digits → refused r .badDigit body) ∧ (digits → ¬ ranges → refused r .range body)
      (keyDigits key = false ∨ key = 0 ∨ s.lookup (keyOf key) = none →
        stopped (List.replicate 18 0)) ∧
      (∀ slot a, keyDigits key = true → keyOf key ≠ 0 → s.lookup (keyOf key) = some slot →
        s.Live slot a →
        stopped (byte1 a.cls ++ dec 3 a.floor ++ dayB a.validityEnd ++ passB a.pass
          ++ availableB (a.balance + a.floor - s.held slot))) ∧
      (digits → ranges → keyOf key ≠ 0 → s.lookup (keyOf key) = none →
        refused r .unknownKey (List.replicate 18 0))) ∧
    (∀ (start : BitVec 16) (filter : Byte),
      2048 < start.toNat ∨ filter = 0 ∨ 15 < filter.toNat →
        refused (.enumerate start filter) .range [0, 0, 0]) ∧
    refused (.cancelHold 0) .range (List.replicate 9 0) ∧
    (∀ cls entryZone fares, fares.length = 16 →
      let r : SupervisorRequest := .tariffRow cls entryZone fares
      ((∃ v ∈ fares, fareDigits v = false) →
        refused r .badDigit (0 :: byte1 s.main.loaded.length)) ∧
      ((∀ v ∈ fares, fareDigits v = true) → 7 < cls.toNat ∨ 15 < entryZone.toNat →
        refused r .range (0 :: byte1 s.main.loaded.length))) ∧
    (∀ (cls change : Byte) (cap : BitVec 24),
      let r : SupervisorRequest := .tariffCap cls change cap
      (amount6Digits cap = false → refused r .badDigit [0, 0, 0, 0, 0]) ∧
      (amount6Digits cap = true → 7 < cls.toNat ∨ change = 0 ∨ 2 < change.toNat →
        refused r .range [0, 0, 0, 0, 0])) ∧
    ∀ which cls entryZone : Byte, 1 < which.toNat ∨ 7 < cls.toNat ∨ 15 < entryZone.toNat →
      refused (.readTariffRow which cls entryZone) .range (List.replicate 41 0)

/-! The hold clock and expiries. -/

/-- HOLD CLOCK ADVANCE moves the clock on by one, 4,294,967,295 being followed by 0; while a hold or pin due at its
value stands, the advance is deferred. The end of a hold or pin, drain or no drain, makes the deferred advances, as many
as are owed, up to the first second at which another hold or pin is due. The count of owed advances is the model's
reading (log 10), and so is that an advance commanded while another event holds the area falls after the apply phase,
also from the write phase (log 4). -/
def Obligations.HoldClockAdvancesOrIsDeferred : Prop :=
  (∀ s : State, s.running = true → s.main.holder = none →
    (¬ s.main.Due s.main.clock → s.main.clockOwed = 0 → exec .holdClockAdvance s =
      .next { s with main := { s.main with clock := (s.main.clock + 1) % 4294967296 } }) ∧
    (s.main.Due s.main.clock → exec .holdClockAdvance s =
      .next { s with main := { s.main with clockOwed := s.main.clockOwed + 1 } })) ∧
  (∀ s : State, s.running = true →
    let u := s.finishApply
    ∃ m, Main.CaughtUp { u.main with clockOwed := u.main.clockOwed + 1 } m ∧
      exec .holdClockAdvance s = .next { u with main := m }) ∧
  ∀ s : State, s.running = true → s.main.holder = none →
    (∀ (holdId : BitVec 16) (h : Hold) (a : Account), s.findHold holdId.toNat = some h →
      h.expiry = s.main.clock → s.Live h.slot a →
      let lapsed := (s.withoutHold h.id).withEnded h.owner h.id .lapsed
      ∃ m, Main.CaughtUp lapsed.main m ∧
        (a.state ≠ .closing ∨ ¬ s.LastHold h →
          exec (.holdExpiry holdId) s = .next { lapsed with main := m }) ∧
        (a.state = .closing → s.LastHold h → s.main.waiting = [] → s.ret.staged = [] →
          s.ret.completion = false →
          Done (.holdExpiry holdId) s
            { lapsed.setAccount h.slot { a with state := .drained } with main := m })) ∧
    ∀ (p : Port) (e : PinEntry) (a : Account), (s.session p).pin = some e →
      e.expiry = s.main.clock → s.Live e.slot a →
      let unpinned := s.setSession p { s.session p with pin := none }
      ∃ m, Main.CaughtUp unpinned.main m ∧
        (a.state ≠ .closing ∨ (∃ h ∈ s.main.pool, h.slot = e.slot) →
          exec (.pinExpiry p) s = .next { unpinned with main := m }) ∧
        (a.state = .closing → (∀ h ∈ s.main.pool, h.slot ≠ e.slot) → s.main.waiting = [] →
          s.ret.staged = [] → s.ret.completion = false →
          Done (.pinExpiry p) s
            { unpinned.setAccount e.slot { a with state := .drained } with main := m })

/-- A hold whose expiry second the clock has reached is removed with no debit and recorded LAPSED for its owner; a pin
so reached ends. A CLOSING account left without hold and pin drains. Before that second neither is an event. That the
command does nothing before is the model's choice (log 9). -/
def Obligations.ExpiriesEndHoldsAndPins : Prop :=
  ∀ s : State, s.AreaFree →
    (∀ (holdId : BitVec 16) (h : Hold) (a : Account), s.findHold holdId.toNat = some h →
      s.Live h.slot a →
      let lapsed := (s.withoutHold h.id).withEnded h.owner h.id .lapsed
      (h.expiry = s.main.clock → a.state = .closing → s.LastHold h →
        Done (.holdExpiry holdId) s (lapsed.setAccount h.slot { a with state := .drained })) ∧
      (h.expiry = s.main.clock → a.state ≠ .closing ∨ ¬ s.LastHold h →
        exec (.holdExpiry holdId) s = .next lapsed) ∧
      (h.expiry ≠ s.main.clock → exec (.holdExpiry holdId) s = .next s)) ∧
    (∀ (p : Port) (e : PinEntry) (a : Account), (s.session p).pin = some e → s.Live e.slot a →
      let unpinned := s.setSession p { s.session p with pin := none }
      (e.expiry = s.main.clock → a.state = .closing → (∀ h ∈ s.main.pool, h.slot ≠ e.slot) →
        Done (.pinExpiry p) s (unpinned.setAccount e.slot { a with state := .drained })) ∧
      (e.expiry = s.main.clock → a.state ≠ .closing ∨ (∃ h ∈ s.main.pool, h.slot = e.slot) →
        exec (.pinExpiry p) s = .next unpinned) ∧
      (e.expiry ≠ s.main.clock → exec (.pinExpiry p) s = .next s)) ∧
    (∀ holdId : BitVec 16, s.findHold holdId.toNat = none →
      exec (.holdExpiry holdId) s = .next s) ∧
    ∀ p, (s.session p).pin = none → exec (.pinExpiry p) s = .next s

/-! The station links. -/

/-- A BREAK resets the port's session: cursor NONE, FRESH set, the frame being received and the pending frame gone, the
answer of the request in hand not to be sent. The pin the port holds, or the one its waiting PIN may still set, then
ends by the pin end of the reset, which drains a CLOSING account without a hold. The request in hand is carried out in
full: its effects and its reply cache entry stand, its answer is not sent, OUTSTANDING clears and the pending frame goes
on; one that waited for the area is given it at the end of the other event's change and comes to what it would have come
to without the reset, but for the cursor. A line that
has not returned high gives no further BREAK. The model's readings: the pin end is an event of its own with the area
free too (log 6); a waiting request counts as taken and is carried out under the cursor the reset found (log 7); with no
pin end waiting the command does nothing (log 9); a BREAK falls after the apply phase (log 4). -/
def Obligations.BreakResetsTheSession : Prop :=
  (∀ (s : State) (p : Port),
    (s.powered = false ∨ (s.link p).lineLow = true → exec (.breakReceived p) s = .next s) ∧
    (s.powered = true → (s.link p).lineLow = false →
      let u := if s.check = none then s.finishApply else s
      let x := u.session p
      let reset : State := (u.setSession p { x with
          cursor := .none
          fresh := true
          inHand := x.inHand.map fun h => { h with
            dropped := match h.dropped with
              | none => some x.cursor
              | some c => some c } }).setLink p
        { u.link p with
          rx := .hunt
          buffer := []
          rxRate := none
          lineLow := true
          pendingSlot := none }
      let pinEnds := exec (.breakReceived p) s = .next { reset with
        main := { reset.main with waiting := s.main.waiting ++ [.sessionPinEnd p] } }
      let pins := ∃ h, x.inHand = some h ∧ h.frame.req = .pin
      (¬ (pins ∧ .station p ∈ s.main.waiting) →
        (x.pin = none → exec (.breakReceived p) s = .next reset) ∧
        (x.pin ≠ none → .sessionPinEnd p ∉ s.main.waiting → pinEnds) ∧
        (x.pin ≠ none → .sessionPinEnd p ∈ s.main.waiting →
          exec (.breakReceived p) s = .next reset)) ∧
      ∀ before behind, pins → s.main.waiting = before ++ .station p :: behind →
        .station p ∉ before →
        (.sessionPinEnd p ∉ behind → pinEnds) ∧
        (.sessionPinEnd p ∈ behind → exec (.breakReceived p) s = .next reset))) ∧
  (∀ (s : State) (p : Port), s.AreaFree →
    let waits : State := { s with main := { s.main with waiting := [.sessionPinEnd p] } }
    ((s.session p).pin = none → exec (.sessionResetPinEnd p) waits = .next s) ∧
    ∀ slot expiry a, (s.session p).pin = some ⟨slot, expiry⟩ → s.Live slot a →
      let unpinned := s.setSession p { s.session p with pin := none }
      (a.state = .closing → (∀ h ∈ s.main.pool, h.slot ≠ slot) →
        Done (.sessionResetPinEnd p) waits
          (unpinned.setAccount slot { a with state := .drained })) ∧
      (a.state ≠ .closing ∨ (∃ h ∈ s.main.pool, h.slot = slot) →
        exec (.sessionResetPinEnd p) waits = .next unpinned)) ∧
  (∀ (s : State) (p : Port), .sessionPinEnd p ∉ s.main.waiting ∨ s.main.holder ≠ none →
    exec (.sessionResetPinEnd p) s = .next s) ∧
  (∀ (s : State) (p : Port) (h : Holder) (reply : Reply) (f : StationFrame) (c : Cursor),
    s.running = true → s.main.holder = some h → h.event = .station p → h.reply = some reply →
    (s.session p).inHand = some ⟨f, some c⟩ → s.main.waiting = [] → s.main.clockOwed = 0 →
    let done : State := { s with
      ret := { s.settledRet h with staged := [], completion := false }
      main := { s.appliedMain with holder := none } }
    let dropped := (done.setSession p { done.session p with inHand := none }).setLink p
      { s.link p with outstanding := false, pendingSlot := none }
    ((s.link p).pendingSlot = none → exec .stagedChangeComplete s = .next dropped) ∧
    ∀ g : StationFrame, g.req.wf = true → (s.link p).pendingSlot = some g →
      exec .stagedChangeComplete s = exec (g.command p) dropped) ∧
  ∀ (s freed : State) (h : Holder) (p : Port) (f : StationFrame) (c : Cursor),
    s.running = true → s.main.holder = some h → h.event ≠ .station p →
    (∀ q, h.event = .station q → (s.link q).pendingSlot = none) →
    s.main.waiting = [.station p] → (s.link p).pendingSlot = none → f.req.wf = true →
    exec .stagedChangeComplete { s with main := { s.main with waiting := [] } } = .next freed →
    (freed.session p).inHand = some ⟨f, some c⟩ → freed.main.clockOwed = 0 →
    let asked := (freed.setSession p { freed.session p with cursor := c, inHand := none }).setLink p
      { freed.link p with outstanding := false }
    ∀ u, Done (f.command p) asked u →
      Done .stagedChangeComplete s ((u.setSession p { u.session p with
          cursor := (freed.session p).cursor
          fresh := (freed.session p).fresh
          overrun := (freed.session p).overrun }).setLink p { freed.link p with outstanding := false })

/-- A gap timeout or a framing error discards the frame being received and returns the link to HUNT; in HUNT neither
has an effect. A line that returns high allows a further BREAK. -/
def Obligations.BrokenFramesAreDiscarded : Prop :=
  ∀ (s : State) (p : Port), s.powered = true →
    let hunt := s.setLink p { s.link p with rx := .hunt, buffer := [], rxRate := none }
    ((s.link p).rx ≠ .hunt →
      exec (.gapTimeout p) s = .next hunt ∧ exec (.framingError p) s = .next hunt) ∧
    ((s.link p).rx = .hunt →
      exec (.gapTimeout p) s = .next s ∧ exec (.framingError p) s = .next s) ∧
    exec (.receiveLineReturnHigh p) s =
      .next (s.setLink p { s.link p with lineLow := false })

/-- The characters of a request frame, received one by one from HUNT, come to what the request's own command does,
in every state of the part; with other check bytes, or a byte that is no start byte, they change nothing. -/
def Obligations.CharactersOfAFrameMakeTheRequest : Prop :=
  ∀ (s : State) (p : Port), (s.link p).rx = .hunt → (s.link p).buffer = [] →
    (s.link p).rxRate = none → (s.link p).lineLow = false →
    (∀ f : StationFrame, f.req.wf = true →
      runAll (f.bytes.map (.stationCharacterReceived p)) s = exec (f.command p) s) ∧
    (∀ (seq code : Byte) (body check : List Byte), body.length ≤ 62 → check.length = 2 →
      check ≠ crcBytes (BitVec.ofNat 8 (body.length + 2) :: seq :: code :: body) →
      runAll (((0xA5 : Byte) :: BitVec.ofNat 8 (body.length + 2) :: seq :: code :: (body ++ check)).map
        (.stationCharacterReceived p)) s = .next s) ∧
    (∀ b : Byte, b ≠ 0xA5 → exec (.stationCharacterReceived p b) s = .next s) ∧
    ∀ length : Byte, length.toNat < 2 ∨ 64 < length.toNat →
      runAll [.stationCharacterReceived p 0xA5, .stationCharacterReceived p length] s = .next s

/-- A frame that finds OUTSTANDING set, or the start-up check in progress, waits in an empty pending slot; a full
slot discards it and sets OVERRUN. The end of the answer's transmission clears OUTSTANDING and hands a waiting
frame on. With no answer being sent that command does nothing: the model's choice (log 9). TXDp is high while no answer
is sent, and carries the characters of the answer's frame while one is. -/
def Obligations.OutstandingHoldsTheNextFrame : Prop :=
  (∀ l : Link, (l.tx = none → l.txd = [true]) ∧ ∀ x, l.tx = some x →
    l.txd.length = 10 * x.frame.bytes.length ∧
    ∀ i b, x.frame.bytes[i]? = some b →
      (l.txd.drop (10 * i)).take 10 = false :: (List.range 8).map b.getLsbD ++ [true]) ∧
  ∀ (s : State) (p : Port), s.powered = true →
    (∀ f : StationFrame, f.req.wf = true → ((s.link p).outstanding = true ∨ s.check ≠ none) →
      ((s.link p).pendingSlot = none →
        exec (f.command p) s = .next (s.setLink p { s.link p with pendingSlot := some f })) ∧
      ((s.link p).pendingSlot ≠ none →
        exec (f.command p) s = .next (s.setSession p { s.session p with overrun := true }))) ∧
    (s.check = none → s.main.waiting = [] →
      ((s.link p).tx = none → exec (.answerTransmissionEnd p) s = .next s) ∧
      ((s.link p).tx ≠ none →
        let sent : State := s.setLink p
          { s.link p with tx := none, outstanding := false, pendingSlot := none }
        ((s.link p).pendingSlot = none → exec (.answerTransmissionEnd p) s = .next sent) ∧
        ∀ f : StationFrame, f.req.wf = true → (s.link p).pendingSlot = some f →
          exec (.answerTransmissionEnd p) s = exec (f.command p) sent))

/-! The supervisor link. -/

/-- A write period that carries a request's frame does what the request's own command does, in every state of the
part. Otherwise, by the first case that applies: no byte, no effect; LENGTH 0 or above 61, bad; too few bytes, partial
and IDLE; too many, bad; other check bytes, bad. While a request is pending only MISO moves. A write period is one whose
direction byte is 01H. A period is one step, and MISO the model's record of it (log 18, log 27). -/
def Obligations.WritePeriodsAreJudged : Prop :=
  (∀ (s : State) (r : SupervisorRequest), r.wf = true →
    exec (.writeRequest r.bytes) s = exec r.command s) ∧
  ∀ s : State, s.powered = true →
    (∀ bytes, exec (.writeRequest bytes) s = .next (s.selectPeriod (0x01 :: bytes))) ∧
    (∀ bytes, s.main.sup.state = .requestPending → exec (.writeRequest bytes) s =
      .next (s.setSup { s.main.sup with miso := 0xFF :: List.replicate bytes.length 0xB0 })) ∧
    (s.main.sup.state ≠ .requestPending →
      exec (.writeRequest []) s = .next (s.setSup { s.main.sup with miso := [0xFF] }) ∧
      ∀ (length : Byte) (rest : List Byte),
        let miso := List.replicate (rest.length + 2) (0xFF : Byte)
        let partly := exec (.writeRequest (length :: rest)) s = .next (s.setSup
          { state := .idle, requestBuffer := [], request := none, answer := none, miso := miso })
        let bad := exec (.writeRequest (length :: rest)) s = .next (s.setSup
          { state := .answerReady, requestBuffer := [], request := none,
            answer := some ⟨0, ⟨.badFrame, []⟩⟩, miso := miso })
        (length.toNat = 0 ∨ 61 < length.toNat → bad) ∧
        (1 ≤ length.toNat → length.toNat ≤ 61 → rest.length < length.toNat + 2 → partly) ∧
        (1 ≤ length.toNat → length.toNat ≤ 61 → length.toNat + 2 < rest.length → bad) ∧
        (1 ≤ length.toNat → length.toNat ≤ 61 → rest.length = length.toNat + 2 →
          rest.drop length.toNat ≠ crcBytes (length :: rest.take length.toNat) → bad))

/-- Read periods put on MISO the answer frame or the filler of the link's state, or the link state with attention and
BACKUP LOST, then 0FFH, and change no state. A period's direction byte is 02H or 03H, whatever MOSI carries after it; a
period with a byte that is no direction puts 0FFH on MISO to its end, and one that ends before its direction byte does
nothing. MISO is the model's record of a period, and the last two have no row (log 18, log 27). While another event
holds the area, the status byte shows the state before the mark or, once the mark is set, after the apply phase (log 4);
during the start-up check attention is clear and BACKUP LOST is as the check leaves it (log 33); bits 2 to 7 of that byte
are clear (log 35). All three are the model's readings. -/
def Obligations.ReadPeriodsChangeNothing : Prop :=
  ∀ (s : State) (count : Nat), s.powered = true →
    let read := fun (bytes : List Byte) => s.setSup { s.main.sup with
      miso := 0xFF :: (bytes ++ List.replicate count 0xFF).take count }
    (s.main.sup.state = .idle → exec (.readAnswer count) s = .next (read [0xC0])) ∧
    (s.main.sup.state = .requestPending → exec (.readAnswer count) s = .next (read [0xD0])) ∧
    (∀ a : SupAnswer, s.main.sup.state = .answerReady → s.main.sup.answer = some a →
      exec (.readAnswer count) s = .next (read a.bytes)) ∧
    (∀ bytes, bytes.length = count →
      exec (.readAnswer count) s = .next (s.selectPeriod (0x02 :: bytes)) ∧
      exec (.readLinkStatus count) s = .next (s.selectPeriod (0x03 :: bytes)) ∧
      ∀ direction : Byte, direction.toNat = 0 ∨ 3 < direction.toNat →
        s.selectPeriod (direction :: bytes) = read []) ∧
    s.selectPeriod [] = s ∧
    let seen : Retained := match s.check, s.main.holder with
      | some .cold, _ => Retained.cold
      | some .settle, _ | some (.drains _), _ =>
        if s.ret.completion = true then applyRets s.ret.staged s.ret else s.ret
      | some _, _ => s.ret
      | none, some h => if h.phase = .write then s.ret else s.settledRet h
      | none, none => s.ret
    exec (.readLinkStatus count) s = .next (read
      [match s.main.sup.state with
        | .idle => 0
        | .requestPending => 1
        | .answerReady => 2,
        (if s.check = none ∧ (seen.accounts.any isDrained = true ∨ seen.backupLost = true) then 1
          else 0) + (if seen.backupLost = true then 2 else 0)])

/-! Supplies, RESET_N, start-up. -/

/-- POWER LOSS and RESET ASSERT stop the part and lose main memory; retention memory stays while VBAT or VDD supplies
it and otherwise is lost with its mark. POWER RETURN and RESET RELEASE begin the start-up check, warm by the mark.
Loss and return of VBAT change nothing else while VDD is present. The contents after a loss are a free value, and lost
main memory is shown at its reset values (log 12). -/
def Obligations.SuppliesAndResetStopAndStart : Prop :=
  ∀ s : State,
    let stopped : State := { s with main := Main.reset, check := none }
    let lost := fun (c : Instr) (t : State) => ∃ r : Retained, r.mark = false ∧
      exec c s = .next { t with ret := r, freeCount := s.freeCount + 1 }
    let begun := fun (t : State) => { t with
      main := Main.reset, check := some (if s.ret.mark = true then Check.settle else .cold) }
    (s.vdd = true → s.vbat = true → exec .powerLoss s = .next { stopped with vdd := false }) ∧
    (s.vdd = true → s.vbat = false → lost .powerLoss { stopped with vdd := false }) ∧
    (s.vdd = false → exec .powerLoss s = .next s) ∧
    (s.vdd = true ∨ s.vbat = false → exec .vbatLoss s = .next { s with vbat := false }) ∧
    (s.vdd = false → s.vbat = true → lost .vbatLoss { s with vbat := false }) ∧
    exec .vbatReturn s = .next { s with vbat := true } ∧
    (s.vdd = true → exec .powerReturn s = .next s) ∧
    (s.vdd = false → s.resetLow = true → exec .powerReturn s = .next { s with vdd := true }) ∧
    (s.vdd = false → s.resetLow = false →
      exec .powerReturn s = .next (begun { s with vdd := true })) ∧
    (s.resetLow = true → exec .resetAssert s = .next s) ∧
    (s.resetLow = false → exec .resetAssert s = .next { stopped with resetLow := true }) ∧
    (s.resetLow = false → exec .resetRelease s = .next s) ∧
    (s.resetLow = true → s.vdd = false →
      exec .resetRelease s = .next { s with resetLow := false }) ∧
    (s.resetLow = true → s.vdd = true →
      exec .resetRelease s = .next (begun { s with resetLow := false }))

/-- The end of the start-up check: warm, the area is settled by its mark and every CLOSING account is DRAINED; cold,
every retained item has its cold value. A frame or a supervisor request that waited is then taken. Outside the check
the command does nothing. That the command passes the whole check, and does nothing outside it, is the model's choice
(log 9, log 30). -/
def Obligations.StartUpCheckEndsWarmOrCold : Prop :=
  ∀ s : State, s.powered = true →
    (s.check = none → exec .startUpCheckEnd s = .next s) ∧
    ∀ begins, s.check = some begins → begins = .settle ∨ begins = .cold →
      s.main.waiting = [] →
      let settled : Retained := { (if s.ret.completion = true then applyRets s.ret.staged s.ret
          else s.ret) with staged := [], completion := false }
      let ended : State := { s with
        check := none
        main := { s.main with holder := none }
        ret := if begins = .cold then Retained.cold else { settled with
          accounts := settled.accounts.map fun x => x.map fun a =>
            if a.state = .closing then { a with state := .drained } else a } }
      ((∀ p, (s.link p).pendingSlot = none) → s.main.sup.request = none →
        exec .startUpCheckEnd s = .next ended) ∧
      (∀ (p : Port) (f : StationFrame), f.req.wf = true → (s.link p).pendingSlot = some f →
        (s.link p).outstanding = false → (∀ q, q ≠ p → (s.link q).pendingSlot = none) →
        s.main.sup.request = none →
        exec .startUpCheckEnd s =
          exec (f.command p) (ended.setLink p { s.link p with pendingSlot := none })) ∧
      ∀ r : SupervisorRequest, r.wf = true → (∀ p, (s.link p).pendingSlot = none) →
        s.main.sup =
          { state := .requestPending
            requestBuffer := r.bytes
            request := some r
            answer := none
            miso := List.replicate (r.bytes.length + 1) 0xFF } →
        exec .startUpCheckEnd s = exec r.command (ended.setSup SupLink.reset)

/-! The staged change. -/

/-- A power loss with VBAT, or a RESET_N, cuts the part at any point; the start-up that follows judges the area by its
completion mark alone: with it set every recorded value is in its item, with it clear none is, and then every CLOSING
account is DRAINED. Nothing else of a retention memory with its mark changes, and main memory is reset. The end of the
check is one command (log 30). -/
def Obligations.CutChangesAreWholeOrAbsent : Prop :=
  ∀ s : State, s.powered = true → s.ret.mark = true →
    let settled : Retained := { (if s.ret.completion = true then applyRets s.ret.staged s.ret
        else s.ret) with staged := [], completion := false }
    let restarted : State := { s with
      check := none
      main := Main.reset
      ret := { settled with accounts := settled.accounts.map fun x => x.map fun a =>
        if a.state = .closing then { a with state := .drained } else a } }
    (s.vbat = true →
      runAll [.powerLoss, .powerReturn, .startUpCheckEnd] s = .next restarted) ∧
    runAll [.resetAssert, .resetRelease, .startUpCheckEnd] s = .next restarted

/-- A recorded change applied in part and then again in full leaves what one whole application does; so the end of a
change that holds the area is the same from whichever notch of its phases the part has reached. The notches are the
model's (log 3, log 5, log 30). -/
def Obligations.StagedChangeEndsTheSameFromEveryPhase : Prop :=
  (∀ (ws : List RetWrite) (k : Nat) (r : Retained),
    applyRets ws (applyRets (ws.take k) r) = applyRets ws r) ∧
  (∀ (s : State) (h : Holder), s.pending = [] → s.running = true → s.main.holder = some h →
    ∃ t u, step s = .next t ∧ exec .stagedChangeComplete t = .next u ∧
      exec .stagedChangeComplete s = .next u) ∧
  ∀ (s : State) (h : Holder), s.running = true → s.main.holder = some h → h.reply = none →
    h.phase = .write → s.main.waiting = [] → s.main.clockOwed = 0 →
    exec .stagedChangeComplete s = .next { s with
      ret := { applyRets s.ret.staged s.ret with staged := [], completion := false }
      main := { h.mains.foldl (fun m w => applyMain w m) s.main with holder := none } }

/-- While an event holds the area, in any of its phases, a request that needs the area waits behind it, and one that needs
none is answered at once: a replay, a SEQ_CLASH, a BAD_REQUEST with sequence number 0, a BALANCE or STATION STATUS with
sequence number 0 and a supervisor's read from the state as it was while the mark is clear and from the state after the
apply phase once it is set; a SELECT or HOLD with sequence number 0 after the apply phase. At the end of the change the
area is given to the first waiting event, which is taken, checks and all, as if it came in the state the change has left;
when it holds the area the others wait on in their order, and when it stages nothing the area passes at once to the next,
as a free area does (log 3). The SELECT and HOLD, and the reads before the mark, are the model's readings (log 4), and so
are a BAD_REQUEST that does not wait (log 23), and TRIAL clear on a BAD_REQUEST and set on the SEQ_CLASH of a trial
(log 14). -/
def Obligations.HeldAreaMakesRequestsWait : Prop :=
  (∀ (s : State) (h : Holder), s.running = true → s.main.holder = some h →
    let seenFrom := fun (x : State) => if h.phase = .write then x else x.finishApply
    (∀ (p : Port) (f : StationFrame), f.req.wf = true → (s.link p).outstanding = false →
      let asked : State := (s.setSession p { s.session p with inHand := some ⟨f, none⟩ }).setLink p
        { s.link p with outstanding := true }
      let seen := seenFrom asked
      let waits := exec (f.command p) s = .next { seen with main := { seen.main with
        waiting := s.main.waiting ++ [.station p] } }
      let answered := fun (x : State) answer trial replay =>
        exec (f.command p) s = .next (x.withStationAnswer p f answer trial replay)
      ((∃ c b, f.req = .bad c b) →
        (f.seq ≠ 0 → waits) ∧ (f.seq = 0 → answered seen ⟨.badRequest, []⟩ false false)) ∧
      ((∀ c b, f.req ≠ .bad c b) → f.seq ≠ 0 →
        (seen.cached p f.seq = none → waits) ∧
        ∀ e, seen.cached p f.seq = some e →
          (e.code = f.req.code → answered seen e.answer e.trial true) ∧
          (e.code ≠ f.req.code → answered seen ⟨.seqClash, []⟩ f.req.isTrial false)) ∧
      (((∃ e x t, f.req = .fare e x t) ∨ (∃ n t, f.req = .topUp n t) ∨
        (∃ i n t, f.req = .capture i n t) ∨ (∃ i, f.req = .release i) ∨ f.req = .pin ∨
        f.req = .unpin) → f.seq = 0 → waits) ∧
      (f.req = .balance ∨ f.req = .stationStatus → f.seq = 0 →
        answered seen (f.req.ladder p seen).answer false false) ∧
      ((∃ k, f.req = .select k) ∨ (∃ n l t, f.req = .hold n l t) → f.seq = 0 →
        let settled := asked.finishApply
        let v := f.req.ladder p settled
        answered (settled.doMains v.mains) v.answer f.req.isTrial false)) ∧
    ∀ r : SupervisorRequest, r.wf = true → s.main.sup.state ≠ .requestPending →
      (r.needsArea = true → exec r.command s = .next { s with main := { s.main with
        waiting := s.main.waiting ++ [.supervisor]
        sup :=
          { state := .requestPending
            requestBuffer := r.bytes
            request := some r
            answer := none
            miso := List.replicate (r.bytes.length + 1) 0xFF } } }) ∧
      (r.needsArea = false →
        exec r.command s = .next ((seenFrom s).afterSupervisor r (r.judge (seenFrom s)).answer))) ∧
  (∀ (s freed : State) (h : Holder), s.running = true → s.main.holder = some h →
    (∀ q, h.event = .station q → (s.link q).pendingSlot = none) →
    exec .stagedChangeComplete { s with main := { s.main with waiting := [] } } = .next freed →
    (∀ (p : Port) (f : StationFrame), s.main.waiting = [.station p] → h.event ≠ .station p →
      f.req.wf = true → (s.session p).inHand = some ⟨f, none⟩ → (s.link p).outstanding = true →
      exec .stagedChangeComplete s = exec (f.command p)
        ((freed.setSession p { freed.session p with inHand := none }).setLink p
          { freed.link p with outstanding := false })) ∧
    (∀ r : SupervisorRequest, s.main.waiting = [.supervisor] → h.event ≠ .supervisor → r.wf = true →
      s.main.sup =
        { state := .requestPending
          requestBuffer := r.bytes
          request := some r
          answer := none
          miso := List.replicate (r.bytes.length + 1) 0xFF } →
      exec .stagedChangeComplete s = exec r.command (freed.setSup SupLink.reset)) ∧
    (∀ holdId : BitVec 16, s.main.waiting = [.holdExpiry holdId.toNat] →
      exec .stagedChangeComplete s = exec (.holdExpiry holdId) freed) ∧
    (∀ p, s.main.waiting = [.pinExpiry p] →
      exec .stagedChangeComplete s = exec (.pinExpiry p) freed) ∧
    ∀ p, s.main.waiting = [.sessionPinEnd p] →
      exec .stagedChangeComplete s = exec (.sessionResetPinEnd p)
        { freed with main := { freed.main with waiting := [.sessionPinEnd p] } }) ∧
  ∀ (s t : State) (h : Holder) (e : AreaEvent) (rest : List AreaEvent), s.running = true →
    s.pending = [] → s.main.holder = some h → s.main.waiting = e :: rest →
    (∀ q, h.event = .station q → (s.link q).pendingSlot = none) →
    (∀ q, e = .station q → ∃ f, (s.session q).inHand = some ⟨f, none⟩) →
    exec .stagedChangeComplete { s with main := { s.main with waiting := [e] } } = .next t →
    let left : State := { t with main := { t.main with waiting := rest } }
    (t.main.holder ≠ none → exec .stagedChangeComplete s = .next left) ∧
    (t.main.holder = none → exec .stagedChangeComplete s = step left)

/-! What every step keeps. -/

/-- The conditions of the next statements hold after reset. -/
def Obligations.ResetMeetsTheConditions : Prop :=
  State.reset.Keeps Retained.Ledger ∧ State.reset.Keeps Retained.Directory ∧
    State.reset.Keeps Retained.Records ∧ State.reset.Keeps Retained.ReplyCaches ∧
    State.reset.PoolSound ∧ State.reset.Agrees ∧ State.reset.AnswersKept

/-- The float total stays the sum of the live balances and the free list the list of the FREE slots, on both sides of
every staged change, through every command and every notch of the part's own progress, power cuts and
start-ups included. -/
def Obligations.EveryStepKeepsTheLedger : Prop :=
  ∀ s t : State, s.Keeps Retained.Ledger → step s = .next t → t.Keeps Retained.Ledger

/-- Each live slot stays on exactly the chain of its key and keys stay distinct, through every step. -/
def Obligations.EveryStepKeepsTheDirectory : Prop :=
  ∀ s t : State, s.Keeps Retained.Directory → step s = .next t → t.Keeps Retained.Directory

/-- Every field of every record stays in range, the balance from −FLOOR up, and the business day and the unclaimed total
with them, through every step, where the account table and main memory agree: a CAPTURE keeps the balance above −FLOOR
because balance + floor − held is not negative. That they go on to agree is `EveryStepKeepsTheHoldPool`. -/
def Obligations.EveryStepKeepsTheRecordsInRange : Prop :=
  ∀ s t : State, s.Keeps Retained.Records → s.Agrees → step s = .next t → t.Keeps Retained.Records

/-- A reply cache keeps at most two entries, with distinct nonzero sequence numbers, through every step. -/
def Obligations.EveryStepKeepsTheReplyCaches : Prop :=
  ∀ s t : State, s.Keeps Retained.ReplyCaches → step s = .next t → t.Keeps Retained.ReplyCaches

/-- The hold pool stays within its limits with distinct ids, and the ended-hold memories beside it, through every step;
and so does the agreement of the account table with holds, pins and cursors: balance + floor − held is at least 0, holds
and pins stand on OPEN, SUSPENDED or CLOSING accounts, at most one port pins an account, a SET cursor holds a live slot
with its key, and a CLOSING account has a hold or a pin. -/
def Obligations.EveryStepKeepsTheHoldPool : Prop :=
  (∀ s t : State, s.PoolSound → step s = .next t → t.PoolSound) ∧
  ∀ s t : State, s.Keeps Retained.Directory → s.Keeps Retained.Records → s.PoolSound → s.Agrees →
    step s = .next t → t.Agrees

/-! Frames. -/

/-- Reading the code and the body a request's frame carries gives the request back, every field at every value, and
the request read from any code and body carries that code and that body. -/
def Obligations.FramesCarryEveryField : Prop :=
  (∀ r : StationRequest, r.wf = true → StationRequest.parse r.code r.body = r) ∧
  (∀ r : SupervisorRequest, r.wf = true → SupervisorRequest.parse r.code r.body = r) ∧
  (∀ (code : Byte) (body : List Byte), (StationRequest.parse code body).code = code ∧
    (StationRequest.parse code body).body = body ∧
    (SupervisorRequest.parse code body).code = code ∧
    (SupervisorRequest.parse code body).body = body)
end

