-- ==== Sys2Proof/Laws/State.lean ====
section
/-! SUPPORT. One lemma per field per update of the state, so that no later proof unfolds a record
update. -/

namespace Sys2Proof

/-! One value per station port. -/

@[simp] theorem Four.get_set_self {α : Type} (f : Four α) (p : Port) (x : α) :
    (f.set p x).get p = x := by cases p <;> rfl

@[simp] theorem Four.get_set_of_ne {α : Type} (f : Four α) {p q : Port} (x : α) (h : q ≠ p) :
    (f.set p x).get q = f.get q := by cases p <;> cases q <;> first | rfl | exact absurd rfl h

theorem Four.get_set {α : Type} (f : Four α) (p q : Port) (x : α) :
    (f.set p x).get q = if q = p then x else f.get q := by
  by_cases h : q = p
  · subst h; simp
  · simp [h]

@[simp] theorem Four.set_set {α : Type} (f : Four α) (p : Port) (x y : α) :
    (f.set p x).set p y = f.set p y := by cases p <;> rfl

@[simp] theorem Four.set_get {α : Type} (f : Four α) (p : Port) : f.set p (f.get p) = f := by
  cases p <;> rfl

@[simp] theorem Four.get_map {α β : Type} (g : α → β) (f : Four α) (p : Port) :
    (f.map g).get p = g (f.get p) := by cases p <;> rfl

@[simp] theorem Four.get_all {α : Type} (x : α) (p : Port) : (Four.all x).get p = x := by
  cases p <;> rfl

/-- Two records that agree at every port are equal. -/
theorem Four.ext_get {α : Type} {f g : Four α} (h : ∀ p, f.get p = g.get p) : f = g := by
  cases f; cases g
  have h0 := h .p0; have h1 := h .p1; have h2 := h .p2; have h3 := h .p3
  simp only [Four.get] at h0 h1 h2 h3
  subst h0 h1 h2 h3
  rfl

@[simp] theorem Port.mem_all (p : Port) : p ∈ Port.all := by cases p <;> decide

end Sys2Proof

namespace Sys2Proof.Machine

/-! Replacing a session, a station link, the supervisor link. -/

@[simp] theorem State.setSession_pending (s : State) (p : Port) (x : Session) : (s.setSession p x).pending = s.pending := rfl
@[simp] theorem State.setSession_vdd (s : State) (p : Port) (x : Session) : (s.setSession p x).vdd = s.vdd := rfl
@[simp] theorem State.setSession_vbat (s : State) (p : Port) (x : Session) : (s.setSession p x).vbat = s.vbat := rfl
@[simp] theorem State.setSession_resetLow (s : State) (p : Port) (x : Session) : (s.setSession p x).resetLow = s.resetLow := rfl
@[simp] theorem State.setSession_check (s : State) (p : Port) (x : Session) : (s.setSession p x).check = s.check := rfl
@[simp] theorem State.setSession_ret (s : State) (p : Port) (x : Session) : (s.setSession p x).ret = s.ret := rfl
@[simp] theorem State.setSession_freeCount (s : State) (p : Port) (x : Session) : (s.setSession p x).freeCount = s.freeCount := rfl
@[simp] theorem State.setSession_main_links (s : State) (p : Port) (x : Session) :
    (s.setSession p x).main.links = s.main.links := rfl
@[simp] theorem State.setSession_main_pool (s : State) (p : Port) (x : Session) :
    (s.setSession p x).main.pool = s.main.pool := rfl
@[simp] theorem State.setSession_main_clock (s : State) (p : Port) (x : Session) :
    (s.setSession p x).main.clock = s.main.clock := rfl
@[simp] theorem State.setSession_main_clockOwed (s : State) (p : Port) (x : Session) :
    (s.setSession p x).main.clockOwed = s.main.clockOwed := rfl
@[simp] theorem State.setSession_main_nextId (s : State) (p : Port) (x : Session) :
    (s.setSession p x).main.nextId = s.main.nextId := rfl
@[simp] theorem State.setSession_main_ended (s : State) (p : Port) (x : Session) :
    (s.setSession p x).main.ended = s.main.ended := rfl
@[simp] theorem State.setSession_main_loading (s : State) (p : Port) (x : Session) :
    (s.setSession p x).main.loading = s.main.loading := rfl
@[simp] theorem State.setSession_main_loaded (s : State) (p : Port) (x : Session) :
    (s.setSession p x).main.loaded = s.main.loaded := rfl
@[simp] theorem State.setSession_main_sup (s : State) (p : Port) (x : Session) :
    (s.setSession p x).main.sup = s.main.sup := rfl
@[simp] theorem State.setSession_main_holder (s : State) (p : Port) (x : Session) :
    (s.setSession p x).main.holder = s.main.holder := rfl
@[simp] theorem State.setSession_main_waiting (s : State) (p : Port) (x : Session) :
    (s.setSession p x).main.waiting = s.main.waiting := rfl
@[simp] theorem State.setSession_main_sessions (s : State) (p : Port) (x : Session) :
    (s.setSession p x).main.sessions = s.main.sessions.set p x := rfl
@[simp] theorem State.setLink_pending (s : State) (p : Port) (x : Link) : (s.setLink p x).pending = s.pending := rfl
@[simp] theorem State.setLink_vdd (s : State) (p : Port) (x : Link) : (s.setLink p x).vdd = s.vdd := rfl
@[simp] theorem State.setLink_vbat (s : State) (p : Port) (x : Link) : (s.setLink p x).vbat = s.vbat := rfl
@[simp] theorem State.setLink_resetLow (s : State) (p : Port) (x : Link) : (s.setLink p x).resetLow = s.resetLow := rfl
@[simp] theorem State.setLink_check (s : State) (p : Port) (x : Link) : (s.setLink p x).check = s.check := rfl
@[simp] theorem State.setLink_ret (s : State) (p : Port) (x : Link) : (s.setLink p x).ret = s.ret := rfl
@[simp] theorem State.setLink_freeCount (s : State) (p : Port) (x : Link) : (s.setLink p x).freeCount = s.freeCount := rfl
@[simp] theorem State.setLink_main_sessions (s : State) (p : Port) (x : Link) :
    (s.setLink p x).main.sessions = s.main.sessions := rfl
@[simp] theorem State.setLink_main_pool (s : State) (p : Port) (x : Link) :
    (s.setLink p x).main.pool = s.main.pool := rfl
@[simp] theorem State.setLink_main_clock (s : State) (p : Port) (x : Link) :
    (s.setLink p x).main.clock = s.main.clock := rfl
@[simp] theorem State.setLink_main_clockOwed (s : State) (p : Port) (x : Link) :
    (s.setLink p x).main.clockOwed = s.main.clockOwed := rfl
@[simp] theorem State.setLink_main_nextId (s : State) (p : Port) (x : Link) :
    (s.setLink p x).main.nextId = s.main.nextId := rfl
@[simp] theorem State.setLink_main_ended (s : State) (p : Port) (x : Link) :
    (s.setLink p x).main.ended = s.main.ended := rfl
@[simp] theorem State.setLink_main_loading (s : State) (p : Port) (x : Link) :
    (s.setLink p x).main.loading = s.main.loading := rfl
@[simp] theorem State.setLink_main_loaded (s : State) (p : Port) (x : Link) :
    (s.setLink p x).main.loaded = s.main.loaded := rfl
@[simp] theorem State.setLink_main_sup (s : State) (p : Port) (x : Link) :
    (s.setLink p x).main.sup = s.main.sup := rfl
@[simp] theorem State.setLink_main_holder (s : State) (p : Port) (x : Link) :
    (s.setLink p x).main.holder = s.main.holder := rfl
@[simp] theorem State.setLink_main_waiting (s : State) (p : Port) (x : Link) :
    (s.setLink p x).main.waiting = s.main.waiting := rfl
@[simp] theorem State.setLink_main_links (s : State) (p : Port) (x : Link) :
    (s.setLink p x).main.links = s.main.links.set p x := rfl
@[simp] theorem State.setSup_pending (s : State) (x : SupLink) : (s.setSup x).pending = s.pending := rfl
@[simp] theorem State.setSup_vdd (s : State) (x : SupLink) : (s.setSup x).vdd = s.vdd := rfl
@[simp] theorem State.setSup_vbat (s : State) (x : SupLink) : (s.setSup x).vbat = s.vbat := rfl
@[simp] theorem State.setSup_resetLow (s : State) (x : SupLink) : (s.setSup x).resetLow = s.resetLow := rfl
@[simp] theorem State.setSup_check (s : State) (x : SupLink) : (s.setSup x).check = s.check := rfl
@[simp] theorem State.setSup_ret (s : State) (x : SupLink) : (s.setSup x).ret = s.ret := rfl
@[simp] theorem State.setSup_freeCount (s : State) (x : SupLink) : (s.setSup x).freeCount = s.freeCount := rfl
@[simp] theorem State.setSup_main_links (s : State) (x : SupLink) :
    (s.setSup x).main.links = s.main.links := rfl
@[simp] theorem State.setSup_main_sessions (s : State) (x : SupLink) :
    (s.setSup x).main.sessions = s.main.sessions := rfl
@[simp] theorem State.setSup_main_pool (s : State) (x : SupLink) :
    (s.setSup x).main.pool = s.main.pool := rfl
@[simp] theorem State.setSup_main_clock (s : State) (x : SupLink) :
    (s.setSup x).main.clock = s.main.clock := rfl
@[simp] theorem State.setSup_main_clockOwed (s : State) (x : SupLink) :
    (s.setSup x).main.clockOwed = s.main.clockOwed := rfl
@[simp] theorem State.setSup_main_nextId (s : State) (x : SupLink) :
    (s.setSup x).main.nextId = s.main.nextId := rfl
@[simp] theorem State.setSup_main_ended (s : State) (x : SupLink) :
    (s.setSup x).main.ended = s.main.ended := rfl
@[simp] theorem State.setSup_main_loading (s : State) (x : SupLink) :
    (s.setSup x).main.loading = s.main.loading := rfl
@[simp] theorem State.setSup_main_loaded (s : State) (x : SupLink) :
    (s.setSup x).main.loaded = s.main.loaded := rfl
@[simp] theorem State.setSup_main_holder (s : State) (x : SupLink) :
    (s.setSup x).main.holder = s.main.holder := rfl
@[simp] theorem State.setSup_main_waiting (s : State) (x : SupLink) :
    (s.setSup x).main.waiting = s.main.waiting := rfl
@[simp] theorem State.setSup_main_sup (s : State) (x : SupLink) : (s.setSup x).main.sup = x := rfl

@[simp] theorem State.session_setSession (s : State) (p : Port) (x : Session) :
    (s.setSession p x).session p = x := by simp [State.session]
@[simp] theorem State.session_setLink (s : State) (p q : Port) (x : Link) :
    (s.setLink p x).session q = s.session q := rfl
@[simp] theorem State.session_setSup (s : State) (q : Port) (x : SupLink) :
    (s.setSup x).session q = s.session q := rfl
@[simp] theorem State.link_setLink (s : State) (p : Port) (x : Link) :
    (s.setLink p x).link p = x := by simp [State.link]
@[simp] theorem State.link_setSession (s : State) (p q : Port) (x : Session) :
    (s.setSession p x).link q = s.link q := rfl
@[simp] theorem State.link_setSup (s : State) (q : Port) (x : SupLink) :
    (s.setSup x).link q = s.link q := rfl
@[simp] theorem State.setSession_setSession (s : State) (p : Port) (x y : Session) :
    (s.setSession p x).setSession p y = s.setSession p y := by simp [State.setSession]
@[simp] theorem State.setLink_setLink (s : State) (p : Port) (x y : Link) :
    (s.setLink p x).setLink p y = s.setLink p y := by simp [State.setLink]
@[simp] theorem State.setSup_setSup (s : State) (x y : SupLink) :
    (s.setSup x).setSup y = s.setSup y := rfl

/-! The power state behind an update. -/

@[simp] theorem State.powered_setSession (s : State) (p : Port) (x : Session) : (s.setSession p x).powered = s.powered := rfl
@[simp] theorem State.running_setSession (s : State) (p : Port) (x : Session) : (s.setSession p x).running = s.running := rfl
@[simp] theorem State.powered_setLink (s : State) (p : Port) (x : Link) : (s.setLink p x).powered = s.powered := rfl
@[simp] theorem State.running_setLink (s : State) (p : Port) (x : Link) : (s.setLink p x).running = s.running := rfl
@[simp] theorem State.powered_setSup (s : State) (x : SupLink) : (s.setSup x).powered = s.powered := rfl
@[simp] theorem State.running_setSup (s : State) (x : SupLink) : (s.setSup x).running = s.running := rfl
@[simp] theorem State.powered_wait (s : State) (e : AreaEvent) : (s.wait e).powered = s.powered := rfl
@[simp] theorem State.running_wait (s : State) (e : AreaEvent) : (s.wait e).running = s.running := rfl
@[simp] theorem State.powered_driveMiso (s : State) (b : List Byte) : (s.driveMiso b).powered = s.powered := rfl
@[simp] theorem State.running_driveMiso (s : State) (b : List Byte) : (s.driveMiso b).running = s.running := rfl

/-! An event that comes to wait. -/

@[simp] theorem State.wait_pending (s : State) (e : AreaEvent) : (s.wait e).pending = s.pending := rfl
@[simp] theorem State.wait_vdd (s : State) (e : AreaEvent) : (s.wait e).vdd = s.vdd := rfl
@[simp] theorem State.wait_vbat (s : State) (e : AreaEvent) : (s.wait e).vbat = s.vbat := rfl
@[simp] theorem State.wait_resetLow (s : State) (e : AreaEvent) : (s.wait e).resetLow = s.resetLow := rfl
@[simp] theorem State.wait_check (s : State) (e : AreaEvent) : (s.wait e).check = s.check := rfl
@[simp] theorem State.wait_ret (s : State) (e : AreaEvent) : (s.wait e).ret = s.ret := rfl
@[simp] theorem State.wait_freeCount (s : State) (e : AreaEvent) : (s.wait e).freeCount = s.freeCount := rfl
@[simp] theorem State.wait_main_links (s : State) (e : AreaEvent) :
    (s.wait e).main.links = s.main.links := rfl
@[simp] theorem State.wait_main_sessions (s : State) (e : AreaEvent) :
    (s.wait e).main.sessions = s.main.sessions := rfl
@[simp] theorem State.wait_main_pool (s : State) (e : AreaEvent) :
    (s.wait e).main.pool = s.main.pool := rfl
@[simp] theorem State.wait_main_clock (s : State) (e : AreaEvent) :
    (s.wait e).main.clock = s.main.clock := rfl
@[simp] theorem State.wait_main_clockOwed (s : State) (e : AreaEvent) :
    (s.wait e).main.clockOwed = s.main.clockOwed := rfl
@[simp] theorem State.wait_main_nextId (s : State) (e : AreaEvent) :
    (s.wait e).main.nextId = s.main.nextId := rfl
@[simp] theorem State.wait_main_ended (s : State) (e : AreaEvent) :
    (s.wait e).main.ended = s.main.ended := rfl
@[simp] theorem State.wait_main_loading (s : State) (e : AreaEvent) :
    (s.wait e).main.loading = s.main.loading := rfl
@[simp] theorem State.wait_main_loaded (s : State) (e : AreaEvent) :
    (s.wait e).main.loaded = s.main.loaded := rfl
@[simp] theorem State.wait_main_sup (s : State) (e : AreaEvent) :
    (s.wait e).main.sup = s.main.sup := rfl
@[simp] theorem State.wait_main_holder (s : State) (e : AreaEvent) :
    (s.wait e).main.holder = s.main.holder := rfl
@[simp] theorem State.wait_main_waiting (s : State) (e : AreaEvent) :
    (s.wait e).main.waiting = s.main.waiting ++ [e] := rfl
/-! A request in hand that no session reset has dropped. -/

@[simp] theorem State.judgedFor_none (s : State) (p : Port) (f : StationFrame) :
    s.judgedFor p ⟨f, none⟩ = s := rfl
@[simp] theorem State.judgedFor_ret (s : State) (p : Port) (h : InHand) :
    (s.judgedFor p h).ret = s.ret := by unfold State.judgedFor; split <;> rfl
@[simp] theorem InHand.standing_none (f : StationFrame) (ms : List MainWrite) :
    (⟨f, none⟩ : InHand).standing ms = ms := rfl

@[simp] theorem State.session_wait (s : State) (e : AreaEvent) (p : Port) :
    (s.wait e).session p = s.session p := rfl
@[simp] theorem State.link_wait (s : State) (e : AreaEvent) (p : Port) :
    (s.wait e).link p = s.link p := rfl

/-! What the statements' states hold. -/

@[simp] theorem State.withStationAnswer_pending (s : State) (p : Port) (f : StationFrame) (a : Answer)
    (trial replay : Bool) :
    (s.withStationAnswer p f a trial replay).pending = s.pending := rfl
@[simp] theorem State.withStationAnswer_vdd (s : State) (p : Port) (f : StationFrame) (a : Answer)
    (trial replay : Bool) :
    (s.withStationAnswer p f a trial replay).vdd = s.vdd := rfl
@[simp] theorem State.withStationAnswer_vbat (s : State) (p : Port) (f : StationFrame) (a : Answer)
    (trial replay : Bool) :
    (s.withStationAnswer p f a trial replay).vbat = s.vbat := rfl
@[simp] theorem State.withStationAnswer_resetLow (s : State) (p : Port) (f : StationFrame) (a : Answer)
    (trial replay : Bool) :
    (s.withStationAnswer p f a trial replay).resetLow = s.resetLow := rfl
@[simp] theorem State.withStationAnswer_check (s : State) (p : Port) (f : StationFrame) (a : Answer)
    (trial replay : Bool) :
    (s.withStationAnswer p f a trial replay).check = s.check := rfl
@[simp] theorem State.withStationAnswer_ret (s : State) (p : Port) (f : StationFrame) (a : Answer)
    (trial replay : Bool) :
    (s.withStationAnswer p f a trial replay).ret = s.ret := rfl
@[simp] theorem State.withStationAnswer_freeCount (s : State) (p : Port) (f : StationFrame) (a : Answer)
    (trial replay : Bool) :
    (s.withStationAnswer p f a trial replay).freeCount = s.freeCount := rfl
@[simp] theorem State.withStationAnswer_main_pool (s : State) (p : Port) (f : StationFrame) (a : Answer)
    (trial replay : Bool) :
    (s.withStationAnswer p f a trial replay).main.pool = s.main.pool := rfl
@[simp] theorem State.withStationAnswer_main_clock (s : State) (p : Port) (f : StationFrame) (a : Answer)
    (trial replay : Bool) :
    (s.withStationAnswer p f a trial replay).main.clock = s.main.clock := rfl
@[simp] theorem State.withStationAnswer_main_clockOwed (s : State) (p : Port) (f : StationFrame) (a : Answer)
    (trial replay : Bool) :
    (s.withStationAnswer p f a trial replay).main.clockOwed = s.main.clockOwed := rfl
@[simp] theorem State.withStationAnswer_main_nextId (s : State) (p : Port) (f : StationFrame) (a : Answer)
    (trial replay : Bool) :
    (s.withStationAnswer p f a trial replay).main.nextId = s.main.nextId := rfl
@[simp] theorem State.withStationAnswer_main_ended (s : State) (p : Port) (f : StationFrame) (a : Answer)
    (trial replay : Bool) :
    (s.withStationAnswer p f a trial replay).main.ended = s.main.ended := rfl
@[simp] theorem State.withStationAnswer_main_loading (s : State) (p : Port) (f : StationFrame) (a : Answer)
    (trial replay : Bool) :
    (s.withStationAnswer p f a trial replay).main.loading = s.main.loading := rfl
@[simp] theorem State.withStationAnswer_main_loaded (s : State) (p : Port) (f : StationFrame) (a : Answer)
    (trial replay : Bool) :
    (s.withStationAnswer p f a trial replay).main.loaded = s.main.loaded := rfl
@[simp] theorem State.withStationAnswer_main_sup (s : State) (p : Port) (f : StationFrame) (a : Answer)
    (trial replay : Bool) :
    (s.withStationAnswer p f a trial replay).main.sup = s.main.sup := rfl
@[simp] theorem State.withStationAnswer_main_holder (s : State) (p : Port) (f : StationFrame) (a : Answer)
    (trial replay : Bool) :
    (s.withStationAnswer p f a trial replay).main.holder = s.main.holder := rfl
@[simp] theorem State.withStationAnswer_main_waiting (s : State) (p : Port) (f : StationFrame) (a : Answer)
    (trial replay : Bool) :
    (s.withStationAnswer p f a trial replay).main.waiting = s.main.waiting := rfl

/-! Bringing a change through the staged-change area. -/

@[simp] theorem State.clearArea_holder (s : State) : s.clearArea.main.holder = none := rfl
@[simp] theorem State.clearArea_staged (s : State) : s.clearArea.ret.staged = [] := rfl
@[simp] theorem State.clearArea_completion (s : State) : s.clearArea.ret.completion = false := rfl
@[simp] theorem State.clearArea_waiting (s : State) :
    s.clearArea.main.waiting = s.main.waiting := rfl
@[simp] theorem State.clearArea_sup (s : State) : s.clearArea.main.sup = s.main.sup := rfl
@[simp] theorem State.session_clearArea (s : State) (p : Port) :
    s.clearArea.session p = s.session p := rfl
@[simp] theorem State.link_clearArea (s : State) (p : Port) : s.clearArea.link p = s.link p := rfl
@[simp] theorem State.running_clearArea (s : State) : s.clearArea.running = s.running := rfl

end Sys2Proof.Machine
end

