-- ==== Sys2Proof/Laws/Staged.lean ====
section
/-! SUPPORT. What the staged-change area, the recorded values and the main-memory effects do: one lemma
for each shared operation. -/

namespace Sys2Proof.Machine

/-! Recorded values. -/

@[simp] theorem Retained.mapBank_staged (r : Retained) (b : BankId) (f : Bank → Bank) :
    (r.mapBank b f).staged = r.staged := by cases b <;> rfl
@[simp] theorem Retained.mapBank_completion (r : Retained) (b : BankId) (f : Bank → Bank) :
    (r.mapBank b f).completion = r.completion := by cases b <;> rfl
@[simp] theorem Retained.mapBank_mark (r : Retained) (b : BankId) (f : Bank → Bank) :
    (r.mapBank b f).mark = r.mark := by cases b <;> rfl

/-- Writing a recorded value leaves the staged-change area and the two marks alone. -/
theorem applyRet_control (w : RetWrite) (r : Retained) :
    (applyRet w r).staged = r.staged ∧ (applyRet w r).completion = r.completion ∧
      (applyRet w r).mark = r.mark := by
  cases w <;> simp [applyRet, Retained.setSlot, Retained.mapAccount, Retained.wiped]

@[simp] theorem applyRets_nil (r : Retained) : applyRets [] r = r := rfl
@[simp] theorem applyRets_cons (w : RetWrite) (ws : List RetWrite) (r : Retained) :
    applyRets (w :: ws) r = applyRets ws (applyRet w r) := rfl
theorem applyRets_append (ws vs : List RetWrite) (r : Retained) :
    applyRets (ws ++ vs) r = applyRets vs (applyRets ws r) := by
  simp [applyRets, List.foldl_append]

/-- Writing recorded values leaves the staged-change area and the two marks alone. -/
theorem applyRets_control (ws : List RetWrite) (r : Retained) :
    (applyRets ws r).staged = r.staged ∧ (applyRets ws r).completion = r.completion ∧
      (applyRets ws r).mark = r.mark := by
  induction ws generalizing r with
  | nil => simp
  | cons w ws ih =>
    obtain ⟨h1, h2, h3⟩ := ih (applyRet w r)
    obtain ⟨k1, k2, k3⟩ := applyRet_control w r
    simp [h1, h2, h3, k1, k2, k3]

@[simp] theorem applyRets_staged (ws : List RetWrite) (r : Retained) :
    (applyRets ws r).staged = r.staged := (applyRets_control ws r).1
@[simp] theorem applyRets_completion (ws : List RetWrite) (r : Retained) :
    (applyRets ws r).completion = r.completion := (applyRets_control ws r).2.1
@[simp] theorem applyRets_mark (ws : List RetWrite) (r : Retained) :
    (applyRets ws r).mark = r.mark := (applyRets_control ws r).2.2

/-- The bookkeeping of the area changes no recorded value. -/
theorem applyRet_withStaged (w : RetWrite) (r : Retained) (st : List RetWrite) (c : Bool) :
    applyRet w { r with staged := st, completion := c } =
      { applyRet w r with staged := st, completion := c } := by
  cases w with
  | tariffRow b row fares => cases b <;> rfl
  | classCap b cls cap => cases b <;> rfl
  | bankGen b v => cases b <;> rfl
  | wipe => simp only [applyRet, Retained.wiped]
  | _ => rfl

/-- The bookkeeping of the area changes no recorded value. -/
theorem applyRets_withStaged (ws : List RetWrite) (r : Retained) (st : List RetWrite) (c : Bool) :
    applyRets ws { r with staged := st, completion := c } =
      { applyRets ws r with staged := st, completion := c } := by
  induction ws generalizing r with
  | nil => rfl
  | cons w ws ih => simp only [applyRets_cons, applyRet_withStaged, ih]

/-! Main-memory effects. -/

/-- The main-memory effects of an event, without the clock advances they set free. -/
def Main.effects (m : Main) (ws : List MainWrite) : Main := ws.foldl (fun m w => applyMain w m) m

@[simp] theorem Main.effects_nil (m : Main) : m.effects [] = m := rfl
@[simp] theorem Main.effects_cons (m : Main) (w : MainWrite) (ws : List MainWrite) :
    m.effects (w :: ws) = (applyMain w m).effects ws := rfl

/-- A main-memory effect leaves the links, the area and the clock alone. -/
theorem applyMain_frame (w : MainWrite) (m : Main) :
    (applyMain w m).links = m.links ∧ (applyMain w m).sup = m.sup ∧
      (applyMain w m).holder = m.holder ∧ (applyMain w m).waiting = m.waiting ∧
      (applyMain w m).clock = m.clock ∧ (applyMain w m).clockOwed = m.clockOwed := by
  cases w <;> simp [applyMain, Main.mapSession]

/-- Main-memory effects leave the links, the area and the clock alone. -/
theorem Main.effects_frame (ws : List MainWrite) (m : Main) :
    (m.effects ws).links = m.links ∧ (m.effects ws).sup = m.sup ∧
      (m.effects ws).holder = m.holder ∧ (m.effects ws).waiting = m.waiting ∧
      (m.effects ws).clock = m.clock ∧ (m.effects ws).clockOwed = m.clockOwed := by
  induction ws generalizing m with
  | nil => simp
  | cons w ws ih =>
    obtain ⟨h1, h2, h3, h4, h5, h6⟩ := ih (applyMain w m)
    obtain ⟨k1, k2, k3, k4, k5, k6⟩ := applyMain_frame w m
    simp [h1, h2, h3, h4, h5, h6, k1, k2, k3, k4, k5, k6]

@[simp] theorem Main.effects_links (ws : List MainWrite) (m : Main) :
    (m.effects ws).links = m.links := (Main.effects_frame ws m).1
@[simp] theorem Main.effects_sup (ws : List MainWrite) (m : Main) :
    (m.effects ws).sup = m.sup := (Main.effects_frame ws m).2.1
@[simp] theorem Main.effects_holder (ws : List MainWrite) (m : Main) :
    (m.effects ws).holder = m.holder := (Main.effects_frame ws m).2.2.1
@[simp] theorem Main.effects_waiting (ws : List MainWrite) (m : Main) :
    (m.effects ws).waiting = m.waiting := (Main.effects_frame ws m).2.2.2.1
@[simp] theorem Main.effects_clock (ws : List MainWrite) (m : Main) :
    (m.effects ws).clock = m.clock := (Main.effects_frame ws m).2.2.2.2.1
@[simp] theorem Main.effects_clockOwed (ws : List MainWrite) (m : Main) :
    (m.effects ws).clockOwed = m.clockOwed := (Main.effects_frame ws m).2.2.2.2.2

/-- With no advance owed the clock has nothing to catch up. -/
theorem Main.catchUp_of_owed {m : Main} (h : m.clockOwed = 0) : m.catchUp = m := by
  unfold Main.catchUp
  rw [h]
  cases m
  simp only at h
  subst h
  rfl

/-- With no advance owed an event's main-memory effects are all there is. -/
theorem applyMains_of_owed {m : Main} (h : m.clockOwed = 0) (ws : List MainWrite) :
    applyMains ws m = m.effects ws :=
  Main.catchUp_of_owed (by rw [← h]; exact Main.effects_clockOwed ws m)

/-- Making main-memory effects at once, with no advance owed. -/
theorem State.doMains_of_owed {s : State} (h : s.main.clockOwed = 0) (ws : List MainWrite) :
    s.doMains ws = { s with main := s.main.effects ws } := by
  unfold State.doMains
  cases ws with
  | nil => rfl
  | cons w ws => simp [applyMains_of_owed h]

/-- A session whose request in hand no session reset has dropped keeps it when its cursor changes. -/
theorem Session.mapCursors_inHand {x : Option InHand} (hx : ∀ h ∈ x, h.dropped = none)
    (f : Cursor → Cursor) (y : Session) :
    ({ y with inHand := x } : Session).mapCursors f = { y.mapCursors f with inHand := x } := by
  cases x with
  | none => rfl
  | some h =>
    have := hx h rfl
    cases h
    subst this
    rfl

/-- A request that no session reset has dropped. -/
theorem InHand.stands (f : StationFrame) :
    ∀ h ∈ (some ⟨f, none⟩ : Option InHand), h.dropped = none := by
  intro h hh
  cases hh
  rfl

/-- A main-memory effect does not look at the link or at a request in hand that stands. -/
theorem applyMain_mapSession (w : MainWrite) (m : Main) (p : Port) {x : Option InHand}
    (hx : ∀ h ∈ x, h.dropped = none) (l : Four Link) :
    applyMain w { m.mapSession p (fun y => { y with inHand := x }) with links := l } =
      { (applyMain w m).mapSession p (fun y => { y with inHand := x }) with links := l } := by
  have hm := Session.mapCursors_inHand hx
  cases w with
  | slotGone slot =>
    cases p <;>
      simp only [applyMain, Main.mapSession, Four.map, Four.set, Four.get, hm]
  | wipe =>
    cases p <;>
      simp only [applyMain, Main.mapSession, Four.map, Four.set, Four.get, hm]
  | _ => first
    | rfl
    | (rename_i q _; cases p <;> cases q <;> rfl)

/-- Main-memory effects do not look at the links or at a request in hand that stands. -/
theorem Main.effects_mapSession (ws : List MainWrite) (m : Main) (p : Port) {x : Option InHand}
    (hx : ∀ h ∈ x, h.dropped = none) (l : Four Link) :
    ({ m.mapSession p (fun y => { y with inHand := x }) with links := l } : Main).effects ws =
      { (m.effects ws).mapSession p (fun y => { y with inHand := x }) with links := l } := by
  induction ws generalizing m with
  | nil => rfl
  | cons w ws ih => simp only [Main.effects_cons, applyMain_mapSession _ _ _ hx, ih]

/-- Main-memory effects do not look at the holder of the area. -/
theorem Main.effects_withHolder (ws : List MainWrite) (m : Main) (x : Option Holder) :
    ({ m with holder := x } : Main).effects ws = { m.effects ws with holder := x } := by
  induction ws generalizing m with
  | nil => rfl
  | cons w ws ih =>
    have h : applyMain w { m with holder := x } = { applyMain w m with holder := x } := by
      cases w <;> rfl
    simp only [Main.effects_cons, h, ih]

/-- Main-memory effects do not look at the supervisor link or at the waiting events. -/
theorem Main.effects_withSup (ws : List MainWrite) (m : Main) (x : SupLink) :
    ({ m with sup := x } : Main).effects ws = { m.effects ws with sup := x } := by
  induction ws generalizing m with
  | nil => rfl
  | cons w ws ih =>
    have h : applyMain w { m with sup := x } = { applyMain w m with sup := x } := by
      cases w <;> rfl
    simp only [Main.effects_cons, h, ih]

/-! The area. -/

/-- With the area free there is nothing to apply. -/
theorem State.finishApply_of_free {s : State} (h : s.main.holder = none) : s.finishApply = s := by
  simp [State.finishApply, h]

/-- The end of a change that an event with nothing owed by the clock has written into the area: the
recorded values and the main-memory effects, and the area free. -/
theorem State.finish_holdArea {s : State} (ho : s.main.clockOwed = 0) (hh : s.main.holder = none)
    (hs : s.ret.staged = []) (hc : s.ret.completion = false) (e : AreaEvent)
    (ws : List RetWrite) (ms : List MainWrite) (r : Option Reply) :
    (s.holdArea e ws ms r).finishApply.clearArea =
      { s with ret := applyRets ws s.ret, main := s.main.effects ms } := by
  have h1 : (s.holdArea e ws ms r).finishApply =
      { s with
        ret := { applyRets ws { s.ret with staged := ws, completion := false } with
          completion := true }
        main := { applyMains ms { s.main with holder := some ⟨e, .write, ms, r⟩ } with
          holder := some ⟨e, .clear, [], r⟩ } } := rfl
  have h2 : applyMains ms { s.main with holder := some ⟨e, .write, ms, r⟩ } =
      { s.main.effects ms with holder := some ⟨e, .write, ms, r⟩ } := by
    rw [applyMains_of_owed (by exact ho), Main.effects_withHolder]
  rw [h1, h2, applyRets_withStaged]
  have h3 : (s.main.effects ms).holder = none := by simp [hh]
  have h4 : (applyRets ws s.ret).staged = [] := by simp [hs]
  have h5 : (applyRets ws s.ret).completion = false := by simp [hc]
  simp only [State.clearArea]
  rw [← h3, ← h4, ← h5]

/-- With the area free a read sees the state as it stands. -/
theorem State.settleForRead_of_free {s : State} (h : s.main.holder = none) :
    s.settleForRead = s := by
  simp [State.settleForRead, h]

/-- With no holder STAGED_CHANGE_COMPLETE has nothing to complete. -/
theorem State.completeChange_of_free {s : State} (h : s.main.holder = none) :
    s.completeChange = s := by
  simp [State.completeChange, h]

/-- With nothing waiting, giving the area on changes nothing. -/
theorem giveAreaN_nothing (n : Nat) {s : State} (h : s.main.waiting = []) : giveAreaN n s = s := by
  cases n with
  | zero => rfl
  | succ n => simp [giveAreaN, h]

/-- With nothing waiting, giving the area on changes nothing. -/
theorem State.giveArea_nothing {s : State} (h : s.main.waiting = []) : s.giveArea = s := by
  simp [State.giveArea, giveAreaN_nothing _ h]

/-- While an event holds the area, it is not given on. -/
theorem giveAreaN_held (n : Nat) {s : State} (h : s.main.holder.isSome = true) :
    giveAreaN n s = s := by
  cases n with
  | zero => rfl
  | succ n => simp [giveAreaN, h]

/-- The state with the waiting events as given. -/
def State.withWaiting (s : State) (w : List AreaEvent) : State :=
  { s with main := { s.main with waiting := w } }

/-- A free area is given to the event that has waited longest (R175). -/
theorem giveAreaN_next (n : Nat) {s : State} {e : AreaEvent} {rest : List AreaEvent}
    (h : s.main.holder = none) (hw : s.main.waiting = e :: rest) :
    giveAreaN (n + 1) s = giveAreaN n ((s.withWaiting rest).takeWaiting e) := by
  rw [giveAreaN]
  simp [h, hw, State.withWaiting]

/-- A free area is given to the one event that waits (R175). -/
theorem State.giveArea_one {s : State} {e : AreaEvent} (hr : s.running = true)
    (h : s.main.holder = none) (hw : s.main.waiting = [e]) :
    s.giveArea = giveAreaN 4 ((s.withWaiting []).takeWaiting e) := by
  simp only [State.giveArea, hr, if_true, hw, List.length_singleton]
  exact giveAreaN_next 4 h hw

end Sys2Proof.Machine
end

