-- ==== Sys2Proof/Laws/Requests.lean ====
section
/-! SUPPORT. What a request comes to on a part that is ready for it: one lemma for the station links and
one for the supervisor link, which the statements about single requests cite. -/

namespace Sys2Proof.Machine

/-! A verdict does not look at the links, the requests in hand or the events waiting. -/

/-- The state with a request in hand at a port and the events waiting as given. -/
def State.inHand (s : State) (p : Port) (x : Option InHand) (l : Four Link)
    (w : List AreaEvent) : State :=
  { s with main := { s.main.mapSession p (fun y => { y with inHand := x }) with
      links := l, waiting := w } }

theorem stationOutcome_inHand (p : Port) (f : StationFrame) (s : State) (x : Option InHand)
    (l : Four Link) (w : List AreaEvent) :
    stationOutcome p f (s.inHand p x l w) = stationOutcome p f s := by
  obtain ⟨seq, r⟩ := f
  cases r <;> cases p <;> rfl

theorem stationNeedsArea_inHand (p : Port) (f : StationFrame) (s : State) (x : Option InHand)
    (l : Four Link) (w : List AreaEvent) :
    stationNeedsArea p f (s.inHand p x l w) = stationNeedsArea p f s := by
  obtain ⟨seq, r⟩ := f
  cases r <;> cases p <;> rfl

theorem judge_setSup (r : SupervisorRequest) (s : State) (x : SupLink) (w : List AreaEvent) :
    r.judge { s with main := { s.main with sup := x, waiting := w } } = r.judge s := by
  cases r <;> rfl

/-! Station requests. -/

/-- A request that needs no area has nothing to stage (R175). -/
theorem stationOutcome_writes_of_free {p : Port} {f : StationFrame} {s : State}
    (h : stationNeedsArea p f s = false) : (stationOutcome p f s).verdict.writes = [] := by
  obtain ⟨seq, r⟩ := f
  cases r with
  | bad code body =>
    have h0 : seq = 0 := by simpa [stationNeedsArea] using h
    simp [stationOutcome, withCache, report, h0]
  | select key =>
    simp only [stationNeedsArea, StationRequest.stagesAlways] at h
    simp only [stationOutcome]
    cases hc : s.cached p seq with
    | some e => simp only []; split <;> simp [report]
    | none =>
      have h0 : seq = 0 := by simpa [hc] using h
      simp only [withCache, h0, StationRequest.ladder, StationRequest.judge, judgeSelect, report]
      repeat' split
      all_goals simp_all
  | balance =>
    simp only [stationNeedsArea, StationRequest.stagesAlways] at h
    simp only [stationOutcome]
    cases hc : s.cached p seq with
    | some e => simp only []; split <;> simp [report]
    | none =>
      have h0 : seq = 0 := by simpa [hc] using h
      simp only [withCache, h0, StationRequest.ladder, StationRequest.judge, judgeBalance, report]
      repeat' split
      all_goals simp_all
  | stationStatus =>
    simp only [stationNeedsArea, StationRequest.stagesAlways] at h
    simp only [stationOutcome]
    cases hc : s.cached p seq with
    | some e => simp only []; split <;> simp [report]
    | none =>
      have h0 : seq = 0 := by simpa [hc] using h
      simp only [withCache, h0, StationRequest.ladder, StationRequest.judge, judgeStationStatus,
        report]
      repeat' split
      all_goals simp_all
  | hold amount lifetime trial =>
    simp only [stationNeedsArea, StationRequest.stagesAlways] at h
    simp only [stationOutcome]
    cases hc : s.cached p seq with
    | some e => simp only []; split <;> simp [report]
    | none =>
      have h0 : seq = 0 := by simpa [hc] using h
      simp only [withCache, h0, StationRequest.ladder, StationRequest.judge, judgeHold, report]
      repeat' split
      all_goals simp_all
  | _ =>
    simp only [stationNeedsArea, StationRequest.stagesAlways] at h
    simp only [stationOutcome]
    cases hc : s.cached p seq with
    | some e => simp only []; split <;> simp [report]
    | none => simp [hc] at h

/-- The state while a request of port p is in hand. -/
def State.handed (s : State) (p : Port) (f : StationFrame) : State :=
  s.inHand p (some ⟨f, none⟩) (s.main.links.set p { s.link p with outstanding := true })
    s.main.waiting

/-- Handing the answer of the request in hand to the link. -/
theorem State.sendAnswer_handed (s : State) (p : Port) (f : StationFrame) (ret : Retained)
    (ws : List MainWrite) (r : Reply) :
    ({ (s.handed p f) with ret := ret, main := (s.handed p f).main.effects ws }).sendAnswer p r =
      ({ s with ret := ret, main := s.main.effects ws }).withStationAnswer p f r.answer r.trial
        r.replay := by
  have hm : (s.handed p f).main.effects ws =
      { (s.main.effects ws).mapSession p (fun y => { y with inHand := some ⟨f, none⟩ }) with
        links := s.main.links.set p { s.link p with outstanding := true } } :=
    Main.effects_mapSession ws s.main p (InHand.stands f) _
  rw [hm]
  simp only [State.sendAnswer, State.session, State.link, State.setSession, State.setLink,
    State.withStationAnswer, Main.mapSession, Four.get_set_self, Four.set_set, Main.effects_links]
  rfl

/-- A frame that arrives at a ready port is handed over. -/
theorem State.arrive_ready {s : State} {p : Port} (h : s.StationReady p) (f : StationFrame) :
    s.arrive p f =
      (if stationNeedsArea p f s then (s.handed p f).wait (.station p)
        else (s.handed p f).takeFree p f).giveArea := by
  have hp : s.powered = true := by
    have := h.running; simp only [State.running, Bool.and_eq_true] at this; exact this.1
  have hs : ((s.setSession p { s.session p with inHand := some ⟨f, none⟩ }).setLink p
      { s.link p with outstanding := true }) = s.handed p f := rfl
  have hf : (s.handed p f).settleForRead = s.handed p f :=
    State.settleForRead_of_free (by exact h.holder)
  have hn : stationNeedsArea p f (s.handed p f) = stationNeedsArea p f s :=
    stationNeedsArea_inHand ..
  simp only [State.arrive, hp, if_true, State.deliver, h.running, h.outstanding, Bool.not_false,
    Bool.and_self, State.handOver, hs, hf, hn]

/-- A request with nothing to stage is answered at once (R126, R174). -/
theorem State.arrive_unstaged {s : State} {p : Port} (h : s.StationReady p) (f : StationFrame)
    (hw : (stationOutcome p f s).verdict.writes = []) :
    s.arrive p f =
      ({ s with main := s.main.effects (stationOutcome p f s).verdict.mains }).withStationAnswer p f
        (stationOutcome p f s).verdict.answer (stationOutcome p f s).trial
        (stationOutcome p f s).replay := by
  have ho : stationOutcome p f (s.handed p f) = stationOutcome p f s := stationOutcome_inHand ..
  have hfree : (s.handed p f).finishApply = s.handed p f :=
    State.finishApply_of_free (by exact h.holder)
  have hwait : s.main.waiting = [] := h.waiting
  have hsend := State.sendAnswer_handed s p f s.ret (stationOutcome p f s).verdict.mains
    ⟨(stationOutcome p f s).verdict.answer, (stationOutcome p f s).trial,
      (stationOutcome p f s).replay⟩
  rw [State.arrive_ready h]
  split
  · have hback : ((s.handed p f).wait (.station p)).withWaiting [] = s.handed p f := by
      have : (s.handed p f).main.waiting = [] := hwait
      show { s.handed p f with main := { (s.handed p f).main with waiting := [] } } = _
      rw [← this]
    rw [State.giveArea_one (s := (s.handed p f).wait (.station p)) (e := .station p) h.running
      h.holder (by simp [State.handed, State.inHand, hwait]), hback]
    have htake : (s.handed p f).takeWaiting (.station p) =
        ((s.handed p f).doMains (stationOutcome p f s).verdict.mains).answerStation p
          ⟨(stationOutcome p f s).verdict.answer, (stationOutcome p f s).trial,
            (stationOutcome p f s).replay⟩ := by
      have hi : ((s.handed p f).session p).inHand = some ⟨f, none⟩ := by
        simp [State.handed, State.inHand, State.session, Main.mapSession]
      simp [State.takeWaiting, hi, ho, hw]
    have hdo := State.doMains_of_owed (s := s.handed p f) h.owed
      (stationOutcome p f s).verdict.mains
    have hmap := Main.effects_mapSession (stationOutcome p f s).verdict.mains s.main p
      (InHand.stands f) (s.main.links.set p { s.link p with outstanding := true })
    have hi : (({ s.handed p f with
        main := (s.handed p f).main.effects (stationOutcome p f s).verdict.mains } : State).session
          p).inHand = some ⟨f, none⟩ := by
      have : (s.handed p f).main.effects (stationOutcome p f s).verdict.mains = _ := hmap
      simp [State.session, this, Main.mapSession]
    have hans : State.answerStation { s.handed p f with
        main := (s.handed p f).main.effects (stationOutcome p f s).verdict.mains } p
          ⟨(stationOutcome p f s).verdict.answer, (stationOutcome p f s).trial,
            (stationOutcome p f s).replay⟩ =
        ({ s with main := s.main.effects (stationOutcome p f s).verdict.mains }).withStationAnswer p f
          (stationOutcome p f s).verdict.answer (stationOutcome p f s).trial
          (stationOutcome p f s).replay := by
      unfold State.answerStation
      rw [hi]
      exact hsend
    rw [htake, hdo, hans]
    refine giveAreaN_nothing _ ?_
    simpa using hwait
  · have hdo := State.doMains_of_owed (s := s.handed p f) h.owed
      (stationOutcome p f s).verdict.mains
    have ht : (s.handed p f).takeFree p f =
        ({ s with main := s.main.effects (stationOutcome p f s).verdict.mains }).withStationAnswer p f
          (stationOutcome p f s).verdict.answer (stationOutcome p f s).trial
          (stationOutcome p f s).replay := by
      simp only [State.takeFree, hfree, ite_self, ho, hdo]
      exact hsend
    rw [ht]
    refine State.giveArea_nothing ?_
    simpa using hwait

/-- A request with something to stage holds the area, its answer kept back (R174). -/
theorem State.arrive_staged {s : State} {p : Port} (h : s.StationReady p) (f : StationFrame)
    (hw : (stationOutcome p f s).verdict.writes ≠ []) :
    s.arrive p f =
      (s.handed p f).holdArea (.station p) (stationOutcome p f s).verdict.writes
        (stationOutcome p f s).verdict.mains
        (some ⟨(stationOutcome p f s).verdict.answer, (stationOutcome p f s).trial,
          (stationOutcome p f s).replay⟩) := by
  have ho : stationOutcome p f (s.handed p f) = stationOutcome p f s := stationOutcome_inHand ..
  have hn : stationNeedsArea p f s = true := by
    cases hn : stationNeedsArea p f s with
    | true => rfl
    | false => exact absurd (stationOutcome_writes_of_free hn) hw
  have hwait : s.main.waiting = [] := h.waiting
  have hback : ((s.handed p f).wait (.station p)).withWaiting [] = s.handed p f := by
    have : (s.handed p f).main.waiting = [] := hwait
    show { s.handed p f with main := { (s.handed p f).main with waiting := [] } } = _
    rw [← this]
  have hi : ((s.handed p f).session p).inHand = some ⟨f, none⟩ := by
    simp [State.handed, State.inHand, State.session, Main.mapSession]
  have hw' : (stationOutcome p f s).verdict.writes.isEmpty = false := by
    simpa using hw
  have htake : (s.handed p f).takeWaiting (.station p) =
      (s.handed p f).holdArea (.station p) (stationOutcome p f s).verdict.writes
        (stationOutcome p f s).verdict.mains
        (some ⟨(stationOutcome p f s).verdict.answer, (stationOutcome p f s).trial,
          (stationOutcome p f s).replay⟩) := by
    simp only [State.takeWaiting, hi, State.judgedFor_none, InHand.standing_none, ho, hw', Bool.false_eq_true, if_false]
  rw [State.arrive_ready h, hn, if_pos rfl,
    State.giveArea_one (s := (s.handed p f).wait (.station p)) (e := .station p) h.running
      h.holder (by simp [State.handed, State.inHand, hwait]), hback, htake]
  exact giveAreaN_held _ rfl

/-- A station request on a ready part, run to the end of the change it stages: the recorded values, the
main-memory effects, and the answer on the link (R126, R174). -/
theorem State.arrive_done {s : State} {p : Port} (h : s.StationReady p) (f : StationFrame) :
    (s.arrive p f).completeChange =
      ({ s with
        ret := applyRets (stationOutcome p f s).verdict.writes s.ret
        main := s.main.effects (stationOutcome p f s).verdict.mains }).withStationAnswer p f
          (stationOutcome p f s).verdict.answer (stationOutcome p f s).trial
          (stationOutcome p f s).replay := by
  have hwait : s.main.waiting = [] := h.waiting
  by_cases hw : (stationOutcome p f s).verdict.writes = []
  · rw [State.arrive_unstaged h f hw, State.completeChange_of_free (by simp [h.holder]), hw]
    rfl
  · rw [State.arrive_staged h f hw]
    have hfin := State.finish_holdArea (s := s.handed p f) h.owed h.holder h.staged h.completion
      (.station p) (stationOutcome p f s).verdict.writes (stationOutcome p f s).verdict.mains
      (some ⟨(stationOutcome p f s).verdict.answer, (stationOutcome p f s).trial,
        (stationOutcome p f s).replay⟩)
    have hmap := Main.effects_mapSession (stationOutcome p f s).verdict.mains s.main p
      (InHand.stands f) (s.main.links.set p { s.link p with outstanding := true })
    have hi : (({ s.handed p f with
        ret := applyRets (stationOutcome p f s).verdict.writes (s.handed p f).ret
        main := (s.handed p f).main.effects (stationOutcome p f s).verdict.mains } : State).session
          p).inHand = some ⟨f, none⟩ := by
      have : (s.handed p f).main.effects (stationOutcome p f s).verdict.mains = _ := hmap
      simp [State.session, this, Main.mapSession]
    have hans : State.answerStation { s.handed p f with
        ret := applyRets (stationOutcome p f s).verdict.writes (s.handed p f).ret
        main := (s.handed p f).main.effects (stationOutcome p f s).verdict.mains } p
          ⟨(stationOutcome p f s).verdict.answer, (stationOutcome p f s).trial,
            (stationOutcome p f s).replay⟩ =
        ({ s with
          ret := applyRets (stationOutcome p f s).verdict.writes s.ret
          main := s.main.effects (stationOutcome p f s).verdict.mains }).withStationAnswer p f
            (stationOutcome p f s).verdict.answer (stationOutcome p f s).trial
            (stationOutcome p f s).replay := by
      unfold State.answerStation
      rw [hi]
      exact State.sendAnswer_handed s p f _ (stationOutcome p f s).verdict.mains
        ⟨(stationOutcome p f s).verdict.answer, (stationOutcome p f s).trial,
          (stationOutcome p f s).replay⟩
    have hc : ∀ (t : State) (ws : List RetWrite) (ms : List MainWrite) (r : Reply),
        (t.holdArea (.station p) ws ms (some r)).completeChange =
          (((t.holdArea (.station p) ws ms (some r)).finishApply.clearArea).answerStation p
            r).giveArea := fun _ _ _ _ => rfl
    rw [hc, hfin, hans]
    refine State.giveArea_nothing ?_
    simpa using hwait

/-! Supervisor requests. -/

/-- The supervisor link while a request is pending that one write period carried (R192). -/
def SupLink.asked (r : SupervisorRequest) : SupLink where
  state := .requestPending
  requestBuffer := r.bytes
  request := some r
  answer := none
  miso := List.replicate (r.bytes.length + 1) 0xFF

/-- A request that needs no area has nothing to stage and no main-memory effect (R175). -/
theorem judge_of_free {r : SupervisorRequest} (h : r.needsArea = false) (s : State) :
    (r.judge s).writes = [] ∧ (r.judge s).mains = [] := by
  cases r with
  | readAccount key =>
    simp only [SupervisorRequest.judge, judgeReadAccount]
    split <;> simp [report]
  | enumerate startSlot filter =>
    simp only [SupervisorRequest.judge, judgeEnumerate]
    split <;> simp [report]
  | readTariffRow which cls entryZone =>
    simp only [SupervisorRequest.judge, judgeReadTariffRow, readRow]
    repeat' split
    all_goals simp [report]
  | status => exact ⟨rfl, rfl⟩
  | readParameters => exact ⟨rfl, rfl⟩
  | bad code body => exact ⟨rfl, rfl⟩
  | _ => simp [SupervisorRequest.needsArea] at h

/-- A request written to a ready supervisor link is handed to its owner. -/
theorem State.submit_ready {s : State} (h : s.SupervisorReady) (r : SupervisorRequest) :
    s.submit r = (s.setSup (SupLink.asked r)).handSupervisor.giveArea := by
  have hp : s.powered = true := by
    have := h.running; simp only [State.running, Bool.and_eq_true] at this; exact this.1
  have hr : ((s.driveMiso (List.replicate r.bytes.length 0xFF)).setSup
      { (s.driveMiso (List.replicate r.bytes.length 0xFF)).main.sup with
        state := .requestPending, requestBuffer := r.bytes, request := some r,
        answer := none }).running = true := h.running
  simp only [State.submit, hp, Bool.not_true, Bool.false_eq_true, if_false, h.sup,
    State.acceptSupervisor, hr, if_true]
  rfl

theorem judge_asked {s : State} (h : s.SupervisorReady) (r : SupervisorRequest) :
    r.judge (s.setSup (SupLink.asked r)) = r.judge s := by
  have hwait : s.main.waiting = [] := h.waiting
  have := judge_setSup r s (SupLink.asked r) []
  rw [← this]
  congr 2
  simp [State.setSup, hwait]

/-- A request that needs the area is given it at once. -/
theorem State.submit_area {s : State} (h : s.SupervisorReady) {r : SupervisorRequest}
    (hn : r.needsArea = true) :
    s.submit r = giveAreaN 4 ((s.setSup (SupLink.asked r)).takeWaiting .supervisor) := by
  have hwait : s.main.waiting = [] := h.waiting
  have hh : (s.setSup (SupLink.asked r)).handSupervisor =
      (s.setSup (SupLink.asked r)).wait .supervisor := by
    have hq : (s.setSup (SupLink.asked r)).main.sup.request = some r := rfl
    simp only [State.handSupervisor, hq, hn, if_true]
  have hback : ((s.setSup (SupLink.asked r)).wait .supervisor).withWaiting [] =
      s.setSup (SupLink.asked r) := by
    show { s.setSup (SupLink.asked r) with
      main := { (s.setSup (SupLink.asked r)).main with waiting := [] } } = _
    have : (s.setSup (SupLink.asked r)).main.waiting = [] := hwait
    rw [← this]
  rw [State.submit_ready h, hh,
    State.giveArea_one (s := (s.setSup (SupLink.asked r)).wait .supervisor)
      (e := .supervisor) h.running h.holder (by simp [hwait]), hback]

/-- A supervisor request with nothing to stage is answered at once (R153). -/
theorem State.submit_unstaged {s : State} (h : s.SupervisorReady) (r : SupervisorRequest)
    (hw : (r.judge s).writes = []) :
    s.submit r =
      ({ s with main := s.main.effects (r.judge s).mains }).afterSupervisor r
        (r.judge s).answer := by
  have hwait : s.main.waiting = [] := h.waiting
  have hj := judge_asked h r
  have hq : (s.setSup (SupLink.asked r)).main.sup.request = some r := rfl
  cases hn : r.needsArea with
  | false =>
    obtain ⟨_, hm⟩ := judge_of_free hn s
    have hh : (s.setSup (SupLink.asked r)).handSupervisor =
        s.afterSupervisor r (r.judge s).answer := by
      have hf : (s.setSup (SupLink.asked r)).settleForRead = s.setSup (SupLink.asked r) :=
        State.settleForRead_of_free (by exact h.holder)
      simp only [State.handSupervisor, hq, hn, Bool.false_eq_true, if_false, hf, hj]
      rfl
    have hg : (s.afterSupervisor r (r.judge s).answer).giveArea =
        s.afterSupervisor r (r.judge s).answer := State.giveArea_nothing (by exact hwait)
    rw [State.submit_ready h, hh, hg, hm]
    rfl
  | true =>
    have ht : (s.setSup (SupLink.asked r)).takeWaiting .supervisor =
        ((s.setSup (SupLink.asked r)).doMains (r.judge s).mains).answerSupervisor
          (r.judge s).answer := by
      simp only [State.takeWaiting, hq, hj, hw, List.isEmpty_nil, if_true]
    have he : (s.setSup (SupLink.asked r)).main.effects (r.judge s).mains =
        { s.main.effects (r.judge s).mains with sup := SupLink.asked r } :=
      Main.effects_withSup ..
    have ha : ((s.setSup (SupLink.asked r)).doMains (r.judge s).mains).answerSupervisor
          (r.judge s).answer =
        ({ s with main := s.main.effects (r.judge s).mains }).afterSupervisor r
          (r.judge s).answer := by
      rw [State.doMains_of_owed (by exact h.owed), he]
      rfl
    rw [State.submit_area h hn, ht, ha,
      giveAreaN_nothing _ (by simpa [State.afterSupervisor] using hwait)]

/-- A supervisor request with something to stage holds the area, its answer kept back (R174). -/
theorem State.submit_staged {s : State} (h : s.SupervisorReady) (r : SupervisorRequest)
    (hw : (r.judge s).writes ≠ []) :
    s.submit r =
      (s.setSup (SupLink.asked r)).holdArea .supervisor (r.judge s).writes (r.judge s).mains
        (some ⟨(r.judge s).answer, false, false⟩) := by
  have hj := judge_asked h r
  have hq : (s.setSup (SupLink.asked r)).main.sup.request = some r := rfl
  have hn : r.needsArea = true := by
    cases hn : r.needsArea with
    | true => rfl
    | false => exact absurd (judge_of_free hn s).1 hw
  have hw' : (r.judge s).writes.isEmpty = false := by simpa using hw
  have ht : (s.setSup (SupLink.asked r)).takeWaiting .supervisor =
      (s.setSup (SupLink.asked r)).holdArea .supervisor (r.judge s).writes (r.judge s).mains
        (some ⟨(r.judge s).answer, false, false⟩) := by
    simp only [State.takeWaiting, hq, hj, hw', Bool.false_eq_true, if_false]
  rw [State.submit_area h hn, ht]
  exact giveAreaN_held _ rfl

/-- A supervisor request on a ready part, run to the end of the change it stages: the recorded values, the
main-memory effects, and the answer in the answer buffer (R153, R174). -/
theorem State.submit_done {s : State} (h : s.SupervisorReady) (r : SupervisorRequest) :
    (s.submit r).completeChange =
      ({ s with
        ret := applyRets (r.judge s).writes s.ret
        main := s.main.effects (r.judge s).mains }).afterSupervisor r (r.judge s).answer := by
  have hwait : s.main.waiting = [] := h.waiting
  by_cases hw : (r.judge s).writes = []
  · rw [State.submit_unstaged h r hw,
      State.completeChange_of_free (by simpa [State.afterSupervisor] using h.holder), hw]
    rfl
  · have he : (s.setSup (SupLink.asked r)).main.effects (r.judge s).mains =
        { s.main.effects (r.judge s).mains with sup := SupLink.asked r } :=
      Main.effects_withSup ..
    have hfin := State.finish_holdArea (s := s.setSup (SupLink.asked r)) h.owed h.holder h.staged
      h.completion .supervisor (r.judge s).writes (r.judge s).mains
      (some ⟨(r.judge s).answer, false, false⟩)
    have hc : ∀ (t : State) (ws : List RetWrite) (ms : List MainWrite) (x : Reply),
        (t.holdArea .supervisor ws ms (some x)).completeChange =
          (((t.holdArea .supervisor ws ms (some x)).finishApply.clearArea).answerSupervisor
            x.answer).giveArea := fun _ _ _ _ => rfl
    rw [State.submit_staged h r hw, hc, hfin, he]
    refine State.giveArea_nothing (s := ({ s with
      ret := applyRets (r.judge s).writes s.ret
      main := s.main.effects (r.judge s).mains }).afterSupervisor r (r.judge s).answer) ?_
    simpa [State.afterSupervisor] using hwait

/-! Commands run to the end of the change they stage. -/

/-- On a running part STAGED_CHANGE_COMPLETE ends the change in the area. -/
theorem exec_stagedChangeComplete {t : State} (h : t.running = true) :
    exec .stagedChangeComplete t = .next t.completeChange := by
  show execStagedChangeComplete t = _
  simp [execStagedChangeComplete, h]

/-- A station command that is the arrival of a frame, run to the end of what it stages. -/
theorem done_station {c : Instr} {s : State} {p : Port} {f : StationFrame} (h : s.StationReady p)
    (hc : exec c s = .next (s.arrive p f)) :
    Done c s (({ s with
      ret := applyRets (stationOutcome p f s).verdict.writes s.ret
      main := s.main.effects (stationOutcome p f s).verdict.mains }).withStationAnswer p f
        (stationOutcome p f s).verdict.answer (stationOutcome p f s).trial
        (stationOutcome p f s).replay) := by
  refine ⟨s.arrive p f, hc, ?_⟩
  have hr : (s.arrive p f).running = true := by
    by_cases hw : (stationOutcome p f s).verdict.writes = []
    · rw [State.arrive_unstaged h f hw]; exact h.running
    · rw [State.arrive_staged h f hw]; exact h.running
  rw [exec_stagedChangeComplete hr, State.arrive_done h]

/-- A supervisor command that is a write of a request, run to the end of what it stages. -/
theorem done_supervisor {c : Instr} {s : State} {r : SupervisorRequest} (h : s.SupervisorReady)
    (hc : exec c s = .next (s.submit r)) :
    Done c s (({ s with
      ret := applyRets (r.judge s).writes s.ret
      main := s.main.effects (r.judge s).mains }).afterSupervisor r (r.judge s).answer) := by
  refine ⟨s.submit r, hc, ?_⟩
  have hr : (s.submit r).running = true := by
    by_cases hw : (r.judge s).writes = []
    · rw [State.submit_unstaged h r hw]; exact h.running
    · rw [State.submit_staged h r hw]; exact h.running
  rw [exec_stagedChangeComplete hr, State.submit_done h]

end Sys2Proof.Machine
end

