-- ==== Sys2Proof/Laws/Fresh.lean ====
section
/-! SUPPORT. A station request that its port's reply cache does not answer, and changes to a live slot. -/

namespace Sys2Proof.Machine

/-! Live slots. -/

/-- A live slot is a slot of the table. -/
theorem getElem?_of_getD {l : List (Option Account)} {slot : Nat} {a : Account}
    (h : l.getD slot none = some a) : l[slot]? = some (some a) := by
  rw [List.getD_eq_getElem?_getD] at h
  cases hx : l[slot]? with
  | none => simp [hx] at h
  | some x => simp only [hx, Option.getD_some] at h; rw [h]

/-- Changing the record of a live slot replaces it. -/
theorem Retained.mapAccount_live {r : Retained} {slot : Nat} {a : Account}
    (h : r.accounts.getD slot none = some a) (f : Account → Account) :
    r.mapAccount slot f = { r with accounts := r.accounts.set slot (some (f a)) } := by
  obtain ⟨hl, hg⟩ := List.getElem?_eq_some_iff.mp (getElem?_of_getD h)
  unfold Retained.mapAccount
  congr 1
  refine List.ext_getElem (by simp) ?_
  intro i h1 h2
  by_cases hi : slot = i
  · subst hi; simp [hg]
  · simp [hi]

/-- The record just written to a slot of the table is read back. -/
theorem getD_set_self {l : List (Option Account)} {slot : Nat} {a b : Account}
    (h : l.getD slot none = some a) : (l.set slot (some b)).getD slot none = some b := by
  obtain ⟨hl, _⟩ := List.getElem?_eq_some_iff.mp (getElem?_of_getD h)
  simp [hl]

/-- A balance event on a live slot (R56). -/
theorem applyRets_balanceEvent {s : State} {slot : Nat} {a : Account} (h : s.Live slot a)
    (delta : Int) :
    applyRets (s.balanceEvent slot a delta) s.ret =
      { s.ret with
        accounts := s.ret.accounts.set slot (some { a with balance := a.balance + delta })
        floatTotal := s.ret.floatTotal + delta } := by
  unfold State.balanceEvent
  split
  · rename_i h0
    have hs : s.ret.accounts.set slot (some a) = s.ret.accounts := by
      obtain ⟨hl, hg⟩ := List.getElem?_eq_some_iff.mp (getElem?_of_getD h)
      rw [← hg, List.set_getElem_self]
    simp only [h0, Int.add_zero, applyRets_nil, hs]
  · simp only [applyRets_cons, applyRets_nil, applyRet, Retained.mapAccount_live h]

/-- The drain of an account (R28). -/
theorem applyRet_acctState {r : Retained} {slot : Nat} {a : Account}
    (h : r.accounts.getD slot none = some a) (st : AcctState) :
    applyRet (.acctState slot st) r =
      { r with accounts := r.accounts.set slot (some { a with state := st }) } := by
  simp only [applyRet, Retained.mapAccount_live h]

/-! A station request's own changes leave the reply caches alone. -/

/-- A recorded value other than a reply cache and WIPE. -/
def RetWrite.sparesCaches : RetWrite → Bool
  | .cache .. | .wipe => false
  | _ => true

theorem applyRet_caches {w : RetWrite} (h : w.sparesCaches = true) (r : Retained) :
    (applyRet w r).caches = r.caches := by
  cases w with
  | cache | wipe => simp [RetWrite.sparesCaches] at h
  | tariffRow b row fares => cases b <;> rfl
  | classCap b cls cap => cases b <;> rfl
  | bankGen b v => cases b <;> rfl
  | _ => rfl

theorem applyRets_caches {ws : List RetWrite} (h : ws.all RetWrite.sparesCaches = true)
    (r : Retained) : (applyRets ws r).caches = r.caches := by
  induction ws generalizing r with
  | nil => rfl
  | cons w ws ih =>
    simp only [List.all_cons, Bool.and_eq_true] at h
    rw [applyRets_cons, ih h.2, applyRet_caches h.1]

theorem holdEndDrain_sparesCaches (s : State) (h : Hold) :
    (s.holdEndDrain h).all RetWrite.sparesCaches = true := by
  unfold State.holdEndDrain; split <;> rfl

theorem pinEndDrain_sparesCaches (s : State) (slot : Nat) :
    (s.pinEndDrain slot).all RetWrite.sparesCaches = true := by
  unfold State.pinEndDrain; split <;> rfl

theorem balanceEvent_sparesCaches (s : State) (slot : Nat) (a : Account) (delta : Int) :
    (s.balanceEvent slot a delta).all RetWrite.sparesCaches = true := by
  unfold State.balanceEvent; split <;> rfl

theorem ladder_sparesCaches (r : StationRequest) (p : Port) (s : State) :
    (r.ladder p s).writes.all RetWrite.sparesCaches = true := by
  have hd := holdEndDrain_sparesCaches s
  have hq := pinEndDrain_sparesCaches s
  have hb := balanceEvent_sparesCaches s
  unfold StationRequest.ladder
  repeat' split
  · rfl
  · rfl
  · cases r <;> simp only [StationRequest.judge, judgeSelect, judgeBalance, judgeStationStatus,
      judgePin, judgeUnpin, judgeFare, judgeHold, judgeCapture, judgeRelease, judgeTopUp, report]
    all_goals (repeat' split)
    all_goals first
      | rfl
      | exact hb _ _ _
      | (simp only [State.fareWrites, List.all_append, hb, hd]; rfl)
      | exact hd _
      | exact hq _

/-! A request that is carried out. -/

/-- A request outside BAD_REQUEST that the sequence check lets pass (R128, R131, R132). -/
theorem stationOutcome_fresh {p : Port} {f : StationFrame} {s : State}
    (hb : ∀ c b, f.req ≠ .bad c b) (hc : s.cached p f.seq = none) :
    stationOutcome p f s = ⟨withCache p f (f.req.ladder p s) s, f.req.isTrial, false⟩ := by
  obtain ⟨seq, r⟩ := f
  cases r with
  | bad c b => exact absurd rfl (hb c b)
  | _ => simp only [stationOutcome, hc]

/-- A station request that is carried out, run to the end of what it stages: what its ladder and own
checks change, its answer cached and on the link. -/
theorem done_fresh {c : Instr} {s : State} {p : Port} {f : StationFrame} (h : s.StationReady p)
    (hx : exec c s = .next (s.arrive p f)) (hb : ∀ c b, f.req ≠ .bad c b)
    (hc : s.cached p f.seq = none) :
    Done c s (({ s with
      ret := applyRets (f.req.ladder p s).writes s.ret
      main := s.main.effects (f.req.ladder p s).mains }).afterStation p f
        (f.req.ladder p s).answer) := by
  have hd := done_station h hx
  rw [stationOutcome_fresh hb hc] at hd
  have hs := applyRets_caches (ladder_sparesCaches f.req p s) s.ret
  unfold State.afterStation State.withCached
  unfold withCache at hd
  by_cases h0 : f.seq = 0
  · simp only [h0, if_true] at hd ⊢
    exact hd
  · simp only [h0, if_false, applyRets_append, applyRets_cons, applyRets_nil, applyRet] at hd ⊢
    rw [hs] at hd ⊢
    exact hd

/-- A request whose port holds the right and whose fields pass comes to its own checks (R129 to R131). -/
theorem ladder_passed {r : StationRequest} {p : Port} {s : State}
    (hr : r.permitted (s.ret.params.rights.get p) = true) (hf : r.fieldRefusal = none) :
    r.ladder p s = r.judge p s := by
  simp [StationRequest.ladder, hr, hf]

end Sys2Proof.Machine
end

