-- ==== Sys2Proof/Laws/Items.lean ====
section
/-! SUPPORT. Recorded values and the items they go to: two of them commute or one makes the other void, so a
recorded value that is written early, or twice, makes no difference to the change. -/

namespace Sys2Proof.Machine

/-- Two updates: they commute, or one makes the other that came before it void. -/
def Settled {α : Type} (f g : α → α) : Prop :=
  (∀ x, f (g x) = g (f x)) ∨ (∀ x, f (g x) = f x) ∨ ∀ x, g (f x) = g x

/-- What a recorded value makes of a slot. -/
inductive SlotWrite where
  | put (x : Option Account)
  | balance (v : Int)
  | daySpend (v : Nat)
  | spendDay (v : Nat)
  | state (v : AcctState)
  | cls (v : Nat)
  | floor (v : Nat)
  | validityEnd (v : Option Nat)
  | pass (v : Option Pass)

/-- The slot with the value written. -/
def SlotWrite.run : SlotWrite → Option Account → Option Account
  | .put x, _ => x
  | .balance v, x => x.map fun a => { a with balance := v }
  | .daySpend v, x => x.map fun a => { a with daySpend := v }
  | .spendDay v, x => x.map fun a => { a with spendDay := v }
  | .state v, x => x.map fun a => { a with state := v }
  | .cls v, x => x.map fun a => { a with cls := v }
  | .floor v, x => x.map fun a => { a with floor := v }
  | .validityEnd v, x => x.map fun a => { a with validityEnd := v }
  | .pass v, x => x.map fun a => { a with pass := v }

/-- Two values of one slot. -/
theorem SlotWrite.settled (v w : SlotWrite) : Settled v.run w.run := by
  cases v <;> cases w <;> first
    | (refine .inl fun x => ?_; cases x <;> rfl)
    | (refine .inr (.inl fun x => ?_); cases x <;> rfl)
    | (refine .inr (.inr fun x => ?_); cases x <;> rfl)

/-- What a recorded value makes of a bank. -/
inductive BankWrite where
  | row (i : Nat) (x : List Nat)
  | cap (i : Nat) (x : Option Nat)
  | gen (v : Nat)

/-- The bank with the value written. -/
def BankWrite.run : BankWrite → Bank → Bank
  | .row i x, k => { k with rows := k.rows.set i x }
  | .cap i x, k => { k with caps := k.caps.set i x }
  | .gen v, k => { k with gen := v }

/-- Two entries of a list. -/
theorem set_settled {α : Type} (i j : Nat) (x y : α) :
    Settled (fun l : List α => l.set i x) (fun l => l.set j y) := by
  by_cases h : i = j
  · subst h
    exact .inr (.inl fun l => List.set_set ..)
  · exact .inl fun l => (List.set_comm _ _ (Ne.symm h))

/-- Two values of one bank. -/
theorem BankWrite.settled (v w : BankWrite) : Settled v.run w.run := by
  cases v <;> cases w
  case row.row i x j y =>
    rcases set_settled i j x y with h | h | h
    · exact .inl fun k => congrArg (fun l => { k with rows := l }) (h k.rows)
    · exact .inr (.inl fun k => congrArg (fun l => { k with rows := l }) (h k.rows))
    · exact .inr (.inr fun k => congrArg (fun l => { k with rows := l }) (h k.rows))
  case cap.cap i x j y =>
    rcases set_settled i j x y with h | h | h
    · exact .inl fun k => congrArg (fun l => { k with caps := l }) (h k.caps)
    · exact .inr (.inl fun k => congrArg (fun l => { k with caps := l }) (h k.caps))
    · exact .inr (.inr fun k => congrArg (fun l => { k with caps := l }) (h k.caps))
  all_goals first
    | exact .inr (.inl fun _ => rfl)
    | exact .inl fun _ => rfl

/-- The items of two ports. -/
theorem four_settled {α : Type} (p q : Port) (x y : α) :
    Settled (fun l : Four α => l.set p x) (fun l => l.set q y) := by
  cases p <;> cases q <;> first
    | exact .inr (.inl fun _ => rfl)
    | exact .inl fun _ => rfl

/-- What a recorded value makes of the parameter set. -/
inductive ParamWrite where
  | holdLimit (v : Nat)
  | pinTime (v : Nat)
  | rights (p : Port) (x : Rights)
  | rate (p : Port) (x : Rate)

/-- The parameter set with the value written. -/
def ParamWrite.run : ParamWrite → Params → Params
  | .holdLimit v, q => { q with holdLimit := v }
  | .pinTime v, q => { q with pinTime := v }
  | .rights p x, q => { q with rights := q.rights.set p x }
  | .rate p x, q => { q with rates := q.rates.set p x }

/-- Two parameter items. -/
theorem ParamWrite.settled (v w : ParamWrite) : Settled v.run w.run := by
  cases v <;> cases w
  case rights.rights p x q y =>
    rcases four_settled p q x y with h | h | h
    · exact .inl fun k => congrArg (fun l => { k with rights := l }) (h k.rights)
    · exact .inr (.inl fun k => congrArg (fun l => { k with rights := l }) (h k.rights))
    · exact .inr (.inr fun k => congrArg (fun l => { k with rights := l }) (h k.rights))
  case rate.rate p x q y =>
    rcases four_settled p q x y with h | h | h
    · exact .inl fun k => congrArg (fun l => { k with rates := l }) (h k.rates)
    · exact .inr (.inl fun k => congrArg (fun l => { k with rates := l }) (h k.rates))
    · exact .inr (.inr fun k => congrArg (fun l => { k with rates := l }) (h k.rates))
  all_goals first
    | exact .inr (.inl fun _ => rfl)
    | exact .inl fun _ => rfl

/-- The item a recorded value goes to, and what it makes of it; none for WIPE. -/
inductive ItemWrite where
  | slot (i : Nat) (k : SlotWrite)
  | chain (b : Nat) (x : List Nat)
  | free (x : List Nat)
  | floatTotal (x : Int)
  | unclaimed (x : Nat)
  | day (x : Nat)
  | bank (b : BankId) (k : BankWrite)
  | selector (x : Option BankId)
  | activeGen (x : Nat)
  | param (k : ParamWrite)
  | cache (p : Port) (x : List CacheEntry)
  | backupLost (x : Bool)

/-- Retention memory with the value written. -/
def ItemWrite.run (w : ItemWrite) (r : Retained) : Retained :=
  match w with
  | .slot i k => { r with accounts := r.accounts.modify i k.run }
  | .chain b x => { r with chains := r.chains.set b x }
  | .free x => { r with free := x }
  | .floatTotal x => { r with floatTotal := x }
  | .unclaimed x => { r with unclaimed := x }
  | .day x => { r with day := x }
  | .bank b k => r.mapBank b k.run
  | .selector x => { r with selector := x }
  | .activeGen x => { r with activeGen := x }
  | .param k => { r with params := k.run r.params }
  | .cache p x => { r with caches := r.caches.set p x }
  | .backupLost x => { r with backupLost := x }

/-- Two changes of entries of a list. -/
theorem modify_settled {α : Type} (i j : Nat) {f g : α → α} (h : Settled f g) :
    Settled (fun l : List α => l.modify i f) (fun l => l.modify j g) := by
  by_cases hij : i = j
  · subst hij
    rcases h with h | h | h
    · refine .inl fun l => List.ext_getElem? fun k => ?_
      simp only [List.getElem?_modify]
      split <;> cases l[k]? <;> simp [h]
    · refine .inr (.inl fun l => List.ext_getElem? fun k => ?_)
      simp only [List.getElem?_modify]
      split <;> cases l[k]? <;> simp [h]
    · refine .inr (.inr fun l => List.ext_getElem? fun k => ?_)
      simp only [List.getElem?_modify]
      split <;> cases l[k]? <;> simp [h]
  · refine .inl fun l => List.ext_getElem? fun k => ?_
    simp only [List.getElem?_modify]
    by_cases h1 : i = k <;> by_cases h2 : j = k <;> simp_all

/-- Two values of retention memory. -/
theorem ItemWrite.settled (v w : ItemWrite) : Settled v.run w.run := by
  cases v <;> cases w
  case slot.slot i x j y =>
    rcases modify_settled i j (x.settled y) with h | h | h
    · exact .inl fun r => congrArg (fun l => { r with accounts := l }) (h r.accounts)
    · exact .inr (.inl fun r => congrArg (fun l => { r with accounts := l }) (h r.accounts))
    · exact .inr (.inr fun r => congrArg (fun l => { r with accounts := l }) (h r.accounts))
  case chain.chain i x j y =>
    rcases set_settled i j x y with h | h | h
    · exact .inl fun r => congrArg (fun l => { r with chains := l }) (h r.chains)
    · exact .inr (.inl fun r => congrArg (fun l => { r with chains := l }) (h r.chains))
    · exact .inr (.inr fun r => congrArg (fun l => { r with chains := l }) (h r.chains))
  case cache.cache i x j y =>
    rcases four_settled i j x y with h | h | h
    · exact .inl fun r => congrArg (fun l => { r with caches := l }) (h r.caches)
    · exact .inr (.inl fun r => congrArg (fun l => { r with caches := l }) (h r.caches))
    · exact .inr (.inr fun r => congrArg (fun l => { r with caches := l }) (h r.caches))
  case param.param x y =>
    rcases x.settled y with h | h | h
    · exact .inl fun r => congrArg (fun l => { r with params := l }) (h r.params)
    · exact .inr (.inl fun r => congrArg (fun l => { r with params := l }) (h r.params))
    · exact .inr (.inr fun r => congrArg (fun l => { r with params := l }) (h r.params))
  case bank.bank b x c y =>
    cases b <;> cases c
    · rcases x.settled y with h | h | h
      · exact .inl fun r => congrArg (fun l => { r with bankA := l }) (h r.bankA)
      · exact .inr (.inl fun r => congrArg (fun l => { r with bankA := l }) (h r.bankA))
      · exact .inr (.inr fun r => congrArg (fun l => { r with bankA := l }) (h r.bankA))
    · exact .inl fun _ => rfl
    · exact .inl fun _ => rfl
    · rcases x.settled y with h | h | h
      · exact .inl fun r => congrArg (fun l => { r with bankB := l }) (h r.bankB)
      · exact .inr (.inl fun r => congrArg (fun l => { r with bankB := l }) (h r.bankB))
      · exact .inr (.inr fun r => congrArg (fun l => { r with bankB := l }) (h r.bankB))
  case bank.slot b _ _ _ => cases b <;> exact .inl fun _ => rfl
  all_goals first
    | exact .inr (.inl fun _ => rfl)
    | exact .inl fun _ => rfl
    | (rename_i b _ _; cases b <;> exact .inl fun _ => rfl)
    | (rename_i b _; cases b <;> exact .inl fun _ => rfl)
    | (rename_i b _ _ _; cases b <;> exact .inl fun _ => rfl)

/-- The item a recorded value goes to; none for WIPE. -/
def RetWrite.item : RetWrite → Option ItemWrite
  | .record slot a => some (.slot slot (.put (some a)))
  | .freeSlot slot => some (.slot slot (.put none))
  | .balance slot v => some (.slot slot (.balance v))
  | .daySpend slot v => some (.slot slot (.daySpend v))
  | .spendDay slot v => some (.slot slot (.spendDay v))
  | .acctState slot v => some (.slot slot (.state v))
  | .acctClass slot v => some (.slot slot (.cls v))
  | .floor slot v => some (.slot slot (.floor v))
  | .validityEnd slot v => some (.slot slot (.validityEnd v))
  | .pass slot v => some (.slot slot (.pass v))
  | .chain bucket slots => some (.chain bucket slots)
  | .freeList slots => some (.free slots)
  | .floatTotal v => some (.floatTotal v)
  | .unclaimed v => some (.unclaimed v)
  | .businessDay v => some (.day v)
  | .tariffRow b row fares => some (.bank b (.row row fares))
  | .classCap b cls cap => some (.bank b (.cap cls cap))
  | .bankGen b v => some (.bank b (.gen v))
  | .selector b => some (.selector (some b))
  | .activeGen v => some (.activeGen v)
  | .holdLimit v => some (.param (.holdLimit v))
  | .pinTime v => some (.param (.pinTime v))
  | .rights p x => some (.param (.rights p x))
  | .rate p x => some (.param (.rate p x))
  | .cache p entries => some (.cache p entries)
  | .backupLost v => some (.backupLost v)
  | .wipe => none

/-- Setting an entry is changing it to a constant. -/
theorem set_eq_modify {α : Type} (l : List α) (i : Nat) (x : α) :
    l.set i x = l.modify i fun _ => x := by
  refine List.ext_getElem? fun k => ?_
  rw [List.getElem?_set, List.getElem?_modify]
  split
  · subst_vars
    split
    · rename_i h
      simp [List.getElem?_eq_getElem h]
    · rename_i h
      simp [List.getElem?_eq_none (Nat.le_of_not_lt h)]
  · simp

/-- A recorded value other than WIPE is the write of its item. -/
theorem applyRet_item {w : RetWrite} {o : ItemWrite} (h : w.item = some o) (r : Retained) :
    applyRet w r = o.run r := by
  cases w with
  | record i a =>
    cases h
    show { r with accounts := r.accounts.set i (some a) } = _
    rw [set_eq_modify]
    rfl
  | freeSlot i =>
    cases h
    show { r with accounts := r.accounts.set i none } = _
    rw [set_eq_modify]
    rfl
  | wipe => cases h
  | _ => cases h; rfl

/-- WIPE and a value of retention memory. -/
theorem wipe_settled (o : ItemWrite) : Settled (applyRet .wipe) o.run := by
  cases o with
  | param k => exact .inl fun r => by simp only [applyRet, Retained.wiped, ItemWrite.run]
  | backupLost v => exact .inl fun r => by simp only [applyRet, Retained.wiped, ItemWrite.run]
  | bank b k =>
    cases b <;> exact .inr (.inl fun r => by
      simp only [applyRet, Retained.wiped, ItemWrite.run, Retained.mapBank])
  | _ => exact .inr (.inl fun r => by simp only [applyRet, Retained.wiped, ItemWrite.run])

/-- The relation is symmetric. -/
theorem Settled.symm {α : Type} {f g : α → α} (h : Settled f g) : Settled g f := by
  rcases h with h | h | h
  · exact .inl fun x => (h x).symm
  · exact .inr (.inr h)
  · exact .inr (.inl h)

/-- Two recorded values. -/
theorem applyRet_settled (v w : RetWrite) : Settled (applyRet v) (applyRet w) := by
  cases hv : v.item with
  | none =>
    have : v = .wipe := by cases v <;> first | rfl | cases hv
    subst this
    cases hw : w.item with
    | none =>
      have : w = .wipe := by cases w <;> first | rfl | cases hw
      subst this
      exact .inl fun _ => rfl
    | some o =>
      rw [show applyRet w = o.run from funext (applyRet_item hw)]
      exact wipe_settled o
  | some o =>
    rw [show applyRet v = o.run from funext (applyRet_item hv)]
    cases hw : w.item with
    | none =>
      have : w = .wipe := by cases w <;> first | rfl | cases hw
      subst this
      exact (wipe_settled o).symm
    | some o' =>
      rw [show applyRet w = o'.run from funext (applyRet_item hw)]
      exact o.settled o'

/-- An item written twice. -/
theorem ItemWrite.run_idem (o : ItemWrite) (r : Retained) : o.run (o.run r) = o.run r := by
  cases o with
  | slot i k =>
    have hk : ∀ x, k.run (k.run x) = k.run x := fun x => by cases k <;> cases x <;> rfl
    have hl : (r.accounts.modify i k.run).modify i k.run = r.accounts.modify i k.run := by
      refine List.ext_getElem? fun j => ?_
      simp only [List.getElem?_modify]
      split <;> cases r.accounts[j]? <;> simp [hk]
    exact congrArg (fun l => { r with accounts := l }) hl
  | chain b x => exact congrArg (fun l => { r with chains := l }) (List.set_set ..)
  | cache p x => cases p <;> rfl
  | param k =>
    cases k with
    | rights p x => cases p <;> rfl
    | rate p x => cases p <;> rfl
    | _ => rfl
  | bank b k =>
    have hk : ∀ x, k.run (k.run x) = k.run x := fun x => by
      cases k with
      | row i y => exact congrArg (fun l => { x with rows := l }) (List.set_set ..)
      | cap i y => exact congrArg (fun l => { x with caps := l }) (List.set_set ..)
      | gen v => rfl
    cases b with
    | bankA => exact congrArg (fun l => { r with bankA := l }) (hk r.bankA)
    | bankB => exact congrArg (fun l => { r with bankB := l }) (hk r.bankB)
  | _ => rfl

/-- A recorded value written twice. -/
theorem applyRet_idem (w : RetWrite) (r : Retained) : applyRet w (applyRet w r) = applyRet w r := by
  cases hw : w.item with
  | none =>
    have : w = .wipe := by cases w <;> first | rfl | cases hw
    subst this
    simp only [applyRet, Retained.wiped]
  | some o =>
    rw [applyRet_item hw, applyRet_item hw]
    exact o.run_idem r

/-- A recorded value written before a change that holds it makes no difference to the change. -/
theorem applyRets_absorb {w : RetWrite} {ws : List RetWrite} (h : w ∈ ws) (r : Retained) :
    applyRets ws (applyRet w r) = applyRets ws r := by
  induction ws generalizing r with
  | nil => cases h
  | cons v vs ih =>
    rw [applyRets_cons, applyRets_cons]
    by_cases hm : w ∈ vs
    · rcases applyRet_settled v w with hc | hc | hc
      · rw [hc, ih hm]
      · rw [hc]
      · rw [← ih hm (applyRet v (applyRet w r)), hc, ih hm, ih hm, ← ih hm (applyRet v r), hc, ih hm]
    · have : w = v := by simpa [hm] using h
      subst this
      rw [applyRet_idem]

end Sys2Proof.Machine
end

