-- ==== Sys2Proof/Laws/Kept.lean ====
section
/-! SUPPORT. What every step does to retention memory, once for any condition: a condition that the staged
changes of the requests and the drains keep is kept by every step, on both sides of the completion mark. -/

namespace Sys2Proof.Machine

/-! What every step does to retention memory. -/

/-- A condition that every event's staged change keeps, whatever the area and its mark hold. -/
structure KeptByChanges (P : Retained → Prop) : Prop where
  control : ∀ r ws c m, P r → P { r with staged := ws, completion := c, mark := m }
  station : ∀ s p f, P s.ret → P (applyRets (stationOutcome p f s).verdict.writes s.ret)
  supervisor : ∀ s (r : SupervisorRequest), P s.ret → P (applyRets (r.judge s).writes s.ret)
  drain : ∀ r slot, P r → P (applyRet (.acctState slot .drained) r)
  cold : P Retained.cold

variable {P : Retained → Prop}

/-- The part stands as it stood: its supplies and its start-up check. -/
def Stands (s t : State) : Prop := t.check = s.check ∧ t.vdd = s.vdd ∧ t.resetLow = s.resetLow

/-- A move that keeps the condition and leaves the part as it stood. -/
def Moves (P : Retained → Prop) (s t : State) : Prop := (s.Keeps P → t.Keeps P) ∧ Stands s t

/-- Nothing happens. -/
theorem Moves.refl (s : State) : Moves P s s := ⟨id, rfl, rfl, rfl⟩

/-- One move after another. -/
theorem Moves.trans {s t u : State} (h : Moves P s t) (g : Moves P t u) : Moves P s u :=
  ⟨g.1 ∘ h.1, g.2.1.trans h.2.1, g.2.2.1.trans h.2.2.1, g.2.2.2.trans h.2.2.2⟩

/-- The part works as before. -/
theorem Stands.powered {s t : State} (h : Stands s t) : t.powered = s.powered := by
  simp only [State.powered, h.2.1, h.2.2]

/-- The part takes requests as before. -/
theorem Stands.running {s t : State} (h : Stands s t) : t.running = s.running := by
  simp only [State.running, h.powered, h.1]

/-- What does not touch retention memory and the holder of the area keeps the condition. -/
theorem Moves.of_eq {s t : State} (hr : t.ret = s.ret) (hh : t.main.holder = s.main.holder)
    (hs : Stands s t) : Moves P s t := by
  refine ⟨?_, hs⟩
  have hp := hs.powered
  rintro ⟨⟨h1, h2, h3, h4⟩, h5⟩
  have ha : t.appliedRet = s.appliedRet := by simp only [State.appliedRet, hr]
  refine ⟨⟨?_, ?_, ?_, ?_⟩, ?_⟩
  · rw [hp, hh]; exact h1
  · rw [hh, hr]; exact h2
  · rw [hp, hh, hr, hs.1]; exact h3
  · rw [hh, hs.1]; exact h4
  · intro ht
    have : s.trusted := by
      simpa only [State.trusted, hr, hp, hs.1] using ht
    obtain ⟨a, b, c, d⟩ := h5 this
    refine ⟨?_, ?_, ?_, ?_⟩
    · rw [hr]; exact a
    · rw [hr, ha]; exact b
    · rw [hh, ha]; exact c
    · rw [hh, hr]; exact d

/-- The clock leaves the holder of the area. -/
theorem catchUpN_holder (n : Nat) (m : Main) : (catchUpN n m).holder = m.holder := by
  induction n generalizing m with
  | zero => rfl
  | succ n ih =>
    simp only [catchUpN]
    split
    · rfl
    · rw [ih]

/-- Main-memory effects leave the holder of the area. -/
theorem applyMains_holder (ws : List MainWrite) (m : Main) : (applyMains ws m).holder = m.holder := by
  show (catchUpN _ (m.effects ws)).holder = _
  rw [catchUpN_holder, Main.effects_holder]

/-- A recorded change written once more is as written. -/
theorem applyRets_again (ws : List RetWrite) (r : Retained) :
    ∀ vs, (∀ v ∈ vs, v ∈ ws) → applyRets ws (applyRets vs r) = applyRets ws r := by
  intro vs
  induction vs generalizing r with
  | nil => intro _; rfl
  | cons v vs ih =>
    intro h
    rw [applyRets_cons, ih _ fun x hx => h x (List.mem_cons_of_mem _ hx),
      applyRets_absorb (h v List.mem_cons_self)]

/-- The recorded change does not look at the area. -/
theorem KeptByChanges.applied (K : KeptByChanges P) {ws : List RetWrite} {r : Retained} (st : List RetWrite) (c : Bool)
    (h : P (applyRets ws r)) : P (applyRets ws { r with staged := st, completion := c }) := by
  rw [applyRets_withStaged]
  have := K.control _ st c (applyRets ws r).mark h
  exact this

/-- Retention memory after the recorded change, from any phase of the holder. -/
theorem State.Keeps.applied {s : State} (h : s.Keeps P) (ht : s.trusted) {x : Holder}
    (hx : s.main.holder = some x) : P s.appliedRet := by
  by_cases hw : x.phase = .write
  · exact (h.2 ht).write x hx hw
  · exact (h.2 ht).next ((h.1.phase x hx).mpr hw)

/-- The apply phase is brought to its end. -/
theorem moves_finishApply (K : KeptByChanges P) (s : State) : Moves P s s.finishApply := by
  unfold State.finishApply
  cases hx : s.main.holder with
  | none => exact Moves.refl s
  | some x =>
    dsimp only
    split
    · exact Moves.refl s
    · refine ⟨fun h => ?_, rfl, rfl, rfl⟩
      have hm : (applyRets s.ret.staged s.ret).mark = s.ret.mark := applyRets_mark _ _
      refine ⟨⟨?_, ?_, ?_, ?_⟩, ?_⟩
      · intro hp
        have := h.1.off hp
        rw [hx] at this; cases this
      · intro y hy
        cases hy
        simp
      · intro _ hn; cases hn
      · intro c hc hd
        have := h.1.check c hc hd
        rw [hx] at this; cases this
      · intro ht
        have ht' : s.trusted := by
          rcases ht with ht | ht
          · exact .inl (hm ▸ ht)
          · exact .inr ht
        have ha : P (applyRets s.ret.staged s.ret) := h.applied ht' hx
        have hc : P { applyRets s.ret.staged s.ret with completion := true } :=
          K.control _ (applyRets s.ret.staged s.ret).staged true (applyRets s.ret.staged s.ret).mark ha
        refine ⟨(fun h => nomatch h), fun _ => ?_, ?_, fun _ _ _ => hc⟩
        · show P (applyRets (applyRets s.ret.staged s.ret).staged
            { applyRets s.ret.staged s.ret with
              staged := (applyRets s.ret.staged s.ret).staged, completion := true })
          apply K.applied
          rw [applyRets_staged, applyRets_again _ _ _ fun _ h => h]
          exact ha
        · intro y hy hw
          cases hy
          cases hw

/-- A read is taken. -/
theorem moves_settleForRead (K : KeptByChanges P) (s : State) : Moves P s s.settleForRead := by
  unfold State.settleForRead
  cases s.main.holder with
  | none => exact Moves.refl s
  | some x =>
    dsimp only
    split
    · exact Moves.refl s
    · exact moves_finishApply K s

/-- The change in the area is complete and the area free; the start-up check, if one runs, goes on. -/
theorem keeps_cleared (K : KeptByChanges P) {s : State} (h : s.Keeps P) {c : Option Check}
    (hc : c = s.check ∨ c ≠ some .coldMark)
    (hf : s.main.holder = none → s.ret.completion = false) :
    ({ s.finishApply.clearArea with check := c } : State).Keeps P := by
  have hm : ({ s.finishApply.clearArea with check := c } : State).ret.mark = s.ret.mark := by
    unfold State.finishApply
    split
    · rfl
    · split
      · rfl
      · exact applyRets_mark _ _
  have hp : ({ s.finishApply.clearArea with check := c } : State).powered = s.powered :=
    (moves_finishApply K s).2.powered
  refine ⟨⟨fun _ => rfl, (fun _ hx => nomatch hx), fun _ _ _ _ => rfl, fun _ _ _ => rfl⟩, fun ht => ?_⟩
  have ht' : s.trusted := by
    rcases ht with ht | ⟨h1, h2⟩
    · exact .inl (hm ▸ ht)
    · rcases hc with hc | hc
      · exact .inr ⟨hp ▸ h1, hc ▸ h2⟩
      · exact absurd h2 hc
  refine ⟨fun _ => ?_, (fun hx => nomatch hx), (fun _ hx => nomatch hx), fun _ hx => nomatch hx⟩
  have key : P s.finishApply.ret := by
    unfold State.finishApply
    split
    · rename_i hn
      exact (h.2 ht').now (hf hn)
    · rename_i x hx
      split
      · rename_i hcl
        exact (h.2 ht').clear x hx hcl
      · exact K.control _ (applyRets s.ret.staged s.ret).staged true
          (applyRets s.ret.staged s.ret).mark (h.applied ht' hx)
  exact K.control _ [] false s.finishApply.ret.mark key

/-- The clear phase ends. -/
theorem moves_clearArea (K : KeptByChanges P) {s : State} (hr : s.running = true) :
    Moves P s s.finishApply.clearArea := by
  have hst := (moves_finishApply K s).2
  simp only [State.running, Bool.and_eq_true, Option.isNone_iff_eq_none] at hr
  refine ⟨fun h => ?_, hst⟩
  have := keeps_cleared K h (c := s.check) (.inl rfl) fun hn =>
    h.1.free hr.1 hn (by rw [hr.2]; exact nofun) (by rw [hr.2]; exact nofun)
  rw [← hst.1] at this
  exact this

/-- Main-memory effects are made at once. -/
theorem moves_doMains (s : State) (ws : List MainWrite) : Moves P s (s.doMains ws) := by
  unfold State.doMains
  split
  · exact Moves.refl s
  · exact Moves.of_eq rfl (applyMains_holder ws s.main) ⟨rfl, rfl, rfl⟩

/-- An answer is handed to its link. -/
theorem moves_sendAnswer (s : State) (p : Port) (r : Reply) : Moves P s (s.sendAnswer p r) := by
  unfold State.sendAnswer
  dsimp only
  split
  · exact Moves.refl s
  · exact Moves.of_eq rfl rfl ⟨rfl, rfl, rfl⟩

/-- An answer is dropped. -/
theorem moves_dropAnswer (s : State) (p : Port) : Moves P s (s.dropAnswer p) :=
  Moves.of_eq rfl rfl ⟨rfl, rfl, rfl⟩

/-- A supervisor answer is placed. -/
theorem moves_answerSupervisor (s : State) (a : Answer) : Moves P s (s.answerSupervisor a) := by
  unfold State.answerSupervisor
  split
  · exact Moves.refl s
  · exact Moves.of_eq rfl rfl ⟨rfl, rfl, rfl⟩

/-- An event comes to wait for the area. -/
theorem moves_wait (s : State) (e : AreaEvent) : Moves P s (s.wait e) :=
  Moves.of_eq rfl rfl ⟨rfl, rfl, rfl⟩

/-- A station request that needs no area is taken. -/
theorem moves_takeFree (K : KeptByChanges P) (s : State) (p : Port) (f : StationFrame) :
    Moves P s (s.takeFree p f) := by
  unfold State.takeFree
  dsimp only
  split
  · exact (moves_finishApply K s).trans ((moves_doMains _ _).trans (moves_sendAnswer _ _ _))
  · exact (moves_doMains _ _).trans (moves_sendAnswer _ _ _)

/-- A frame is handed to the session unit. -/
theorem moves_handOver (K : KeptByChanges P) (s : State) (p : Port) (f : StationFrame) :
    Moves P s (s.handOver p f) := by
  unfold State.handOver
  dsimp only
  have h1 : Moves P s ((s.setSession p { s.session p with inHand := some ⟨f, none⟩ }).setLink p
    { s.link p with outstanding := true }) := Moves.of_eq rfl rfl ⟨rfl, rfl, rfl⟩
  refine (h1.trans (moves_settleForRead K _)).trans ?_
  split
  · exact moves_wait _ _
  · exact moves_takeFree K _ _ _

/-- A waiting frame is handed on. -/
theorem moves_handOn (K : KeptByChanges P) (s : State) (p : Port) : Moves P s (s.handOn p) := by
  unfold State.handOn
  split
  · split
    · have h1 : Moves P s (s.setLink p { s.link p with pendingSlot := none }) :=
        Moves.of_eq rfl rfl ⟨rfl, rfl, rfl⟩
      exact h1.trans (moves_handOver K _ _ _)
    · exact Moves.refl s
  · exact Moves.refl s

/-- A station request is answered. -/
theorem moves_answerStation (K : KeptByChanges P) (s : State) (p : Port) (r : Reply) :
    Moves P s (s.answerStation p r) := by
  unfold State.answerStation
  split
  · split
    · exact (moves_dropAnswer s p).trans (moves_handOn K _ _)
    · exact moves_sendAnswer s p r
  · exact Moves.refl s

/-- A free area given to an event that stages a change which keeps the condition. -/
theorem keeps_holdArea (K : KeptByChanges P) {s : State} (h : s.Keeps P) (hh : s.main.holder = none)
    (hp : s.powered = true) (hc : ∀ c, s.check = some c → ∃ n, c = .drains n)
    (e : AreaEvent) {ws : List RetWrite}
    (mains : List MainWrite) (reply : Option Reply) (hw : P s.ret → P (applyRets ws s.ret)) :
    (s.holdArea e ws mains reply).Keeps P := by
  have hf : s.ret.completion = false := by
    refine h.1.free hp hh ?_ ?_
    all_goals
      intro hx
      obtain ⟨n, hn⟩ := hc _ hx
      cases hn
  refine ⟨⟨?_, ?_, ?_, ?_⟩, ?_⟩
  · intro hx
    rw [show (s.holdArea e ws mains reply).powered = s.powered from rfl, hp] at hx
    cases hx
  · intro x hx
    cases hx
    simp [State.holdArea]
  · intro _ hx; cases hx
  · intro c hx hd
    obtain ⟨n, hn⟩ := hc c hx
    exact absurd hn (hd n)
  · intro ht
    have hr : P s.ret := (h.2 ht).now hf
    refine ⟨fun _ => ?_, (fun hx => nomatch hx), fun _ _ _ => ?_, fun x hx hcl => ?_⟩
    · exact K.control _ ws false s.ret.mark hr
    · exact K.applied ws false (hw hr)
    · cases hx
      cases hcl

/-- The area is given to an event, while requests are taken. -/
theorem moves_holdArea (K : KeptByChanges P) {s : State} (hh : s.main.holder = none)
    (hr : s.running = true) (e : AreaEvent) {ws : List RetWrite}
    (mains : List MainWrite) (reply : Option Reply) (hw : P s.ret → P (applyRets ws s.ret)) :
    Moves P s (s.holdArea e ws mains reply) := by
  have hp : s.powered = true := by
    simp only [State.running, Bool.and_eq_true] at hr; exact hr.1
  have hc : s.check = none := by
    simp only [State.running, Bool.and_eq_true, Option.isNone_iff_eq_none] at hr; exact hr.2
  exact ⟨fun h => keeps_holdArea K h hh hp (fun c hx => by rw [hc] at hx; cases hx) e mains reply hw, rfl, rfl, rfl⟩

/-- The drain at the end of a hold. -/
theorem KeptByChanges.holdEnd (K : KeptByChanges P) (s : State) (h : Hold) (hp : P s.ret) :
    P (applyRets (s.holdEndDrain h) s.ret) := by
  unfold State.holdEndDrain
  split
  · exact K.drain _ _ hp
  · exact hp

/-- The drain at the end of a pin. -/
theorem KeptByChanges.pinEnd (K : KeptByChanges P) (s : State) (slot : Nat) (hp : P s.ret) :
    P (applyRets (s.pinEndDrain slot) s.ret) := by
  unfold State.pinEndDrain
  split
  · exact K.drain _ _ hp
  · exact hp

/-- An internal event is given the area. -/
theorem moves_stageOrDo (K : KeptByChanges P) {s : State} (hh : s.main.holder = none)
    (hr : s.running = true) (e : AreaEvent) (v : List RetWrite × List MainWrite)
    (hw : P s.ret → P (applyRets v.1 s.ret)) : Moves P s (s.stageOrDo e v) := by
  unfold State.stageOrDo
  split
  · exact moves_doMains _ _
  · exact moves_holdArea K hh hr _ _ _ hw

/-- A waiting event is given the area. -/
theorem moves_takeWaiting (K : KeptByChanges P) {s : State} (hh : s.main.holder = none)
    (hr : s.running = true) (e : AreaEvent) : Moves P s (s.takeWaiting e) := by
  unfold State.takeWaiting
  split
  · split
    · exact Moves.refl s
    · dsimp only
      split
      · exact (moves_doMains _ _).trans (moves_answerStation K _ _ _)
      · rename_i p _ h _ _
        have := K.station (s.judgedFor p h) p h.frame
        rw [State.judgedFor_ret] at this
        exact moves_holdArea K hh hr _ _ _ this
  · split
    · exact Moves.refl s
    · dsimp only
      split
      · exact (moves_doMains _ _).trans (moves_answerSupervisor _ _)
      · exact moves_holdArea K hh hr _ _ _ (K.supervisor s _)
  · split
    · exact moves_stageOrDo K hh hr _ _ (K.holdEnd s _)
    · exact Moves.refl s
  · split
    · exact moves_stageOrDo K hh hr _ _ (K.pinEnd s _)
    · exact Moves.refl s
  · split
    · exact moves_stageOrDo K hh hr _ _ (K.pinEnd s _)
    · exact Moves.refl s
  · exact Moves.refl s

/-- The area is given on, a number of times. -/
theorem moves_giveAreaN (K : KeptByChanges P) (n : Nat) {s : State} (hr : s.running = true) :
    Moves P s (giveAreaN n s) := by
  induction n generalizing s with
  | zero => exact Moves.refl s
  | succ n ih =>
    unfold giveAreaN
    split
    · exact Moves.refl s
    · rename_i hh
      have hn : s.main.holder = none := by simpa using hh
      split
      · exact Moves.refl s
      · rename_i e rest _
        have h1 : Moves P s { s with main := { s.main with waiting := rest } } :=
          Moves.of_eq rfl rfl ⟨rfl, rfl, rfl⟩
        have h2 := moves_takeWaiting K (s := { s with main := { s.main with waiting := rest } }) hn hr e
        exact (h1.trans h2).trans (ih (h2.2.running.trans hr))

/-- The area is given on. -/
theorem moves_giveArea (K : KeptByChanges P) (s : State) : Moves P s s.giveArea := by
  unfold State.giveArea
  split
  · exact moves_giveAreaN K _ ‹_›
  · exact Moves.refl s


/-- A part that takes requests works and runs no check. -/
theorem running_powered {s : State} (h : s.running = true) : s.powered = true ∧ s.check = none := by
  simpa only [State.running, Bool.and_eq_true, Option.isNone_iff_eq_none] using h

/-! Commands. -/

/-- A staged change is completed. -/
theorem moves_completeChange (K : KeptByChanges P) {s : State} (hr : s.running = true) :
    Moves P s s.completeChange := by
  unfold State.completeChange
  split
  · exact Moves.refl s
  · dsimp only
    refine Moves.trans ?_ (moves_giveArea K _)
    split
    · exact (moves_clearArea K hr).trans (moves_answerStation K _ _ _)
    · exact (moves_clearArea K hr).trans (moves_answerSupervisor _ _)
    · exact moves_clearArea K hr

/-- A frame is delivered. -/
theorem moves_deliver (K : KeptByChanges P) (s : State) (p : Port) (f : StationFrame) :
    Moves P s (s.deliver p f) := by
  unfold State.deliver
  split
  · exact (moves_handOver K _ _ _).trans (moves_giveArea K _)
  · split <;> exact Moves.of_eq rfl rfl ⟨rfl, rfl, rfl⟩

/-- A station request arrives. -/
theorem moves_arrive (K : KeptByChanges P) (s : State) (p : Port) (f : StationFrame) :
    Moves P s (s.arrive p f) := by
  unfold State.arrive
  split
  · exact moves_deliver K _ _ _
  · exact Moves.refl s

/-- A supervisor request goes to its owner. -/
theorem moves_handSupervisor (K : KeptByChanges P) (s : State) : Moves P s s.handSupervisor := by
  unfold State.handSupervisor
  split
  · exact Moves.refl s
  · split
    · exact moves_wait _ _
    · exact (moves_settleForRead K _).trans (moves_answerSupervisor _ _)

/-- The supervisor link changes. -/
theorem moves_setSup (s : State) (x : SupLink) : Moves P s (s.setSup x) :=
  Moves.of_eq rfl rfl ⟨rfl, rfl, rfl⟩

/-- A station link changes. -/
theorem moves_setLink (s : State) (p : Port) (x : Link) : Moves P s (s.setLink p x) :=
  Moves.of_eq rfl rfl ⟨rfl, rfl, rfl⟩

/-- A good supervisor frame ends. -/
theorem moves_acceptSupervisor (K : KeptByChanges P) (s : State) (r : SupervisorRequest)
    (bytes : List Byte) : Moves P s (s.acceptSupervisor r bytes) := by
  unfold State.acceptSupervisor
  dsimp only
  split
  · exact (moves_setSup _ _).trans ((moves_handSupervisor K _).trans (moves_giveArea K _))
  · exact moves_setSup _ _

/-- A supervisor request is written. -/
theorem moves_submit (K : KeptByChanges P) (s : State) (r : SupervisorRequest) :
    Moves P s (s.submit r) := by
  unfold State.submit
  split
  · exact Moves.refl s
  · split
    · exact moves_setSup _ _
    · exact (moves_setSup _ _).trans (moves_acceptSupervisor K _ _ _)

/-- A supervisor frame with any code and body is written. -/
theorem moves_submitBody (K : KeptByChanges P) (s : State) (code : Byte) (body : List Byte) :
    Moves P s (s.submitBody code body) := by
  unfold State.submitBody
  split
  · split
    · exact Moves.refl s
    · split
      · exact moves_setSup _ _
      · exact (moves_setSup _ _).trans (moves_setSup _ _)
  · exact moves_submit K _ _

/-- A write period is judged. -/
theorem moves_judgeWrite (K : KeptByChanges P) (s : State) (bytes : List Byte) :
    Moves P s (s.judgeWrite bytes) := by
  unfold State.judgeWrite
  split
  · exact Moves.refl s
  · dsimp only
    split
    · exact moves_setSup _ _
    · split
      · exact moves_setSup _ _
      · split
        · exact moves_setSup _ _
        · split
          · exact moves_acceptSupervisor K _ _ _
          · exact moves_setSup _ _

/-- A select period passes. -/
theorem moves_selectPeriod (K : KeptByChanges P) (s : State) (mosi : List Byte) :
    Moves P s (s.selectPeriod mosi) := by
  unfold State.selectPeriod
  split
  · exact Moves.refl s
  · split
    · exact Moves.refl s
    · split
      · unfold State.writePeriod
        split
        · exact moves_setSup _ _
        · exact (moves_setSup _ _).trans (moves_judgeWrite K _ _)
      · repeat' split
        all_goals exact moves_setSup _ _

/-- A character is received. -/
theorem moves_receive (K : KeptByChanges P) (s : State) (p : Port) (b : Byte) :
    Moves P s (s.receive p b) := by
  unfold State.receive
  dsimp only
  split
  · split
    · exact moves_setLink _ _ _
    · exact Moves.refl s
  · split <;> exact moves_setLink _ _ _
  · split <;> exact moves_setLink _ _ _
  · unfold State.checkByte
    dsimp only
    split
    · exact moves_setLink _ _ _
    · split
      · exact (moves_setLink _ _ _).trans (moves_deliver K _ _ _)
      · exact moves_setLink _ _ _

/-- An internal event comes to be taken. -/
theorem moves_raise (K : KeptByChanges P) (s : State) (e : AreaEvent)
    (v : List RetWrite × List MainWrite) : Moves P s (s.raise e v) := by
  unfold State.raise
  split
  · exact moves_doMains _ _
  · split
    · exact Moves.refl s
    · exact (moves_wait _ _).trans (moves_giveArea K _)

/-! Supplies and the start-up check. -/

/-- The condition looks at retention memory, the holder, the check and whether the part works. -/
theorem keeps_congr {s t : State} (hr : t.ret = s.ret) (hh : t.main.holder = s.main.holder)
    (hc : t.check = s.check) (hp : t.powered = s.powered) (h : s.Keeps P) : t.Keeps P := by
  have ha : t.appliedRet = s.appliedRet := by simp only [State.appliedRet, hr]
  obtain ⟨⟨h1, h2, h3, h4⟩, h5⟩ := h
  refine ⟨⟨?_, ?_, ?_, ?_⟩, fun ht => ?_⟩
  · rw [hp, hh]; exact h1
  · rw [hh, hr]; exact h2
  · rw [hp, hh, hr, hc]; exact h3
  · rw [hh, hc]; exact h4
  · have : s.trusted := by simpa only [State.trusted, hr, hp, hc] using ht
    obtain ⟨a, b, c, d⟩ := h5 this
    refine ⟨?_, ?_, ?_, ?_⟩
    · rw [hr]; exact a
    · rw [hr, ha]; exact b
    · rw [hh, ha]; exact c
    · rw [hh, hr]; exact d

/-- A part without a holder that stops, or begins its check, with retention memory as it was. -/
theorem keeps_restart {s t : State} (h : s.Keeps P) (hr : t.ret = s.ret)
    (hh : t.main.holder = none)
    (hc : t.powered = true → t.check = some .settle ∨ t.check = some .cold) : t.Keeps P := by
  have ha : t.appliedRet = s.appliedRet := by simp only [State.appliedRet, hr]
  refine ⟨⟨fun _ => hh, ?_, ?_, fun _ _ _ => hh⟩, fun ht => ?_⟩
  · intro x hx; rw [hh] at hx; cases hx
  · intro hp _ h1 h2
    rcases hc hp with hc | hc
    · exact absurd hc h1
    · exact absurd hc h2
  · have : s.trusted := by
      rcases ht with ht | ⟨hp, ht⟩
      · exact .inl (hr ▸ ht)
      · rcases hc hp with hc | hc <;> rw [ht] at hc <;> cases hc
    obtain ⟨a, b, _, _⟩ := h.2 this
    refine ⟨?_, ?_, ?_, ?_⟩
    · rw [hr]; exact a
    · rw [hr, ha]; exact b
    · intro x hx; rw [hh] at hx; cases hx
    · intro x hx; rw [hh] at hx; cases hx

/-- A part that has lost retention memory. -/
theorem keeps_lost {t : State} (hh : t.main.holder = none) (hp : t.powered = false)
    (hm : t.ret.mark = false) : t.Keeps P := by
  refine ⟨⟨fun _ => hh, ?_, ?_, fun _ _ _ => hh⟩, ?_⟩
  · intro x hx; rw [hh] at hx; cases hx
  · intro h; rw [hp] at h; cases h
  · rintro (ht | ⟨h, _⟩)
    · rw [hm] at ht; cases ht
    · rw [hp] at h; cases h

/-- The start-up check begins. -/
theorem keeps_beginCheck {s : State} (h : s.Keeps P) : s.beginCheck.Keeps P :=
  keeps_restart h rfl rfl (fun _ => by
    unfold State.beginCheck
    dsimp only
    split <;> simp)

/-- The area is settled. -/
theorem keeps_settled (K : KeptByChanges P) {s : State} (h : s.Keeps P) (ht : s.trusted) :
    P s.ret.settle := by
  unfold Retained.settle
  split
  · exact K.control _ [] false _ ((h.2 ht).next ‹_›)
  · rename_i hc
    exact K.control _ [] false _ ((h.2 ht).now (by simpa using hc))

/-- A settled area has its mark clear. -/
theorem settle_completion (r : Retained) : r.settle.completion = false := rfl

/-- Settling leaves the retention mark. -/
theorem settle_mark (r : Retained) : r.settle.mark = r.mark := by
  unfold Retained.settle
  dsimp only
  split
  · exact applyRets_mark _ _
  · rfl

/-- A part whose area is free and whose retention memory meets the condition. -/
theorem keeps_free {t : State} (hh : t.main.holder = none) (hf : t.ret.completion = false)
    (hP : t.trusted → P t.ret) : t.Keeps P := by
  refine ⟨⟨fun _ => hh, ?_, fun _ _ _ _ => hf, fun _ _ _ => hh⟩, fun ht => ⟨fun _ => hP ht, ?_, ?_, ?_⟩⟩
  · intro x hx; rw [hh] at hx; cases hx
  · intro hx; rw [hf] at hx; cases hx
  · intro x hx; rw [hh] at hx; cases hx
  · intro x hx; rw [hh] at hx; cases hx

/-- The steps of the start-up check, from wherever it is. -/
theorem keeps_checked (K : KeptByChanges P) (D : ∀ r, P r → P r.drainAll) {s : State} (h : s.Keeps P) {c : Check}
    (hp : s.powered = true) (hc : s.check = some c) {t : State} (hr : t.ret = s.ret.checked c)
    (hh : t.main.holder = none) (ht : t.check = none) : t.Keeps P := by
  have hmark : t.trusted → t.ret.mark = true := by
    rintro (h | ⟨_, h⟩)
    · exact h
    · rw [ht] at h; cases h
  have none_of : (∀ n, c ≠ .drains n) → s.main.holder = none := h.1.check c hc
  cases c with
  | settle =>
    refine keeps_free hh (by rw [hr]; rfl) fun h1 => ?_
    have := hmark h1
    rw [hr]
    refine D _ (keeps_settled K h (.inl ?_))
    rw [hr] at this
    exact (settle_mark s.ret) ▸ this
  | drains n =>
    refine keeps_free hh (by rw [hr]; rfl) fun h1 => ?_
    have := hmark h1
    rw [hr]
    refine D _ (keeps_settled K h (.inl ?_))
    rw [hr] at this
    exact (settle_mark s.ret) ▸ this
  | cold => exact keeps_free hh (by rw [hr]; rfl) fun _ => by rw [hr]; exact K.cold
  | coldMark =>
    have hf : s.ret.completion = false := h.1.free hp (none_of nofun) (by rw [hc]; nofun) (by rw [hc]; nofun)
    refine keeps_free hh (by rw [hr]; exact hf) fun _ => ?_
    rw [hr]
    exact K.control s.ret s.ret.staged s.ret.completion true ((h.2 (.inr ⟨hp, hc⟩)).now hf)
  | complete =>
    have hf : s.ret.completion = false := h.1.free hp (none_of nofun) (by rw [hc]; nofun) (by rw [hc]; nofun)
    refine keeps_free hh (by rw [hr]; exact hf) fun h1 => ?_
    have := hmark h1
    rw [hr] at this ⊢
    exact (h.2 (.inl this)).now hf

/-- What waited for the end of the check is taken. -/
theorem moves_handWaiters (K : KeptByChanges P) (l : List Waiter) (s : State) :
    Moves P s (l.foldl State.handWaiter s) := by
  induction l generalizing s with
  | nil => exact Moves.refl s
  | cons w l ih =>
    refine Moves.trans ?_ (ih _)
    cases w with
    | port p => exact (moves_handOn K s p).trans (moves_giveArea K _)
    | supervisor => exact (moves_handSupervisor K s).trans (moves_giveArea K _)

/-- The start-up check ends. -/
theorem keeps_endCheck (K : KeptByChanges P) (D : ∀ r, P r → P r.drainAll) {s : State} (h : s.Keeps P) {c : Check}
    (hp : s.powered = true) (hc : s.check = some c) : (s.endCheck c).Keeps P := by
  unfold State.endCheck
  dsimp only
  refine (moves_handWaiters K _ _).1 ?_
  exact keeps_checked K D h hp hc rfl rfl rfl

/-- One notch of a staged change. -/
theorem keeps_advanceHolder (K : KeptByChanges P) {s : State} (h : s.Keeps P) {x : Holder}
    (hx : s.main.holder = some x) : (s.advanceHolder x).Keeps P := by
  have hoff : ∀ t : State, t.powered = s.powered → ¬ t.powered = false := by
    intro t ht h1
    have := h.1.off (ht ▸ h1)
    rw [hx] at this; cases this
  have hchk : ∀ c, s.check = some c → ¬ ∀ n, c ≠ .drains n := by
    intro c hc hd
    have := h.1.check c hc hd
    rw [hx] at this; cases this
  unfold State.advanceHolder
  cases hph : x.phase with
  | write =>
    dsimp only
    refine ⟨⟨fun h1 => absurd h1 (hoff _ rfl), ?_, ?_, fun c hc hd => absurd hd (hchk c hc)⟩, fun ht => ?_⟩
    · intro y hy; cases hy; simp
    · intro _ hn; cases hn
    · have hw := (h.2 ht).write x hx hph
      refine ⟨(fun h => nomatch h), fun _ => ?_, ?_, ?_⟩
      · exact K.applied s.ret.staged true hw
      · intro y hy hyw; cases hy; cases hyw
      · intro y hy hyw; cases hy; cases hyw
  | mark =>
    have hcm := (h.1.phase x hx).mpr (by rw [hph]; nofun)
    dsimp only
    refine ⟨⟨fun h1 => absurd h1 (hoff _ rfl), ?_, ?_, fun c hc hd => absurd hd (hchk c hc)⟩, fun ht => ?_⟩
    · intro y hy; cases hy; simpa using hcm
    · intro _ hn; cases hn
    · refine ⟨fun h1 => ?_, fun _ => (h.2 ht).next hcm, ?_, ?_⟩
      · rw [hcm] at h1; cases h1
      · intro y hy hyw; cases hy; cases hyw
      · intro y hy hyw; cases hy; cases hyw
  | apply n =>
    have hcm := (h.1.phase x hx).mpr (by rw [hph]; nofun)
    dsimp only
    split
    · rename_i w hw
      obtain ⟨e1, e2, e3⟩ := applyRet_control w s.ret
      refine ⟨⟨fun h1 => absurd h1 (hoff _ rfl), ?_, ?_, fun c hc hd => absurd hd (hchk c hc)⟩, fun ht => ?_⟩
      · intro y hy; cases hy
        dsimp only
        simp [e2, hcm]
      · intro _ hn; cases hn
      · have ht' : s.trusted := by
          rcases ht with ht | ht
          · exact .inl (e3 ▸ ht)
          · exact .inr ht
        refine ⟨fun h1 => ?_, fun _ => ?_, ?_, ?_⟩
        · rw [show (applyRet w s.ret).completion = true from e2.trans hcm] at h1; cases h1
        · show P (applyRets (applyRet w s.ret).staged (applyRet w s.ret))
          rw [e1, applyRets_absorb (List.mem_of_getElem? hw)]
          exact (h.2 ht').next hcm
        · intro y hy hyw; cases hy; cases hyw
        · intro y hy hyw; cases hy; cases hyw
    · exact (moves_finishApply K s).1 h
  | clear => exact h

/-- The start-up check goes on to another slot. -/
theorem keeps_recheck {s : State} (h : s.Keeps P) {n m : Nat} (hc : s.check = some (.drains n)) :
    ({ s with check := some (.drains m) } : State).Keeps P := by
  obtain ⟨⟨h1, h2, h3, h4⟩, h5⟩ := h
  refine ⟨⟨h1, h2, ?_, ?_⟩, fun ht => ?_⟩
  · intro hp hh _ _
    exact h3 hp hh (by rw [hc]; nofun) (by rw [hc]; nofun)
  · intro c hcc hd
    cases hcc
    exact absurd rfl (hd m)
  · have : s.trusted := by
      rcases ht with ht | ⟨_, ht⟩
      · exact .inl ht
      · cases ht
    obtain ⟨u1, u2, u3, u4⟩ := h5 this
    exact ⟨u1, u2, u3, u4⟩

/-- A start-up drain ends. -/
theorem keeps_endDrain (K : KeptByChanges P) {s : State} (h : s.Keeps P) {x : Holder}
    (hx : s.main.holder = some x) : (s.endDrain x).Keeps P := by
  unfold State.endDrain
  split
  · exact keeps_cleared K h (.inr nofun) fun hn => by rw [hx] at hn; cases hn
  · exact h

/-- One notch of the start-up check. -/
theorem keeps_advanceCheck (K : KeptByChanges P) {s : State} (h : s.Keeps P) {c : Check}
    (hp : s.powered = true) (hc : s.check = some c) : (s.advanceCheck c).Keeps P := by
  have none_of : (∀ n, c ≠ .drains n) → s.main.holder = none := h.1.check c hc
  unfold State.advanceCheck
  cases c with
  | settle =>
    refine keeps_free (none_of nofun) rfl fun ht => ?_
    rcases ht with ht | ⟨_, ht⟩
    · exact keeps_settled K h (.inl ((settle_mark s.ret) ▸ ht))
    · cases ht
  | drains n =>
    dsimp only
    cases hx : s.main.holder with
    | some x =>
      dsimp only
      split
      · exact keeps_endDrain K h hx
      · exact keeps_advanceHolder K h hx
    | none =>
      dsimp only
      split
      · rename_i slot _
        have h1 := keeps_holdArea K h hx hp
          (fun c' hc' => ⟨n, by rw [hc] at hc'; cases hc'; rfl⟩) (.startUpDrain slot)
          (ws := [.acctState slot .drained]) [] none fun hP => K.drain _ _ hP
        exact keeps_recheck h1 hc
      · have hf : s.ret.completion = false := h.1.free hp hx (by rw [hc]; nofun) (by rw [hc]; nofun)
        refine keeps_free hx hf fun ht => ?_
        rcases ht with ht | ⟨_, ht⟩
        · exact (h.2 (.inl ht)).now hf
        · cases ht
  | cold =>
    refine keeps_free (none_of nofun) rfl fun _ => ?_
    exact K.control Retained.cold [] false false K.cold
  | coldMark =>
    have hf : s.ret.completion = false := h.1.free hp (none_of nofun) (by rw [hc]; nofun) (by rw [hc]; nofun)
    refine keeps_free (none_of nofun) hf fun _ => ?_
    exact K.control s.ret s.ret.staged s.ret.completion true ((h.2 (.inr ⟨hp, hc⟩)).now hf)
  | complete => exact h

/-- The part goes on by itself. -/
theorem keeps_idle (K : KeptByChanges P) {s : State} (h : s.Keeps P) : s.idle.Keeps P := by
  unfold State.idle
  split
  · rename_i hp
    split
    · rename_i c hc
      exact keeps_advanceCheck K h hp hc
    · split
      · exact keeps_advanceHolder K h ‹_›
      · exact (moves_giveArea K s).1 h
  · exact h

/-- A step's outcome keeps the condition, when it is a next state. -/
def NextKeeps (P : Retained → Prop) (s : State) (r : Result) : Prop :=
  s.Keeps P → ∀ t, r = .next t → t.Keeps P

/-- From a move. -/
theorem NextKeeps.of_moves {s t : State} (h : Moves P s t) : NextKeeps P s (.next t) := by
  intro hs u hu
  cases hu
  exact h.1 hs

/-- From the condition itself. -/
theorem NextKeeps.of_keeps {s t : State} (h : s.Keeps P → t.Keeps P) : NextKeeps P s (.next t) := by
  intro hs u hu
  cases hu
  exact h hs

/-- The commands of the supplies and RESET_N. -/
theorem exec_power (s : State) : NextKeeps P s (execPowerLoss s) ∧ NextKeeps P s (execVbatLoss s) ∧
    NextKeeps P s (execPowerReturn s) ∧ NextKeeps P s (execResetAssert s) ∧
    NextKeeps P s (execResetRelease s) ∧ NextKeeps P s (execVbatReturn s) := by
  refine ⟨?_, ?_, ?_, ?_, ?_, ?_⟩
  · unfold execPowerLoss
    split
    · refine .of_keeps fun h => ?_
      dsimp only
      split
      · exact keeps_restart h rfl rfl fun hp => by cases hp
      · exact keeps_lost rfl rfl rfl
    · exact .of_keeps id
  · unfold execVbatLoss
    refine .of_keeps fun h => ?_
    split
    · exact keeps_congr (s := s) rfl rfl rfl rfl h
    · rename_i hv
      have hp : s.powered = false := by
        simp only [Bool.or_eq_true, not_or, Bool.not_eq_true] at hv
        simp [State.powered, hv.1]
      exact keeps_lost (h.1.off hp) hp rfl
  · unfold execPowerReturn
    split
    · exact .of_keeps id
    · rename_i hv
      refine .of_keeps fun h => ?_
      have hp : s.powered = false := by simp [State.powered, hv]
      dsimp only
      split
      · rename_i hl
        refine keeps_congr (s := s) rfl rfl rfl ?_ h
        rw [hp]
        simp [State.powered, hl]
      · exact keeps_restart h rfl rfl fun _ => by
          simp only [State.beginCheck]
          split <;> simp
  · unfold execResetAssert
    split
    · exact .of_keeps id
    · exact .of_keeps fun h => keeps_restart h rfl rfl fun hp => by
        simp [State.powered] at hp
  · unfold execResetRelease
    split
    · rename_i hl
      refine .of_keeps fun h => ?_
      have hp : s.powered = false := by simp [State.powered, hl]
      dsimp only
      split
      · exact keeps_restart h rfl rfl fun _ => by
          simp only [State.beginCheck]
          split <;> simp
      · rename_i hv
        refine keeps_congr (s := s) rfl rfl rfl ?_ h
        rw [hp]
        simp [State.powered, hv]
    · exact .of_keeps id
  · exact .of_keeps fun h => keeps_congr (s := s) rfl rfl rfl rfl h

/-- The commands of the internal events. -/
theorem exec_internal (K : KeptByChanges P) (D : ∀ r, P r → P r.drainAll) (s : State) :
    NextKeeps P s (execHoldClockAdvance s) ∧ (∀ i, NextKeeps P s (execHoldExpiry i s)) ∧
    (∀ p, NextKeeps P s (execPinExpiry p s)) ∧ (∀ p, NextKeeps P s (execSessionResetPinEnd p s)) ∧
    NextKeeps P s (execStagedChangeComplete s) ∧ NextKeeps P s (execStartUpCheckEnd s) := by
  refine ⟨?_, fun i => ?_, fun p => ?_, fun p => ?_, ?_, ?_⟩
  · unfold execHoldClockAdvance
    split
    · refine .of_moves ((moves_finishApply K s).trans (Moves.of_eq rfl ?_ ⟨rfl, rfl, rfl⟩))
      exact catchUpN_holder _ _
    · exact .of_moves (Moves.refl s)
  · unfold execHoldExpiry
    split
    · dsimp only
      split
      · exact .of_moves ((moves_finishApply K s).trans (moves_raise K _ _ _))
      · exact .of_moves (moves_finishApply K s)
    · exact .of_moves (Moves.refl s)
  · unfold execPinExpiry
    split
    · dsimp only
      split
      · exact .of_moves ((moves_finishApply K s).trans (moves_raise K _ _ _))
      · exact .of_moves (moves_finishApply K s)
    · exact .of_moves (Moves.refl s)
  · unfold execSessionResetPinEnd
    split
    · exact .of_moves (moves_giveArea K s)
    · exact .of_moves (Moves.refl s)
  · unfold execStagedChangeComplete
    split
    · exact .of_moves (moves_completeChange K ‹_›)
    · split
      · split
        · rename_i x _ hx
          exact .of_keeps fun h => keeps_endDrain K h hx
        · exact .of_keeps id
      · exact .of_keeps id
  · unfold execStartUpCheckEnd
    split
    · rename_i hp
      split
      · rename_i c hc
        exact .of_keeps fun h => keeps_endCheck K D h hp hc
      · exact .of_keeps id
    · exact .of_keeps id

/-- The commands of the links. -/
theorem exec_links (K : KeptByChanges P) (s : State) :
    (∀ p b, NextKeeps P s (execStationCharacterReceived p b s)) ∧
    (∀ p, NextKeeps P s (execGapTimeout p s)) ∧ (∀ p, NextKeeps P s (execFramingError p s)) ∧
    (∀ p, NextKeeps P s (execBreak p s)) ∧ (∀ p, NextKeeps P s (execReceiveLineReturnHigh p s)) ∧
    (∀ p, NextKeeps P s (execAnswerTransmissionEnd p s)) ∧
    (∀ l, NextKeeps P s (execWriteRequest l s)) ∧ (∀ n, NextKeeps P s (execReadAnswer n s)) ∧
    ∀ n, NextKeeps P s (execReadLinkStatus n s) := by
  have hd : ∀ p, Moves P s (s.discardFrame p) := by
    intro p
    unfold State.discardFrame
    split
    · exact moves_setLink _ _ _
    · exact Moves.refl s
  refine ⟨fun p b => ?_, fun p => .of_moves (hd p), fun p => .of_moves (hd p), fun p => ?_, fun p => ?_,
    fun p => ?_, fun l => ?_, fun n => ?_, fun n => ?_⟩
  · unfold execStationCharacterReceived
    split
    · exact .of_moves ((moves_setLink _ _ _).trans (moves_receive K _ _ _))
    · exact .of_moves (Moves.refl s)
  · unfold execBreak
    split
    · exact .of_moves (Moves.refl s)
    · dsimp only
      refine .of_moves ?_
      have h1 : Moves P s (if s.running = true then s.finishApply else s) := by
        split
        · exact moves_finishApply K s
        · exact Moves.refl s
      refine h1.trans ?_
      generalize (if s.running = true then s.finishApply else s) = u
      split
      · exact Moves.of_eq rfl rfl ⟨rfl, rfl, rfl⟩
      · exact Moves.of_eq rfl rfl ⟨rfl, rfl, rfl⟩
  · unfold execReceiveLineReturnHigh
    split
    · exact .of_moves (moves_setLink _ _ _)
    · exact .of_moves (Moves.refl s)
  · unfold execAnswerTransmissionEnd
    split
    · exact .of_moves ((moves_setLink _ _ _).trans ((moves_handOn K _ _).trans (moves_giveArea K _)))
    · exact .of_moves (Moves.refl s)
  · exact .of_moves (moves_selectPeriod K s _)
  · exact .of_moves (moves_selectPeriod K s _)
  · exact .of_moves (moves_selectPeriod K s _)

/-- Every command. -/
theorem exec_keeps (K : KeptByChanges P) (D : ∀ r, P r → P r.drainAll) (c : Instr) (s : State) :
    NextKeeps P s (exec c s) := by
  have sub : ∀ r, NextKeeps P s (.next (s.submit r)) := fun r => .of_moves (moves_submit K s r)
  have arr : ∀ p f, NextKeeps P s (.next (s.arrive p f)) := fun p f => .of_moves (moves_arrive K s p f)
  obtain ⟨p1, p2, p3, p4, p5, p6⟩ := exec_power (P := P) s
  obtain ⟨i1, i2, i3, i4, i5, i6⟩ := exec_internal K D s
  obtain ⟨l1, l2, l3, l4, l5, l6, l7, l8, l9⟩ := exec_links K s
  cases c with
  | stationBadRequest p seq code body =>
    show NextKeeps P s (execStationBadRequest p seq code body s)
    unfold execStationBadRequest
    split
    · exact .of_moves (Moves.refl s)
    · exact arr _ _
  | tariffRow cls entryZone fares =>
    show NextKeeps P s (execTariffRow cls entryZone fares s)
    unfold execTariffRow
    split
    · exact sub _
    · exact .of_moves (moves_submitBody K s _ _)
  | supervisorBadRequest code body => exact .of_moves (moves_submitBody K s _ _)
  | holdClockAdvance => exact i1
  | holdExpiry i => exact i2 i
  | pinExpiry p => exact i3 p
  | sessionResetPinEnd p => exact i4 p
  | stagedChangeComplete => exact i5
  | startUpCheckEnd => exact i6
  | stationCharacterReceived p b => exact l1 p b
  | gapTimeout p => exact l2 p
  | framingError p => exact l3 p
  | breakReceived p => exact l4 p
  | receiveLineReturnHigh p => exact l5 p
  | answerTransmissionEnd p => exact l6 p
  | writeRequest l => exact l7 l
  | readAnswer n => exact l8 n
  | readLinkStatus n => exact l9 n
  | powerLoss => exact p1
  | vbatLoss => exact p2
  | powerReturn => exact p3
  | resetAssert => exact p4
  | resetRelease => exact p5
  | vbatReturn => exact p6
  | select | balance | stationStatus | pin | unpin | fare | hold | capture | release | topUp => exact arr _ _
  | _ => exact sub _

/-- A condition that every staged change and the start-up's drains keep is kept by every step. -/
theorem step_keeps (K : KeptByChanges P) (D : ∀ r, P r → P r.drainAll) {s t : State}
    (h : s.Keeps P) (hst : step s = .next t) : t.Keeps P := by
  unfold step at hst
  split at hst
  · cases hst
    exact keeps_idle K h
  · refine exec_keeps K D _ _ ?_ t hst
    exact keeps_congr (s := s) rfl rfl rfl rfl h

end Sys2Proof.Machine
end

