-- ==== Sys2Proof/Laws/Links.lean ====
section
/-! SUPPORT. What the clock, a session reset, a dropped request and a select period come to: one lemma for
each operation. -/

namespace Sys2Proof.Machine

/-! The hold clock. -/

/-- A hold or a pin is due at the clock's value. -/
theorem Main.dueNow_iff (m : Main) : m.dueNow = true ↔ m.Due m.clock := by
  have hp : (∃ x ∈ m.sessions.toList, (match x.pin with
      | some e => e.expiry == m.clock
      | none => false) = true) ↔ ∃ p e, (m.sessions.get p).pin = some e ∧ e.expiry = m.clock := by
    constructor
    · rintro ⟨x, hx, h⟩
      obtain ⟨p, rfl⟩ : ∃ p, m.sessions.get p = x := by
        simp only [Four.toList, List.mem_cons, List.not_mem_nil, or_false] at hx
        rcases hx with rfl | rfl | rfl | rfl
        exacts [⟨.p0, rfl⟩, ⟨.p1, rfl⟩, ⟨.p2, rfl⟩, ⟨.p3, rfl⟩]
      split at h
      · exact ⟨p, _, ‹_›, by simpa using h⟩
      · cases h
    · rintro ⟨p, e, h1, h2⟩
      refine ⟨m.sessions.get p, by cases p <;> simp [Four.toList, Four.get], ?_⟩
      simp [h1, h2]
  simp only [Main.dueNow, Main.Due, Bool.or_eq_true, List.any_eq_true, beq_iff_eq]
  exact or_congr Iff.rfl hp

/-- The advances made are as many as are owed, up to the first second at which something is due. -/
theorem catchUpN_caughtUp (n : Nat) (m : Main) :
    Main.CaughtUp { m with clockOwed := n } (catchUpN n m) := by
  induction n generalizing m with
  | zero => exact ⟨0, le_refl _, (fun j hj => absurd hj (Nat.not_lt_zero j)),
      (fun hj => absurd hj (Nat.not_lt_zero 0)), rfl⟩
  | succ n ih =>
    unfold catchUpN
    split
    · rename_i h
      exact ⟨0, Nat.zero_le _, (fun j hj => absurd hj (Nat.not_lt_zero j)),
        fun _ => (m.dueNow_iff.mp h), rfl⟩
    · rename_i h
      obtain ⟨k, h1, h2, h3, h4⟩ := ih { m with clock := (m.clock + 1) % Config.clockModulus }
      refine ⟨k + 1, Nat.succ_le_succ h1, ?_, fun hk => h3 (Nat.lt_of_succ_lt_succ hk), ?_⟩
      · intro j hj
        cases j with
        | zero => exact fun hd => h (m.dueNow_iff.mpr hd)
        | succ j => exact h2 j (Nat.lt_of_succ_lt_succ hj)
      · rw [h4]
        simp only [Function.iterate_succ_apply, nextSecond, Nat.add_sub_add_right]

/-- The deferred advances are made as far as they can be (R74). -/
theorem Main.catchUp_caughtUp (m : Main) : Main.CaughtUp m m.catchUp := catchUpN_caughtUp m.clockOwed m

/-- Main-memory effects, and the advances they set free. -/
theorem applyMains_caughtUp (ws : List MainWrite) (m : Main) :
    Main.CaughtUp (m.effects ws) (applyMains ws m) := Main.catchUp_caughtUp _

/-! Reads. -/

/-- With the area free a read sees the state as it stands. -/
theorem State.settleForRead_free {s : State} (h : s.main.holder = none) : s.settleForRead = s := by
  simp only [State.settleForRead, h]

/-- In the holder's write phase a read sees the state as it was. -/
theorem State.settleForRead_write {s : State} {h : Holder} (hh : s.main.holder = some h)
    (hp : h.phase = .write) : s.settleForRead = s := by
  simp only [State.settleForRead, hh, hp, if_true]

/-- In a later phase it sees the state after the apply phase. -/
theorem State.settleForRead_apply {s : State} {h : Holder} (hh : s.main.holder = some h)
    (hp : h.phase ≠ .write) : s.settleForRead = s.finishApply := by
  simp only [State.settleForRead, hh, hp, if_false]

/-- During the start-up check a link reads what the check leaves. -/
theorem State.readRet_check {s : State} {c : Check} (h : s.check = some c) :
    s.readRet = s.ret.checked c := by simp only [State.readRet, h]

/-- Outside it a link reads as any read does. -/
theorem State.readRet_running {s : State} (h : s.check = none) : s.readRet = s.settleForRead.ret := by
  simp only [State.readRet, h]

/-- With the area free, and no check in progress, a link reads retention memory as it stands. -/
theorem State.readRet_free {s : State} (hc : s.check = none) (h : s.main.holder = none) :
    s.readRet = s.ret := by rw [State.readRet_running hc, State.settleForRead_free h]

/-! Rates. -/

/-- With the area free the rate is the parameter set's (R161). -/
theorem State.portRate_free {s : State} (hc : s.check = none) (h : s.main.holder = none) (p : Port) :
    s.portRate p = s.ret.params.rates.get p := by
  rw [State.portRate, State.readRet_free hc h]

/-- During a cold start the rate is 19200 bit/s (R180, R190; log 33). -/
theorem State.portRate_cold {s : State} (hc : s.check = some .cold) (p : Port) :
    s.portRate p = .r19200 := by
  rw [State.portRate, State.readRet_check hc]
  cases p <;> rfl

/-- In HUNT, RATE IN USE is the port's rate (R190). -/
theorem State.rateInUse_hunt {s : State} {p : Port} (h : (s.link p).rxRate = none) :
    s.rateInUse p = s.portRate p := by simp only [State.rateInUse, h, Option.getD_none]

/-- In a frame, RATE IN USE is the rate its start byte came at (R190). -/
theorem State.rateInUse_frame {s : State} {p : Port} {r : Rate} (h : (s.link p).rxRate = some r) :
    s.rateInUse p = r := by simp only [State.rateInUse, h, Option.getD_some]

/-! Requests that a session reset dropped. -/

/-- A dropped request is judged under the cursor kept for it. -/
@[simp] theorem State.session_judgedFor_some (s : State) (p : Port) (f : StationFrame) (c : Cursor) :
    (s.judgedFor p ⟨f, some c⟩).session p = { s.session p with cursor := c } :=
  State.session_setSession s p _

/-- The pool is as it stands. -/
@[simp] theorem State.judgedFor_pool (s : State) (p : Port) (h : InHand) :
    (s.judgedFor p h).main.pool = s.main.pool := by unfold State.judgedFor; split <;> rfl

/-- What stands of a dropped request is no cursor's change. -/
theorem InHand.mem_standing_some {f : StationFrame} {c : Cursor} {ms : List MainWrite} {w : MainWrite} :
    w ∈ (⟨f, some c⟩ : InHand).standing ms ↔ w ∈ ms ∧ w.sparesCursor = true := List.mem_filter

/-- When a session reset leaves a pin end to be taken. -/
theorem State.pinEndDue_iff (s : State) (p : Port) : s.pinEndDue p = true ↔
    if s.waitsToPin p = true then
      .sessionPinEnd p ∉ s.main.waiting.dropWhile (· != .station p)
    else (s.session p).pin ≠ none ∧ .sessionPinEnd p ∉ s.main.waiting := by
  unfold State.pinEndDue
  split <;> simp [Option.isSome_iff_ne_none]

/-! Select periods. -/

/-- A stopped part takes no period. -/
theorem State.selectPeriod_stopped {s : State} (h : s.powered = false) (bytes : List Byte) :
    s.selectPeriod bytes = s := by
  cases bytes with
  | nil => rfl
  | cons d l => simp only [State.selectPeriod, h, Bool.not_false, if_true]

/-- Direction byte 01H. -/
theorem State.selectPeriod_write {s : State} (h : s.powered = true) (bytes : List Byte) :
    s.selectPeriod (0x01 :: bytes) = s.writePeriod bytes := by
  simp only [State.selectPeriod, h]; rfl

/-- Direction byte 02H. -/
theorem State.selectPeriod_answer {s : State} (h : s.powered = true) (bytes : List Byte) :
    s.selectPeriod (0x02 :: bytes) = s.driveMiso (padFF bytes.length s.main.sup.answerBytes) := by
  simp only [State.selectPeriod, h]; rfl

/-- Direction byte 03H. -/
theorem State.selectPeriod_status {s : State} (h : s.powered = true) (bytes : List Byte) :
    s.selectPeriod (0x03 :: bytes) =
      s.driveMiso (padFF bytes.length
        [s.main.sup.state.byte, ({ s with ret := s.readRet } : State).statusBits]) := by
  simp only [State.selectPeriod, h]; rfl

/-- A byte that is no direction. -/
theorem State.selectPeriod_other {s : State} (h : s.powered = true) {d : Byte} (h1 : d ≠ 0x01)
    (h2 : d ≠ 0x02) (h3 : d ≠ 0x03) (bytes : List Byte) :
    s.selectPeriod (d :: bytes) = s.driveMiso (List.replicate bytes.length 0xFF) := by
  simp only [State.selectPeriod, h, h1, h2, h3, Bool.not_true, if_false]; rfl

end Sys2Proof.Machine
end

