-- ==== Sys2Proof/Laws/Views.lean ====
section
/-! SUPPORT. What the views of the pin table and of the hold pool say, in the words of the manual; the
commands of the two kinds of request; and when an ending drains an account. -/

namespace Sys2Proof.Machine

/-! Commands and requests. -/

/-- A station request's command is the arrival of its frame. -/
theorem exec_command {f : StationFrame} (h : f.req.wf = true) (p : Port) (s : State) :
    exec (f.command p) s = .next (s.arrive p f) := by
  obtain ⟨seq, r⟩ := f
  cases r with
  | bad c b =>
    simp only [StationRequest.wf, Bool.and_eq_true, decide_eq_true_eq, beq_iff_eq] at h
    show execStationBadRequest p seq c b s = _
    have hb : ¬ 62 < b.length := by omega
    simp [execStationBadRequest, hb, h.2]
  | _ => rfl

/-- A supervisor request's command is the write of its frame. -/
theorem exec_supervisorCommand {r : SupervisorRequest} (h : r.wf = true) (s : State) :
    exec r.command s = .next (s.submit r) := by
  cases r with
  | bad c b =>
    simp only [SupervisorRequest.wf, Bool.and_eq_true, decide_eq_true_eq, beq_iff_eq] at h
    show execSupervisorBadRequest c b s = _
    have hb : ¬ 60 < b.length := by omega
    simp [execSupervisorBadRequest, State.submitBody, hb, h.2]
  | tariffRow c e f =>
    simp only [SupervisorRequest.wf, beq_iff_eq] at h
    show execTariffRow c e f s = _
    simp [execTariffRow, h]
  | _ => rfl

/-- Any of the ten station requests can be carried by a frame. -/
theorem StationRequest.wf_of_ne {r : StationRequest} (h : ∀ c b, r ≠ .bad c b) : r.wf = true := by
  cases r <;> first | rfl | exact absurd rfl (h _ _)

/-- A station request that the ladder lets through, run to the end of what it stages: the effects and the
answer of its own checks. -/
theorem done_accepted {s : State} {p : Port} {f : StationFrame} (h : s.Accepts p f)
    (hb : ∀ c b, f.req ≠ .bad c b) :
    Done (f.command p) s (({ s with
      ret := applyRets (f.req.judge p s).writes s.ret
      main := s.main.effects (f.req.judge p s).mains }).afterStation p f
        (f.req.judge p s).answer) := by
  have := done_fresh h.toStationReady (exec_command (StationRequest.wf_of_ne hb) p s) hb h.uncached
  rwa [ladder_passed h.right h.fields] at this

/-- A supervisor request, run to the end of what it stages: the effects and the answer of its checks. -/
theorem done_request {s : State} {r : SupervisorRequest} (h : s.SupervisorReady)
    (hw : r.wf = true) :
    Done r.command s (({ s with
      ret := applyRets (r.judge s).writes s.ret
      main := s.main.effects (r.judge s).mains }).afterSupervisor r (r.judge s).answer) :=
  done_supervisor h (exec_supervisorCommand hw s)

/-- A cursor that is SET on a live slot passes the cursor check (R137). -/
theorem State.cursorAccount_set {s : State} {p : Port} {slot key : Nat} {a : Account}
    (h : (s.session p).cursor = .sel slot key) (hl : s.Live slot a) :
    s.cursorAccount p = .ok (slot, key, a) := by
  have : s.account? slot = some a := hl
  simp [State.cursorAccount, h, this]

/-! The pin table. -/

/-- A port the pin table reports for a slot pins it. -/
theorem State.pinOn_some {s : State} {slot : Nat} {q : Port} {e : PinEntry}
    (h : s.pinOn slot = some (q, e)) : (s.session q).pin = some e ∧ e.slot = slot := by
  unfold State.pinOn at h
  obtain ⟨x, _, hx⟩ := List.exists_of_findSome?_eq_some h
  cases hp : (s.session x).pin with
  | none => simp [hp] at hx
  | some y =>
    simp only [hp] at hx
    split at hx
    · rename_i hs
      injection hx with hx
      injection hx with h1 h2
      subst h1; subst h2
      exact ⟨hp, by simpa using hs⟩
    · cases hx

/-- The pin table reports no port for a slot that no port pins. -/
theorem State.pinOn_none {s : State} {slot : Nat} : s.pinOn slot = none ↔
    ∀ q, ¬ s.PinnedBy slot q := by
  unfold State.pinOn State.PinnedBy
  rw [List.findSome?_eq_none_iff]
  constructor
  · rintro h q ⟨e, he, hs⟩
    have := h q (Port.mem_all q)
    simp [he, hs] at this
  · intro h q _
    cases hp : (s.session q).pin with
    | none => rfl
    | some e =>
      have : e.slot ≠ slot := fun hs => h q ⟨e, hp, hs⟩
      simp [this]

/-- With no other port pinning the slot, the pin check passes (R146). -/
theorem State.pinnedByOther_none {s : State} {p : Port} {slot : Nat} (h : s.FreeFor p slot) :
    s.pinnedByOther p slot = none := by
  unfold State.pinnedByOther
  cases hp : s.pinOn slot with
  | none => rfl
  | some x =>
    obtain ⟨q, e⟩ := x
    obtain ⟨h1, h2⟩ := State.pinOn_some hp
    have : q = p := h q ⟨e, h1, h2⟩
    simp [this]

/-- With one other port pinning the slot, the pin check names it (R146). -/
theorem State.pinnedByOther_some {s : State} {p q : Port} {slot : Nat} (hq : q ≠ p)
    (hp : s.PinnedBy slot q) (hu : ∀ q', s.PinnedBy slot q' → q' = q) :
    s.pinnedByOther p slot = some q := by
  unfold State.pinnedByOther
  cases ho : s.pinOn slot with
  | none => exact absurd hp (State.pinOn_none.mp ho q)
  | some x =>
    obtain ⟨q', e⟩ := x
    obtain ⟨h1, h2⟩ := State.pinOn_some ho
    have : q' = q := hu q' ⟨e, h1, h2⟩
    subst this
    simp [hq]

/-! Drains. -/

theorem State.isClosing_live {s : State} {slot : Nat} {a : Account} (h : s.Live slot a) :
    s.isClosing slot = (a.state == .closing) := by
  unfold State.isClosing
  rw [h]

/-- The end of a pin drains a CLOSING account without a hold (R148). -/
theorem State.pinEndDrain_drains {s : State} {slot : Nat} {a : Account} (h : s.Live slot a)
    (hc : a.state = .closing) (hh : ∀ g ∈ s.main.pool, g.slot ≠ slot) :
    s.pinEndDrain slot = [.acctState slot .drained] := by
  have : s.holdsOn slot = [] := by simpa [State.holdsOn] using hh
  simp [State.pinEndDrain, State.isClosing_live h, hc, this]

/-- The end of a pin drains no other account (R148). -/
theorem State.pinEndDrain_spares {s : State} {slot : Nat} {a : Account} (h : s.Live slot a)
    (hn : a.state ≠ .closing ∨ ∃ g ∈ s.main.pool, g.slot = slot) : s.pinEndDrain slot = [] := by
  unfold State.pinEndDrain
  rw [State.isClosing_live h, if_neg]
  rintro hx
  simp only [Bool.and_eq_true, beq_iff_eq] at hx
  rcases hn with hn | ⟨g, hg, hs⟩
  · exact hn hx.1
  · have := hx.2
    simp [State.holdsOn] at this
    exact this g hg hs

/-- The end of a CLOSING account's last hold with no pin drains it (R28, R93). -/
theorem State.holdEndDrain_drains {s : State} {h : Hold} {a : Account} (hl : s.Live h.slot a)
    (hc : a.state = .closing) (hh : s.LastHold h) :
    s.holdEndDrain h = [.acctState h.slot .drained] := by
  have h1 : (s.holdsOn h.slot).all (·.id == h.id) = true := by
    simp only [State.holdsOn, List.all_eq_true, List.mem_filter, beq_iff_eq, and_imp]
    exact hh.1
  have h2 : s.pinOn h.slot = none := State.pinOn_none.mpr hh.2
  simp [State.holdEndDrain, State.isClosing_live hl, hc, h1, h2]

/-- The end of a hold drains no other account (R28, R93). -/
theorem State.holdEndDrain_spares {s : State} {h : Hold} {a : Account} (hl : s.Live h.slot a)
    (hn : a.state ≠ .closing ∨ ¬ s.LastHold h) : s.holdEndDrain h = [] := by
  unfold State.holdEndDrain
  rw [State.isClosing_live hl, if_neg]
  rintro hx
  simp only [Bool.and_eq_true, beq_iff_eq, Option.isNone_iff_eq_none] at hx
  rcases hn with hn | hn
  · exact hn hx.1.1
  · refine hn ⟨?_, State.pinOn_none.mp hx.2⟩
    have := hx.1.2
    simpa only [State.holdsOn, List.all_eq_true, List.mem_filter, beq_iff_eq, and_imp] using this

end Sys2Proof.Machine
end

