-- ==== Sys2Proof/Tests/Slice0.lean ====
section
/-! SUPPORT. Tests: the checks of WellFormed, worked examples of the spec, and for each statement with
hypotheses a concrete state and operands that meet them, clause by clause. -/

namespace Sys2Proof.Tests

set_option Elab.async false

open Sys2Proof Sys2Proof.Machine

/-! The checks of WellFormed. -/

/-- A bad request that is one of the ten after all. -/
theorem test_wf_station_request_is_not_bad :
    (Instr.stationBadRequest .p0 1 0x11 []).wf = false := by decide +kernel
/-- A body no station frame can carry. -/
theorem test_wf_station_body_too_long :
    (Instr.stationBadRequest .p0 1 0x99 (List.replicate 63 0)).wf = false := by decide +kernel
/-- A bad request that is one of the twenty-three after all. -/
theorem test_wf_supervisor_request_is_not_bad :
    (Instr.supervisorBadRequest 0x7F []).wf = false := by decide +kernel
/-- A body no supervisor frame can carry. -/
theorem test_wf_supervisor_body_too_long :
    (Instr.supervisorBadRequest 0x99 (List.replicate 61 0)).wf = false := by decide +kernel
/-- A row of fifteen fares. -/
theorem test_wf_row_has_sixteen_fares :
    (Instr.tariffRow 0 0 (List.replicate 15 0)).wf = false := by decide +kernel
/-- Hold id 0. -/
theorem test_wf_hold_id_zero : (Instr.holdExpiry 0).wf = false := by decide +kernel
/-- The table gives no row any bits. -/
theorem test_no_row_has_bits : decodeTableWord 8 0x11 = none := rfl

/-! Worked examples. -/

/-- The check value of this CRC over the digits 1 to 9, a published value. -/
theorem test_crc_check_value :
    crc [0x31, 0x32, 0x33, 0x34, 0x35, 0x36, 0x37, 0x38, 0x39] = 0x29B1#16 := by decide +kernel
/-- 05_tariffs 5.7, FARE 1 to FARE 6: base fare, cap and day spend today give the charge and CAPPED. -/
theorem test_charges_of_the_day :
    [capCharge 180 (some 500) 0, capCharge 180 (some 500) 180, capCharge 180 (some 500) 360,
      capCharge 180 (some 500) 500, capCharge 190 (some 600) 500, capCharge 190 (some 600) 0] =
    [(180, false), (180, false), (140, true), (0, true), (100, true), (190, false)] := by
  decide +kernel
/-- A packed field of ten digits (R51). -/
theorem test_key_digits : keyOf 0x0000020020 = 20020 ∧ keyB 20020 = [0x00, 0x00, 0x02, 0x00, 0x20] := by
  decide +kernel
/-- A signed balance is a sign byte and eight digits (R52). -/
theorem test_balance_bytes :
    balanceB (-80) = [1, 0, 0, 0, 0x80] ∧ balanceB 1640 = [0, 0, 0, 0x16, 0x40] := by
  decide +kernel
/-- After id 65535 comes id 1 (R77). -/
theorem test_id_wraps : nextIdAfter 65535 = 1 := rfl
/-- The oldest of four endings gives way to a fifth (R91). -/
theorem test_fifth_ending :
    (pushEnded [⟨1, .lapsed⟩, ⟨2, .lapsed⟩, ⟨3, .cancelled⟩, ⟨4, .lapsed⟩] ⟨5, .cancelled⟩).map (·.id) =
      [2, 3, 4, 5] := by decide +kernel

/-! Small states. -/

/-- An account whose key lies in bucket 0. -/
def acct (n : Nat) (st : AcctState) (balance : Int) : Account where
  key := 1021 * n
  state := st
  cls := 0
  balance := balance
  floor := 0
  daySpend := 0
  spendDay := 1
  validityEnd := none
  pass := none

/-- A part ready for requests that holds the given accounts in slots 0 and up, keys 1021, 2042 and on, all on
one chain; port 0 has selected slot 0 and every port holds every right. -/
def desk (accounts : List Account) : State :=
  { State.reset with
    ret := { State.reset.ret with
      accounts := accounts.map some
      chains := [List.range accounts.length]
      free := []
      params := { Params.default with rights := Four.all ⟨true, true, true⟩ }
      selector := some .bankA
      bankA := ⟨[[150, 9999]], List.replicate 8 (some 200), 1⟩
      bankB := ⟨[[150, 9999]], List.replicate 8 none, 0⟩
      activeGen := 1 }
    main := { Main.reset with
      sessions := (Four.all Session.reset).set .p0 { Session.reset with cursor := .sel 0 1021 } } }

/-- With another cursor at port 0. -/
def cursorAt (c : Cursor) (s : State) : State := s.setSession .p0 { s.session .p0 with cursor := c }
/-- With a pin of port p. -/
def pinAt (p : Port) (slot expiry : Nat) (s : State) : State :=
  s.setSession p { s.session p with pin := some ⟨slot, expiry⟩ }
/-- With these active holds. -/
def holding (l : List Hold) (s : State) : State := { s with main := { s.main with pool := l } }
/-- On another business day. -/
def onDay (d : Nat) (s : State) : State := { s with ret := { s.ret with day := d } }
/-- With these reply-cache entries of port 0. -/
def cachedAt (l : List CacheEntry) (s : State) : State :=
  { s with ret := { s.ret with caches := s.ret.caches.set .p0 l } }
/-- With these rights of every port. -/
def rightsAt (r : Rights) (s : State) : State :=
  { s with ret := { s.ret with params := { s.ret.params with rights := Four.all r } } }
/-- With a load in progress that has written these rows. -/
def loadingRows (l : List Nat) (s : State) : State :=
  { s with main := { s.main with loading := true, loaded := l } }
/-- With another account in slot 0. -/
def slot0 (a : Account) (s : State) : State :=
  { s with ret := { s.ret with accounts := s.ret.accounts.set 0 (some a) } }
/-- With station link 0 as given. -/
def linkAt (l : Link) (s : State) : State := s.setLink .p0 l
/-- A hold of port 0 on slot 0, due at the given second. -/
def hold0 (id amount expiry : Nat) : Hold := ⟨id, 0, .p0, amount, expiry⟩
/-- The event in its write phase that holds the area. -/
def heldBy (e : AreaEvent) (phase : Phase) (writes : List RetWrite) (s : State) : State :=
  { s with
    ret := { s.ret with staged := writes, completion := phase != .write }
    main := { s.main with holder := some ⟨e, phase, [], none⟩ } }

/-- Given the area by the event of a port whose request is answered so. -/
def answering (p : Port) (reply : Reply) (s : State) : State :=
  { s with main := { s.main with
      holder := s.main.holder.map fun h => { h with event := .station p, reply := some reply } } }
/-- With this request of port 0 in hand, its answer dropped by a session reset that found the cursor c. -/
def droppedAt (f : StationFrame) (c : Cursor) (s : State) : State :=
  (s.setSession .p0 { s.session .p0 with cursor := .none, inHand := some ⟨f, some c⟩ }).setLink .p0
    { s.link .p0 with outstanding := true }
/-- With these events waiting for the area. -/
def waitingFor (l : List AreaEvent) (s : State) : State :=
  { s with main := { s.main with waiting := l } }
/-- What a command leaves, read through a function. -/
def after {α : Type} (c : Instr) (s : State) (read : State → α) : Option α :=
  match exec c s with
  | .next t => some (read t)
  | _ => none

/-! Worked examples on them. -/

/-- 10_worked_sequences 10.1: the CAPTURE of 0 holds only the cache entry in the area. -/
theorem test_capture_of_zero_stages_the_cache_entry :
    after (.capture .p0 4 1 0 0) (holding [⟨1, 0, .p0, 300, 9⟩] (desk [acct 1 .opened 500]))
      (fun t => t.ret.staged.map fun w => match w with
        | .cache p l => some (p, l.map (·.seq))
        | _ => none) = some [some (.p0, [4])] := by decide +kernel
/-- A PIN that waits for the area at a BREAK sets its pin, and the pin end of the reset waits behind it (R150). -/
theorem test_waiting_pin_is_ended_behind_it :
    after (.breakReceived .p0)
      (waitingFor [.station .p0] ((desk [acct 1 .opened 500]).setSession .p0
        { Session.reset with cursor := .sel 0 1021, inHand := some ⟨⟨0, .pin⟩, none⟩ }))
      (fun t => (t.main.waiting, (t.session .p0).cursor, (t.session .p0).inHand)) =
    some ([.station .p0, .sessionPinEnd .p0], .none, some ⟨⟨0, .pin⟩, some (.sel 0 1021)⟩) := by
  decide +kernel
/-- A start byte received while SET PARAMETERS is in its apply phase is received at the new rate (R161, R175). -/
theorem test_start_byte_takes_the_new_rate :
    after (.stationCharacterReceived .p0 0xA5) (heldBy .supervisor (.apply 0) [.rate .p0 .r38400] (desk []))
      (fun t => (t.link .p0).rxRate) = some (some .r38400) := by decide +kernel
/-- A SET TERMS with CLASS 8, refused RANGE, gives the terms of its account as they stand (R21). -/
theorem test_refused_terms_stand :
    judgeSetTerms 0x1021 1 8 0 0 0 1 0 0 1 (desk [{ acct 1 .opened 500 with cls := 3, floor := 200 }]) =
      report .range ([3, 0x00, 0x02, 0x00] ++ [0, 0, 0] ++ [0, 0, 0, 0, 0]
        ++ [0, 0x00, 0x00, 0x00, 0x07, 0x00]) := by
  decide +kernel
/-- Of two requests that waited for the end of the check, the order alone decides which sees the other (R181,
R175): OPEN ACCOUNT, then SELECT of its key, finds the account. -/
theorem test_waiters_are_taken_in_their_order :
    let s : State := ((desk []).setLink .p0
      { Link.reset with pendingSlot := some ⟨0, .select 0x1021⟩ }).setSup { SupLink.reset with
        state := .requestPending
        request := some (.openAccount 0x1021 0 0 0 0 0 0 0 0 0) };
    let s := { s with ret := { s.ret with accounts := [none], chains := [[]], free := [0] } };
    ((([.supervisor, .port .p0] : List Waiter).foldl State.handWaiter s).session .p0).cursor = .sel 0 1021 ∧
    ((([.port .p0, .supervisor] : List Waiter).foldl State.handWaiter s).session .p0).cursor = .none := by
  decide +kernel
/-- A select period with a direction byte that is none (R191). -/
theorem test_no_direction : ((desk []).selectPeriod [0x04, 0x11]).main.sup.miso = [0xFF, 0xFF] := rfl

/-! Deciding the conditions of the statements. -/

theorem port_forall {P : Port → Prop} : (∀ q, P q) ↔ P .p0 ∧ P .p1 ∧ P .p2 ∧ P .p3 :=
  ⟨fun h => ⟨h _, h _, h _, h _⟩, fun ⟨a, b, c, d⟩ q => by cases q <;> assumption⟩

theorem areaFree_iff {s : State} : s.AreaFree ↔ s.running = true ∧ s.main.holder = none ∧
    s.main.waiting = [] ∧ s.ret.staged = [] ∧ s.ret.completion = false ∧ s.main.clockOwed = 0 :=
  ⟨fun h => ⟨h.1, h.2, h.3, h.4, h.5, h.6⟩, fun ⟨a, b, c, d, e, f⟩ => ⟨a, b, c, d, e, f⟩⟩

theorem stationReady_iff {s : State} {p : Port} : s.StationReady p ↔
    s.AreaFree ∧ (s.link p).outstanding = false :=
  ⟨fun h => ⟨h.1, h.2⟩, fun ⟨a, b⟩ => ⟨a, b⟩⟩

theorem supervisorReady_iff {s : State} : s.SupervisorReady ↔
    s.AreaFree ∧ s.main.sup.state ≠ .requestPending :=
  ⟨fun h => ⟨h.1, h.2⟩, fun ⟨a, b⟩ => ⟨a, b⟩⟩

theorem accepts_iff {s : State} {p : Port} {f : StationFrame} : s.Accepts p f ↔
    s.StationReady p ∧ s.cached p f.seq = none ∧
      f.req.permitted (s.ret.params.rights.get p) = true ∧ f.req.fieldRefusal = none :=
  ⟨fun h => ⟨h.1, h.2, h.3, h.4⟩, fun ⟨a, b, c, d⟩ => ⟨a, b, c, d⟩⟩

/-- The condition that answers are kept, as a Boolean. -/
def answersKept (s : State) : Bool :=
  (Port.all.all fun p =>
    (!s.areaEvents.contains (.station p) || (s.session p).inHand.isSome) &&
    ((s.session p).inHand.isNone || (s.link p).outstanding && (s.link p).tx.isNone) &&
    ((s.link p).tx.isNone || (s.link p).outstanding)) &&
  (!s.areaEvents.contains .supervisor || s.main.sup.request.isSome) &&
  (s.main.sup.request.isNone ||
    s.main.sup.state == .requestPending && s.main.sup.answer.isNone) &&
  decide (s.areaEvents.filter AreaEvent.isRequest).Nodup &&
  (s.main.holder.all fun h => h.reply.isSome == h.event.isRequest) &&
  (s.running || s.areaEvents.all fun e => !e.isRequest)

theorem answersKept_of {s : State} (h : answersKept s = true) : s.AnswersKept := by
  have hp : ∀ p, p ∈ Port.all := fun p => by cases p <;> decide
  simp only [answersKept, Bool.and_eq_true, List.all_eq_true, Bool.or_eq_true, Bool.not_eq_true',
    decide_eq_true_eq, Option.all_eq_true] at h
  obtain ⟨⟨⟨⟨⟨h1, h2⟩, h3⟩, h4⟩, h5⟩, h6⟩ := h
  refine ⟨fun p he => ?_, fun p hi => ?_, fun p ht => ?_, fun he => ?_, fun hr => ?_, h4,
    fun x hx => ?_, fun hr e he => ?_⟩
  · have := (h1 p (hp p)).1.1
    simp_all [Option.isSome_iff_ne_none]
  · have := (h1 p (hp p)).1.2
    simp_all
  · have := (h1 p (hp p)).2
    simp_all
  · simp_all [Option.isSome_iff_ne_none]
  · simp_all
  · have := h5 x hx
    rw [beq_iff_eq] at this
    rw [← this, Option.isSome_iff_ne_none]
  · rcases h6 with h6 | h6
    · rw [hr] at h6; cases h6
    · exact h6 e he

theorem pinnedBy_iff {s : State} {slot : Nat} {q : Port} : s.PinnedBy slot q ↔
    ((s.session q).pin.map (·.slot)) = some slot := by
  unfold State.PinnedBy
  cases (s.session q).pin <;> simp

/-! The conditions of the statements, met. -/

/-- An OPEN account of 500. -/
def open500 : Account := acct 1 .opened 500

theorem witness_StepRunsTheFrontCommand :
    ({ State.reset with pending := [.status, .wipe] } : State).pending = .status :: [.wipe] := rfl

theorem witness_NoAnswerBeforeTheChangeIsSafe :
    ((StationRequest.topUp 0x000100 0).wf = true ∧ (desk [open500]).StationReady .p0 ∧
      ∃ t, exec (.topUp .p0 1 0x000100 0) (desk [open500]) = .next t ∧
        t.main.holder.isSome = true) ∧
    (SupervisorRequest.dayRoll.wf = true ∧ (desk []).SupervisorReady ∧
      ∃ t, exec .dayRoll (desk []) = .next t ∧ t.main.holder.isSome = true) ∧
    (∀ ph ∈ [Phase.write, .mark, .apply 0, .clear],
      let s := answering .p0 ⟨⟨.ok, []⟩, false, false⟩ (heldBy .supervisor ph [.businessDay 2]
        ((linkAt { Link.reset with outstanding := true } (desk [])).setSession .p0
          { Session.reset with inHand := some ⟨⟨1, .balance⟩, none⟩ }));
      s.AnswersKept ∧ ∃ t, step s = .next t) := by
  refine ⟨⟨rfl, ?_, _, rfl, ?_⟩, ⟨rfl, ?_, _, rfl, ?_⟩, ?_⟩
  · simp only [stationReady_iff, areaFree_iff]
    decide +kernel
  · decide +kernel
  · simp only [supervisorReady_iff, areaFree_iff]
    decide +kernel
  · decide +kernel
  · intro ph hp
    refine ⟨answersKept_of ?_, _, rfl⟩
    revert ph
    decide +kernel

theorem witness_BadStationRequestIsAnsweredAndCached :
    (StationRequest.bad 0x10 (List.replicate 62 0)).wf = true ∧ (StationRequest.bad 0 []).wf = true ∧
      (desk []).StationReady .p0 := by
  simp only [stationReady_iff, areaFree_iff]
  decide +kernel

/-- A cached answer to sequence number 255. -/
def cached255 : CacheEntry := ⟨255, 0x11, ⟨.noSelection, []⟩, false⟩

theorem witness_CachedSequenceIsReplayedOrClashes :
    (cachedAt [cached255] (desk [])).StationReady .p0 ∧ (255 : Byte) ≠ 0 ∧ cached255.seq = 255 ∧
      (∀ x ∈ (cachedAt [cached255] (desk [])).ret.caches.get .p0, x.seq = 255 → x = cached255) ∧
      cached255 ∈ (cachedAt [cached255] (desk [])).ret.caches.get .p0 ∧
      cached255.code = StationRequest.balance.code ∧ cached255.code ≠ StationRequest.pin.code := by
  simp only [stationReady_iff, areaFree_iff]
  decide +kernel

theorem witness_MissingRightIsAnsweredNoRight :
    let s := rightsAt ⟨false, false, false⟩ (desk []);
    s.StationReady .p0 ∧ s.cached .p0 1 = none ∧ (s.ret.params.rights.get .p0).fare = false ∧
      (s.ret.params.rights.get .p0).hold = false ∧ (s.ret.params.rights.get .p0).topUp = false := by
  simp only [stationReady_iff, areaFree_iff]
  decide +kernel

/-- Requests with bad digits, one for each field of digits. -/
def badDigits : List StationRequest :=
  [.select 0xA, .hold 0xA00000 1 0, .capture 1 0x00000F 0, .topUp 0x0A0000 0]
/-- Requests with a field just out of range, one for each field. -/
def outOfRange : List StationRequest :=
  [.select 0, .fare 16 0 0, .fare 0 16 0, .fare 0 0 2, .hold 0 1 0, .hold 1 0 0, .hold 1 3601 0,
    .hold 1 1 2, .capture 0 1 0, .capture 1 1 2, .release 0, .topUp 0 0, .topUp 1 2]

theorem witness_StationFieldsAreChecked :
    (desk []).StationReady .p0 ∧ (desk []).cached .p0 1 = none ∧
      (∀ r ∈ badDigits, r.permitted ((desk []).ret.params.rights.get .p0) = true) ∧
      (digitsOk 10 (0xA : BitVec 40).toNat = false ∧ digitsOk 6 (0xA00000 : BitVec 24).toNat = false ∧
        digitsOk 6 (0x00000F : BitVec 24).toNat = false ∧
        digitsOk 6 (0x0A0000 : BitVec 24).toNat = false) ∧
      (∀ r ∈ outOfRange, r.permitted ((desk []).ret.params.rights.get .p0) = true) ∧
      digitsOk 6 (0 : BitVec 24).toNat = true ∧ digitsOk 6 (1 : BitVec 24).toNat = true ∧
      15 < (16 : Byte).toNat ∧ 1 < (2 : Byte).toNat ∧ 3600 < (3601 : BitVec 16).toNat := by
  simp only [stationReady_iff, areaFree_iff]
  decide +kernel

/-- One request of each kind that needs the cursor. -/
def cursorRequests : List StationRequest :=
  [.balance, .pin, .fare 0 0 0, .hold 1 1 0, .topUp 1 0]

theorem witness_CursorlessRequestIsRefused :
    (∀ r ∈ cursorRequests, (cursorAt .none (desk [])).Accepts .p0 ⟨1, r⟩) ∧
      ((cursorAt .none (desk [])).session .p0).cursor = .none ∧
    (∀ r ∈ cursorRequests, (cursorAt .gone (desk [])).Accepts .p0 ⟨1, r⟩) ∧
      ((cursorAt .gone (desk [])).session .p0).cursor = .gone := by
  simp only [accepts_iff, stationReady_iff, areaFree_iff]
  decide +kernel

/-- The same account, valid until day 1. -/
def until1 : Account := { open500 with validityEnd := some 1 }

theorem witness_SpendingIsRefusedInOrder :
    (∀ r ∈ [StationRequest.fare 0 0 0, .hold 1 1 0, .topUp 1 0],
      (let s := pinAt .p1 0 1 (desk [open500]);
        s.Accepts .p0 ⟨1, r⟩ ∧ (s.session .p0).cursor = .sel 0 1021 ∧ s.Live 0 open500 ∧
          s.PinnedBy 0 .p1 ∧ ∀ q', s.PinnedBy 0 q' → q' = .p1) ∧
      (let s := desk [acct 1 .suspended 500];
        s.Accepts .p0 ⟨1, r⟩ ∧ (s.session .p0).cursor = .sel 0 1021 ∧
          s.Live 0 (acct 1 .suspended 500) ∧ s.FreeFor .p0 0) ∧
      (let s := onDay 2 (desk [until1]);
        s.Accepts .p0 ⟨1, r⟩ ∧ (s.session .p0).cursor = .sel 0 1021 ∧ s.Live 0 until1 ∧
          s.FreeFor .p0 0 ∧ until1.state = .opened ∧ until1.validityEnd = some 1 ∧
          1 < s.ret.day)) := by
  simp only [List.forall_mem_cons, List.not_mem_nil, false_implies, implies_true,
    accepts_iff, stationReady_iff, areaFree_iff, State.FreeFor, pinnedBy_iff, port_forall,
    State.Live]
  and_intros <;> decide +kernel

theorem witness_TrialChangesNothing :
    (∀ r ∈ [StationRequest.fare 0 0 0, .fare 0 0 1, .hold 1 1 0, .hold 1 1 1, .capture 1 1 0,
      .capture 1 1 1, .topUp 1 0, .topUp 1 1], (desk [open500]).Accepts .p0 ⟨1, r⟩) := by
  simp only [accepts_iff, stationReady_iff, areaFree_iff]
  decide +kernel

theorem witness_SelectSetsTheCursor :
    (desk [open500]).Accepts .p0 ⟨1, .select 0x1021⟩ ∧
      (desk [open500]).lookup (keyOf 0x1021) = some 0 ∧ (desk [open500]).Live 0 open500 ∧
      (desk [open500]).Accepts .p0 ⟨1, .select 0x9999999999⟩ ∧
      (desk [open500]).lookup (keyOf 0x9999999999) = none := by
  simp only [accepts_iff, stationReady_iff, areaFree_iff, State.Live]
  decide +kernel

/-- A part with one account, in slot 0, a hold of port 0 on it and one cached answer; port 0 has selected and
pinned the account; DAY ROLL is next. -/
def oneKey : State :=
  { State.reset with
    pending := [.dayRoll]
    ret := { State.reset.ret with
      accounts := some open500 :: List.replicate 2047 none
      chains := [0] :: List.replicate 1020 []
      free := List.range' 1 2047
      floatTotal := 500
      caches := (Four.all []).set .p0 [cached255] }
    main := { Main.reset with
      sessions := (Four.all Session.reset).set .p0
        { Session.reset with cursor := .sel 0 1021, pin := some ⟨0, 9⟩ }
      pool := [hold0 1 300 9] } }

theorem oneKey_chain (b : Nat) : oneKey.ret.chains.getD b [] = if b = 0 then [0] else [] := by
  cases b with
  | zero => rfl
  | succ b =>
    show (List.replicate 1020 ([] : List Nat)).getD b [] = []
    rw [List.getD_eq_getElem?_getD, List.getElem?_replicate]
    split <;> rfl

theorem oneKey_slot? (i : Nat) : oneKey.ret.accounts[i]? =
    if i = 0 then some (some open500) else if i < 2048 then some none else none := by
  cases i with
  | zero => rfl
  | succ i =>
    show (List.replicate 2047 (none : Option Account))[i]? = _
    rw [List.getElem?_replicate]
    simp only [Nat.succ_ne_zero, if_false]
    split <;> split <;> first | rfl | omega

theorem oneKey_slot (i : Nat) :
    oneKey.ret.accounts.getD i none = if i = 0 then some open500 else none := by
  rw [List.getD_eq_getElem?_getD, oneKey_slot?]
  split
  · rfl
  · split <;> rfl

theorem oneKey_onChain (b i : Nat) : i ∈ oneKey.ret.chains.getD b [] ↔
    ∃ a, oneKey.ret.accounts.getD i none = some a ∧ bucketOf a.key = b := by
  have hb : bucketOf open500.key = 0 := by decide
  rw [oneKey_chain, oneKey_slot]
  by_cases hi : i = 0
  · simp only [hi, if_true, Option.some.injEq, exists_eq_left', hb]
    by_cases h0 : b = 0
    · simp [h0]
    · simp [h0, Ne.symm h0]
  · simp only [hi, if_false]
    split <;> simp [hi]

theorem oneKey_free (i : Nat) : i ∈ oneKey.ret.free ↔ oneKey.ret.accounts[i]? = some none := by
  rw [oneKey_slot?]
  show i ∈ List.range' 1 2047 ↔ _
  rw [List.mem_range'_1]
  split
  · simp_all
  · split <;> simp <;> omega

theorem oneKey_directory : oneKey.ret.Directory := by
  refine ⟨?_, ?_, oneKey_onChain, ?_, List.nodup_range', fun i h => (oneKey_free i).mp h⟩
  · show (List.replicate 1020 ([] : List Nat)).length + 1 = 1021
    rw [List.length_replicate]
  · intro b
    rw [oneKey_chain]
    split <;> simp
  · intro i j a b h1 h2 _
    rw [oneKey_slot] at h1 h2
    split at h1 <;> split at h2 <;> simp_all

theorem witness_LookupFindsTheLiveAccount :
    oneKey.ret.Directory ∧ oneKey.lookup 1021 = some 0 ∧ oneKey.lookup 2042 = none :=
  ⟨oneKey_directory, by decide +kernel, by decide +kernel⟩

theorem oneKey_keeps {P : Retained → Prop} (h : P oneKey.ret) : oneKey.Keeps P :=
  ⟨⟨fun _ => rfl, (fun _ h => nomatch h), fun _ _ _ _ => rfl, fun _ _ _ => rfl⟩,
    fun _ => ⟨fun _ => h, (fun h => nomatch h), (fun _ h => nomatch h), fun _ h => nomatch h⟩⟩

/-- The next step of that part stages the new business day. -/
theorem oneKey_step : ∃ t, step oneKey = .next t ∧ t.main.holder.isSome = true ∧
    t.ret.staged = [.businessDay 2] := ⟨_, rfl, rfl, rfl⟩

theorem witness_EveryStepKeepsTheLedger : oneKey.Keeps Retained.Ledger := by
  refine oneKey_keeps ⟨?_, ?_, List.nodup_range', oneKey_free⟩
  · show (List.replicate 2047 (none : Option Account)).length + 1 = 2048
    rw [List.length_replicate]
  · show (500 : Int) = (((some open500 :: List.replicate 2047 none).map
      fun x : Option Account => match x with
        | some a => a.balance
        | none => 0).sum)
    rw [List.map_cons, List.map_replicate, List.sum_cons, List.sum_replicate]
    decide

theorem witness_EveryStepKeepsTheDirectory : oneKey.Keeps Retained.Directory :=
  oneKey_keeps oneKey_directory

theorem oneKey_records : oneKey.Keeps Retained.Records := by
  refine oneKey_keeps ⟨by decide, by decide, ?_⟩
  intro i a h
  rw [oneKey_slot] at h
  split at h
  · cases h
    exact ⟨by decide, by decide, by decide, by decide, by decide, by decide, (fun _ h => nomatch h),
      fun _ h => nomatch h⟩
  · cases h

theorem oneKey_pinned {p : Port} {slot : Nat} (h : oneKey.main.Pinned p slot) : p = .p0 ∧ slot = 0 := by
  obtain ⟨e, h1, h2⟩ := h
  cases p with
  | p0 => cases h1; exact ⟨rfl, h2.symm⟩
  | p1 | p2 | p3 => cases h1

theorem oneKey_agree : Agree oneKey.ret oneKey.main := by
  have live : oneKey.ret.accounts.getD 0 none = some open500 := rfl
  refine ⟨?_, ?_, ?_, ?_, ?_, ?_⟩
  · intro i a h
    rw [oneKey_slot] at h
    split at h
    · next hi => cases h; subst hi; decide
    · cases h
  · intro h hh
    cases List.mem_singleton.mp hh
    exact ⟨_, live, nofun⟩
  · intro p slot h
    obtain ⟨_, rfl⟩ := oneKey_pinned h
    exact ⟨_, live, nofun⟩
  · intro p q slot h1 h2
    rw [(oneKey_pinned h1).1, (oneKey_pinned h2).1]
  · rintro p slot key (h | ⟨x, h, _⟩)
    · cases p with
      | p0 => cases h; exact ⟨_, live, rfl⟩
      | p1 | p2 | p3 => cases h
    · cases p <;> cases h
  · intro i a h hc
    rw [oneKey_slot] at h
    split at h
    · cases h; cases hc
    · cases h

theorem oneKey_agrees : oneKey.Agrees :=
  ⟨fun _ _ _ => rfl, (fun h => nomatch h), (fun _ h => nomatch h),
    (fun h => h.elim (fun h => nomatch h) fun h => nomatch h), fun _ _ => oneKey_agree,
    fun _ _ h => nomatch h⟩

theorem witness_EveryStepKeepsTheRecordsInRange :
    oneKey.Keeps Retained.Records ∧ oneKey.Agrees := ⟨oneKey_records, oneKey_agrees⟩

theorem witness_EveryStepKeepsTheReplyCaches : oneKey.Keeps Retained.ReplyCaches :=
  oneKey_keeps fun p => by cases p <;> decide

theorem oneKey_poolSound : oneKey.PoolSound := by
  have h : oneKey.main.PoolOk := by
    refine ⟨by decide, by decide, by decide, fun p => by cases p <;> decide, fun slot => ?_,
      by decide, fun p => by cases p <;> decide, fun p => by cases p <;> decide⟩
    exact le_trans (List.length_filter_le _ _) (by decide)
  exact ⟨h, h⟩

theorem witness_EveryStepKeepsTheHoldPool :
    oneKey.Keeps Retained.Directory ∧ oneKey.Keeps Retained.Records ∧ oneKey.PoolSound ∧ oneKey.Agrees :=
  ⟨oneKey_keeps oneKey_directory, oneKey_records, oneKey_poolSound, oneKey_agrees⟩

theorem witness_FramesCarryEveryField :
    (StationRequest.bad 0x10 (List.replicate 62 0)).wf = true ∧
      (SupervisorRequest.tariffRow 7 15 (List.replicate 16 0x9999)).wf = true := by
  decide +kernel

theorem witness_StationReadsChangeNothing :
    (desk [open500]).Accepts .p0 ⟨1, .balance⟩ ∧ (desk [open500]).Accepts .p0 ⟨1, .stationStatus⟩ ∧
      ((desk [open500]).session .p0).cursor = .sel 0 1021 ∧ (desk [open500]).Live 0 open500 := by
  simp only [accepts_iff, stationReady_iff, areaFree_iff, State.Live]
  decide +kernel

/-- Slot 1 CLOSING without a hold. -/
def closing2 : Account := acct 2 .closing 40

theorem witness_PinSetsRearmsOrMoves :
    let ready := fun (s : State) (a : Account) => s.Accepts .p0 ⟨1, .pin⟩ ∧
      (s.session .p0).cursor = .sel 0 1021 ∧ s.Live 0 a;
    (ready (pinAt .p1 0 1 (desk [open500])) open500 ∧
      (pinAt .p1 0 1 (desk [open500])).PinnedBy 0 .p1 ∧
      ∀ q', (pinAt .p1 0 1 (desk [open500])).PinnedBy 0 q' → q' = .p1) ∧
    (∀ st ∈ [AcctState.closing, .drained], ready (desk [acct 1 st 0]) (acct 1 st 0) ∧
      (desk [acct 1 st 0]).FreeFor .p0 0) ∧
    (∀ st ∈ [AcctState.opened, .suspended], ready (desk [acct 1 st 0]) (acct 1 st 0) ∧
      (desk [acct 1 st 0]).FreeFor .p0 0 ∧ ((desk [acct 1 st 0]).session .p0).pin = none) ∧
    (let s := pinAt .p0 0 5 (desk [open500]);
      ready s open500 ∧ s.FreeFor .p0 0 ∧ (s.session .p0).pin = some ⟨0, 5⟩) ∧
    (let s := pinAt .p0 1 5 (desk [open500, closing2]);
      ready s open500 ∧ s.FreeFor .p0 0 ∧ (s.session .p0).pin = some ⟨1, 5⟩ ∧ s.Live 1 closing2 ∧
        closing2.state = .closing ∧ ∀ h ∈ s.main.pool, h.slot ≠ 1) ∧
    (let s := holding [⟨7, 1, .p2, 10, 9⟩] (pinAt .p0 1 5 (desk [open500, closing2]));
      ready s open500 ∧ s.FreeFor .p0 0 ∧ (s.session .p0).pin = some ⟨1, 5⟩ ∧ s.Live 1 closing2 ∧
        ∃ h ∈ s.main.pool, h.slot = 1) := by
  simp only [accepts_iff, stationReady_iff, areaFree_iff, State.FreeFor, pinnedBy_iff, port_forall,
    State.Live]
  and_intros <;> decide +kernel

theorem witness_UnpinReleasesThePin :
    ((desk [open500]).Accepts .p0 ⟨1, .unpin⟩ ∧ ((desk [open500]).session .p0).pin = none) ∧
    (let s := pinAt .p0 1 5 (desk [open500, closing2]);
      s.Accepts .p0 ⟨1, .unpin⟩ ∧ (s.session .p0).pin = some ⟨1, 5⟩ ∧ s.Live 1 closing2 ∧
        closing2.state = .closing ∧ ∀ h ∈ s.main.pool, h.slot ≠ 1) ∧
    (let s := pinAt .p0 0 5 (desk [open500]);
      s.Accepts .p0 ⟨1, .unpin⟩ ∧ (s.session .p0).pin = some ⟨0, 5⟩ ∧ s.Live 0 open500 ∧
        open500.state ≠ .closing) := by
  simp only [accepts_iff, stationReady_iff, areaFree_iff, State.Live]
  decide +kernel

/-- An account 999,999 below the greatest balance. -/
def nearFull : Account := acct 1 .opened 99000000

theorem witness_TopUpAddsValue :
    let s := desk [nearFull];
    s.Accepts .p0 ⟨1, .topUp 0x999999 0⟩ ∧ (s.session .p0).cursor = .sel 0 1021 ∧ s.Live 0 nearFull ∧
      s.FreeFor .p0 0 ∧ nearFull.state = .opened ∧ nearFull.outOfValidity s.ret.day = false ∧
      nearFull.balance + amount6 0x999999 ≤ 99999999 ∧
    (let a := acct 1 .opened 99000001;
      (desk [a]).Accepts .p0 ⟨1, .topUp 0x999999 0⟩ ∧ (desk [a]).Live 0 a ∧ (desk [a]).FreeFor .p0 0 ∧
        a.outOfValidity (desk [a]).ret.day = false ∧ 99999999 < a.balance + amount6 0x999999) := by
  simp only [accepts_iff, stationReady_iff, areaFree_iff, State.FreeFor, pinnedBy_iff, port_forall,
    State.Live]
  decide +kernel

theorem witness_CreditAndDebitMoveValue :
    (desk [open500]).SupervisorReady ∧ keyDigits 0x1021 = true ∧ keyOf 0x1021 ≠ 0 ∧
      (desk [open500]).lookup (keyOf 0x1021) = some 0 ∧ (desk [open500]).Live 0 open500 ∧
      amount8Digits 0x99999499 = true ∧ amount8 0x99999499 ≠ 0 ∧
      open500.balance + amount8 0x99999499 ≤ 99999999 ∧
      amount8Digits 0x99999500 = true ∧ 99999999 < open500.balance + amount8 0x99999500 ∧
      amount8Digits 0x500 = true ∧ amount8 0x500 ≤ (desk [open500]).available 0 open500 ∧
      amount8Digits 0x501 = true ∧ (desk [open500]).available 0 open500 < amount8 0x501 := by
  simp only [supervisorReady_iff, areaFree_iff, State.Live]
  decide +kernel

theorem witness_HoldIdIsTheFirstUnused :
    let s := holding [hold0 65535 1 9] { desk [] with main := { (desk []).main with nextId := 65535 } };
    s.main.pool.length ≤ 384 ∧ 1 ≤ s.main.nextId ∧ s.main.nextId ≤ 65535 := by
  decide +kernel

theorem witness_HoldReserves :
    let s := desk [open500];
    s.Accepts .p0 ⟨1, .hold 0x500 3600 0⟩ ∧ (s.session .p0).cursor = .sel 0 1021 ∧ s.Live 0 open500 ∧
      s.FreeFor .p0 0 ∧ open500.state = .opened ∧ open500.outOfValidity s.ret.day = false ∧
      (s.main.pool.filter (·.slot == 0)).length < 4 ∧ amount6 0x500 ≤ s.available 0 open500 ∧
      s.main.pool.countP (·.owner == .p0) < 128 ∧ s.main.pool.length < 384 := by
  simp only [accepts_iff, stationReady_iff, areaFree_iff, State.FreeFor, pinnedBy_iff, port_forall,
    State.Live]
  decide +kernel

/-- A pool in which slot i of n holds one hold of port p. -/
def poolOf (n : Nat) (p : Port) : List Hold :=
  (List.range n).map fun i => ⟨i + 1, i + 1, p, 1, 9⟩

theorem witness_HoldLimitsAreCheckedInOrder :
    let ready := fun (s : State) => s.Accepts .p0 ⟨1, .hold 0x500 1 0⟩ ∧
      (s.session .p0).cursor = .sel 0 1021 ∧ s.Live 0 open500 ∧ s.FreeFor .p0 0 ∧
      open500.state = .opened ∧ open500.outOfValidity s.ret.day = false;
    let n := fun (s : State) => (s.main.pool.filter (·.slot == 0)).length;
    (let s := holding [hold0 1 1 9, hold0 2 1 9, hold0 3 1 9, hold0 4 1 9] (desk [open500]);
      ready s ∧ 4 ≤ n s) ∧
    (let s := holding [hold0 1 1 9] (desk [open500]);
      ready s ∧ n s < 4 ∧ s.available 0 open500 < amount6 0x500) ∧
    (let s := holding (poolOf 128 .p0) (desk [open500]);
      ready s ∧ n s < 4 ∧ amount6 0x500 ≤ s.available 0 open500 ∧
        128 ≤ s.main.pool.countP (·.owner == .p0)) ∧
    (let s := holding (poolOf 384 .p1) (desk [open500]);
      ready s ∧ n s < 4 ∧ amount6 0x500 ≤ s.available 0 open500 ∧
        s.main.pool.countP (·.owner == .p0) < 128 ∧ 384 ≤ s.main.pool.length) := by
  simp only [accepts_iff, stationReady_iff, areaFree_iff, State.FreeFor, pinnedBy_iff, port_forall,
    State.Live]
  and_intros <;> decide +kernel

/-- A CLOSING account in slot 0, with one hold or two. -/
def closing1 : Account := acct 1 .closing 500

theorem witness_CaptureSettlesTheHold :
    (let s := holding [hold0 1 300 9] (desk [closing1]);
      s.Accepts .p0 ⟨1, .capture 1 0x300 0⟩ ∧ s.findHold 1 = some (hold0 1 300 9) ∧
        s.Live 0 closing1 ∧ amount6 0x300 ≤ 300 ∧ closing1.state = .closing ∧
        s.LastHold (hold0 1 300 9)) ∧
    (let s := holding [hold0 1 300 9] (desk [open500]);
      s.Accepts .p0 ⟨1, .capture 1 0 0⟩ ∧ s.findHold 1 = some (hold0 1 300 9) ∧
        s.Live 0 open500 ∧ amount6 0 ≤ 300 ∧ open500.state ≠ .closing) ∧
    (let s := holding [hold0 1 300 9] (desk [open500]);
      s.Accepts .p0 ⟨0, .capture 1 0 0⟩ ∧ s.findHold 1 = some (hold0 1 300 9) ∧
        s.Live 0 open500 ∧ open500.state ≠ .closing) := by
  simp only [accepts_iff, stationReady_iff, areaFree_iff, State.LastHold, pinnedBy_iff, port_forall,
    State.Live]
  decide +kernel

theorem witness_ReleaseEndsTheHold :
    (let s := holding [hold0 1 300 9] (desk [closing1]);
      s.Accepts .p0 ⟨1, .release 1⟩ ∧ s.findHold 1 = some (hold0 1 300 9) ∧ s.Live 0 closing1 ∧
        closing1.state = .closing ∧ s.LastHold (hold0 1 300 9)) ∧
    (let s := holding [hold0 1 300 9, hold0 2 1 9] (desk [closing1]);
      s.Accepts .p0 ⟨1, .release 1⟩ ∧ s.findHold 1 = some (hold0 1 300 9) ∧ s.Live 0 closing1 ∧
        ¬ s.LastHold (hold0 1 300 9)) := by
  simp only [accepts_iff, stationReady_iff, areaFree_iff, State.LastHold, pinnedBy_iff, port_forall,
    State.Live]
  decide +kernel

/-- An ended-hold memory of port 0 with one ending of each reason. -/
def endings (s : State) : State :=
  { s with main := { s.main with ended := s.main.ended.set .p0 [⟨1, .lapsed⟩, ⟨2, .cancelled⟩] } }

theorem witness_HoldRequestsOfOtherHoldsAreRefused :
    (let s := endings (desk [open500]);
      s.Accepts .p0 ⟨1, .release 1⟩ ∧ s.findHold (1 : BitVec 16).toNat = none ∧
      s.Accepts .p0 ⟨1, .release 2⟩ ∧ s.findHold (2 : BitVec 16).toNat = none ∧
      s.Accepts .p0 ⟨1, .capture 65535 1 0⟩ ∧ s.findHold (65535 : BitVec 16).toNat = none ∧
      (s.main.ended.get .p0).find? (·.id == 1) = some ⟨1, .lapsed⟩ ∧
      (s.main.ended.get .p0).find? (·.id == 2) = some ⟨2, .cancelled⟩ ∧
      ∀ e ∈ s.main.ended.get .p0, e.id ≠ 65535) ∧
    (let s := holding [⟨3, 0, .p1, 10, 9⟩] (desk [open500]);
      s.Accepts .p0 ⟨1, .release 3⟩ ∧ s.findHold 3 = some ⟨3, 0, .p1, 10, 9⟩) ∧
    (let s := holding [hold0 3 10 9] (desk [open500]);
      s.Accepts .p0 ⟨1, .capture 3 0x11 0⟩ ∧ s.findHold 3 = some (hold0 3 10 9) ∧
        s.Live 0 open500 ∧ 10 < amount6 0x11) := by
  simp only [accepts_iff, stationReady_iff, areaFree_iff, State.Live]
  and_intros <;> decide +kernel

theorem witness_CancelHoldEndsAnyHold :
    (let s := holding [hold0 1 300 9] (desk [closing1]);
      s.SupervisorReady ∧ s.findHold 1 = some (hold0 1 300 9) ∧ s.Live 0 closing1 ∧
        s.LastHold (hold0 1 300 9)) ∧
    (let s := holding [hold0 1 300 9] (desk [open500]);
      s.SupervisorReady ∧ s.findHold 1 = some (hold0 1 300 9) ∧ s.Live 0 open500 ∧
        open500.state ≠ .closing) ∧
    (desk []).SupervisorReady ∧ (desk []).findHold 65535 = none := by
  simp only [supervisorReady_iff, areaFree_iff, State.LastHold, pinnedBy_iff, port_forall, State.Live]
  decide +kernel

/-- A pass for zones 0 and 1 until day 1. -/
def pass1 : Account := { open500 with pass := some ⟨3, 1⟩ }

theorem witness_FareChargesUnderTheCap :
    (let s := desk [open500];
      s.Accepts .p0 ⟨1, .fare 0 0 0⟩ ∧ (s.session .p0).cursor = .sel 0 1021 ∧ s.Live 0 open500 ∧
        s.FreeFor .p0 0 ∧ open500.state = .opened ∧ open500.outOfValidity s.ret.day = false ∧
        s.ret.selector = some .bankA ∧ open500.passCovers s.ret.day 0 0 = false ∧
        ((s.ret.bank .bankA).rows.getD 0 []).getD 0 9999 = 150 ∧ (150 : Nat) ≠ 9999 ∧
        (s.ret.bank .bankA).caps.getD 0 none = some 200 ∧ 150 = min 150 (200 - 0) ∧
        (150 : Int) ≤ s.available 0 open500) ∧
    (let a := { acct 1 .opened 50 with daySpend := 150 };
      let s := desk [a];
      s.Accepts .p0 ⟨1, .fare 0 0 0⟩ ∧ s.Live 0 a ∧ s.FreeFor .p0 0 ∧
        50 = min 150 (200 - 150) ∧ (50 : Int) ≤ s.available 0 a) ∧
    (let s := { desk [open500] with ret := { (desk [open500]).ret with selector := some .bankB } };
      s.Accepts .p0 ⟨1, .fare 0 0 0⟩ ∧ s.Live 0 open500 ∧ s.FreeFor .p0 0 ∧
        (s.ret.bank .bankB).caps.getD 0 none = none ∧ (150 : Int) ≤ s.available 0 open500) := by
  simp only [accepts_iff, stationReady_iff, areaFree_iff, State.FreeFor, pinnedBy_iff, port_forall,
    State.Live]
  and_intros <;> decide +kernel

theorem witness_CoveredFareIsFree :
    let s := desk [pass1];
    s.Accepts .p0 ⟨1, .fare 0 1 0⟩ ∧ (s.session .p0).cursor = .sel 0 1021 ∧ s.Live 0 pass1 ∧
      s.FreeFor .p0 0 ∧ pass1.state = .opened ∧ pass1.outOfValidity s.ret.day = false ∧
      s.ret.selector = some .bankA ∧ pass1.pass = some ⟨3, 1⟩ ∧
      (3 : BitVec 16).getLsbD 0 = true ∧ (3 : BitVec 16).getLsbD 1 = true ∧ s.ret.day ≤ 1 := by
  simp only [accepts_iff, stationReady_iff, areaFree_iff, State.FreeFor, pinnedBy_iff, port_forall,
    State.Live]
  decide +kernel

theorem witness_FareIsRefusedInOrder :
    let ready := fun (s : State) (a : Account) => s.Accepts .p0 ⟨1, .fare 0 0 0⟩ ∧
      s.Accepts .p0 ⟨1, .fare 0 1 0⟩ ∧ (s.session .p0).cursor = .sel 0 1021 ∧ s.Live 0 a ∧
      s.FreeFor .p0 0 ∧ a.state = .opened ∧ a.outOfValidity s.ret.day = false;
    (let s := { desk [open500] with ret := { (desk [open500]).ret with selector := none } };
      ready s open500 ∧ s.ret.selector = none) ∧
    (ready (desk [open500]) open500 ∧
      (((desk [open500]).ret.bank .bankA).rows.getD 0 []).getD 1 9999 = 9999) ∧
    (let a := acct 1 .opened 149;
      let s := { desk [a] with ret := { (desk [a]).ret with selector := some .bankB } };
      ready s a ∧ (s.ret.bank .bankB).caps.getD 0 none = none ∧ s.available 0 a < 150) ∧
    (let a := { acct 1 .opened 49 with daySpend := 150 };
      ready (desk [a]) a ∧ ((desk [a]).ret.bank .bankA).caps.getD 0 none = some 200 ∧
        (desk [a]).available 0 a < (min 150 (200 - 150) : Nat)) := by
  simp only [accepts_iff, stationReady_iff, areaFree_iff, State.FreeFor, pinnedBy_iff, port_forall,
    State.Live]
  and_intros <;> decide +kernel

theorem witness_TariffBeginOpensTheStandbyBank :
    (desk []).SupervisorReady ∧ ((desk []).ret.bank .bankA).caps.length = 8 ∧
      ((desk []).ret.bank .bankB).caps.length = 8 := by
  simp only [supervisorReady_iff, areaFree_iff]
  decide +kernel

theorem witness_TariffRowAndCapWriteTheStandbyBank :
    (∀ s ∈ [desk [], loadingRows [] (desk []), loadingRows [127] (desk [])], s.SupervisorReady) ∧
      (List.replicate 16 (0x9999 : BitVec 16)).length = 16 ∧
      (List.replicate 16 (0x9999 : BitVec 16)).all fareDigits = true ∧
      (7 : Byte).toNat * 16 + (15 : Byte).toNat ∈ (loadingRows [127] (desk [])).main.loaded ∧
      (0 : Byte).toNat * 16 + (0 : Byte).toNat ∉ (loadingRows [] (desk [])).main.loaded ∧
      (loadingRows [] (desk [])).main.loading = true ∧ (desk []).main.loading = false ∧
      amount6Digits 0x999999 = true := by
  simp only [supervisorReady_iff, areaFree_iff]
  decide +kernel

theorem witness_TariffCommitSwitchesBanks :
    (let s := loadingRows (List.range 128) (desk []);
      s.SupervisorReady ∧ s.main.loading = true ∧ 128 ≤ s.main.loaded.length) ∧
    (let s := loadingRows (List.range 127) (desk []);
      s.SupervisorReady ∧ s.main.loading = true ∧ s.main.loaded.length < 128) ∧
    (desk []).SupervisorReady ∧ (desk []).main.loading = false := by
  simp only [supervisorReady_iff, areaFree_iff]
  decide +kernel

theorem witness_OpenAccountTakesTheHeadOfTheFreeList :
    let s := { desk [open500] with ret := { (desk [open500]).ret with
      accounts := [some open500, none], free := [1] } };
    s.SupervisorReady ∧ (desk [open500]).SupervisorReady ∧
      keyDigits 0x1021 = true ∧ keyOf 0x1021 ≠ 0 ∧ keyDigits 0x9999999999 = true ∧
      keyOf 0x9999999999 ≠ 0 ∧
      amount8Digits 0x99999999 = true ∧ amount6Digits 0x999999 = true ∧ (7 : Byte).toNat ≤ 7 ∧
      ((1 : Byte) = 1 ∧ amount8 0 = 0) ∧ (65535 : BitVec 16) ≠ 0 ∧
      s.lookup (keyOf 0x1021) = some 0 ∧ (desk [open500]).lookup (keyOf 0x9999999999) = none ∧
      (desk [open500]).ret.free = [] ∧ s.lookup (keyOf 0x9999999999) = none ∧
      s.ret.free = 1 :: [] := by
  simp only [supervisorReady_iff, areaFree_iff]
  decide +kernel

/-- Balance 100 under a floor of 300, with 350 held. -/
def floored : State := holding [hold0 1 350 9] (desk [{ acct 1 .opened 100 with floor := 300 }])

theorem witness_SetTermsChangesTheTerms :
    let a := { acct 1 .opened 100 with floor := 300 };
    floored.SupervisorReady ∧ keyDigits 0x1021 = true ∧ amount6Digits 0x000250 = true ∧
      amount6Digits 0x000249 = true ∧ keyOf 0x1021 ≠ 0 ∧ floored.lookup (keyOf 0x1021) = some 0 ∧
      floored.Live 0 a ∧ a.state = .opened ∧
      (0 : Int) ≤ a.balance + amount6 0x000250 - floored.held 0 ∧
      amount6 0x000249 < a.floor ∧ a.balance + amount6 0x000249 - floored.held 0 < 0 ∧
    (desk [closing1]).SupervisorReady ∧ (desk [closing1]).lookup (keyOf 0x1021) = some 0 ∧
      (desk [closing1]).Live 0 closing1 ∧ closing1.state = .closing := by
  simp only [supervisorReady_iff, areaFree_iff, State.Live]
  decide +kernel

theorem witness_OneItemRequestsChangeOneItem :
    (∀ st ∈ [AcctState.opened, .suspended], (desk [acct 1 st 0]).SupervisorReady ∧
      (desk [acct 1 st 0]).lookup (keyOf 0x1021) = some 0 ∧ (desk [acct 1 st 0]).Live 0 (acct 1 st 0)) ∧
      keyDigits 0x1021 = true ∧ keyOf 0x1021 ≠ 0 ∧
      (onDay 65534 (desk [])).SupervisorReady ∧ (onDay 65534 (desk [])).ret.day ≠ 65535 ∧
      (onDay 65535 (desk [])).SupervisorReady ∧ (onDay 65535 (desk [])).ret.day = 65535 := by
  simp only [supervisorReady_iff, areaFree_iff, State.Live]
  decide +kernel

/-- The unclaimed total at the given value. -/
def unclaimedAt (n : Nat) (s : State) : State := { s with ret := { s.ret with unclaimed := n } }

theorem witness_RetireIsJudgedByTheFirstCase :
    keyDigits 0x1021 = true ∧ keyOf 0x1021 ≠ 0 ∧
    (∀ a ∈ [closing1, acct 1 .drained 1, acct 1 .drained (-1), acct 1 .opened (-1),
        acct 1 .suspended 1, open500],
      (unclaimedAt 999999999999 (desk [a])).SupervisorReady ∧
      (unclaimedAt 999999999999 (desk [a])).lookup (keyOf 0x1021) = some 0 ∧
      (unclaimedAt 999999999999 (desk [a])).Live 0 a ∧
      (unclaimedAt 999999999999 (desk [a])).main.pool = [] ∧
      (∀ q, ¬ (unclaimedAt 999999999999 (desk [a])).PinnedBy 0 q)) ∧
    ((999999999999 : Int) < (unclaimedAt 999999999999 (desk [open500])).ret.unclaimed + 1) ∧
    (let s := pinAt .p3 0 5 (desk [open500]);
      s.SupervisorReady ∧ s.lookup (keyOf 0x1021) = some 0 ∧ s.Live 0 open500 ∧ s.PinnedBy 0 .p3) := by
  simp only [supervisorReady_iff, areaFree_iff, State.Live, pinnedBy_iff, port_forall]
  decide +kernel

theorem witness_RetirementMoveFreesTheSlot :
    keyDigits 0x1021 = true ∧ keyOf 0x1021 ≠ 0 ∧
    ∀ a ∈ [open500, acct 1 .suspended 500, acct 1 .drained 500],
      let s := unclaimedAt 999999999499 (desk [a]);
      s.SupervisorReady ∧ s.lookup (keyOf 0x1021) = some 0 ∧ s.Live 0 a ∧ a.key = keyOf 0x1021 ∧
        0 ≤ a.balance ∧ s.ret.unclaimed + a.balance ≤ 999999999999 ∧
        (∀ h ∈ s.main.pool, h.slot ≠ 0) ∧ ∀ q, ¬ s.PinnedBy 0 q := by
  simp only [supervisorReady_iff, areaFree_iff, State.Live, pinnedBy_iff, port_forall]
  decide +kernel

theorem witness_EnumerateReportsOnePage :
    State.reset.SupervisorReady ∧ State.reset.ret.accounts.length = 2048 ∧
      (2048 : BitVec 16).toNat ≤ 2048 ∧ 1 ≤ (15 : Byte).toNat ∧ (15 : Byte).toNat ≤ 15 := by
  refine ⟨?_, List.length_replicate .., ?_⟩
  · simp only [supervisorReady_iff, areaFree_iff]
    decide +kernel
  · decide

theorem witness_SupervisorReadsReportAndChangeNothing :
    (desk [open500]).SupervisorReady ∧ keyDigits 0x1021 = true ∧ keyOf 0x1021 ≠ 0 ∧
      (desk [open500]).lookup (keyOf 0x1021) = some 0 ∧ (desk [open500]).Live 0 open500 ∧
      (desk [open500]).ret.selector = some .bankA ∧
      State.reset.SupervisorReady ∧ State.reset.ret.selector = none := by
  simp only [supervisorReady_iff, areaFree_iff, State.Live]
  decide +kernel

theorem witness_SetParametersWritesTheItemsMarkedSet :
    (desk []).SupervisorReady ∧ (1 ≤ (3600 : BitVec 16).toNat ∧ (3600 : BitVec 16).toNat ≤ 3600) ∧
      (1 ≤ (60 : Byte).toNat ∧ (60 : Byte).toNat ≤ 60) ∧
      (∀ p, (((Four.all (⟨1, 7, 1, 4⟩ : PortChange)).get p).rights.toNat ≤ 7 ∧
        ((Four.all (⟨1, 7, 1, 4⟩ : PortChange)).get p).rate.toNat ≤ 4)) ∧
      ¬ (3601 : BitVec 16).toNat ≤ 3600 := by
  simp only [supervisorReady_iff, areaFree_iff, port_forall]
  decide +kernel

theorem witness_WipeEmptiesTheInstallation : (desk [open500]).SupervisorReady := by
  simp only [supervisorReady_iff, areaFree_iff]
  decide +kernel

theorem witness_SupervisorFieldsAreChecked :
    (desk [open500]).SupervisorReady ∧ (SupervisorRequest.bad 0x10 (List.replicate 60 0)).wf = true ∧
      keyDigits 0xA = false ∧ keyDigits 0x9999999999 = true ∧ keyOf 0x9999999999 ≠ 0 ∧
      (desk [open500]).lookup (keyOf 0x9999999999) = none ∧ amount8Digits 0xA = false ∧
      amount8Digits 0x1 = true ∧ amount8 0x1 ≠ 0 ∧ amount6Digits 0xA = false ∧
      amount6Digits 0x1 = true ∧ fareDigits 0xA = false ∧ fareDigits 0x9999 = true ∧
      2048 < (2049 : BitVec 16).toNat ∧ 15 < (16 : Byte).toNat ∧ 7 < (8 : Byte).toNat ∧
      keyDigits 0x1021 = true ∧ keyOf 0x1021 ≠ 0 ∧ (desk [open500]).lookup (keyOf 0x1021) = some 0 ∧
      (desk [open500]).Live 0 open500 := by
  simp only [supervisorReady_iff, areaFree_iff, State.Live]
  decide +kernel

/-- The clock of a ready part at the given second, with the given count owed. -/
def clockAt (n owed : Nat) (s : State) : State :=
  { s with main := { s.main with clock := n, clockOwed := owed } }

/-- A top-up of 100 that holds the area. -/
def inArea (phase : Phase) : State :=
  heldBy .supervisor phase [.balance 0 600, .floatTotal 600] (desk [open500])

theorem due_iff {m : Main} {second : Nat} : m.Due second ↔ (∃ h ∈ m.pool, h.expiry = second) ∨
    ¬ ∀ p, (m.sessions.get p).pin.map (·.expiry) ≠ some second := by
  simp only [Main.Due, not_forall, not_not, Option.map_eq_some_iff]

theorem witness_HoldClockAdvancesOrIsDeferred :
    (let s := clockAt 4294967295 0 (desk [open500]);
      s.running = true ∧ s.main.holder = none ∧ ¬ s.main.Due s.main.clock ∧ s.main.clockOwed = 0) ∧
    (let s := clockAt 9 0 (holding [hold0 1 300 9] (desk [open500]));
      s.running = true ∧ s.main.holder = none ∧ s.main.Due s.main.clock) ∧
    (inArea (.apply 1)).running = true ∧
    (∀ a ∈ [open500, closing1],
      let s := clockAt 9 5 (holding [hold0 1 300 9] (desk [a]));
      s.running = true ∧ s.main.holder = none ∧ s.findHold 1 = some (hold0 1 300 9) ∧
        (hold0 1 300 9).expiry = s.main.clock ∧ s.Live 0 a ∧ s.LastHold (hold0 1 300 9) ∧
        s.main.waiting = [] ∧ s.ret.staged = [] ∧ s.ret.completion = false) ∧
    (∀ a ∈ [open500, closing1],
      let s := clockAt 9 5 (pinAt .p1 0 9 (desk [a]));
      s.running = true ∧ s.main.holder = none ∧ (s.session .p1).pin = some ⟨0, 9⟩ ∧ s.main.clock = 9 ∧
        s.Live 0 a ∧ (∀ h ∈ s.main.pool, h.slot ≠ 0) ∧ s.main.waiting = [] ∧ s.ret.staged = [] ∧
        s.ret.completion = false) ∧
    open500.state ≠ .closing ∧ closing1.state = .closing := by
  simp only [due_iff, State.LastHold, pinnedBy_iff, port_forall, State.Live]
  decide +kernel

theorem witness_ExpiriesEndHoldsAndPins :
    (let s := clockAt 9 0 (holding [hold0 1 300 9] (desk [closing1]));
      s.AreaFree ∧ s.findHold 1 = some (hold0 1 300 9) ∧ s.Live 0 closing1 ∧
        (hold0 1 300 9).expiry = s.main.clock ∧ s.LastHold (hold0 1 300 9)) ∧
    (let s := clockAt 9 0 (holding [hold0 1 300 9] (desk [open500]));
      s.AreaFree ∧ s.findHold 1 = some (hold0 1 300 9) ∧ s.Live 0 open500 ∧
        (hold0 1 300 9).expiry = s.main.clock ∧ open500.state ≠ .closing) ∧
    (let s := clockAt 8 0 (holding [hold0 1 300 9] (desk [open500]));
      s.AreaFree ∧ s.findHold 1 = some (hold0 1 300 9) ∧ (hold0 1 300 9).expiry ≠ s.main.clock) ∧
    (let s := clockAt 9 0 (pinAt .p1 0 9 (desk [closing1]));
      s.AreaFree ∧ (s.session .p1).pin = some ⟨0, 9⟩ ∧ s.Live 0 closing1 ∧
        ∀ h ∈ s.main.pool, h.slot ≠ 0) ∧
    (let s := clockAt 9 0 (pinAt .p1 0 9 (desk [open500]));
      s.AreaFree ∧ (s.session .p1).pin = some ⟨0, 9⟩ ∧ s.Live 0 open500) ∧
    (desk []).AreaFree ∧ (desk []).findHold 1 = none ∧ ((desk []).session .p0).pin = none := by
  simp only [areaFree_iff, State.LastHold, pinnedBy_iff, port_forall, State.Live]
  and_intros <;> decide +kernel

/-- A TOP-UP of port 0 in hand, its answer dropped. -/
def droppedTopUp (s : State) : State := droppedAt ⟨1, .topUp 0x100 0⟩ (.sel 0 1021) s

/-- The state the holder's change leaves when nothing waits for the area. -/
def endedAlone (s : State) : Option State := after .stagedChangeComplete (waitingFor [] s) id

theorem witness_BreakResetsTheSession :
    ((linkAt { Link.reset with lineLow := true } (desk [])).link .p0).lineLow = true ∧
    (∀ s ∈ [desk [open500], inArea .write, inArea .mark, { desk [] with check := some .settle }],
      s.powered = true ∧ (s.link .p0).lineLow = false ∧ s.main.waiting = [] ∧
        ((if s.check = none then s.finishApply else s).session .p0).pin = none) ∧
    (let s := pinAt .p0 0 5 (inArea .write);
      s.powered = true ∧ (s.link .p0).lineLow = false ∧ (s.finishApply.session .p0).pin ≠ none ∧
        .sessionPinEnd .p0 ∉ s.main.waiting) ∧
    (let s := waitingFor [.sessionPinEnd .p0] (pinAt .p0 0 5 (inArea .write));
      s.powered = true ∧ (s.link .p0).lineLow = false ∧ (s.finishApply.session .p0).pin ≠ none ∧
        .sessionPinEnd .p0 ∈ s.main.waiting ∧ .station .p0 ∉ s.main.waiting ∧
        s.main.holder ≠ none) ∧
    (∀ behind ∈ [[], [.supervisor], [.sessionPinEnd .p0]],
      let s := waitingFor (.sessionPinEnd .p0 :: .station .p0 :: behind) ((inArea .write).setSession .p0
        { Session.reset with cursor := .sel 0 1021, inHand := some ⟨⟨0, .pin⟩, none⟩ });
      s.powered = true ∧ (s.link .p0).lineLow = false ∧
        s.main.waiting = [.sessionPinEnd .p0] ++ .station .p0 :: behind ∧
        .station .p0 ∉ [AreaEvent.sessionPinEnd .p0] ∧
        (s.finishApply.session .p0).inHand = some ⟨⟨0, .pin⟩, none⟩) ∧
    (desk []).AreaFree ∧ ((desk []).session .p0).pin = none ∧
    (∀ a ∈ [closing1, open500],
      let s := pinAt .p0 0 5 (desk [a]);
      s.AreaFree ∧ (s.session .p0).pin = some ⟨0, 5⟩ ∧ s.Live 0 a ∧
        ∀ h ∈ s.main.pool, h.slot ≠ 0) ∧
    (∀ g ∈ [none, some ⟨2, .balance⟩],
      let s := answering .p0 ⟨⟨.ok, []⟩, false, false⟩ (droppedTopUp
        (linkAt { Link.reset with pendingSlot := g } (inArea .write)));
      s.running = true ∧ s.main.holder.map (·.event) = some (.station .p0) ∧
        s.main.holder.map (·.reply) = some (some ⟨⟨.ok, []⟩, false, false⟩) ∧
        (s.session .p0).inHand = some ⟨⟨1, .topUp 0x100 0⟩, some (.sel 0 1021)⟩ ∧
        s.main.waiting = [] ∧ s.main.clockOwed = 0 ∧ (s.link .p0).pendingSlot = g) ∧
    (∀ s ∈ [inArea .write, inArea .mark, inArea .clear],
      let s := waitingFor [.station .p0] (droppedTopUp s);
      s.running = true ∧ s.main.holder.map (·.event) = some .supervisor ∧
        (s.link .p0).pendingSlot = none ∧ (StationRequest.topUp 0x100 0).wf = true ∧
        (endedAlone s).map (fun f => ((f.session .p0).inHand, f.main.clockOwed)) =
          some (some ⟨⟨1, .topUp 0x100 0⟩, some (.sel 0 1021)⟩, 0)) := by
  simp only [areaFree_iff, State.Live]
  and_intros <;> decide +kernel

theorem witness_dropped_request_is_done :
    ∃ u, Done (.topUp .p0 1 0x100 0) (desk [open500]) u ∧ u.account? 0 = some (acct 1 .opened 600) :=
  ⟨_, ⟨_, rfl, rfl⟩, by decide +kernel⟩

theorem witness_BrokenFramesAreDiscarded :
    (desk []).powered = true ∧ ((desk []).link .p0).rx = .hunt ∧
      (linkAt { Link.reset with rx := .check } (desk [])).powered = true ∧
      ((linkAt { Link.reset with rx := .check } (desk [])).link .p0).rx ≠ .hunt := by
  decide +kernel

theorem witness_CharactersOfAFrameMakeTheRequest :
    ((desk []).link .p0).rx = .hunt ∧ ((desk []).link .p0).buffer = [] ∧
      ((desk []).link .p0).rxRate = none ∧ ((desk []).link .p0).lineLow = false ∧
      (StationRequest.bad 0x99 (List.replicate 62 0)).wf = true ∧
      [0, 0] ≠ crcBytes [2, 1, 0x11] ∧ (64 : Byte).toNat < 65 := by
  decide +kernel

/-- A station link that sends an answer. -/
def sending : Link :=
  { Link.reset with
    outstanding := true
    tx := some ⟨⟨1, 0x11, ⟨.ok, []⟩, false, false, false, false⟩, .r19200⟩ }

theorem witness_OutstandingHoldsTheNextFrame :
    (let s := linkAt sending (desk []);
      s.powered = true ∧ (s.link .p0).outstanding = true ∧ (s.link .p0).pendingSlot = none ∧
        s.check = none ∧ s.main.waiting = [] ∧ (s.link .p0).tx ≠ none) ∧
    (let s := linkAt { sending with pendingSlot := some ⟨2, .balance⟩ } (desk []);
      s.powered = true ∧ (s.link .p0).outstanding = true ∧
        (s.link .p0).pendingSlot = some ⟨2, .balance⟩ ∧ s.check = none ∧ s.main.waiting = [] ∧
        (s.link .p0).tx ≠ none) ∧
    (sending.tx.map (·.frame.bytes[0]?)) = some (some 0x5A) ∧
    (({ desk [] with check := some .settle } : State).powered = true) ∧
    (desk []).powered = true ∧ ((desk []).link .p0).tx = none := by
  decide +kernel

theorem witness_WritePeriodsAreJudged :
    (SupervisorRequest.bad 0x99 (List.replicate 60 0)).wf = true ∧ (desk []).powered = true ∧
      (desk []).main.sup.state ≠ .requestPending ∧
      ((desk []).setSup { SupLink.reset with state := .requestPending }).main.sup.state =
        .requestPending ∧
      ((61 : Byte).toNat + 2 = (List.replicate 63 (0 : Byte)).length) ∧
      ([0, 0, 0] : List Byte).length = (1 : Byte).toNat + 2 ∧
      ([0, 0, 0] : List Byte).drop 1 ≠ crcBytes (1 :: ([0, 0, 0] : List Byte).take 1) := by
  decide +kernel

theorem witness_ReadPeriodsChangeNothing :
    (desk []).powered = true ∧ (desk []).main.sup.state = .idle ∧
      ((desk []).setSup { SupLink.reset with state := .requestPending }).powered = true ∧
      (let s := (desk []).setSup
          { SupLink.reset with state := .answerReady, answer := some ⟨0x70, ⟨.ok, []⟩⟩ };
        s.powered = true ∧ s.main.sup.state = .answerReady ∧
          s.main.sup.answer = some ⟨0x70, ⟨.ok, []⟩⟩) ∧
      ∀ ph ∈ [Phase.write, .mark, .apply 1, .clear],
        (inArea ph).powered = true ∧ (inArea ph).main.holder.map (·.phase) = some ph ∧
          ∀ c ∈ [Check.settle, .drains 0, .cold, .coldMark, .complete],
            ({ inArea ph with check := some c } : State).powered = true := by
  decide +kernel

/-- 08_retention_and_start_up 8.3 (R175), 09_links_and_frames 9.10 (R193): a READ LINK STATUS before the completion mark of a
CLEAR BACKUP FLAG reads BACKUP LOST set, and one in its apply phase reads it clear. -/
theorem test_link_status_is_read_after_the_apply_phase :
    [Phase.write, .mark, .apply 0].map (fun ph =>
      let s := desk []
      let lost : State := { s with ret := { s.ret with backupLost := true } }
      after (.readLinkStatus 2) (heldBy .supervisor ph [.backupLost false] lost) (·.main.sup.miso)) =
    [some [0xFF, 0x00, 0x03], some [0xFF, 0x00, 0x00], some [0xFF, 0x00, 0x00]] := by
  decide +kernel

/-- 08_retention_and_start_up 8.4: the links meet the start-up check through the state it leaves. BACKUP LOST of a cut CLEAR
BACKUP FLAG reads clear with the mark set and set with the mark clear; at a cold start it reads set, and the rate is
19200 (log 33). -/
theorem test_links_read_what_the_check_leaves :
    let cut (mark lost : Bool) (c : Check) : State := { desk [] with
      ret := { (desk []).ret with
        staged := [.backupLost false]
        completion := mark
        backupLost := lost
        params := { Params.default with rates := Four.all .r38400 } }
      check := some c }
    [cut true true .settle, cut false true .settle, cut true false .cold].map (fun s =>
      (after (.readLinkStatus 2) s (·.main.sup.miso),
        after (.stationCharacterReceived .p0 0xA5) s fun t => (t.link .p0).rxRate)) =
    [(some [0xFF, 0x00, 0x00], some (some .r38400)), (some [0xFF, 0x00, 0x02], some (some .r38400)),
      (some [0xFF, 0x00, 0x02], some (some .r19200))] := by
  decide +kernel

/-- Every combination of VDD, VBAT and RESET_N. -/
theorem witness_SuppliesAndResetStopAndStart :
    ∀ x ∈ [true, false], ∀ y ∈ [true, false], ∀ z ∈ [true, false],
      ({ desk [] with vdd := x, vbat := y, resetLow := z } : State).vdd = x ∧
      ({ desk [] with vdd := x, vbat := y, resetLow := z } : State).vbat = y ∧
      ({ desk [] with vdd := x, vbat := y, resetLow := z } : State).resetLow = z := by
  decide +kernel

theorem witness_StartUpCheckEndsWarmOrCold :
    (∀ c ∈ [Check.settle, .cold],
      ({ desk [] with check := some c } : State).powered = true ∧
        ({ desk [] with check := some c } : State).main.waiting = [] ∧
        (∀ p, (({ desk [] with check := some c } : State).link p).pendingSlot = none) ∧
        ({ desk [] with check := some c } : State).main.sup.request = none) ∧
    (let s := linkAt { Link.reset with pendingSlot := some ⟨1, .balance⟩ }
        { desk [] with check := some .settle };
      s.powered = true ∧ (s.link .p0).pendingSlot = some ⟨1, .balance⟩ ∧
        (s.link .p0).outstanding = false ∧
        (∀ q, q ≠ .p0 → (s.link q).pendingSlot = none) ∧ s.main.sup.request = none) ∧
    (desk []).powered = true ∧ (desk []).check = none := by
  simp only [port_forall]
  decide +kernel

theorem witness_CutChangesAreWholeOrAbsent :
    ∀ s ∈ [inArea .write, inArea .mark, inArea (.apply 1), inArea .clear],
      s.powered = true ∧ s.ret.mark = true ∧ s.vbat = true := by
  decide +kernel

theorem witness_StagedChangeEndsTheSameFromEveryPhase :
    ∀ s ∈ [inArea .write, inArea .mark, inArea (.apply 1), inArea .clear],
      s.pending = [] ∧ s.running = true ∧ s.main.holder.isSome = true ∧ s.main.waiting = [] ∧
        s.main.clockOwed = 0 ∧ s.main.holder.map (·.reply) = some none := by
  decide +kernel

theorem witness_HeldAreaMakesRequestsWait :
    ∀ ph ∈ [Phase.write, .mark, .apply 1, .clear],
      let s := cachedAt [cached255] (inArea ph);
      s.running = true ∧ s.main.holder = some ⟨.supervisor, ph, [], none⟩ ∧
        (s.link .p0).outstanding = false ∧ s.main.sup.state ≠ .requestPending ∧
        (∀ x ∈ [s, s.finishApply], x.cached .p0 1 = none ∧ x.cached .p0 255 = some cached255) ∧
        cached255.code = StationRequest.balance.code ∧ cached255.code ≠ StationRequest.pin.code ∧
        (StationRequest.bad 0x99 []).wf = true := by
  decide +kernel

/-- With a RETIRE of the supervisor pending. -/
def retireWaits (s : State) : State := s.setSup
  { state := .requestPending
    requestBuffer := (SupervisorRequest.retire 0x1021).bytes
    request := some (.retire 0x1021)
    answer := none
    miso := List.replicate ((SupervisorRequest.retire 0x1021).bytes.length + 1) 0xFF }

/-- Waiting behind the holder's change: a PIN of port 0, the RETIRE of the supervisor, the expiry of a hold and of a
pin, and the pin end of a session reset. -/
def waitingStates (phase : Phase) : List State :=
  let pinned := pinAt .p0 0 0 (inArea phase)
  [waitingFor [.station .p0] ((pinned.setSession .p0
      { pinned.session .p0 with inHand := some ⟨⟨1, .pin⟩, none⟩ }).setLink .p0
        { Link.reset with outstanding := true }),
    waitingFor [.supervisor] (retireWaits (answering .p0 ⟨⟨.ok, []⟩, false, false⟩ (inArea phase))),
    waitingFor [.holdExpiry 1] (holding [hold0 1 50 0] pinned),
    waitingFor [.pinExpiry .p0] pinned,
    waitingFor [.sessionPinEnd .p0] pinned]

theorem witness_waiting_events_are_given_the_area :
    ∀ ph ∈ [Phase.write, .mark, .apply 1, .clear],
      (∀ s ∈ waitingStates ph, s.running = true ∧ s.main.holder ≠ none ∧
        (∀ q, (s.link q).pendingSlot = none) ∧ (endedAlone s).isSome = true) ∧
      ((waitingStates ph).map fun s => (s.main.waiting, s.main.holder.map (·.event))) =
        [([.station .p0], some .supervisor), ([.supervisor], some (.station .p0)),
          ([.holdExpiry (1 : BitVec 16).toNat], some .supervisor),
          ([.pinExpiry .p0], some .supervisor), ([.sessionPinEnd .p0], some .supervisor)] ∧
      ((waitingStates ph).map fun s => ((s.session .p0).inHand, (s.link .p0).outstanding)).head? =
        some (some ⟨⟨1, .pin⟩, none⟩, true) ∧
      (SupervisorRequest.retire 0x1021).wf = true ∧
      (waitingStates ph)[1]?.map (·.main.sup) = some (retireWaits State.reset).main.sup := by
  simp only [port_forall]
  decide +kernel

/-- The first waiting event holds the area when its account is CLOSING, and stages nothing when it is
OPEN. -/
theorem witness_area_passes_on_in_order :
    [closing1, open500].map (fun a =>
      let s := waitingFor [.sessionPinEnd .p0]
        (pinAt .p0 0 5 (heldBy .supervisor .write [.floatTotal 600] (desk [a])))
      after .stagedChangeComplete s fun t => t.main.holder.map (·.event)) =
    [some (some (.sessionPinEnd .p0)), some none] := by
  decide +kernel

end Sys2Proof.Tests
end

section
/-! PROOFS. Tariffs and fares: the charge of a FARE and what it records, and what the load requests make of
the standby bank. -/

namespace Sys2Proof.Machine

/-! FARE (R114 to R120). -/

/-- With no other port's pin, an OPEN account within validity passes steps 2 to 4 (R115). -/
theorem State.spendRefusal_none {s : State} {p : Port} {slot : Nat} {a : Account}
    (hp : s.FreeFor p slot) (ho : a.state = .opened) (hv : a.outOfValidity s.ret.day = false) :
    s.spendRefusal p slot a = none := by
  simp [State.spendRefusal, State.pinnedByOther_none hp, ho, hv]

/-- CAPPED is set exactly when the charge is below the base fare (R118). -/
theorem capCharge_eq {base charge spendToday : Nat} {cap : Option Nat}
    (h : cap = none ∧ charge = base ∨ ∃ c, cap = some c ∧ charge = min base (c - spendToday)) :
    capCharge base cap spendToday = (charge, decide (charge < base)) := by
  obtain ⟨rfl, rfl⟩ | ⟨c, rfl, rfl⟩ := h
  · simp [capCharge]
  · rfl

/-- A FARE that no pass covers, on a route and with the funds, is answered with the charge under the cap
and records it (R115 to R119). -/
theorem judgeFare_charged {s : State} {p : Port} {entryZone exitZone slot key charge : Nat}
    {a : Account} {b : BankId} (hc : (s.session p).cursor = .sel slot key) (hl : s.Live slot a)
    (hs : s.spendRefusal p slot a = none) (hb : s.ret.selector = some b)
    (hn : a.passCovers s.ret.day entryZone exitZone = false)
    (hr : (s.ret.bank b).entry a.cls entryZone exitZone ≠ Config.noRoute)
    (hcap : (s.ret.bank b).cap a.cls = none ∧ charge = (s.ret.bank b).entry a.cls entryZone exitZone ∨
      ∃ c, (s.ret.bank b).cap a.cls = some c ∧
        charge = min ((s.ret.bank b).entry a.cls entryZone exitZone) (c - a.spendToday s.ret.day))
    (hf : (charge : Int) ≤ s.available slot a) :
    judgeFare p entryZone exitZone false s =
      ⟨⟨.ok, fareBody key ((s.ret.bank b).entry a.cls entryZone exitZone) charge false
          (decide (charge < (s.ret.bank b).entry a.cls entryZone exitZone)) (a.balance - charge)
          (s.available slot a - charge) s.ret.activeGen⟩,
        s.fareWrites slot a charge, []⟩ := by
  have hfunds : ¬ s.available slot a < (charge : Int) := by omega
  simp [judgeFare, State.cursorAccount_set hc hl, hs, hb, hn, hr, capCharge_eq hcap, hfunds]

/-- Changing a record just written, with the float total moved beside it, writes the changed record. -/
theorem Retained.mapAccount_written {r : Retained} {slot : Nat} {a : Account}
    (h : r.accounts.getD slot none = some a) (x : Account) (total : Int) (f : Account → Account) :
    ({ r with accounts := r.accounts.set slot (some x), floatTotal := total } : Retained).mapAccount
        slot f =
      { r with accounts := r.accounts.set slot (some (f x)), floatTotal := total } := by
  rw [Retained.mapAccount_live (getD_set_self h), List.set_set]

/-- What a charged FARE records comes to (R119). -/
theorem applyRets_fareWrites {s : State} {slot : Nat} {a : Account} (h : s.Live slot a)
    (charge : Nat) :
    applyRets (s.fareWrites slot a charge) s.ret =
      { s.ret with
        accounts := s.ret.accounts.set slot (some { a with
          balance := a.balance - charge
          daySpend := min (a.spendToday s.ret.day + charge) Config.maxDaySpend
          spendDay := s.ret.day })
        floatTotal := s.ret.floatTotal - charge } := by
  simp only [State.fareWrites, applyRets_append, applyRets_balanceEvent h, applyRets_cons,
    applyRets_nil, applyRet, Retained.mapAccount_written h, Int.sub_eq_add_neg]

/-! The contents of a bank. -/

/-- Two changes of one bank are one. -/
theorem Retained.mapBank_mapBank (r : Retained) (b : BankId) (f g : Bank → Bank) :
    (r.mapBank b f).mapBank b g = r.mapBank b fun k => g (f k) := by
  cases b <;> rfl

/-- Changes that agree on a bank's contents make the same of it. -/
theorem Retained.mapBank_congr {r : Retained} {b : BankId} {f g : Bank → Bank}
    (h : f (r.bank b) = g (r.bank b)) : r.mapBank b f = r.mapBank b g := by
  cases b <;> simpa [Retained.mapBank, Retained.bank] using h

/-- Caps recorded absent one after another. -/
theorem applyRets_classCap_none (b : BankId) (classes : List Nat) (r : Retained) :
    applyRets (classes.map fun c => RetWrite.classCap b c none) r =
      r.mapBank b fun k =>
        { k with caps := classes.foldl (fun caps c => caps.set c none) k.caps } := by
  induction classes generalizing r with
  | nil => cases b <;> rfl
  | cons c cs ih =>
    rw [List.map_cons, applyRets_cons, ih, applyRet, Retained.mapBank_mapBank]
    rfl

/-- Removing the first n entries of a list of caps one by one. -/
theorem foldl_range_set_none (caps : List (Option Nat)) (n : Nat) (h : n ≤ caps.length) :
    (List.range n).foldl (fun l c => l.set c none) caps = List.replicate n none ++ caps.drop n := by
  induction n with
  | zero => rfl
  | succ n ih =>
    have hd : (caps.drop n).set 0 none = none :: caps.drop (n + 1) := by
      rw [List.drop_eq_getElem_cons h, List.set_cons_zero]
    rw [List.range_succ, List.foldl_append, ih (by omega), List.replicate_succ']
    simp [hd]

/-! The load requests (R104 to R113). -/

/-- What TARIFF BEGIN records: all eight caps of the bank absent and its BANK GENERATION 0 (R105). -/
theorem applyRets_tariffBegin {r : Retained} {b : BankId} (h : (r.bank b).caps.length = 8) :
    applyRets ((List.range 8).map (fun c => RetWrite.classCap b c none) ++ [.bankGen b 0]) r =
      r.mapBank b fun k => { k with caps := List.replicate 8 none, gen := 0 } := by
  have hcaps : (List.range 8).foldl (fun l c => l.set c none) (r.bank b).caps =
      List.replicate 8 none := by
    rw [foldl_range_set_none _ 8 (by omega), List.drop_of_length_le (by omega), List.append_nil]
  rw [applyRets_append, applyRets_classCap_none, applyRets_cons, applyRets_nil, applyRet,
    Retained.mapBank_mapBank]
  exact Retained.mapBank_congr (by rw [hcaps])

/-- A supervisor request that comes to a mere report is answered at once and changes nothing else
(R153). -/
theorem exec_reported {s : State} {r : SupervisorRequest} {code : AnswerCode} {body : List Byte}
    (h : s.SupervisorReady) (hw : r.wf = true) (hj : r.judge s = report code body) :
    exec r.command s = .next (s.afterSupervisor r ⟨code, body⟩) := by
  have hn : (r.judge s).writes = [] := by rw [hj]; rfl
  rw [exec_supervisorCommand hw, State.submit_unstaged h r hn, hj]
  rfl

/-- TARIFF COMMIT outside a load (R108). -/
theorem judgeTariffCommit_idle {s : State} (h : s.main.loading = false) :
    judgeTariffCommit s =
      report .wrongState (commitBody s.ret.activeGen s.ret.selector s.main.loaded.length) := by
  simp [judgeTariffCommit, h]

/-- TARIFF COMMIT with a row of the standby bank not loaded (R108). -/
theorem judgeTariffCommit_incomplete {s : State} (h : s.main.loading = true)
    (hn : s.main.loaded.length < Config.rows) :
    judgeTariffCommit s =
      report .incomplete (commitBody s.ret.activeGen s.ret.selector s.main.loaded.length) := by
  simp [judgeTariffCommit, h, hn]

/-- TARIFF COMMIT with every row loaded (R108, R109). -/
theorem judgeTariffCommit_complete {s : State} (h : s.main.loading = true)
    (hn : Config.rows ≤ s.main.loaded.length) :
    judgeTariffCommit s =
      ⟨⟨.ok, commitBody (nextGeneration s.ret.activeGen) (some s.ret.standbyBank)
          s.main.loaded.length⟩,
        [.bankGen s.ret.standbyBank (nextGeneration s.ret.activeGen), .selector s.ret.standbyBank,
          .activeGen (nextGeneration s.ret.activeGen)],
        [.standby false, .loaded []]⟩ := by
  simp [judgeTariffCommit, h, Nat.not_lt.mpr hn]

/-! The statements. -/

/-- Settles O25: the verdict of a charged FARE, and what its recorded values come to. -/
theorem fareChargesUnderTheCap : Obligations.FareChargesUnderTheCap := by
  intro s p seq entryZone exitZone slot key a b base charge today hacc hcur hlive hfree hopen hvalid
    hsel hpass hbase hroute htoday hcharge hfunds
  subst hbase htoday
  have hdone := done_accepted hacc (by simp)
  have hjudge := judgeFare_charged hcur hlive (State.spendRefusal_none hfree hopen hvalid) hsel hpass
    hroute hcharge hfunds
  have hj : (StationRequest.fare entryZone exitZone 0).judge p s = _ := hjudge
  rw [hj, applyRets_fareWrites hlive] at hdone
  exact hdone

/-- Settles O28: eight caps removed and the generation cleared are one change of the standby bank. -/
theorem tariffBeginOpensTheStandbyBank : Obligations.TariffBeginOpensTheStandbyBank := by
  intro s hready hlen
  have hdone := done_request (r := .tariffBegin) hready rfl
  have hret : applyRets (SupervisorRequest.tariffBegin.judge s).writes s.ret = _ :=
    applyRets_tariffBegin (hlen s.ret.standbyBank)
  rw [hret] at hdone
  exact hdone

/-- Settles O30, by the three verdicts of TARIFF COMMIT. -/
theorem tariffCommitSwitchesBanks : Obligations.TariffCommitSwitchesBanks := by
  intro s hready
  refine ⟨fun hload hrows => ?_, fun hload hrows => ?_, fun hidle => ?_⟩
  · have hdone := done_request (r := .tariffCommit) hready rfl
    have hj : SupervisorRequest.tariffCommit.judge s = _ := judgeTariffCommit_complete hload hrows
    rw [hj] at hdone
    exact hdone
  · exact exec_reported (r := .tariffCommit) hready rfl (judgeTariffCommit_incomplete hload hrows)
  · exact exec_reported (r := .tariffCommit) hready rfl (judgeTariffCommit_idle hidle)

end Sys2Proof.Machine
end

section
/-! PROOFS. Station sessions: the field step of the acceptance ladder (R130). -/

namespace Sys2Proof.Machine

/-! Values out of range. -/

/-- A zone above 15 is out of range (R130). -/
theorem zoneOk_eq_false {z : Byte} (h : 15 < z.toNat) : zoneOk z = false := by
  simpa [zoneOk] using h

/-- A flag above 1 is out of range (R130). -/
theorem isFlag_eq_false {b : Byte} (h : 1 < b.toNat) : isFlag b = false := by
  have h0 : b ≠ 0 := by rintro rfl; exact absurd h (by decide)
  have h1 : b ≠ 1 := by rintro rfl; exact absurd h (by decide)
  simpa [isFlag] using ⟨h0, h1⟩

/-! Bad digits come before every range (R130). -/

theorem fieldRefusal_select_badDigit {key : BitVec 40} (h : digitsOk 10 key.toNat = false) :
    (StationRequest.select key).fieldRefusal = some .badDigit := by
  simp [StationRequest.fieldRefusal, keyDigits, h]

theorem fieldRefusal_hold_badDigit {amount : BitVec 24} (h : digitsOk 6 amount.toNat = false)
    (lifetime : BitVec 16) (trial : Byte) :
    (StationRequest.hold amount lifetime trial).fieldRefusal = some .badDigit := by
  simp [StationRequest.fieldRefusal, amount6Digits, h]

theorem fieldRefusal_capture_badDigit {amount : BitVec 24} (h : digitsOk 6 amount.toNat = false)
    (holdId : BitVec 16) (trial : Byte) :
    (StationRequest.capture holdId amount trial).fieldRefusal = some .badDigit := by
  simp [StationRequest.fieldRefusal, amount6Digits, h]

theorem fieldRefusal_topUp_badDigit {amount : BitVec 24} (h : digitsOk 6 amount.toNat = false)
    (trial : Byte) : (StationRequest.topUp amount trial).fieldRefusal = some .badDigit := by
  simp [StationRequest.fieldRefusal, amount6Digits, h]

/-! One field out of range is enough (R130). -/

theorem fieldRefusal_fare_range {entryZone exitZone trial : Byte}
    (h : 15 < entryZone.toNat ∨ 15 < exitZone.toNat ∨ 1 < trial.toNat) :
    (StationRequest.fare entryZone exitZone trial).fieldRefusal = some .range := by
  rcases h with hentry | hexit | htrial
  · simp [StationRequest.fieldRefusal, zoneOk_eq_false hentry]
  · simp [StationRequest.fieldRefusal, zoneOk_eq_false hexit]
  · simp [StationRequest.fieldRefusal, isFlag_eq_false htrial]

theorem fieldRefusal_hold_range {amount : BitVec 24} {lifetime : BitVec 16} {trial : Byte}
    (hd : digitsOk 6 amount.toNat = true)
    (h : amount = 0 ∨ lifetime = 0 ∨ 3600 < lifetime.toNat ∨ 1 < trial.toNat) :
    (StationRequest.hold amount lifetime trial).fieldRefusal = some .range := by
  rcases h with rfl | rfl | hlong | htrial
  · rfl
  · simp [StationRequest.fieldRefusal, amount6Digits, hd]
  · simp [StationRequest.fieldRefusal, amount6Digits, hd, Config.maxLifetime, hlong]
  · simp [StationRequest.fieldRefusal, amount6Digits, hd, isFlag_eq_false htrial]

theorem fieldRefusal_capture_range {holdId : BitVec 16} {amount : BitVec 24} {trial : Byte}
    (hd : digitsOk 6 amount.toNat = true) (h : holdId = 0 ∨ 1 < trial.toNat) :
    (StationRequest.capture holdId amount trial).fieldRefusal = some .range := by
  rcases h with rfl | htrial
  · simp [StationRequest.fieldRefusal, amount6Digits, hd]
  · simp [StationRequest.fieldRefusal, amount6Digits, hd, isFlag_eq_false htrial]

theorem fieldRefusal_topUp_range {amount : BitVec 24} {trial : Byte}
    (hd : digitsOk 6 amount.toNat = true) (h : amount = 0 ∨ 1 < trial.toNat) :
    (StationRequest.topUp amount trial).fieldRefusal = some .range := by
  rcases h with rfl | htrial
  · rfl
  · simp [StationRequest.fieldRefusal, amount6Digits, hd, isFlag_eq_false htrial]

/-! The answer of the field step. -/

/-- A request whose port holds the right and whose fields fail is refused with every output zero and
comes to nothing else (R130). -/
theorem ladder_fieldRefused {r : StationRequest} {p : Port} {s : State} {code : AnswerCode}
    (hr : r.permitted (s.ret.params.rights.get p) = true) (hf : r.fieldRefusal = some code) :
    r.ladder p s = report code r.zeroBody := by
  simp [StationRequest.ladder, hr, hf]

/-- A request that the field step refuses changes only the reply cache and the answer (R130, R132). -/
theorem done_fieldRefused {s : State} {p : Port} {f : StationFrame} {code : AnswerCode}
    (h : s.StationReady p) (hc : s.cached p f.seq = none)
    (hr : f.req.permitted (s.ret.params.rights.get p) = true)
    (hf : f.req.fieldRefusal = some code) :
    Done (f.command p) s (s.afterStation p f ⟨code, f.req.zeroBody⟩) := by
  have hb : ∀ c b, f.req ≠ .bad c b := fun c b hbad => by
    simp [hbad, StationRequest.fieldRefusal] at hf
  have hdone := done_fresh h (exec_command (StationRequest.wf_of_ne hb) p s) hb hc
  rwa [ladder_fieldRefused hr hf] at hdone

/-! The statement. -/

/-- Settles O7: the code the field step finds for each kind of request. -/
theorem stationFieldsAreChecked : Obligations.StationFieldsAreChecked := by
  rintro s p ⟨seq, r⟩ hready huncached hright
  refine ⟨fun hdigits => done_fieldRefused hready huncached hright ?_,
    fun hrange => done_fieldRefused hready huncached hright ?_⟩
  · obtain ⟨key, rfl, hd⟩ | ⟨amount, lifetime, trial, rfl, hd⟩ | ⟨holdId, amount, trial, rfl, hd⟩ |
      ⟨amount, trial, rfl, hd⟩ := hdigits
    · exact fieldRefusal_select_badDigit hd
    · exact fieldRefusal_hold_badDigit hd lifetime trial
    · exact fieldRefusal_capture_badDigit hd holdId trial
    · exact fieldRefusal_topUp_badDigit hd trial
  · obtain rfl | ⟨entryZone, exitZone, trial, rfl, h⟩ | ⟨amount, lifetime, trial, rfl, hd, h⟩ |
      ⟨holdId, amount, trial, rfl, hd, h⟩ | rfl | ⟨amount, trial, rfl, hd, h⟩ := hrange
    · rfl
    · exact fieldRefusal_fare_range h
    · exact fieldRefusal_hold_range hd h
    · exact fieldRefusal_capture_range hd h
    · rfl
    · exact fieldRefusal_topUp_range hd h

end Sys2Proof.Machine
end

section
/-! PROOFS. What a request's recorded values make of the account table, the directory and the totals: one
inversion for every request, on which the conditions of the ledger, the directory and the records rest. -/

namespace Sys2Proof.Machine

/-! What the checks of a request find. -/

/-- A passed cursor check: the cursor is SET on a live slot (R137). -/
theorem State.cursorAccount_ok {s : State} {p : Port} {slot key : Nat} {a : Account}
    (h : s.cursorAccount p = .ok (slot, key, a)) :
    (s.session p).cursor = .sel slot key ∧ s.Live slot a := by
  unfold State.cursorAccount at h
  split at h
  · cases h
  · cases h
  · split at h
    · cases h; exact ⟨by assumption, by assumption⟩
    · cases h

/-- A key lookup that finds a live slot (R16). -/
theorem State.byKey_some {s : State} {key slot : Nat} {a : Account}
    (h : s.byKey key = some (slot, a)) : s.lookup key = some slot ∧ s.Live slot a := by
  unfold State.byKey at h
  split at h
  · cases h
  · split at h
    · cases h; exact ⟨by assumption, by assumption⟩
    · cases h

/-- A key that names a live account (R16). -/
theorem State.named_ok {s : State} {key : BitVec 40} {slot : Nat} {a : Account}
    (h : s.named key = .ok (slot, a)) : s.lookup (keyOf key) = some slot ∧ s.Live slot a := by
  unfold State.named at h
  split at h
  · cases h
  · split at h
    · cases h
    · rename_i hk
      cases h
      exact State.byKey_some hk

/-- A hold that CAPTURE and RELEASE let pass: the port's own, on a live slot (R84, R87). -/
theorem State.ownedHold_ok {s : State} {p : Port} {id : Nat} {h : Hold} {a : Account}
    (hk : s.ownedHold p id = .ok (h, a)) :
    s.findHold id = some h ∧ h.owner = p ∧ s.Live h.slot a := by
  unfold State.ownedHold at hk
  split at hk
  · cases hk
  · rename_i g hg
    split at hk
    · cases hk
    · split at hk
      · rename_i ho _ b hb
        cases hk
        exact ⟨hg, by simpa using ho, hb⟩
      · cases hk

/-- The hold found under an id is active and has it (R71). -/
theorem State.findHold_some {s : State} {id : Nat} {h : Hold} (hf : s.findHold id = some h) :
    h ∈ s.main.pool ∧ h.id = id :=
  ⟨List.mem_of_find?_eq_some hf, by simpa using List.find?_some hf⟩

/-! Packed decimal fields (R51). -/

/-- An n-digit field denotes a number of n digits. -/
theorem decVal_lt {n v : Nat} (h : digitsOk n v = true) : decVal n v < 10 ^ n := by
  induction n generalizing v with
  | zero => simp [decVal]
  | succ n ih =>
    simp only [digitsOk, Bool.and_eq_true, decide_eq_true_eq] at h
    have := ih h.2
    simp only [decVal, pow_succ]
    omega

theorem keyOf_le {k : BitVec 40} (h : keyDigits k = true) : keyOf k ≤ 9999999999 := by
  have := decVal_lt h
  simp only [keyOf]
  omega

theorem amount8_le {k : BitVec 32} (h : amount8Digits k = true) : amount8 k ≤ 99999999 := by
  have := decVal_lt h
  simp only [amount8]
  omega

theorem amount6_le {k : BitVec 24} (h : amount6Digits k = true) : amount6 k ≤ 999999 := by
  have := decVal_lt h
  simp only [amount6]
  omega

/-! The account table, the directory and the totals. -/

/-- The items of retention memory that the accounts and the totals are kept in. -/
structure Books where
  accounts : List (Option Account)
  chains : List (List Nat)
  free : List Nat
  floatTotal : Int
  day : Nat
  unclaimed : Nat

/-- The accounts and totals that retention memory holds. -/
def Retained.books (r : Retained) : Books :=
  ⟨r.accounts, r.chains, r.free, r.floatTotal, r.day, r.unclaimed⟩

/-- A recorded value that goes to none of these items. -/
def RetWrite.sparesBooks : RetWrite → Bool
  | .tariffRow .. | .classCap .. | .bankGen .. | .selector _ | .activeGen _ | .holdLimit _ | .pinTime _
  | .rights .. | .rate .. | .cache .. | .backupLost _ => true
  | _ => false

theorem applyRet_books {w : RetWrite} (h : w.sparesBooks = true) (r : Retained) :
    (applyRet w r).books = r.books := by
  cases w with
  | tariffRow b | classCap b | bankGen b => cases b <;> rfl
  | selector | activeGen | holdLimit | pinTime | rights | rate | cache | backupLost => rfl
  | _ => cases h

theorem applyRets_books {ws : List RetWrite} (h : ∀ w ∈ ws, w.sparesBooks = true) (r : Retained) :
    (applyRets ws r).books = r.books := by
  induction ws generalizing r with
  | nil => rfl
  | cons w ws ih =>
    rw [applyRets_cons, ih fun x hx => h x (List.mem_cons_of_mem _ hx),
      applyRet_books (h w List.mem_cons_self)]

/-- What a staged change makes of the accounts and totals. `updated`: one live record changes, and the float
total with its balance. The new record is in range where no hold on the slot exceeds balance + floor. -/
inductive State.Rebooked (s : State) : Books → Prop
  | spared (day unclaimed : Nat)
      (hday : day = s.ret.day ∨ s.ret.day ≠ Config.maxWord ∧ day = s.ret.day + 1)
      (hun : unclaimed ≤ s.ret.unclaimed) :
      s.Rebooked { s.ret.books with day := day, unclaimed := unclaimed }
  | updated (slot : Nat) (a b : Account) (live : s.Live slot a) (key : b.key = a.key)
      (range : (∀ h ∈ s.main.pool, h.slot = slot → (h.amount : Int) ≤ a.balance + a.floor) →
        a.InRange s.ret.day → b.InRange s.ret.day) :
      s.Rebooked { s.ret.books with
        accounts := s.ret.accounts.set slot (some b)
        floatTotal := s.ret.floatTotal + (b.balance - a.balance) }
  | opened (slot : Nat) (rest : List Nat) (b : Account) (free : s.ret.free = slot :: rest)
      (unknown : s.lookup b.key = none) (range : 1 ≤ s.ret.day → b.InRange s.ret.day) :
      s.Rebooked { s.ret.books with
        accounts := s.ret.accounts.set slot (some b)
        chains := s.ret.chains.set (bucketOf b.key) (s.chain (bucketOf b.key) ++ [slot])
        free := rest
        floatTotal := s.ret.floatTotal + b.balance }
  | retired (slot : Nat) (a : Account) (live : s.Live slot a)
      (room : s.ret.unclaimed + a.balance.toNat ≤ Config.maxTotal) :
      s.Rebooked { s.ret.books with
        accounts := s.ret.accounts.set slot none
        chains := s.ret.chains.set (bucketOf a.key) ((s.chain (bucketOf a.key)).erase slot)
        free := s.ret.free ++ [slot]
        floatTotal := s.ret.floatTotal - a.balance
        unclaimed := s.ret.unclaimed + a.balance.toNat }
  | wiped : s.Rebooked s.ret.wiped.books

/-- Nothing recorded. -/
theorem State.Rebooked.refl (s : State) : s.Rebooked s.ret.books :=
  .spared s.ret.day s.ret.unclaimed (.inl rfl) (Nat.le_refl _)

/-- Nothing recorded among these items. -/
theorem State.Rebooked.of_spares {s : State} {ws : List RetWrite}
    (h : ∀ w ∈ ws, w.sparesBooks = true) : s.Rebooked (applyRets ws s.ret).books := by
  rw [applyRets_books h]
  exact .refl s

/-- A record that only its balance tells apart. -/
theorem Account.InRange.withBalance {a : Account} {day : Nat} (h : a.InRange day) {v : Int}
    (hlo : -(a.floor : Int) ≤ v) (hhi : v ≤ Config.maxBalance) :
    ({ a with balance := v } : Account).InRange day := { h with balance := ⟨hlo, hhi⟩ }

/-- A record in another state. -/
theorem Account.InRange.withState {a : Account} {day : Nat} (h : a.InRange day) (st : AcctState) :
    ({ a with state := st } : Account).InRange day := { h with }

/-! Balance events and drains. -/

/-- A balance event within the limits (R56). -/
theorem State.rebooked_balanceEvent {s : State} {slot : Nat} {a : Account} (hl : s.Live slot a)
    (delta : Int)
    (hlo : (∀ h ∈ s.main.pool, h.slot = slot → (h.amount : Int) ≤ a.balance + a.floor) →
      -(a.floor : Int) ≤ a.balance → -(a.floor : Int) ≤ a.balance + delta)
    (hhi : delta ≤ 0 ∨ a.balance + delta ≤ Config.maxBalance) :
    s.Rebooked (applyRets (s.balanceEvent slot a delta) s.ret).books := by
  rw [applyRets_balanceEvent hl]
  have h := State.Rebooked.updated (s := s) slot a { a with balance := a.balance + delta } hl rfl
    (fun hf ha => ha.withBalance (hlo hf ha.balance.1) (by
      obtain hd | hd := hhi
      · exact (by omega : a.balance + delta ≤ a.balance).trans ha.balance.2
      · exact hd))
  rw [show a.balance + delta - a.balance = delta by omega] at h
  exact h

/-- A change of state of a live account. -/
theorem State.rebooked_acctState {s : State} {slot : Nat} {a : Account} (hl : s.Live slot a)
    (st : AcctState) : s.Rebooked (applyRets [.acctState slot st] s.ret).books := by
  rw [applyRets_cons, applyRets_nil, applyRet_acctState hl]
  have h := State.Rebooked.updated (s := s) slot a { a with state := st } hl rfl
    (fun _ ha => ha.withState st)
  rw [Int.sub_self, Int.add_zero] at h
  exact h

/-- A CLOSING account is live. -/
theorem State.isClosing_exists {s : State} {slot : Nat} (h : s.isClosing slot = true) :
    ∃ a, s.Live slot a ∧ a.state = .closing := by
  unfold State.isClosing at h
  split at h
  · exact ⟨_, by assumption, by simpa using h⟩
  · cases h

/-- The drain at the end of a hold: none, or a CLOSING account drains (R28, R93). -/
theorem State.holdEndDrain_cases (s : State) (h : Hold) :
    s.holdEndDrain h = [] ∨ s.holdEndDrain h = [.acctState h.slot .drained] ∧
      ∃ a, s.Live h.slot a ∧ a.state = .closing := by
  unfold State.holdEndDrain
  split
  · rename_i hc
    simp only [Bool.and_eq_true] at hc
    exact .inr ⟨rfl, State.isClosing_exists hc.1.1⟩
  · exact .inl rfl

/-- The drain at the end of a pin: none, or a CLOSING account drains (R148). -/
theorem State.pinEndDrain_cases (s : State) (slot : Nat) :
    s.pinEndDrain slot = [] ∨ s.pinEndDrain slot = [.acctState slot .drained] ∧
      ∃ a, s.Live slot a ∧ a.state = .closing := by
  unfold State.pinEndDrain
  split
  · rename_i hc
    simp only [Bool.and_eq_true] at hc
    exact .inr ⟨rfl, State.isClosing_exists hc.1⟩
  · exact .inl rfl

theorem State.rebooked_holdEndDrain (s : State) (h : Hold) :
    s.Rebooked (applyRets (s.holdEndDrain h) s.ret).books := by
  obtain hd | ⟨hd, a, hl, _⟩ := s.holdEndDrain_cases h
  · rw [hd]; exact .refl s
  · rw [hd]; exact State.rebooked_acctState hl _

theorem State.rebooked_pinEndDrain (s : State) (slot : Nat) :
    s.Rebooked (applyRets (s.pinEndDrain slot) s.ret).books := by
  obtain hd | ⟨hd, a, hl, _⟩ := s.pinEndDrain_cases slot
  · rw [hd]; exact .refl s
  · rw [hd]; exact State.rebooked_acctState hl _

/-- What a CAPTURE records of a CLOSING account that it leaves bare (R85, R93). -/
theorem applyRets_capture_drain {s : State} {slot : Nat} {a : Account} (hl : s.Live slot a)
    (delta : Int) :
    applyRets (s.balanceEvent slot a delta ++ [.acctState slot .drained]) s.ret =
      { s.ret with
        accounts := s.ret.accounts.set slot
          (some { a with balance := a.balance + delta, state := .drained })
        floatTotal := s.ret.floatTotal + delta } := by
  simp only [applyRets_append, applyRets_balanceEvent hl, applyRets_cons, applyRets_nil, applyRet,
    Retained.mapAccount_written hl]

/-- CAPTURE of a hold of at least the amount (R84, R85). -/
theorem State.rebooked_capture {s : State} {h : Hold} {a : Account} (hl : s.Live h.slot a)
    (hm : h ∈ s.main.pool) {amount : Nat} (ha : amount ≤ h.amount) :
    s.Rebooked (applyRets (s.balanceEvent h.slot a (-amount) ++ s.holdEndDrain h) s.ret).books := by
  have hlo : (∀ g ∈ s.main.pool, g.slot = h.slot → (g.amount : Int) ≤ a.balance + a.floor) →
      -(a.floor : Int) ≤ a.balance → -(a.floor : Int) ≤ a.balance + -(amount : Int) := by
    intro hf _
    have := hf h hm rfl
    omega
  obtain hd | ⟨hd, _⟩ := s.holdEndDrain_cases h
  · rw [hd, List.append_nil]
    exact State.rebooked_balanceEvent hl _ hlo (.inl (by omega))
  · rw [hd, applyRets_capture_drain hl]
    have hr := State.Rebooked.updated (s := s) h.slot a
      { a with balance := a.balance + -(amount : Int), state := .drained } hl rfl
      (fun hf hx => (hx.withBalance (hlo hf hx.balance.1)
        ((by omega : a.balance + -(amount : Int) ≤ a.balance).trans hx.balance.2)).withState _)
    rw [show a.balance + -(amount : Int) - a.balance = -(amount : Int) by omega] at hr
    exact hr

/-- A charged FARE with the funds for it (R119). -/
theorem State.rebooked_fareWrites {s : State} {slot : Nat} {a : Account} (hl : s.Live slot a)
    {charge : Nat} (hf : (charge : Int) ≤ s.available slot a) :
    s.Rebooked (applyRets (s.fareWrites slot a charge) s.ret).books := by
  rw [applyRets_fareWrites hl]
  have h := State.Rebooked.updated (s := s) slot a { a with
      balance := a.balance - charge
      daySpend := min (a.spendToday s.ret.day + charge) Config.maxDaySpend
      spendDay := s.ret.day } hl rfl
    (fun _ ha => { ha with
      balance := ⟨by unfold State.available at hf; dsimp only; omega,
        (by omega : a.balance - charge ≤ a.balance).trans ha.balance.2⟩
      daySpend := Nat.min_le_right _ _
      spendDay := ⟨ha.spendDay.1.trans ha.spendDay.2, Nat.le_refl _⟩ })
  rw [show a.balance - charge - a.balance = -(charge : Int) by omega, ← Int.sub_eq_add_neg] at h
  exact h

/-! Station requests. -/

/-- What a PIN or UNPIN records. -/
theorem State.rebooked_judgePin (s : State) (p : Port) :
    s.Rebooked (applyRets (judgePin p s).writes s.ret).books := by
  unfold judgePin
  repeat' split
  all_goals first
    | exact .refl s
    | exact s.rebooked_pinEndDrain _

/-- What a FARE records. -/
theorem State.rebooked_judgeFare (s : State) (p : Port) (entryZone exitZone : Nat) (trial : Bool) :
    s.Rebooked (applyRets (judgeFare p entryZone exitZone trial s).writes s.ret).books := by
  unfold judgeFare
  split
  · exact .refl s
  · rename_i slot key a hc
    obtain ⟨_, hl⟩ := State.cursorAccount_ok hc
    dsimp only
    repeat' split
    all_goals first
      | exact .refl s
      | exact State.rebooked_fareWrites hl (by omega)

/-- What a HOLD records: nothing. -/
theorem judgeHold_writes (p : Port) (amount lifetime : Nat) (trial : Bool) (s : State) :
    (judgeHold p amount lifetime trial s).writes = [] := by
  unfold judgeHold
  split
  · rfl
  · dsimp only
    split <;> rfl

/-- What a CAPTURE records. -/
theorem State.rebooked_judgeCapture (s : State) (p : Port) (id amount : Nat) (trial : Bool) :
    s.Rebooked (applyRets (judgeCapture p id amount trial s).writes s.ret).books := by
  unfold judgeCapture
  split
  · exact .refl s
  · rename_i h a ho
    obtain ⟨hf, _, hl⟩ := State.ownedHold_ok ho
    split
    · exact .refl s
    · dsimp only
      split
      · exact .refl s
      · exact State.rebooked_capture hl (State.findHold_some hf).1 (by omega)

/-- What a TOP-UP records. -/
theorem State.rebooked_judgeTopUp (s : State) (p : Port) (amount : Nat) (trial : Bool) :
    s.Rebooked (applyRets (judgeTopUp p amount trial s).writes s.ret).books := by
  unfold judgeTopUp
  split
  · exact .refl s
  · rename_i slot key a hc
    obtain ⟨_, hl⟩ := State.cursorAccount_ok hc
    dsimp only
    split
    · exact .refl s
    · split
      · exact .refl s
      · dsimp only
        split
        · exact .refl s
        · exact State.rebooked_balanceEvent hl _ (fun _ h => by omega) (.inr (by omega))

/-- What a station request's ladder and own checks record. -/
theorem State.rebooked_ladder (s : State) (r : StationRequest) (p : Port) :
    s.Rebooked (applyRets (r.ladder p s).writes s.ret).books := by
  unfold StationRequest.ladder
  repeat' split
  · exact .refl s
  · exact .refl s
  · cases r with
    | select key =>
      have : (judgeSelect p (keyOf key) s).writes = [] := by
        unfold judgeSelect; repeat' split
        all_goals rfl
      simp only [StationRequest.judge, this]
      exact .refl s
    | balance =>
      have : (judgeBalance p s).writes = [] := by unfold judgeBalance; split <;> rfl
      simp only [StationRequest.judge, this]
      exact .refl s
    | stationStatus => exact .refl s
    | pin => exact s.rebooked_judgePin p
    | unpin =>
      simp only [StationRequest.judge, judgeUnpin]
      split
      · exact .refl s
      · exact s.rebooked_pinEndDrain _
    | fare => exact s.rebooked_judgeFare ..
    | hold =>
      simp only [StationRequest.judge, judgeHold_writes]
      exact .refl s
    | capture => exact s.rebooked_judgeCapture ..
    | release holdId =>
      simp only [StationRequest.judge, judgeRelease]
      split
      · exact .refl s
      · exact s.rebooked_holdEndDrain _
    | topUp => exact s.rebooked_judgeTopUp ..
    | bad => exact .refl s

/-- What a station request records, its reply cache entry included, leaves of the accounts and totals what
its ladder records. -/
theorem State.rebooked_station (s : State) (p : Port) (f : StationFrame) :
    s.Rebooked (applyRets (stationOutcome p f s).verdict.writes s.ret).books := by
  have hcache : ∀ v : Verdict, s.Rebooked (applyRets v.writes s.ret).books →
      s.Rebooked (applyRets (withCache p f v s).writes s.ret).books := by
    intro v hv
    unfold withCache
    split
    · exact hv
    · rw [applyRets_append, applyRets_books (by simp [RetWrite.sparesBooks])]
      exact hv
  unfold stationOutcome
  split
  · exact hcache _ (.refl s)
  · split
    · split <;> exact .refl s
    · exact hcache _ (s.rebooked_ladder _ p)

end Sys2Proof.Machine
end

section
/-! PROOFS. What a supervisor request's recorded values make of the account table, the directory and the
totals. -/

namespace Sys2Proof.Machine

/-! Fields that pass their checks. -/

/-- OPEN ACCOUNT's fields when none is refused (R18). -/
theorem openRefusal_none {key : BitVec 40} {cls sign : Byte} {initial : BitVec 32}
    {floor : BitVec 24} {vePresent : Byte} {ve : BitVec 16} {passPresent : Byte} {passEnd : BitVec 16}
    (h : openRefusal key cls sign initial floor vePresent ve passPresent passEnd = none) :
    (keyDigits key = true ∧ keyOf key ≠ 0) ∧ amount8Digits initial = true ∧
      amount6Digits floor = true ∧ cls.toNat ≤ 7 ∧ (vePresent = 1 → ve ≠ 0) ∧
      (passPresent = 1 → passEnd ≠ 0) := by
  unfold openRefusal at h
  split at h
  · cases h
  · split at h
    · cases h
    · simp_all [classOk, dayOk]

/-- SET TERMS' fields when none is refused (R21). -/
theorem termsRefusal_none {key : BitVec 40} {clsChange cls floorChange : Byte} {floor : BitVec 24}
    {veChange : Byte} {ve : BitVec 16} {passChange : Byte} {passEnd : BitVec 16}
    (h : termsRefusal key clsChange cls floorChange floor veChange ve passChange passEnd = none) :
    amount6Digits floor = true ∧ cls.toNat ≤ 7 ∧ ve ≠ 0 ∧ passEnd ≠ 0 := by
  unfold termsRefusal at h
  split at h
  · cases h
  · split at h
    · cases h
    · simp_all [classOk, dayOk]

/-- A day of a frame that is not 0 lies in the range of the days. -/
theorem day_inRange {d : BitVec 16} (h : d ≠ 0) : 1 ≤ d.toNat ∧ d.toNat ≤ Config.maxWord := by
  have h0 : d.toNat ≠ 0 := fun hd => h (BitVec.eq_of_toNat_eq (by simpa using hd))
  have := d.isLt
  simp only [Config.maxWord]
  omega

/-- A new account is in range (R19). -/
theorem newAccount_inRange {key : BitVec 40} {cls sign : Byte} {initial : BitVec 32}
    {floor : BitVec 24} {vePresent : Byte} {ve : BitVec 16} {passPresent : Byte}
    {zones passEnd : BitVec 16} {day : Nat}
    (h : openRefusal key cls sign initial floor vePresent ve passPresent passEnd = none)
    (hday : 1 ≤ day) :
    (newAccount key cls initial floor vePresent ve passPresent zones passEnd day).InRange day := by
  obtain ⟨⟨hk, hk0⟩, hi, hf, hc, hv, hp⟩ := openRefusal_none h
  have := amount8_le hi
  have := amount6_le hf
  refine ⟨⟨by simp only [newAccount]; omega, keyOf_le hk⟩, hc,
    ⟨by simp only [newAccount]; omega, by simp only [newAccount, Config.maxBalance]; omega⟩,
    amount6_le hf, Nat.zero_le _, ⟨hday, Nat.le_refl _⟩, fun d hd => ?_, fun x hx => ?_⟩
  · simp only [newAccount] at hd
    split at hd
    · cases hd; exact day_inRange (hv (beq_iff_eq.mp ‹_›))
    · cases hd
  · simp only [newAccount] at hx
    split at hx
    · cases hx; exact day_inRange (hp (beq_iff_eq.mp ‹_›))
    · cases hx

/-- Changed terms are in range when the balance stays above the floor (R22). -/
theorem withTerms_inRange {a : Account} {key : BitVec 40} {clsChange cls floorChange : Byte}
    {floor : BitVec 24} {veChange : Byte} {ve : BitVec 16} {passChange : Byte}
    {zones passEnd : BitVec 16} {day : Nat}
    (h : termsRefusal key clsChange cls floorChange floor veChange ve passChange passEnd = none)
    (ha : a.InRange day)
    (hlo : -((a.withTerms clsChange cls floorChange floor veChange ve passChange zones passEnd).floor
      : Int) ≤ a.balance) :
    (a.withTerms clsChange cls floorChange floor veChange ve passChange zones passEnd).InRange day := by
  obtain ⟨hf, hc, hv, hp⟩ := termsRefusal_none h
  refine ⟨ha.key, ?_, ⟨hlo, ha.balance.2⟩, ?_, ha.daySpend, ha.spendDay, fun d hd => ?_, fun x hx => ?_⟩
  · simp only [Account.withTerms]
    split
    · exact hc
    · exact ha.cls
  · simp only [Account.withTerms]
    split
    · exact amount6_le hf
    · exact ha.floor
  · simp only [Account.withTerms] at hd
    split at hd
    · cases hd; exact day_inRange hv
    · split at hd
      · cases hd
      · exact ha.validity d hd
  · simp only [Account.withTerms] at hx
    split at hx
    · cases hx; exact day_inRange hp
    · split at hx
      · cases hx
      · exact ha.pass x hx

/-! What the account requests record. -/

/-- The record a live slot holds, written again, changes nothing. -/
theorem set_live {l : List (Option Account)} {slot : Nat} {a : Account}
    (h : l.getD slot none = some a) : l.set slot (some a) = l := by
  obtain ⟨hl, hg⟩ := List.getElem?_eq_some_iff.mp (getElem?_of_getD h)
  rw [← hg, List.set_getElem_self]

/-- One term that a SET TERMS records or keeps (R22). -/
theorem applyRets_term {r : Retained} {slot : Nat} {a : Account}
    (h : r.accounts.getD slot none = some a) (x : Account) {w : RetWrite} {f : Account → Account}
    (hw : ∀ r, applyRet w r = r.mapAccount slot f) {c : Bool} (hn : c = false → f x = x) :
    applyRets (if c then [w] else []) { r with accounts := r.accounts.set slot (some x) } =
      { r with accounts := r.accounts.set slot (some (f x)) } := by
  cases c with
  | false => rw [hn rfl]; rfl
  | true =>
    simp only [if_true, applyRets_cons, applyRets_nil, hw]
    exact Retained.mapAccount_written h x r.floatTotal f

/-- What a SET TERMS records (R22). -/
def termsWrites (slot : Nat) (t : Account) (clsChange floorChange veChange passChange : Byte) :
    List RetWrite :=
  (if clsChange == 1 then [.acctClass slot t.cls] else [])
    ++ (if floorChange == 1 then [.floor slot t.floor] else [])
    ++ (if veChange != 0 then [.validityEnd slot t.validityEnd] else [])
    ++ (if passChange != 0 then [.pass slot t.pass] else [])

/-- The terms recorded make of the account the one with the new terms (R22). -/
theorem applyRets_termsWrites {s : State} {slot : Nat} {a : Account} (hl : s.Live slot a)
    (clsChange cls floorChange : Byte) (floor : BitVec 24) (veChange : Byte) (ve : BitVec 16)
    (passChange : Byte) (zones passEnd : BitVec 16) :
    applyRets (termsWrites slot
        (a.withTerms clsChange cls floorChange floor veChange ve passChange zones passEnd)
        clsChange floorChange veChange passChange) s.ret =
      { s.ret with
        accounts := s.ret.accounts.set slot
          (some (a.withTerms clsChange cls floorChange floor veChange ve passChange zones passEnd)) } := by
  have h0 : s.ret = { s.ret with accounts := s.ret.accounts.set slot (some a) } := by
    rw [set_live hl]
  have hc := fun x hn => applyRets_term (r := s.ret) hl x (w := .acctClass slot
    (a.withTerms clsChange cls floorChange floor veChange ve passChange zones passEnd).cls)
    (fun _ => rfl) (c := clsChange == 1) hn
  have hf := fun x hn => applyRets_term (r := s.ret) hl x (w := .floor slot
    (a.withTerms clsChange cls floorChange floor veChange ve passChange zones passEnd).floor)
    (fun _ => rfl) (c := floorChange == 1) hn
  have hv := fun x hn => applyRets_term (r := s.ret) hl x (w := .validityEnd slot
    (a.withTerms clsChange cls floorChange floor veChange ve passChange zones passEnd).validityEnd)
    (fun _ => rfl) (c := veChange != 0) hn
  have hp := fun x hn => applyRets_term (r := s.ret) hl x (w := .pass slot
    (a.withTerms clsChange cls floorChange floor veChange ve passChange zones passEnd).pass)
    (fun _ => rfl) (c := passChange != 0) hn
  conv_lhs => rw [h0]
  unfold termsWrites
  rw [applyRets_append, applyRets_append, applyRets_append, hc, hf, hv, hp]
  · rfl
  all_goals
    intro hn
    simp at hn
    simp [Account.withTerms, hn]

/-- The retirement move (R26, R38). -/
theorem applyRets_retirementWrites {s : State} {slot : Nat} {a : Account} (hl : s.Live slot a) :
    applyRets (s.retirementWrites slot a) s.ret =
      { s.ret with
        accounts := s.ret.accounts.set slot none
        chains := s.ret.chains.set (bucketOf a.key) ((s.chain (bucketOf a.key)).erase slot)
        free := s.ret.free ++ [slot]
        floatTotal := s.ret.floatTotal - a.balance
        unclaimed := s.ret.unclaimed + a.balance.toNat } := by
  have hm : (s.ret.accounts.modify slot (Option.map fun x => { x with balance := 0 })).set slot none =
      s.ret.accounts.set slot none := by
    have := congrArg Retained.accounts (Retained.mapAccount_live (r := s.ret) hl
      fun x => { x with balance := 0 })
    rw [show s.ret.accounts.modify slot _ = _ from this, List.set_set]
  simp only [State.retirementWrites, applyRets_cons, applyRets_nil, applyRet, Retained.setSlot,
    Retained.mapAccount, hm]

/-! Supervisor requests. -/

theorem State.rebooked_retirement {s : State} {slot : Nat} {a : Account} (hl : s.Live slot a)
    (hr : s.noRoom a = false) : s.Rebooked (applyRets (s.retirementWrites slot a) s.ret).books := by
  rw [applyRets_retirementWrites hl]
  exact .retired slot a hl (by simpa [State.noRoom] using hr)

theorem State.rebooked_openAccount (s : State) (key : BitVec 40) (cls sign : Byte)
    (initial : BitVec 32) (floor : BitVec 24) (vePresent : Byte) (ve : BitVec 16)
    (passPresent : Byte) (zones passEnd : BitVec 16) :
    s.Rebooked (applyRets (judgeOpenAccount key cls sign initial floor vePresent ve passPresent zones
      passEnd s).writes s.ret).books := by
  unfold judgeOpenAccount
  split
  · exact .refl s
  · rename_i hr
    split
    · exact .refl s
    · rename_i hk
      split
      · exact .refl s
      · rename_i slot rest hfree
        exact .opened slot rest _ hfree (by simpa [newAccount] using hk) (newAccount_inRange hr)

theorem State.rebooked_setTerms (s : State) (key : BitVec 40) (clsChange cls floorChange : Byte)
    (floor : BitVec 24) (veChange : Byte) (ve : BitVec 16) (passChange : Byte)
    (zones passEnd : BitVec 16) :
    s.Rebooked (applyRets (judgeSetTerms key clsChange cls floorChange floor veChange ve passChange
      zones passEnd s).writes s.ret).books := by
  unfold judgeSetTerms
  split
  · exact .refl s
  · rename_i hr
    split
    · exact .refl s
    · rename_i slot a hk
      obtain ⟨_, hl⟩ := State.byKey_some hk
      split
      · exact .refl s
      · dsimp only
        split
        · exact .refl s
        · rename_i hfunds
          have hw := applyRets_termsWrites hl clsChange cls floorChange floor veChange ve passChange
            zones passEnd
          unfold termsWrites at hw
          rw [hw]
          have h := State.Rebooked.updated (s := s) slot a
            (a.withTerms clsChange cls floorChange floor veChange ve passChange zones passEnd) hl rfl
            (fun _ ha => withTerms_inRange hr ha (by
              have hlo := ha.balance.1
              unfold State.available at hfunds
              rw [show (a.withTerms clsChange cls floorChange floor veChange ve passChange zones
                passEnd).balance = a.balance from rfl] at hfunds
              omega))
          rw [show (a.withTerms clsChange cls floorChange floor veChange ve passChange zones
            passEnd).balance = a.balance from rfl, Int.sub_self, Int.add_zero] at h
          exact h

theorem State.rebooked_move (s : State) (key : BitVec 40) (source target : AcctState) :
    s.Rebooked (applyRets (judgeMove key source target s).writes s.ret).books := by
  unfold judgeMove
  split
  · exact .refl s
  · rename_i hk
    split
    · exact State.rebooked_acctState (State.named_ok hk).2 _
    · exact .refl s

theorem State.rebooked_retire (s : State) (key : BitVec 40) :
    s.Rebooked (applyRets (judgeRetire key s).writes s.ret).books := by
  unfold judgeRetire
  split
  · exact .refl s
  · rename_i hk
    obtain ⟨_, hl⟩ := State.named_ok hk
    dsimp only
    repeat' split
    all_goals first
      | exact .refl s
      | exact State.rebooked_acctState hl _
      | exact State.rebooked_retirement hl (Bool.eq_false_iff.mpr ‹_›)

theorem State.rebooked_confirmRetire (s : State) (key : BitVec 40) :
    s.Rebooked (applyRets (judgeConfirmRetire key s).writes s.ret).books := by
  unfold judgeConfirmRetire
  split
  · exact .refl s
  · rename_i hk
    obtain ⟨_, hl⟩ := State.named_ok hk
    repeat' split
    all_goals first
      | exact .refl s
      | exact State.rebooked_retirement hl (Bool.eq_false_iff.mpr ‹_›)

theorem State.rebooked_credit (s : State) (key : BitVec 40) (amount : BitVec 32) :
    s.Rebooked (applyRets (judgeCredit key amount s).writes s.ret).books := by
  unfold judgeCredit
  split
  · exact .refl s
  · split
    · exact .refl s
    · split
      · exact .refl s
      · rename_i a hl
        have hl : s.Live _ a := hl
        dsimp only
        split
        · exact .refl s
        · rename_i hroom
          dsimp only
          exact State.rebooked_balanceEvent hl (amount8 amount) (fun _ h => by omega)
            (.inr (by omega))

theorem State.rebooked_debit (s : State) (key : BitVec 40) (amount : BitVec 32) :
    s.Rebooked (applyRets (judgeDebit key amount s).writes s.ret).books := by
  unfold judgeDebit
  split
  · exact .refl s
  · split
    · exact .refl s
    · split
      · exact .refl s
      · rename_i a hl
        have hl : s.Live _ a := hl
        dsimp only
        split
        · exact .refl s
        · rename_i hfunds
          dsimp only
          refine State.rebooked_balanceEvent hl (-(amount8 amount)) (fun _ h => ?_) (.inl (by omega))
          unfold State.available at hfunds
          omega

/-- TARIFF and SET PARAMETERS requests record nothing of the accounts and totals. -/
theorem judge_sparesBooks {r : SupervisorRequest} (s : State)
    (h : match r with
      | .tariffBegin | .tariffRow .. | .tariffCap .. | .tariffCommit | .setParameters ..
      | .clearBackupFlag => True
      | _ => False) : ∀ w ∈ (r.judge s).writes, w.sparesBooks = true := by
  cases r with
  | tariffBegin =>
    intro w hw
    simp only [SupervisorRequest.judge, judgeTariffBegin, List.mem_append, List.mem_map,
      List.mem_singleton] at hw
    obtain ⟨_, _, rfl⟩ | rfl := hw <;> rfl
  | tariffRow =>
    simp only [SupervisorRequest.judge, judgeTariffRow]
    repeat' split
    all_goals simp [report, RetWrite.sparesBooks]
  | tariffCap =>
    simp only [SupervisorRequest.judge, judgeTariffCap]
    repeat' split
    all_goals simp [report, RetWrite.sparesBooks]
  | tariffCommit =>
    simp only [SupervisorRequest.judge, judgeTariffCommit]
    repeat' split
    all_goals simp [report, RetWrite.sparesBooks]
  | setParameters hlChange holdLimit ptChange pinTime ports =>
    have hport : ∀ p c, ∀ w ∈ portWrites p c, w.sparesBooks = true := by
      intro p c w hw
      simp only [portWrites, List.mem_append] at hw
      obtain hw | hw := hw
      all_goals
        split at hw
        · rw [List.mem_singleton.mp hw]; rfl
        · cases hw
    simp only [SupervisorRequest.judge, judgeSetParameters]
    split
    · simp [report]
    · intro w hw
      simp only [List.mem_append] at hw
      obtain ((((hw | hw) | hw) | hw) | hw) | hw := hw
      · split at hw
        · rw [List.mem_singleton.mp hw]; rfl
        · cases hw
      · split at hw
        · rw [List.mem_singleton.mp hw]; rfl
        · cases hw
      all_goals exact hport _ _ w hw
  | clearBackupFlag =>
    simp only [SupervisorRequest.judge, judgeClearBackupFlag]
    split <;> simp [RetWrite.sparesBooks]
  | _ => cases h

/-- What a supervisor request records. -/
theorem State.rebooked_supervisor (s : State) (r : SupervisorRequest) :
    s.Rebooked (applyRets (r.judge s).writes s.ret).books := by
  have hfree : r.needsArea = false → s.Rebooked (applyRets (r.judge s).writes s.ret).books := by
    intro hn
    rw [(judge_of_free hn s).1]
    exact .refl s
  cases r with
  | openAccount => exact s.rebooked_openAccount ..
  | setTerms => exact s.rebooked_setTerms ..
  | suspend | resume => exact s.rebooked_move ..
  | retire => exact s.rebooked_retire _
  | confirmRetire => exact s.rebooked_confirmRetire _
  | dayRoll =>
    simp only [SupervisorRequest.judge, judgeDayRoll]
    split
    · exact .refl s
    · exact .spared (s.ret.day + 1) s.ret.unclaimed (.inr ⟨‹_›, rfl⟩) (Nat.le_refl _)
  | credit => exact s.rebooked_credit ..
  | debit => exact s.rebooked_debit ..
  | clearUnclaimed =>
    simp only [SupervisorRequest.judge, judgeClearUnclaimed]
    split
    · exact .spared s.ret.day 0 (.inl rfl) (Nat.zero_le _)
    · exact .refl s
  | cancelHold holdId =>
    simp only [SupervisorRequest.judge, judgeCancelHold]
    repeat' split
    · exact .refl s
    · exact .refl s
    · exact s.rebooked_holdEndDrain _
  | tariffBegin | tariffRow | tariffCap | tariffCommit | setParameters | clearBackupFlag =>
    exact .of_spares (judge_sparesBooks s trivial)
  | wipe => exact .wiped
  | readAccount | enumerate | readTariffRow | status | readParameters | bad => exact hfree rfl

end Sys2Proof.Machine
end

section
/-! PROOFS. What every step keeps of the ledger, the directory and the reply caches. -/

namespace Sys2Proof.Machine

/-! Slots, whatever the state of their accounts. -/

/-- What a slot holds, but for the state of its account. -/
def stateless : Option Account → Option Account := Option.map fun a => { a with state := .opened }

/-- Two tables whose accounts differ in their states alone. -/
def SameRecords (l l' : List (Option Account)) : Prop := l'.map stateless = l.map stateless

/-- Moving an account to another state changes no other item of a record. -/
theorem sameRecords_acctState (r : Retained) (slot : Nat) (st : AcctState) :
    SameRecords r.accounts (applyRet (.acctState slot st) r).accounts := by
  refine List.ext_getElem? fun i => ?_
  simp only [applyRet, Retained.mapAccount, List.getElem?_map, List.getElem?_modify]
  split
  · cases r.accounts[i]? with
    | none => rfl
    | some x => cases x <;> rfl
  · simp

/-- The drains of the start-up check change no other item of a record. -/
theorem sameRecords_drainAll (r : Retained) : SameRecords r.accounts r.drainAll.accounts := by
  simp only [SameRecords, Retained.drainAll, List.map_map]
  refine List.map_congr_left fun x _ => ?_
  cases x with
  | none => rfl
  | some a =>
    simp only [Function.comp, drainSlot, stateless, Option.map_some]
    split <;> rfl

theorem SameRecords.length_eq {l l' : List (Option Account)} (h : SameRecords l l') :
    l'.length = l.length := by
  simpa using congrArg List.length h

theorem SameRecords.getElem? {l l' : List (Option Account)} (h : SameRecords l l') (i : Nat) :
    l'[i]?.map stateless = l[i]?.map stateless := by
  simpa using congrArg (·[i]?) h

theorem SameRecords.free_iff {l l' : List (Option Account)} (h : SameRecords l l') (i : Nat) :
    l'[i]? = some none ↔ l[i]? = some none := by
  have := h.getElem? i
  cases hl : l[i]? with
  | none => cases hl' : l'[i]? with
    | none => simp
    | some x => rw [hl, hl'] at this; cases this
  | some y => cases hl' : l'[i]? with
    | none => rw [hl, hl'] at this; cases this
    | some x =>
      rw [hl, hl'] at this
      cases x <;> cases y <;> simp_all [stateless]

/-- A live slot holds the same record in another state. -/
theorem SameRecords.live {l l' : List (Option Account)} (h : SameRecords l l') {i : Nat}
    {a : Account} (ha : l'.getD i none = some a) :
    ∃ b, l.getD i none = some b ∧ a = { b with state := a.state } := by
  have := h.getElem? i
  rw [getElem?_of_getD ha] at this
  cases hl : l[i]? with
  | none => rw [hl] at this; cases this
  | some y =>
    rw [hl] at this
    cases y with
    | none => simp [stateless] at this
    | some b =>
      refine ⟨b, by rw [List.getD_eq_getElem?_getD, hl]; rfl, ?_⟩
      simp only [stateless, Option.map_some, Option.some.injEq, Account.mk.injEq, true_and] at this
      obtain ⟨h1, h2, h3, h4, h5, h6, h7, h8⟩ := this
      cases a; cases b
      simp_all

theorem SameRecords.symm {l l' : List (Option Account)} (h : SameRecords l l') : SameRecords l' l :=
  Eq.symm h

/-! A slot written anew. -/

/-- What a slot holds after a slot of the table has been written. -/
theorem getD_set_eq_some {l : List (Option Account)} {slot i : Nat} {x : Option Account} {a : Account} :
    (l.set slot x).getD i none = some a ↔
      i = slot ∧ slot < l.length ∧ x = some a ∨ i ≠ slot ∧ l.getD i none = some a := by
  rw [List.getD_eq_getElem?_getD, List.getElem?_set, List.getD_eq_getElem?_getD]
  by_cases h : slot = i
  · subst h
    by_cases hl : slot < l.length <;> simp [hl]
  · simp [h, Ne.symm h]

theorem live_lt {l : List (Option Account)} {slot : Nat} {a : Account}
    (h : l.getD slot none = some a) : slot < l.length :=
  (List.getElem?_eq_some_iff.mp (getElem?_of_getD h)).1

/-! An installation without accounts. -/

/-- The accounts and totals of an installation without accounts. -/
structure Retained.Emptied (r : Retained) : Prop where
  accounts : r.accounts = List.replicate Config.slots none
  chains : r.chains = List.replicate Config.buckets []
  free : r.free = List.range Config.slots
  floatTotal : r.floatTotal = 0
  day : r.day = 1
  unclaimed : r.unclaimed = 0

theorem Retained.emptied_cold : Retained.cold.Emptied := by
  constructor <;> simp only [Retained.cold]

theorem Retained.emptied_wiped (r : Retained) : r.wiped.Emptied := by
  constructor <;> simp only [Retained.wiped]

theorem Retained.Emptied.of_books {r r' : Retained} (h : r.Emptied) (hb : r'.books = r.books) :
    r'.Emptied := by
  simp only [Retained.books, Books.mk.injEq] at hb
  obtain ⟨ha, hc, hf, ht, hd, hu⟩ := hb
  exact ⟨ha ▸ h.accounts, hc ▸ h.chains, hf ▸ h.free, ht ▸ h.floatTotal, hd ▸ h.day, hu ▸ h.unclaimed⟩

/-! The ledger. -/

/-- The balance a slot counts for. -/
def balanceOf : Option Account → Int
  | some a => a.balance
  | none => 0

theorem Retained.balanceSum_eq (r : Retained) : r.balanceSum = (r.accounts.map balanceOf).sum := by
  unfold Retained.balanceSum
  congr 1

/-- The sum of the balances after a slot has been written. -/
theorem sum_set_balance {l : List (Option Account)} {slot : Nat} {x : Option Account}
    (h : l[slot]? = some x) (y : Option Account) :
    ((l.set slot y).map balanceOf).sum = (l.map balanceOf).sum + (balanceOf y - balanceOf x) := by
  obtain ⟨hl, hg⟩ := List.getElem?_eq_some_iff.mp h
  rw [List.map_set, List.sum_set']
  simp only [List.length_map, hl, dif_pos, List.getElem_map, hg]
  omega

theorem SameRecords.sum_eq {l l' : List (Option Account)} (h : SameRecords l l') :
    (l'.map balanceOf).sum = (l.map balanceOf).sum := by
  have hb : balanceOf = balanceOf ∘ stateless := by funext x; cases x <;> rfl
  rw [hb, ← List.map_map, ← List.map_map, h]

/-- The ledger does not look at the states of the accounts. -/
theorem Retained.Ledger.restated {r r' : Retained} (h : r.Ledger)
    (ha : SameRecords r.accounts r'.accounts) (hf : r'.free = r.free)
    (ht : r'.floatTotal = r.floatTotal) : r'.Ledger where
  slots := by rw [ha.length_eq, h.slots]
  float := by rw [ht, h.float, Retained.balanceSum_eq, Retained.balanceSum_eq, ha.sum_eq]
  freeOnce := by rw [hf]; exact h.freeOnce
  freeSlots i := by rw [hf, ha.free_iff]; exact h.freeSlots i

/-- The ledger of an installation without accounts. -/
theorem Retained.Emptied.ledger {r : Retained} (h : r.Emptied) : r.Ledger where
  slots := by rw [h.accounts, List.length_replicate]
  float := by
    rw [Retained.balanceSum_eq, h.accounts, h.floatTotal, List.map_replicate, List.sum_replicate]
    rfl
  freeOnce := by rw [h.free]; exact List.nodup_range
  freeSlots i := by simp [h.free, h.accounts, List.getElem?_replicate]

/-- The ledger after a staged change. -/
theorem Retained.Ledger.rebooked {s : State} (h : s.ret.Ledger) {b : Books} (hb : s.Rebooked b)
    {r : Retained} (hr : r.books = b) : r.Ledger := by
  cases hb with
  | spared =>
    simp only [Retained.books, Books.mk.injEq] at hr
    obtain ⟨ha, _, hf, ht, _⟩ := hr
    exact h.restated (by rw [ha]; rfl) hf ht
  | updated slot a b live =>
    simp only [Retained.books, Books.mk.injEq] at hr
    obtain ⟨ha, _, hf, ht, _⟩ := hr
    have hs := getElem?_of_getD live
    refine ⟨by rw [ha, List.length_set, h.slots], ?_, by rw [hf]; exact h.freeOnce, fun i => ?_⟩
    · rw [Retained.balanceSum_eq, ha, sum_set_balance hs, ht, h.float, Retained.balanceSum_eq]
      rfl
    · rw [hf, h.freeSlots, ha, List.getElem?_set]
      split
      · subst_vars; rw [hs]; split <;> simp
      · rfl
  | opened slot rest b free =>
    simp only [Retained.books, Books.mk.injEq] at hr
    obtain ⟨ha, _, hf, ht, _⟩ := hr
    have hs : s.ret.accounts[slot]? = some none := (h.freeSlots slot).mp (by simp [free])
    have hn := h.freeOnce
    rw [free, List.nodup_cons] at hn
    refine ⟨by rw [ha, List.length_set, h.slots], ?_, by rw [hf]; exact hn.2, fun i => ?_⟩
    · rw [Retained.balanceSum_eq, ha, sum_set_balance hs, ht, h.float, Retained.balanceSum_eq]
      simp [balanceOf]
    · have hi := h.freeSlots i
      rw [free, List.mem_cons] at hi
      rw [hf, ha, List.getElem?_set]
      split
      · subst_vars
        simp [hn.1]
      · rw [← hi]
        have : i ≠ slot := Ne.symm ‹_›
        simp [this]
  | retired slot a live =>
    simp only [Retained.books, Books.mk.injEq] at hr
    obtain ⟨ha, _, hf, ht, _⟩ := hr
    have hs := getElem?_of_getD live
    have hslot : slot ∉ s.ret.free := fun hm => by
      have := (h.freeSlots slot).mp hm
      rw [hs] at this; cases this
    refine ⟨by rw [ha, List.length_set, h.slots], ?_, ?_, fun i => ?_⟩
    · rw [Retained.balanceSum_eq, ha, sum_set_balance hs, ht, h.float, Retained.balanceSum_eq]
      simp [balanceOf, Int.sub_eq_add_neg]
    · rw [hf]
      exact List.nodup_append.mpr ⟨h.freeOnce, by simp, fun x hx y hy he => by
        rw [List.mem_singleton.mp hy] at he
        exact hslot (he ▸ hx)⟩
    · rw [hf, ha, List.getElem?_set, List.mem_append, h.freeSlots]
      have : slot < s.ret.accounts.length := live_lt live
      by_cases hi : slot = i
      · subst hi; simp [this]
      · simp [hi, Ne.symm hi]
  | wiped => exact (s.ret.emptied_wiped.of_books hr).ledger

/-- Every staged change keeps the ledger. -/
theorem keptByChanges_ledger : KeptByChanges Retained.Ledger where
  control _ _ _ _ h := h.restated rfl rfl rfl
  station s p f h := h.rebooked (s.rebooked_station p f) rfl
  supervisor s r h := h.rebooked (s.rebooked_supervisor r) rfl
  drain r slot h := h.restated (sameRecords_acctState r slot _) rfl rfl
  cold := Retained.emptied_cold.ledger

/-! The directory. -/

/-- The directory does not look at the states of the accounts. -/
theorem Retained.Directory.restated {r r' : Retained} (h : r.Directory)
    (ha : SameRecords r.accounts r'.accounts) (hc : r'.chains = r.chains) (hf : r'.free = r.free) :
    r'.Directory where
  buckets := by rw [hc, h.buckets]
  once b := by rw [hc]; exact h.once b
  onChain b i := by
    rw [hc, h.onChain]
    constructor
    · rintro ⟨a, hl, hb⟩
      obtain ⟨x, hx, he⟩ := ha.symm.live hl
      exact ⟨x, hx, by rw [he] at hb; exact hb⟩
    · rintro ⟨a, hl, hb⟩
      obtain ⟨x, hx, he⟩ := ha.live hl
      exact ⟨x, hx, by rw [he] at hb; exact hb⟩
  keys i j a b hi hj hk := by
    obtain ⟨x, hx, ex⟩ := ha.live hi
    obtain ⟨y, hy, ey⟩ := ha.live hj
    exact h.keys i j x y hx hy (by rw [ex, ey] at hk; exact hk)
  freeOnce := by rw [hf]; exact h.freeOnce
  freeSlots i hi := by rw [ha.free_iff]; exact h.freeSlots i (hf ▸ hi)

/-- The directory of an installation without accounts. -/
theorem Retained.Emptied.directory {r : Retained} (h : r.Emptied) : r.Directory := by
  obtain ⟨ha, hc, hf, _⟩ := h
  have hlive : ∀ i a, r.accounts.getD i none ≠ some a := by
    intro i a
    rw [ha, List.getD_eq_getElem?_getD, List.getElem?_replicate]
    split <;> simp
  have hchain : ∀ b, r.chains.getD b [] = [] := by
    intro b
    rw [hc, List.getD_eq_getElem?_getD, List.getElem?_replicate]
    split <;> rfl
  refine ⟨by rw [hc, List.length_replicate], fun b => ?_, fun b i => ?_, fun i j a b hi => ?_, ?_,
    fun i hi => ?_⟩
  · rw [hchain]; exact List.nodup_nil
  · rw [hchain]
    simp only [List.not_mem_nil, false_iff]
    rintro ⟨a, hl, _⟩
    exact hlive i a hl
  · exact absurd hi (hlive i a)
  · rw [hf]; exact List.nodup_range
  · rw [hf, List.mem_range] at hi
    rw [ha, List.getElem?_replicate, if_pos hi]

/-- The chain of a bucket after a chain of the directory has been written. -/
theorem getD_set_chain {l : List (List Nat)} {bucket : Nat} (h : bucket < l.length) (x : List Nat)
    (b : Nat) : (l.set bucket x).getD b [] = if b = bucket then x else l.getD b [] := by
  rw [List.getD_eq_getElem?_getD, List.getElem?_set, List.getD_eq_getElem?_getD]
  by_cases hb : bucket = b
  · subst hb; simp [h]
  · simp [hb, Ne.symm hb]

theorem bucketOf_lt (key : Nat) : bucketOf key < Config.buckets := Nat.mod_lt _ (by decide)

/-- A slot that the lookup finds is on the chain of the key, and holds it (R36). -/
theorem State.lookup_some {s : State} {key slot : Nat} (h : s.lookup key = some slot) :
    slot ∈ s.chain (bucketOf key) ∧ ∃ a, s.Live slot a ∧ a.key = key := by
  have hp := List.find?_some h
  refine ⟨List.mem_of_find?_eq_some h, ?_⟩
  cases ha : s.account? slot with
  | none => simp [ha] at hp
  | some a => exact ⟨a, ha, by simpa [ha] using hp⟩

/-- A key that the lookup does not find is no live account's (R36). -/
theorem State.lookup_none {s : State} {key : Nat} (hd : s.ret.Directory) (h : s.lookup key = none)
    {slot : Nat} {a : Account} (hl : s.Live slot a) : a.key ≠ key := by
  rintro rfl
  have hc : slot ∈ s.chain (bucketOf a.key) := (hd.onChain _ _).mpr ⟨a, hl, rfl⟩
  have hx := List.find?_eq_none.mp h slot hc
  have hl' : s.account? slot = some a := hl
  simp [hl'] at hx

/-- The directory after a staged change. -/
theorem Retained.Directory.rebooked {s : State} (h : s.ret.Directory) {b : Books} (hb : s.Rebooked b)
    {r : Retained} (hr : r.books = b) : r.Directory := by
  cases hb with
  | spared =>
    simp only [Retained.books, Books.mk.injEq] at hr
    obtain ⟨ha, hc, hf, _⟩ := hr
    exact h.restated (by rw [ha]; rfl) hc hf
  | updated slot a b live key =>
    simp only [Retained.books, Books.mk.injEq] at hr
    obtain ⟨ha, hc, hf, _⟩ := hr
    -- a live slot of the new table holds a record of the old one with the same key
    have hlive : ∀ {i x}, r.accounts.getD i none = some x →
        ∃ y, s.ret.accounts.getD i none = some y ∧ y.key = x.key := by
      intro i x hx
      rw [ha, getD_set_eq_some] at hx
      obtain ⟨rfl, _, hx⟩ | ⟨_, hx⟩ := hx
      · cases hx; exact ⟨a, live, key.symm⟩
      · exact ⟨x, hx, rfl⟩
    refine ⟨by rw [hc, h.buckets], fun c => by rw [hc]; exact h.once c, fun c i => ?_,
      fun i j x y hi hj hk => ?_, by rw [hf]; exact h.freeOnce, fun i hi => ?_⟩
    · rw [hc, h.onChain, ha]
      constructor
      · rintro ⟨x, hx, hb⟩
        by_cases hi : i = slot
        · subst hi
          have : x = a := by have hl : s.ret.accounts.getD i none = some a := live; simp_all
          subst this
          exact ⟨b, getD_set_self live, by rw [key]; exact hb⟩
        · exact ⟨x, getD_set_eq_some.mpr (.inr ⟨hi, hx⟩), hb⟩
      · rintro ⟨x, hx, hb⟩
        obtain ⟨y, hy, hk⟩ := hlive (by rw [ha]; exact hx)
        exact ⟨y, hy, by rw [hk]; exact hb⟩
    · obtain ⟨x', hx', kx⟩ := hlive hi
      obtain ⟨y', hy', ky⟩ := hlive hj
      exact h.keys i j x' y' hx' hy' (by rw [kx, ky]; exact hk)
    · have := h.freeSlots i (hf ▸ hi)
      have hne : slot ≠ i := by
        rintro rfl
        rw [getElem?_of_getD live] at this; cases this
      rw [ha, List.getElem?_set_ne hne]
      exact this
  | opened slot rest b free unknown =>
    simp only [Retained.books, Books.mk.injEq] at hr
    obtain ⟨ha, hc, hf, _⟩ := hr
    have hs : s.ret.accounts[slot]? = some none := h.freeSlots slot (by simp [free])
    have hlt : slot < s.ret.accounts.length := (List.getElem?_eq_some_iff.mp hs).1
    have hfree : ∀ x, s.ret.accounts.getD slot none ≠ some x := by
      intro x hx
      rw [getElem?_of_getD hx] at hs; cases hs
    have hn := h.freeOnce
    rw [free, List.nodup_cons] at hn
    have hbk : bucketOf b.key < s.ret.chains.length := by rw [h.buckets]; exact bucketOf_lt _
    have hout : slot ∉ s.chain (bucketOf b.key) := fun hm => by
      obtain ⟨x, hx, _⟩ := (h.onChain _ _).mp hm
      exact hfree x hx
    refine ⟨by rw [hc, List.length_set, h.buckets], fun c => ?_, fun c i => ?_,
      fun i j x y hi hj hk => ?_, by rw [hf]; exact hn.2, fun i hi => ?_⟩
    · rw [hc, getD_set_chain hbk]
      split
      · exact List.nodup_append.mpr ⟨h.once _, by simp, fun x hx y hy he => by
          rw [List.mem_singleton.mp hy] at he
          exact hout (he ▸ hx)⟩
      · exact h.once c
    · rw [hc, getD_set_chain hbk, ha]
      simp only [getD_set_eq_some]
      by_cases hb : c = bucketOf b.key
      · subst hb
        rw [if_pos rfl, List.mem_append, List.mem_singleton]
        constructor
        · rintro (hm | rfl)
          · obtain ⟨x, hx, he⟩ := (h.onChain _ _).mp hm
            exact ⟨x, .inr ⟨fun hi => hout (hi ▸ hm), hx⟩, he⟩
          · exact ⟨b, .inl ⟨rfl, hlt, rfl⟩, rfl⟩
        · rintro ⟨x, ⟨rfl, _⟩ | ⟨_, hx⟩, he⟩
          · exact .inr rfl
          · exact .inl ((h.onChain _ _).mpr ⟨x, hx, he⟩)
      · rw [if_neg hb, h.onChain]
        constructor
        · rintro ⟨x, hx, he⟩
          exact ⟨x, .inr ⟨fun hi => hfree x (hi ▸ hx), hx⟩, he⟩
        · rintro ⟨x, ⟨_, _, hx⟩ | ⟨_, hx⟩, he⟩
          · cases hx; exact absurd he.symm hb
          · exact ⟨x, hx, he⟩
    · rw [ha, getD_set_eq_some] at hi hj
      obtain ⟨rfl, _, ex⟩ | ⟨_, hi⟩ := hi <;> obtain ⟨rfl, _, ey⟩ | ⟨_, hj⟩ := hj
      · rfl
      · cases ex; exact absurd hk.symm (State.lookup_none h unknown hj)
      · cases ey; exact absurd hk (State.lookup_none h unknown hi)
      · exact h.keys i j x y hi hj hk
    · rw [hf] at hi
      have hne : slot ≠ i := fun he => hn.1 (he ▸ hi)
      rw [ha, List.getElem?_set_ne hne]
      exact h.freeSlots i (by simp [free, hi])
  | retired slot a live =>
    simp only [Retained.books, Books.mk.injEq] at hr
    obtain ⟨ha, hc, hf, _⟩ := hr
    have hlt : slot < s.ret.accounts.length := live_lt live
    have hbk : bucketOf a.key < s.ret.chains.length := by rw [h.buckets]; exact bucketOf_lt _
    have hslot : slot ∉ s.ret.free := fun hm => by
      have := h.freeSlots slot hm
      rw [getElem?_of_getD live] at this; cases this
    refine ⟨by rw [hc, List.length_set, h.buckets], fun c => ?_, fun c i => ?_,
      fun i j x y hi hj hk => ?_, ?_, fun i hi => ?_⟩
    · rw [hc, getD_set_chain hbk]
      split
      · exact (h.once _).erase _
      · exact h.once c
    · rw [hc, getD_set_chain hbk, ha]
      simp only [getD_set_eq_some, reduceCtorEq, and_false, false_or]
      by_cases hb : c = bucketOf a.key
      · subst hb
        have hm : ∀ j, j ∈ (s.chain (bucketOf a.key)).erase slot ↔ j ≠ slot ∧
            j ∈ s.ret.chains.getD (bucketOf a.key) [] := fun j => (h.once _).mem_erase_iff
        rw [if_pos rfl, hm]
        constructor
        · rintro ⟨hi, hm⟩
          obtain ⟨x, hx, he⟩ := (h.onChain _ _).mp hm
          exact ⟨x, ⟨hi, hx⟩, he⟩
        · rintro ⟨x, ⟨hi, hx⟩, he⟩
          exact ⟨hi, (h.onChain _ _).mpr ⟨x, hx, he⟩⟩
      · rw [if_neg hb, h.onChain]
        constructor
        · rintro ⟨x, hx, he⟩
          refine ⟨x, ⟨?_, hx⟩, he⟩
          rintro rfl
          have hl : s.ret.accounts.getD i none = some a := live
          rw [hl] at hx
          cases hx
          exact hb he.symm
        · rintro ⟨x, ⟨_, hx⟩, he⟩
          exact ⟨x, hx, he⟩
    · rw [ha] at hi hj
      simp only [getD_set_eq_some, reduceCtorEq, and_false, false_or] at hi hj
      exact h.keys i j x y hi.2 hj.2 hk
    · rw [hf]
      exact List.nodup_append.mpr ⟨h.freeOnce, by simp, fun x hx y hy he => by
        rw [List.mem_singleton.mp hy] at he
        exact hslot (he ▸ hx)⟩
    · rw [hf, List.mem_append, List.mem_singleton] at hi
      rw [ha, List.getElem?_set]
      obtain hi | rfl := hi
      · have hne : slot ≠ i := fun he => hslot (he ▸ hi)
        rw [if_neg hne]
        exact h.freeSlots i hi
      · simp [hlt]
  | wiped => exact (s.ret.emptied_wiped.of_books hr).directory

/-- Every staged change keeps the directory. -/
theorem keptByChanges_directory : KeptByChanges Retained.Directory where
  control _ _ _ _ h := h.restated rfl rfl rfl
  station s p f h := h.rebooked (s.rebooked_station p f) rfl
  supervisor s r h := h.rebooked (s.rebooked_supervisor r) rfl
  drain r slot h := h.restated (sameRecords_acctState r slot _) rfl rfl
  cold := Retained.emptied_cold.directory

/-! The reply caches. -/

/-- A reply cache's own condition (R132). -/
def CacheOk (l : List CacheEntry) : Prop :=
  l.length ≤ Config.replyCache ∧ (l.map (·.seq)).Nodup ∧ ∀ e ∈ l, e.seq ≠ 0

/-- An answer under a nonzero sequence number entered as the newest entry (R132). -/
theorem CacheOk.enter {l : List CacheEntry} (h : CacheOk l) {e : CacheEntry} (he : e.seq ≠ 0) :
    CacheOk (enterCache l e) := by
  obtain ⟨hlen, hnodup, hseq⟩ := h
  -- the entries that stay: at most one, of another sequence number
  have hstay : ∀ m : List CacheEntry, m.Sublist (l.filter (·.seq != e.seq)) →
      m.length < Config.replyCache → CacheOk (m ++ [e]) := by
    intro m hm hl
    have hmem : ∀ x ∈ m, x ∈ l ∧ x.seq ≠ e.seq := fun x hx => by
      simpa using List.mem_filter.mp (hm.subset hx)
    refine ⟨by simpa using hl, ?_, fun x hx => ?_⟩
    · rw [List.map_append]
      refine List.nodup_append.mpr ⟨?_, by simp, ?_⟩
      · exact hnodup.sublist ((hm.trans List.filter_sublist).map _)
      · intro x hx y hy
        obtain ⟨z, hz, rfl⟩ := List.mem_map.mp hx
        simp only [List.map_cons, List.map_nil, List.mem_singleton] at hy
        rw [hy]
        exact (hmem z hz).2
    · obtain hx | hx := List.mem_append.mp hx
      · exact hseq x (hmem x hx).1
      · rw [List.mem_singleton.mp hx]; exact he
  unfold enterCache
  dsimp only
  have hf : (l.filter (·.seq != e.seq)).length ≤ Config.replyCache :=
    (List.length_filter_le _ _).trans hlen
  split
  · exact hstay _ (List.Sublist.refl _) ‹_›
  · refine hstay _ (List.drop_sublist _ _) ?_
    rw [List.length_drop]
    simp only [Config.replyCache] at *
    omega

/-- Reply caches as they were. -/
theorem Retained.ReplyCaches.of_eq {r r' : Retained} (h : r.ReplyCaches)
    (hc : r'.caches = r.caches) : r'.ReplyCaches := by
  unfold Retained.ReplyCaches
  rw [hc]
  exact h

/-- Empty reply caches. -/
theorem Retained.ReplyCaches.empty {r : Retained} (hc : r.caches = Four.all []) : r.ReplyCaches := by
  intro p
  rw [hc, Four.get_all]
  exact ⟨Nat.zero_le _, List.nodup_nil, fun e he => nomatch he⟩

/-- What a supervisor request other than WIPE records leaves the reply caches. -/
theorem judge_sparesCaches (s : State) (r : SupervisorRequest) (h : r ≠ .wipe) :
    (r.judge s).writes.all RetWrite.sparesCaches = true := by
  have hd := holdEndDrain_sparesCaches s
  have hb := balanceEvent_sparesCaches s
  have hport : ∀ p c, (portWrites p c).all RetWrite.sparesCaches = true := by
    intro p c
    unfold portWrites
    cases c.rightsChange == 1 <;> cases c.rateChange == 1 <;> rfl
  cases r with
  | wipe => exact absurd rfl h
  | setTerms key clsChange cls floorChange floor veChange ve passChange zones passEnd =>
    simp only [SupervisorRequest.judge, judgeSetTerms]
    repeat' split
    all_goals rfl
  | tariffBegin =>
    cases hs : s.ret.standbyBank <;> simp [SupervisorRequest.judge, judgeTariffBegin, hs,
      RetWrite.sparesCaches, List.all_map]
  | setParameters hlChange holdLimit ptChange pinTime ports =>
    simp only [SupervisorRequest.judge, judgeSetParameters]
    split
    · rfl
    · simp only [List.all_append, hport]
      cases hlChange == 1 <;> cases ptChange == 1 <;> rfl
  | credit =>
    simp only [SupervisorRequest.judge, judgeCredit]
    repeat' split
    all_goals simp only [report, List.all_nil, hb]
  | debit =>
    simp only [SupervisorRequest.judge, judgeDebit]
    repeat' split
    all_goals simp only [report, List.all_nil, hb]
  | cancelHold =>
    simp only [SupervisorRequest.judge, judgeCancelHold]
    repeat' split
    all_goals simp only [report, List.all_nil, hd]
  | readAccount | enumerate | readTariffRow | status | readParameters | bad =>
    rw [(judge_of_free rfl s).1]
    rfl
  | _ =>
    simp only [SupervisorRequest.judge, judgeOpenAccount, judgeSuspend, judgeResume, judgeMove,
      judgeRetire, judgeConfirmRetire, judgeDayRoll, judgeClearUnclaimed, judgeTariffRow,
      judgeTariffCap, judgeTariffCommit, judgeClearBackupFlag]
    repeat' split
    all_goals rfl

/-- Every staged change keeps the reply caches. -/
theorem keptByChanges_replyCaches : KeptByChanges Retained.ReplyCaches where
  control _ _ _ _ h := h.of_eq rfl
  station s p f h := by
    have hkeep : ∀ v : Verdict, v.writes.all RetWrite.sparesCaches = true →
        (applyRets (withCache p f v s).writes s.ret).ReplyCaches := by
      intro v hv
      have hc := applyRets_caches hv s.ret
      unfold withCache
      split
      · exact h.of_eq hc
      · rename_i h0
        rw [applyRets_append]
        intro q
        show CacheOk (((applyRets v.writes s.ret).caches.set p _).get q)
        rw [hc, Four.get_set]
        split
        · exact CacheOk.enter (h p) h0
        · exact h q
    unfold stationOutcome
    split
    · exact hkeep _ rfl
    · split
      · split <;> exact h
      · exact hkeep _ (ladder_sparesCaches _ _ _)
  supervisor s r h := by
    by_cases hr : r = .wipe
    · subst hr
      exact .empty rfl
    · exact h.of_eq (applyRets_caches (judge_sparesCaches s r hr) s.ret)
  drain _ _ h := h.of_eq rfl
  cold := .empty rfl

/-! The statements. -/

/-- Settles O55: each staged change keeps the ledger (`Retained.Ledger.rebooked`), and the drains of the
start-up check move no balance. -/
theorem everyStepKeepsTheLedger : Obligations.EveryStepKeepsTheLedger := fun _ _ h hst =>
  step_keeps keptByChanges_ledger (fun r hr => hr.restated (sameRecords_drainAll r) rfl rfl) h hst

/-- Settles O56: each staged change keeps the directory (`Retained.Directory.rebooked`). -/
theorem everyStepKeepsTheDirectory : Obligations.EveryStepKeepsTheDirectory := fun _ _ h hst =>
  step_keeps keptByChanges_directory (fun r hr => hr.restated (sameRecords_drainAll r) rfl rfl) h hst

/-- Settles O58: an entry made under a nonzero sequence number keeps its cache (`CacheOk.enter`), and no
other recorded value but WIPE goes to one. -/
theorem everyStepKeepsTheReplyCaches : Obligations.EveryStepKeepsTheReplyCaches := fun _ _ h hst =>
  step_keeps keptByChanges_replyCaches (fun _ hr => hr.of_eq rfl) h hst

end Sys2Proof.Machine
end

section
/-! PROOFS. The records stay in range: the one request that could take a balance below its floor is a CAPTURE,
and it is held off by the funds behind every hold, which an event that stages nothing leaves behind them. -/

namespace Sys2Proof.Machine

/-! The funds behind the holds. -/

/-- The amounts held on a slot. -/
def heldOn (pool : List Hold) (slot : Nat) : Nat := ((pool.filter (·.slot == slot)).map (·.amount)).sum

/-- Balance + floor − held is at least 0 (R9). -/
def Funded (r : Retained) (pool : List Hold) : Prop :=
  ∀ i a, r.accounts.getD i none = some a → (heldOn pool i : Int) ≤ a.balance + a.floor

/-- Fewer holds hold no more. -/
theorem heldOn_le_of_sublist {l m : List Hold} (h : l.Sublist m) (slot : Nat) :
    heldOn l slot ≤ heldOn m slot :=
  ((h.filter _).map _).sum_le_sum fun _ _ => Nat.zero_le _

theorem Funded.sublist {r : Retained} {l m : List Hold} (hf : Funded r m) (h : l.Sublist m) :
    Funded r l := fun i a ha => by
  have := heldOn_le_of_sublist h i
  have := hf i a ha
  omega

/-- One hold holds no more than all on its slot. -/
theorem amount_le_heldOn {pool : List Hold} {h : Hold} (hm : h ∈ pool) :
    h.amount ≤ heldOn pool h.slot :=
  List.single_le_sum (fun _ _ => Nat.zero_le _) _
    (List.mem_map_of_mem (List.mem_filter.mpr ⟨hm, by simp⟩))

/-- A hold made with the funds for it. -/
theorem Funded.addHold {s : State} (hf : Funded s.ret s.main.pool) {h : Hold} {a : Account}
    (hl : s.Live h.slot a) (ha : (h.amount : Int) ≤ s.available h.slot a) :
    Funded s.ret (s.main.pool ++ [h]) := by
  intro i b hb
  have hsum : heldOn (s.main.pool ++ [h]) i = heldOn s.main.pool i + if h.slot = i then h.amount else 0 := by
    by_cases hi : h.slot = i <;> simp [heldOn, hi]
  have hi := hf i b hb
  rw [hsum]
  split
  · rename_i hs
    subst hs
    have hab : s.ret.accounts.getD h.slot none = some a := hl
    rw [hab] at hb
    cases hb
    have : s.available h.slot a = a.balance + a.floor - heldOn s.main.pool h.slot := rfl
    omega
  · omega

/-- A main-memory effect other than a new hold. -/
def MainWrite.addsNone : MainWrite → Bool
  | .addHold _ => false
  | _ => true

/-- Effects that make no hold leave some of the holds. -/
theorem Main.effects_pool_sublist {ms : List MainWrite} (h : ∀ w ∈ ms, w.addsNone = true) (m : Main) :
    (m.effects ms).pool.Sublist m.pool := by
  induction ms generalizing m with
  | nil => exact List.Sublist.refl _
  | cons w ms ih =>
    refine (ih (fun x hx => h x (List.mem_cons_of_mem _ hx)) (applyMain w m)).trans ?_
    have hw := h w List.mem_cons_self
    cases w with
    | addHold => cases hw
    | dropHold => exact List.filter_sublist
    | wipe => exact List.nil_sublist _
    | _ => exact List.Sublist.refl _

/-- The main-memory effects of a verdict: no new hold, or the one of a HOLD with the funds for it. -/
def State.Backed (s : State) (ms : List MainWrite) : Prop :=
  (∀ w ∈ ms, w.addsNone = true) ∨ ∃ h a v i, s.Live h.slot a ∧
    (h.amount : Int) ≤ s.available h.slot a ∧ ms = [.addHold h, .nextId v, .forgetEnd i]

theorem State.Backed.nil (s : State) : s.Backed [] := .inl fun _ h => nomatch h

/-- Backed effects keep the funds behind the holds. -/
theorem Funded.effects {s : State} (hf : Funded s.ret s.main.pool) {ms : List MainWrite}
    (hb : s.Backed ms) : Funded s.ret (s.main.effects ms).pool := by
  obtain hn | ⟨h, a, v, i, hl, ha, rfl⟩ := hb
  · exact hf.sublist (Main.effects_pool_sublist hn _)
  · exact hf.addHold hl ha

/-- A HOLD that passes its checks has the funds for it (R81). -/
theorem State.backed_judgeHold (s : State) (p : Port) (amount lifetime : Nat) (trial : Bool) :
    s.Backed (judgeHold p amount lifetime trial s).mains := by
  unfold judgeHold
  split
  · exact .nil s
  · rename_i slot key a hc
    obtain ⟨_, hl⟩ := State.cursorAccount_ok hc
    dsimp only
    split
    · exact .nil s
    · rename_i hr
      dsimp only
      split
      · exact .nil s
      · refine .inr ⟨_, a, _, _, hl, ?_, rfl⟩
        unfold State.holdRefusal at hr
        split at hr
        · cases hr
        · split at hr
          · cases hr
          · split at hr
            · cases hr
            · dsimp only; omega

/-- The effects of a station request's ladder and own checks. -/
theorem State.backed_ladder (s : State) (r : StationRequest) (p : Port) :
    s.Backed (r.ladder p s).mains := by
  unfold StationRequest.ladder
  split
  · exact .nil s
  · split
    · exact .nil s
    · cases r with
      | hold => exact s.backed_judgeHold ..
      | _ =>
        refine .inl ?_
        simp only [StationRequest.judge, judgeSelect, judgeBalance, judgeStationStatus, judgePin,
          judgeUnpin, judgeFare, judgeCapture, judgeRelease, judgeTopUp, report]
        repeat' split
        all_goals simp [MainWrite.addsNone]

/-- The effects of a station request. -/
theorem State.backed_station (s : State) (p : Port) (f : StationFrame) :
    s.Backed (stationOutcome p f s).verdict.mains := by
  have hcache : ∀ v : Verdict, (withCache p f v s).mains = v.mains := by
    intro v; unfold withCache; split <;> rfl
  unfold stationOutcome
  split
  · rw [hcache]; exact .nil s
  · split
    · split <;> exact .nil s
    · rw [hcache]; exact s.backed_ladder _ p

/-- What stands of a station request that a session reset may have dropped. -/
theorem State.backed_standing (s : State) (p : Port) (h : InHand) :
    s.Backed (h.standing (stationOutcome p h.frame (s.judgedFor p h)).verdict.mains) := by
  have hb := (s.judgedFor p h).backed_station p h.frame
  have hlive : ∀ slot a, (s.judgedFor p h).Live slot a ↔ s.Live slot a := fun slot a => by
    simp only [State.Live, State.account?, State.judgedFor_ret]
  have hav : ∀ slot a, (s.judgedFor p h).available slot a = s.available slot a := fun slot a => by
    simp only [State.available, State.held, State.holdsOn, State.judgedFor_pool]
  obtain hn | ⟨g, a, v, i, hl, ha, he⟩ := hb
  · refine .inl fun w hw => hn w ?_
    unfold InHand.standing at hw
    split at hw
    · exact (List.mem_filter.mp hw).1
    · exact hw
  · refine .inr ⟨g, a, v, i, (hlive _ _).mp hl, hav _ _ ▸ ha, ?_⟩
    rw [he]
    unfold InHand.standing
    split <;> rfl

/-- The effects of a supervisor request. -/
theorem State.backed_supervisor (s : State) (r : SupervisorRequest) : s.Backed (r.judge s).mains := by
  refine .inl ?_
  cases r with
  | readAccount | enumerate | readTariffRow | status | readParameters | bad =>
    rw [(judge_of_free rfl s).2]
    simp
  | _ =>
    simp only [SupervisorRequest.judge, judgeOpenAccount, judgeSetTerms, judgeSuspend, judgeResume,
      judgeMove, judgeRetire, judgeConfirmRetire, judgeDayRoll, judgeCredit, judgeDebit,
      judgeClearUnclaimed, judgeCancelHold, judgeTariffBegin, judgeTariffRow, judgeTariffCap,
      judgeTariffCommit, judgeSetParameters, judgeClearBackupFlag, judgeWipe, report]
    repeat' split
    all_goals simp [MainWrite.addsNone]

/-! Records in range. -/

/-- The records do not look at the states of the accounts. -/
theorem Retained.Records.restated {r r' : Retained} (h : r.Records)
    (ha : SameRecords r.accounts r'.accounts) (hd : r'.day = r.day) (hu : r'.unclaimed = r.unclaimed) :
    r'.Records where
  day := by rw [hd]; exact h.day
  unclaimed := by rw [hu]; exact h.unclaimed
  inRange i a hi := by
    obtain ⟨b, hb, he⟩ := ha.live hi
    rw [he, hd]
    exact (h.inRange i b hb).withState _

theorem Retained.Emptied.records {r : Retained} (h : r.Emptied) : r.Records where
  day := by rw [h.day]; decide
  unclaimed := by rw [h.unclaimed]; exact Nat.zero_le _
  inRange i a hi := by
    rw [h.accounts, List.getD_eq_getElem?_getD, List.getElem?_replicate] at hi
    split at hi <;> cases hi

/-- A record in range on a day is in range on the next. -/
theorem Account.InRange.later {a : Account} {d d' : Nat} (h : a.InRange d) (hd : d ≤ d') :
    a.InRange d' := { h with spendDay := ⟨h.spendDay.1, h.spendDay.2.trans hd⟩ }

/-- The records after a staged change, with the funds behind the holds. -/
theorem Retained.Records.rebooked {s : State} (h : s.ret.Records) (hf : Funded s.ret s.main.pool)
    {b : Books} (hb : s.Rebooked b) {r : Retained} (hr : r.books = b) : r.Records := by
  cases hb with
  | spared day unclaimed hday hun =>
    simp only [Retained.books, Books.mk.injEq] at hr
    obtain ⟨ha, _, _, _, hd, hu⟩ := hr
    have hle : s.ret.day ≤ day := by obtain rfl | ⟨_, rfl⟩ := hday <;> omega
    have hmax := h.day
    refine ⟨?_, hu ▸ hun.trans h.unclaimed, fun i a hi => ?_⟩
    · rw [hd]
      simp only [Config.maxWord] at *
      omega
    · rw [ha] at hi
      rw [hd]
      exact (h.inRange i a hi).later hle
  | updated slot a b live key range =>
    simp only [Retained.books, Books.mk.injEq] at hr
    obtain ⟨ha, _, _, _, hd, hu⟩ := hr
    refine ⟨hd ▸ h.day, hu ▸ h.unclaimed, fun i x hi => ?_⟩
    rw [ha, getD_set_eq_some] at hi
    rw [hd]
    obtain ⟨rfl, _, hx⟩ | ⟨_, hx⟩ := hi
    · cases hx
      refine range (fun g hg hs => ?_) (h.inRange _ _ live)
      have := amount_le_heldOn hg
      have := hf i a live
      subst hs
      omega
    · exact h.inRange i x hx
  | opened slot rest b free unknown range =>
    simp only [Retained.books, Books.mk.injEq] at hr
    obtain ⟨ha, _, _, _, hd, hu⟩ := hr
    refine ⟨hd ▸ h.day, hu ▸ h.unclaimed, fun i x hi => ?_⟩
    rw [ha, getD_set_eq_some] at hi
    rw [hd]
    obtain ⟨_, _, hx⟩ | ⟨_, hx⟩ := hi
    · cases hx; exact range h.day.1
    · exact h.inRange i x hx
  | retired slot a live room =>
    simp only [Retained.books, Books.mk.injEq] at hr
    obtain ⟨ha, _, _, _, hd, hu⟩ := hr
    refine ⟨hd ▸ h.day, hu ▸ room, fun i x hi => ?_⟩
    rw [ha, getD_set_eq_some] at hi
    rw [hd]
    obtain ⟨_, _, hx⟩ | ⟨_, hx⟩ := hi
    · cases hx
    · exact h.inRange i x hx
  | wiped => exact (s.ret.emptied_wiped.of_books hr).records

end Sys2Proof.Machine
end

section
/-! PROOFS. A condition on the whole state that the part's operations keep is kept by every step. -/

namespace Sys2Proof.Machine

/-- Two states that differ in what a link has received, a pending frame, the session flags, a cursor or a pin,
MISO, the clock or the queue alone. -/
structure Quiet (s t : State) : Prop where
  stands : Stands s t
  ret : t.ret = s.ret
  holder : t.main.holder = s.main.holder
  waiting : t.main.waiting = s.main.waiting
  pool : t.main.pool = s.main.pool
  inHand : ∀ p, (t.session p).inHand = (s.session p).inHand
  link : ∀ p, (t.link p).outstanding = (s.link p).outstanding ∧ (t.link p).tx = (s.link p).tx
  sup : t.main.sup.state = s.main.sup.state ∧ t.main.sup.request = s.main.sup.request ∧
    t.main.sup.answer = s.main.sup.answer

/-- A station link that changes in neither OUTSTANDING nor its transmit state. -/
theorem Quiet.setLink (s : State) (p : Port) {x : Link} (ho : x.outstanding = (s.link p).outstanding)
    (ht : x.tx = (s.link p).tx) : Quiet s (s.setLink p x) where
  stands := ⟨rfl, rfl, rfl⟩
  ret := rfl
  holder := rfl
  waiting := rfl
  pool := rfl
  inHand _ := rfl
  link q := by
    simp only [State.link, State.setLink_main_links, Four.get_set]
    split
    · subst_vars; exact ⟨ho, ht⟩
    · exact ⟨rfl, rfl⟩
  sup := ⟨rfl, rfl, rfl⟩

/-- MISO carries bytes. -/
theorem Quiet.driveMiso (s : State) (bytes : List Byte) : Quiet s (s.driveMiso bytes) :=
  ⟨⟨rfl, rfl, rfl⟩, rfl, rfl, rfl, rfl, fun _ => rfl, fun _ => ⟨rfl, rfl⟩, rfl, rfl, rfl⟩

/-- A frame is lost to a full pending slot. -/
theorem Quiet.overrun (s : State) (p : Port) :
    Quiet s (s.setSession p { s.session p with overrun := true }) where
  stands := ⟨rfl, rfl, rfl⟩
  ret := rfl
  holder := rfl
  waiting := rfl
  pool := rfl
  inHand q := by
    simp only [State.session, State.setSession_main_sessions, Four.get_set]
    split
    · subst_vars; rfl
    · rfl
  link _ := ⟨rfl, rfl⟩
  sup := ⟨rfl, rfl, rfl⟩

/-- The clock advances leave all but the clock. -/
theorem catchUpN_frame (n : Nat) (m : Main) : (catchUpN n m).links = m.links ∧
    (catchUpN n m).sessions = m.sessions ∧ (catchUpN n m).pool = m.pool ∧
    (catchUpN n m).sup = m.sup ∧ (catchUpN n m).holder = m.holder ∧
    (catchUpN n m).waiting = m.waiting := by
  induction n generalizing m with
  | zero => exact ⟨rfl, rfl, rfl, rfl, rfl, rfl⟩
  | succ n ih =>
    unfold catchUpN
    split
    · exact ⟨rfl, rfl, rfl, rfl, rfl, rfl⟩
    · exact ih _

/-- An advance of the clock, made or deferred (R74). -/
theorem Quiet.clock (s : State) (n : Nat) :
    Quiet s { s with main := { s.main with clockOwed := n }.catchUp } := by
  obtain ⟨hl, hs, hp, hu, hh, hw⟩ := catchUpN_frame n { s.main with clockOwed := n }
  refine ⟨⟨rfl, rfl, rfl⟩, rfl, hh, hw, hp, fun p => ?_, fun p => ?_, ?_⟩
  · exact congrArg (fun x : Four Session => (x.get p).inHand) hs
  · exact ⟨congrArg (fun x : Four Link => (x.get p).outstanding) hl,
      congrArg (fun x : Four Link => (x.get p).tx) hl⟩
  · exact ⟨congrArg SupLink.state hu, congrArg SupLink.request hu, congrArg SupLink.answer hu⟩

/-- The supervisor link with a request that a good frame has brought (R192). -/
def State.askedBy (s : State) (r : SupervisorRequest) (bytes : List Byte) : State :=
  s.setSup { s.main.sup with
    state := .requestPending, requestBuffer := bytes, request := some r, answer := none }

/-- The commands of the supplies and of RESET_N. -/
def isSupply : Instr → Bool
  | .powerLoss | .vbatLoss | .powerReturn | .resetAssert | .resetRelease | .vbatReturn => true
  | _ => false

/-- A condition on the state that handing frames over and giving the area on keep. -/
structure KeptByHanding (I : State → Prop) : Prop where
  quiet : ∀ {s t}, Quiet s t → I s → I t
  handOver : ∀ {s} p f, s.running = true → (s.link p).outstanding = false → I s →
    I (s.handOver p f)
  take : ∀ {s} e rest, s.running = true → s.main.holder = none → s.main.waiting = e :: rest → I s →
    I ((s.withWaiting rest).takeWaiting e)

/-- A condition on the state that the part's operations keep. The end of a staged change is left to the one
who has the condition. -/
structure KeptByOperations (I : State → Prop) : Prop extends KeptByHanding I where
  finish : ∀ {s}, I s → I s.finishApply
  accept : ∀ {s} r bytes, s.main.sup.state ≠ .requestPending → I s →
    I (s.askedBy r bytes) ∧ (s.running = true → I (s.askedBy r bytes).handSupervisor)
  discard : ∀ {s} x, s.main.sup.state ≠ .requestPending → x.request = none → I s → I (s.setSup x)
  mains : ∀ {s} ms, (∀ w ∈ ms, w.addsNone = true) → I s → I (s.doMains ms)
  wait : ∀ {s} e, e.isRequest = false → I s → I (s.wait e)
  reset : ∀ {s} p, I s → I (s.sessionReset p)
  sent : ∀ {s} p, (s.link p).tx.isSome = true → I s →
    I (s.setLink p { s.link p with tx := none, outstanding := false })

variable {I : State → Prop}

/-- The area is given on, a number of times. -/
theorem KeptByHanding.giveAreaN (K : KeptByHanding I) (n : Nat) {s : State}
    (hr : s.running = true) (h : I s) : I (giveAreaN n s) := by
  induction n generalizing s with
  | zero => exact h
  | succ n ih =>
    cases hh : s.main.holder with
    | some x => rw [giveAreaN_held _ (by simp [hh])]; exact h
    | none =>
      cases hw : s.main.waiting with
      | nil => rw [giveAreaN_nothing _ hw]; exact h
      | cons e rest =>
        rw [giveAreaN_next n hh hw]
        have hk : KeptByChanges fun _ : Retained => True :=
          ⟨fun _ _ _ _ _ => trivial, fun _ _ _ _ => trivial, fun _ _ _ => trivial,
            fun _ _ _ => trivial, trivial⟩
        have hm := moves_takeWaiting hk (s := s.withWaiting rest) hh hr e
        exact ih (hm.2.running.trans hr) (K.take e rest hr hh hw h)

theorem KeptByHanding.giveArea (K : KeptByHanding I) {s : State} (h : I s) : I s.giveArea := by
  unfold State.giveArea
  split
  · exact K.giveAreaN _ ‹_› h
  · exact h

/-- A waiting frame is handed on. -/
theorem KeptByHanding.handOn (K : KeptByHanding I) {s : State} (p : Port) (h : I s) :
    I (s.handOn p) := by
  unfold State.handOn
  split
  · split
    · rename_i hc
      simp only [Bool.and_eq_true, Bool.not_eq_true'] at hc
      exact K.handOver p _ hc.1 (by simpa using hc.2) (K.quiet (Quiet.setLink s p (by rfl) (by rfl)) h)
    · exact h
  · exact h

theorem KeptByOperations.deliver (K : KeptByOperations I) {s : State} (p : Port) (f : StationFrame)
    (h : I s) : I (s.deliver p f) := by
  unfold State.deliver
  split
  · rename_i hc
    simp only [Bool.and_eq_true, Bool.not_eq_true'] at hc
    exact K.giveArea (K.handOver p f hc.1 hc.2 h)
  · split
    · exact K.quiet (Quiet.setLink s p (by rfl) (by rfl)) h
    · exact K.quiet (Quiet.overrun s p) h

theorem KeptByOperations.arrive (K : KeptByOperations I) {s : State} (p : Port) (f : StationFrame)
    (h : I s) : I (s.arrive p f) := by
  unfold State.arrive
  split
  · exact K.deliver p f h
  · exact h

theorem KeptByOperations.acceptSupervisor (K : KeptByOperations I) {s : State}
    (r : SupervisorRequest) (bytes : List Byte) (hs : s.main.sup.state ≠ .requestPending) (h : I s) :
    I (s.acceptSupervisor r bytes) := by
  obtain ⟨hasked, hhand⟩ := K.accept r bytes hs h
  show I (if (s.askedBy r bytes).running = true then (s.askedBy r bytes).handSupervisor.giveArea
    else s.askedBy r bytes)
  split
  · exact K.giveArea (hhand ‹_›)
  · exact hasked

theorem KeptByOperations.submit (K : KeptByOperations I) {s : State} (r : SupervisorRequest)
    (h : I s) : I (s.submit r) := by
  unfold State.submit
  split
  · exact h
  · split
    · exact K.quiet (Quiet.driveMiso s _) h
    · exact K.acceptSupervisor r _ ‹_› (K.quiet (Quiet.driveMiso s _) h)

theorem KeptByOperations.submitBody (K : KeptByOperations I) {s : State} (code : Byte)
    (body : List Byte) (h : I s) : I (s.submitBody code body) := by
  unfold State.submitBody
  split
  · split
    · exact h
    · split
      · exact K.quiet (Quiet.driveMiso s _) h
      · exact K.discard _ ‹_› rfl (K.quiet (Quiet.driveMiso s _) h)
  · exact K.submit _ h

theorem KeptByOperations.judgeWrite (K : KeptByOperations I) {s : State} (bytes : List Byte)
    (hs : s.main.sup.state ≠ .requestPending) (h : I s) : I (s.judgeWrite bytes) := by
  unfold State.judgeWrite
  split
  · exact h
  · dsimp only
    split
    · exact K.discard _ hs rfl h
    · split
      · exact K.discard _ hs rfl h
      · split
        · exact K.discard _ hs rfl h
        · split
          · exact K.acceptSupervisor _ _ hs h
          · exact K.discard _ hs rfl h

theorem KeptByOperations.selectPeriod (K : KeptByOperations I) {s : State} (mosi : List Byte)
    (h : I s) : I (s.selectPeriod mosi) := by
  unfold State.selectPeriod
  split
  · exact h
  · split
    · exact h
    · split
      · unfold State.writePeriod
        split
        · exact K.quiet (Quiet.driveMiso s _) h
        · exact K.judgeWrite _ ‹_› (K.quiet (Quiet.driveMiso s _) h)
      · split
        · exact K.quiet (Quiet.driveMiso s _) h
        · split <;> exact K.quiet (Quiet.driveMiso s _) h

theorem KeptByOperations.receive (K : KeptByOperations I) {s : State} (p : Port) (b : Byte)
    (h : I s) : I (s.receive p b) := by
  unfold State.receive
  dsimp only
  split
  · split
    · exact K.quiet (Quiet.setLink s p (by rfl) (by rfl)) h
    · exact h
  · split <;> exact K.quiet (Quiet.setLink s p (by rfl) (by rfl)) h
  · split <;> exact K.quiet (Quiet.setLink s p (by rfl) (by rfl)) h
  · unfold State.checkByte
    dsimp only
    split
    · exact K.quiet (Quiet.setLink s p (by rfl) (by rfl)) h
    · split
      · exact K.deliver _ _ (K.quiet (Quiet.setLink s p (by rfl) (by rfl)) h)
      · exact K.quiet (Quiet.setLink s p (by rfl) (by rfl)) h

/-- An internal event that may drain comes to be taken. -/
theorem KeptByOperations.raise (K : KeptByOperations I) {s : State} {e : AreaEvent}
    (he : e.isRequest = false) {v : List RetWrite × List MainWrite}
    (hv : ∀ w ∈ v.2, w.addsNone = true) (h : I s) : I (s.raise e v) := by
  unfold State.raise
  split
  · exact K.mains _ hv h
  · split
    · exact h
    · exact K.giveArea (K.wait e he h)

theorem KeptByOperations.execBreak_kept (K : KeptByOperations I) {s t : State} (p : Port)
    (hst : execBreak p s = .next t) (h : I s) : I t := by
  unfold execBreak at hst
  split at hst
  · cases hst; exact h
  · dsimp only at hst
    have h1 : I (if s.running = true then s.finishApply else s) := by
      split
      · exact K.finish h
      · exact h
    generalize (if s.running = true then s.finishApply else s) = u at hst h1
    have h2 := K.reset p (K.quiet (Quiet.setLink u p (x := { (u.link p).hunt with lineLow := true })
      rfl rfl) h1)
    cases hst
    split
    · exact K.wait _ rfl h2
    · exact h2

/-- A condition on the state that the part's operations keep, and its supplies, its start-up check and the
notches of a staged change. -/
structure KeptBySteps (I : State → Prop) : Prop extends KeptByOperations I where
  supply : ∀ {s t} c, isSupply c = true → exec c s = .next t → I s → I t
  advance : ∀ {s} h, s.main.holder = some h → I s → I (s.advanceHolder h)
  check : ∀ {s} c, s.powered = true → s.check = some c → I s →
    I (s.advanceCheck c) ∧ I (s.endCheck c) ∧ ∀ h, s.main.holder = some h → I (s.endDrain h)

/-- The internal events' commands. -/
theorem KeptBySteps.internal (K : KeptBySteps I) {s t : State} (h : I s)
    (hc : s.running = true → I s.completeChange) {c : Instr}
    (hst : exec c s = .next t)
    (hi : match c with
      | .holdClockAdvance | .holdExpiry _ | .pinExpiry _ | .sessionResetPinEnd _
      | .stagedChangeComplete | .startUpCheckEnd => True
      | _ => False) : I t := by
  have hs : I s.finishApply := K.finish h
  cases c with
  | holdClockAdvance =>
    change execHoldClockAdvance s = _ at hst
    unfold execHoldClockAdvance at hst
    split at hst <;> cases hst
    · exact K.quiet (Quiet.clock _ _) hs
    · exact h
  | holdExpiry id =>
    change execHoldExpiry id s = _ at hst
    unfold execHoldExpiry at hst
    split at hst
    · dsimp only at hst
      split at hst <;> cases hst
      · exact K.raise rfl (by simp [holdExpiryVerdict, MainWrite.addsNone]) hs
      · exact hs
    · cases hst; exact h
  | pinExpiry p =>
    change execPinExpiry p s = _ at hst
    unfold execPinExpiry at hst
    split at hst
    · dsimp only at hst
      split at hst <;> cases hst
      · exact K.raise rfl (by simp [pinEndVerdict, MainWrite.addsNone]) hs
      · exact hs
    · cases hst; exact h
  | sessionResetPinEnd p =>
    change execSessionResetPinEnd p s = _ at hst
    unfold execSessionResetPinEnd at hst
    split at hst <;> cases hst
    · exact K.giveArea h
    · exact h
  | stagedChangeComplete =>
    change execStagedChangeComplete s = _ at hst
    unfold execStagedChangeComplete at hst
    split at hst
    · cases hst; exact hc ‹_›
    · split at hst
      · split at hst <;> cases hst
        · exact (K.check _ ‹_› ‹_› h).2.2 _ ‹_›
        · exact h
      · cases hst; exact h
  | startUpCheckEnd =>
    change execStartUpCheckEnd s = _ at hst
    unfold execStartUpCheckEnd at hst
    split at hst
    · split at hst <;> cases hst
      · exact (K.check _ ‹_› ‹_› h).2.1
      · exact h
    · cases hst; exact h
  | _ => cases hi

/-- The station links' own commands. -/
theorem KeptBySteps.links (K : KeptBySteps I) {s t : State} (h : I s) {c : Instr}
    (hst : exec c s = .next t)
    (hi : match c with
      | .stationCharacterReceived .. | .gapTimeout _ | .framingError _ | .breakReceived _
      | .receiveLineReturnHigh _ | .answerTransmissionEnd _ => True
      | _ => False) : I t := by
  have hdiscard : ∀ p, I (s.discardFrame p) := fun p => by
    unfold State.discardFrame
    split
    · exact K.quiet (Quiet.setLink s p (by rfl) (by rfl)) h
    · exact h
  cases c with
  | stationCharacterReceived p b =>
    change execStationCharacterReceived p b s = _ at hst
    unfold execStationCharacterReceived at hst
    split at hst <;> cases hst
    · exact K.receive p b (K.quiet (Quiet.setLink s p (by rfl) (by rfl)) h)
    · exact h
  | gapTimeout p => cases hst; exact hdiscard p
  | framingError p => cases hst; exact hdiscard p
  | breakReceived p => exact K.execBreak_kept p hst h
  | receiveLineReturnHigh p =>
    change execReceiveLineReturnHigh p s = _ at hst
    unfold execReceiveLineReturnHigh at hst
    split at hst <;> cases hst
    · exact K.quiet (Quiet.setLink s p (by rfl) (by rfl)) h
    · exact h
  | answerTransmissionEnd p =>
    change execAnswerTransmissionEnd p s = _ at hst
    unfold execAnswerTransmissionEnd at hst
    split at hst <;> cases hst
    · rename_i hx
      simp only [Bool.and_eq_true] at hx
      exact K.giveArea (K.handOn p (K.sent p hx.2 h))
    · exact h
  | _ => cases hi

/-- Every command. -/
theorem KeptBySteps.exec (K : KeptBySteps I) {s t : State} (h : I s)
    (hc : s.running = true → I s.completeChange) {c : Instr} (hst : exec c s = .next t) : I t := by
  cases c with
  | powerLoss | vbatLoss | powerReturn | resetAssert | resetRelease | vbatReturn =>
    exact K.supply _ rfl hst h
  | holdClockAdvance | holdExpiry | pinExpiry | sessionResetPinEnd | stagedChangeComplete
  | startUpCheckEnd => exact K.internal h hc hst trivial
  | stationCharacterReceived | gapTimeout | framingError | breakReceived | receiveLineReturnHigh
  | answerTransmissionEnd => exact K.links h hst trivial
  | writeRequest | readAnswer | readLinkStatus => cases hst; exact K.selectPeriod _ h
  | stationBadRequest p seq code body =>
    change execStationBadRequest p seq code body s = _ at hst
    unfold execStationBadRequest at hst
    split at hst <;> cases hst
    · exact h
    · exact K.arrive _ _ h
  | tariffRow cls entryZone fares =>
    change execTariffRow cls entryZone fares s = _ at hst
    unfold execTariffRow at hst
    split at hst <;> cases hst
    · exact K.submit _ h
    · exact K.submitBody _ _ h
  | supervisorBadRequest code body => cases hst; exact K.submitBody _ _ h
  | select | balance | stationStatus | pin | unpin | fare | hold | capture | release | topUp =>
    cases hst; exact K.arrive _ _ h
  | _ => cases hst; exact K.submit _ h

/-- A condition that the part's operations keep, and the end of a staged change from here, is kept by a
step. -/
theorem KeptBySteps.step_kept (K : KeptBySteps I) {s t : State} (h : I s)
    (hc : s.running = true → ∀ rest, I ({ s with pending := rest } : State).completeChange)
    (hst : step s = .next t) : I t := by
  unfold step at hst
  split at hst
  · cases hst
    unfold State.idle
    split
    · split
      · exact (K.check _ ‹_› ‹_› h).1
      · split
        · exact K.advance _ ‹_› h
        · exact K.giveArea h
    · exact h
  · rename_i c rest _
    have hq : I { s with pending := rest } :=
      K.quiet (s := s) ⟨⟨rfl, rfl, rfl⟩, rfl, rfl, rfl, rfl, fun _ => rfl, fun _ => ⟨rfl, rfl⟩, rfl,
        rfl, rfl⟩ h
    exact K.exec hq (fun hr => hc hr rest) hst

end Sys2Proof.Machine
end

section
/-! PROOFS. Every step keeps the records in range. -/

namespace Sys2Proof.Machine

/-! The two sides of a staged change. -/

/-- The records, the day and the unclaimed total as they were. -/
theorem Retained.Records.of_books {r r' : Retained} (h : r.Records) (hb : r'.books = r.books) :
    r'.Records := by
  simp only [Retained.books, Books.mk.injEq] at hb
  obtain ⟨ha, _, _, _, hd, hu⟩ := hb
  exact h.restated (by rw [ha]; rfl) hd hu

theorem Funded.of_eq {r r' : Retained} {pool : List Hold} (h : Funded r pool)
    (ha : r'.accounts = r.accounts) : Funded r' pool := by
  unfold Funded
  rw [ha]
  exact h

/-- The bookkeeping of the area is none of the accounts and totals. -/
theorem applyRets_books_staged (ws : List RetWrite) (r : Retained) (st : List RetWrite) (c : Bool) :
    (applyRets ws { r with staged := st, completion := c }).books = (applyRets ws r).books := by
  rw [applyRets_withStaged]; rfl

/-- What a cut leaves: the recorded change with the mark set, nothing of it with the mark clear (R178). -/
theorem Retained.settle_books (r : Retained) :
    r.settle.books = if r.completion = true then (applyRets r.staged r).books else r.books := by
  unfold Retained.settle
  split <;> rfl

/-- What a request makes of the accounts and totals is judged by retention memory and the pool. -/
theorem State.Rebooked.congr {s t : State} (hr : t.ret = s.ret) (hp : t.main.pool = s.main.pool)
    {b : Books} (h : s.Rebooked b) : t.Rebooked b := by
  obtain ⟨_, _, _, _, _, r, m, _⟩ := s
  obtain ⟨_, _, _, _, _, r', m', _⟩ := t
  obtain rfl : r' = r := hr
  cases h with
  | spared day unclaimed hday hun => exact .spared day unclaimed hday hun
  | updated slot a b live key range =>
    exact .updated slot a b live key fun hf => range fun h hm => hf h (by rw [hp]; exact hm)
  | opened slot rest b free unknown range => exact .opened slot rest b free unknown range
  | retired slot a live room => exact .retired slot a live room
  | wiped => exact .wiped

/-- The end of the apply phase leaves the accounts and totals that the change in the area comes to. -/
theorem State.finishApply_books {s : State} {h : Holder} (hh : s.main.holder = some h) :
    s.finishApply.ret.books = (s.settledRet h).books := by
  unfold State.finishApply State.settledRet
  rw [hh]
  dsimp only
  split <;> rfl

/-- The end of the apply phase leaves the retention mark. -/
theorem State.finishApply_mark (s : State) : s.finishApply.ret.mark = s.ret.mark := by
  unfold State.finishApply
  split
  · rfl
  · split
    · rfl
    · exact applyRets_mark _ _

/-- The condition that says nothing of retention memory. -/
theorem keptByChanges_true : KeptByChanges fun _ => True :=
  ⟨fun _ _ _ _ _ => trivial, fun _ _ _ _ => trivial, fun _ _ _ => trivial, fun _ _ _ => trivial,
    trivial⟩

/-- Records in range on both sides of a staged change, and the funds behind the holds while the area is
free. -/
structure State.RecordsFunded (s : State) : Prop where
  coherent : s.Keeps fun _ => True
  cut : s.trusted → s.ret.settle.Records
  done : s.trusted → ∀ h, s.main.holder = some h → (s.settledRet h).Records
  funds : s.running = true → s.main.holder = none → s.trusted → Funded s.ret s.main.pool
  stopped : s.running = false → s.main.pool = [] ∧ ∀ h, s.main.holder = some h → h.mains = []

/-- With a clear mark a cut leaves retention memory as it stands. -/
theorem Retained.settle_books_clear {r : Retained} (h : r.completion = false) :
    r.settle.books = r.books := by simp [Retained.settle_books, h]

/-- With the mark set a cut leaves the recorded change. -/
theorem State.settle_books_set {s : State} (h : s.ret.completion = true) :
    s.ret.settle.books = s.appliedRet.books := by simp [Retained.settle_books, h, State.appliedRet]

/-- The condition on retention memory, from its two sides. -/
theorem State.RecordsFunded.keeps {s : State} (h : s.RecordsFunded) : s.Keeps Retained.Records := by
  refine ⟨h.coherent.1, fun ht => ⟨fun hc => ?_, fun hc => ?_, fun x hx hw => ?_, fun x hx hcl => ?_⟩⟩
  · exact (h.cut ht).of_books (Retained.settle_books_clear hc).symm
  · exact (h.cut ht).of_books (State.settle_books_set hc).symm
  · have := h.done ht x hx
    rwa [State.settledRet, if_neg (by rw [hw]; nofun)] at this
  · have := h.done ht x hx
    rwa [State.settledRet, if_pos hcl] at this

/-- What a cut leaves meets the condition. -/
theorem State.Keeps.records_cut {s : State} (h : s.Keeps Retained.Records) (ht : s.trusted) :
    s.ret.settle.Records := by
  cases hc : s.ret.completion with
  | false => exact ((h.2 ht).now hc).of_books (Retained.settle_books_clear hc)
  | true => exact ((h.2 ht).next hc).of_books (State.settle_books_set hc)

/-- What the change in the area comes to meets the condition. -/
theorem State.Keeps.records_done {s : State} (h : s.Keeps Retained.Records) (ht : s.trusted)
    (x : Holder) (hx : s.main.holder = some x) : (s.settledRet x).Records := by
  unfold State.settledRet
  split
  · exact (h.2 ht).clear x hx ‹_›
  · exact h.applied ht hx

/-- A move that keeps the condition, when it leaves the part as it stood. -/
theorem State.RecordsFunded.of_moves {s t : State} (h : s.RecordsFunded)
    (hm : Moves (fun _ => True) s t) (hmark : t.ret.mark = s.ret.mark)
    (hcut : s.ret.settle.Records → (∀ x, s.main.holder = some x → (s.settledRet x).Records) →
      t.ret.settle.Records)
    (hdone : s.ret.settle.Records → (∀ x, s.main.holder = some x → (s.settledRet x).Records) →
      ∀ x, t.main.holder = some x → (t.settledRet x).Records)
    (hfunds : s.running = true → t.main.holder = none →
      (s.main.holder = none → Funded s.ret s.main.pool) → Funded t.ret t.main.pool)
    (hstop : s.running = false → (s.main.pool = [] ∧ ∀ h, s.main.holder = some h → h.mains = []) →
      t.main.pool = [] ∧ ∀ h, t.main.holder = some h → h.mains = []) :
    t.RecordsFunded := by
  have ht : t.trusted → s.trusted := by
    simp only [State.trusted, hmark, hm.2.powered, hm.2.1, imp_self]
  exact ⟨hm.1 h.coherent, fun hx => hcut (h.cut (ht hx)) (h.done (ht hx)),
    fun hx => hdone (h.cut (ht hx)) (h.done (ht hx)),
    fun hr hn hx => hfunds (hm.2.running ▸ hr) hn fun hn' => h.funds (hm.2.running ▸ hr) hn' (ht hx),
    fun hr => hstop (hm.2.running ▸ hr) (h.stopped (hm.2.running ▸ hr))⟩

/-- What touches neither retention memory, the holder of the area nor the pool. -/
theorem State.RecordsFunded.frame {s t : State} (h : s.RecordsFunded) (hr : t.ret = s.ret)
    (hh : t.main.holder = s.main.holder) (hp : t.main.pool = s.main.pool) (hs : Stands s t) :
    t.RecordsFunded :=
  h.of_moves (.of_eq hr hh hs) (by rw [hr]) (fun hc _ => by rw [hr]; exact hc)
    (fun _ hd x hx => by
      rw [hh] at hx
      simpa only [State.settledRet, State.appliedRet, hr] using hd x hx)
    (fun _ hn hf => by rw [hr, hp]; exact hf (hh ▸ hn)) (fun _ hs => by rw [hh, hp]; exact hs)

theorem State.RecordsFunded.finishApply {s : State} (h : s.RecordsFunded) :
    s.finishApply.RecordsFunded := by
  cases hh : s.main.holder with
  | none => rw [State.finishApply_of_free hh]; exact h
  | some x =>
    by_cases hcl : x.phase = .clear
    · have : s.finishApply = s := by simp [State.finishApply, hh, hcl]
      rw [this]; exact h
    · have hb : s.finishApply.ret.books = (s.settledRet x).books := State.finishApply_books hh
      have hf : s.finishApply.main.holder = some { x with phase := .clear, mains := [] } := by
        simp [State.finishApply, hh, hcl]
      refine h.of_moves (moves_finishApply keptByChanges_true s) s.finishApply_mark
        (fun _ hd => (hd x hh).of_books ?_) (fun _ hd y hy => (hd x hh).of_books ?_)
        (fun _ hn => by rw [hf] at hn; cases hn) (fun _ hs => ⟨?_, fun y hy => ?_⟩)
      · have hret : s.finishApply.ret =
            { applyRets s.ret.staged s.ret with completion := true } := by
          simp [State.finishApply, hh, hcl]
        rw [State.settledRet, if_neg hcl, State.appliedRet, State.settle_books_set (by rw [hret]),
          State.appliedRet, hret]
        dsimp only
        rw [applyRets_staged, applyRets_books_staged s.ret.staged (applyRets s.ret.staged s.ret)
          s.ret.staged true]
        exact congrArg Retained.books
          (applyRets_again s.ret.staged s.ret s.ret.staged fun _ hv => hv)
      · rw [hf] at hy
        cases hy
        exact hb
      · have hm : s.finishApply.main.pool = (applyMains x.mains s.main).pool := by
          simp [State.finishApply, hh, hcl]
        rw [hm, hs.2 x hh]
        exact (catchUpN_frame _ _).2.2.1.trans hs.1
      · rw [hf] at hy
        cases hy
        rfl

theorem State.RecordsFunded.settleForRead {s : State} (h : s.RecordsFunded) :
    s.settleForRead.RecordsFunded := by
  unfold State.settleForRead
  split
  · split
    · exact h
    · exact h.finishApply
  · exact h

/-- Effects with the funds behind them. -/
theorem State.RecordsFunded.doMains {s : State} (h : s.RecordsFunded) {ms : List MainWrite}
    (hb : s.Backed ms) (hn : s.running = false → ∀ w ∈ ms, w.addsNone = true) :
    (s.doMains ms).RecordsFunded := by
  unfold State.doMains
  split
  · exact h
  · have hpool : (applyMains ms s.main).pool = (s.main.effects ms).pool := (catchUpN_frame _ _).2.2.1
    refine h.of_moves (.of_eq rfl (applyMains_holder ms s.main) ⟨rfl, rfl, rfl⟩) rfl
      (fun hc _ => hc) (fun _ hd x hx => ?_) (fun _ hn hf => ?_) (fun hr hs => ?_)
    · exact hd x ((applyMains_holder ms s.main) ▸ hx)
    · show Funded s.ret (applyMains ms s.main).pool
      rw [hpool]
      exact (hf ((applyMains_holder ms s.main) ▸ hn)).effects hb
    · refine ⟨?_, fun x hx => hs.2 x ((applyMains_holder ms s.main) ▸ hx)⟩
      have := Main.effects_pool_sublist (hn hr) s.main
      rw [hs.1, ← hpool] at this
      exact List.sublist_nil.mp this

/-- Effects on a part that takes requests. -/
theorem State.RecordsFunded.doMains_running {s : State} (h : s.RecordsFunded)
    (hr : s.running = true) {ms : List MainWrite} (hb : s.Backed ms) : (s.doMains ms).RecordsFunded :=
  h.doMains hb fun hn => by rw [hr] at hn; cases hn

theorem State.RecordsFunded.sendAnswer {s : State} (h : s.RecordsFunded) (p : Port) (r : Reply) :
    (s.sendAnswer p r).RecordsFunded := by
  unfold State.sendAnswer
  dsimp only
  split
  · exact h
  · exact h.frame rfl rfl rfl ⟨rfl, rfl, rfl⟩

theorem State.RecordsFunded.answerSupervisor {s : State} (h : s.RecordsFunded) (a : Answer) :
    (s.answerSupervisor a).RecordsFunded := by
  unfold State.answerSupervisor
  split
  · exact h
  · exact h.frame rfl rfl rfl ⟨rfl, rfl, rfl⟩

theorem State.RecordsFunded.handOver {s : State} (h : s.RecordsFunded) (hr : s.running = true)
    (p : Port) (f : StationFrame) : (s.handOver p f).RecordsFunded := by
  unfold State.handOver
  dsimp only
  have hr1 := (moves_settleForRead keptByChanges_true ((s.setSession p
    { s.session p with inHand := some ⟨f, none⟩ }).setLink p
    { s.link p with outstanding := true })).2.running.trans hr
  have h1 := (h.frame (t := (s.setSession p { s.session p with inHand := some ⟨f, none⟩ }).setLink p
    { s.link p with outstanding := true }) rfl rfl rfl ⟨rfl, rfl, rfl⟩).settleForRead
  split
  · exact h1.frame rfl rfl rfl ⟨rfl, rfl, rfl⟩
  · unfold State.takeFree
    dsimp only
    refine State.RecordsFunded.sendAnswer ?_ _ _
    split
    · exact h1.finishApply.doMains_running
        ((moves_finishApply keptByChanges_true _).2.running.trans hr1) (State.backed_station _ _ _)
    · exact h1.doMains_running hr1 (State.backed_station _ _ _)

theorem State.RecordsFunded.handOn {s : State} (h : s.RecordsFunded) (p : Port) :
    (s.handOn p).RecordsFunded := by
  unfold State.handOn
  split
  · split
    · rename_i hc
      simp only [Bool.and_eq_true] at hc
      exact (h.frame (t := s.setLink p { s.link p with pendingSlot := none }) rfl rfl rfl
        ⟨rfl, rfl, rfl⟩).handOver hc.1 p _
    · exact h
  · exact h

theorem State.RecordsFunded.answerStation {s : State} (h : s.RecordsFunded) (p : Port) (r : Reply) :
    (s.answerStation p r).RecordsFunded := by
  unfold State.answerStation
  split
  · split
    · exact (h.frame (t := s.dropAnswer p) rfl rfl rfl ⟨rfl, rfl, rfl⟩).handOn p
    · exact h.sendAnswer p r
  · exact h

/-- The free area given to an event whose recorded change keeps the records. -/
theorem State.RecordsFunded.holdArea {s : State} (h : s.RecordsFunded) (hh : s.main.holder = none)
    (hr : s.running = true) (e : AreaEvent) {ws : List RetWrite} (mains : List MainWrite)
    (reply : Option Reply) (hw : s.Rebooked (applyRets ws s.ret).books) :
    (s.holdArea e ws mains reply).RecordsFunded := by
  obtain ⟨hp, hck⟩ := running_powered hr
  have hc : s.ret.completion = false :=
    h.coherent.1.free hp hh (by rw [hck]; nofun) (by rw [hck]; nofun)
  have hm := moves_holdArea keptByChanges_true (s := s) hh hr e (ws := ws) mains reply (fun _ => trivial)
  have hret : s.trusted → s.ret.Records := fun ht =>
    (h.cut ht).of_books (Retained.settle_books_clear hc).symm
  refine ⟨hm.1 h.coherent, fun ht => ?_, fun ht x hx => ?_, fun _ hn => (by cases hn),
    fun hn => by rw [hm.2.running, hr] at hn; cases hn⟩
  · exact (hret ht).of_books (Retained.settle_books_clear (r := (s.holdArea e ws mains reply).ret) rfl)
  · cases hx
    exact ((hret ht).rebooked (h.funds hr hh ht) hw (r := applyRets ws s.ret) rfl).of_books
      (applyRets_books_staged ws s.ret ws false)

theorem State.RecordsFunded.stageOrDo {s : State} (h : s.RecordsFunded) (hh : s.main.holder = none)
    (hr : s.running = true) (e : AreaEvent) {v : List RetWrite × List MainWrite}
    (hw : s.Rebooked (applyRets v.1 s.ret).books) (hb : s.Backed v.2) :
    (s.stageOrDo e v).RecordsFunded := by
  unfold State.stageOrDo
  split
  · exact h.doMains_running hr hb
  · exact h.holdArea hh hr e _ none hw

theorem State.RecordsFunded.takeWaiting {s : State} (h : s.RecordsFunded) (hh : s.main.holder = none)
    (hr : s.running = true) (e : AreaEvent) : (s.takeWaiting e).RecordsFunded := by
  have hpin : ∀ p x, s.Rebooked (applyRets (pinEndVerdict p x s).1 s.ret).books ∧
      s.Backed (pinEndVerdict p x s).2 := fun p x =>
    ⟨s.rebooked_pinEndDrain _, .inl (by simp [pinEndVerdict, MainWrite.addsNone])⟩
  cases e with
  | station p =>
    unfold State.takeWaiting
    dsimp only
    split
    · exact h
    · rename_i x _
      split
      · exact (h.doMains_running hr (s.backed_standing p x)).answerStation p _
      · refine h.holdArea hh hr _ _ _ ?_
        have hj := (s.judgedFor p x).rebooked_station p x.frame
        rw [State.judgedFor_ret] at hj
        exact hj.congr (State.judgedFor_ret s p x).symm (s.judgedFor_pool p x).symm
  | supervisor =>
    unfold State.takeWaiting
    dsimp only
    split
    · exact h
    · split
      · exact (h.doMains_running hr (s.backed_supervisor _)).answerSupervisor _
      · exact h.holdArea hh hr _ _ _ (s.rebooked_supervisor _)
  | holdExpiry id =>
    unfold State.takeWaiting
    dsimp only
    split
    · exact h.stageOrDo hh hr _ (s.rebooked_holdEndDrain _)
        (.inl (by simp [holdExpiryVerdict, MainWrite.addsNone]))
    · exact h
  | pinExpiry p =>
    unfold State.takeWaiting
    dsimp only
    split
    · exact h.stageOrDo hh hr _ (hpin _ _).1 (hpin _ _).2
    · exact h
  | sessionPinEnd p =>
    unfold State.takeWaiting
    dsimp only
    split
    · exact h.stageOrDo hh hr _ (hpin _ _).1 (hpin _ _).2
    · exact h
  | startUpDrain slot => exact h

end Sys2Proof.Machine
end

section
/-! PROOFS. Every step keeps the records in range: the part's operations and its supplies and start-up check. -/

namespace Sys2Proof.Machine

theorem State.RecordsFunded.handSupervisor {s : State} (h : s.RecordsFunded) :
    s.handSupervisor.RecordsFunded := by
  unfold State.handSupervisor
  split
  · exact h
  · split
    · exact h.frame rfl rfl rfl ⟨rfl, rfl, rfl⟩
    · exact h.settleForRead.answerSupervisor _

/-- The part's operations keep the records in range and the funds behind the holds. -/
theorem recordsFunded_operations : KeptByOperations State.RecordsFunded where
  quiet q h := h.frame q.ret q.holder q.pool q.stands
  finish h := h.finishApply
  handOver p f hr _ h := h.handOver hr p f
  take e rest hr hh _ h :=
    (h.frame (t := State.withWaiting _ rest) rfl rfl rfl ⟨rfl, rfl, rfl⟩).takeWaiting hh hr e
  accept r bytes _ h :=
    have ha := h.frame (t := State.askedBy _ r bytes) rfl rfl rfl ⟨rfl, rfl, rfl⟩
    ⟨ha, fun _ => ha.handSupervisor⟩
  discard x _ _ h := h.frame (t := State.setSup _ x) rfl rfl rfl ⟨rfl, rfl, rfl⟩
  mains _ hn h := h.doMains (.inl hn) fun _ => hn
  wait e _ h := h.frame (t := State.wait _ e) rfl rfl rfl ⟨rfl, rfl, rfl⟩
  reset p h := h.frame (t := State.sessionReset _ p) rfl rfl rfl ⟨rfl, rfl, rfl⟩
  sent _ _ h := h.frame rfl rfl rfl ⟨rfl, rfl, rfl⟩

/-! Supplies. -/

/-- What the supplies and RESET_N do: the part is stopped, with main memory reset or as it stood in a stopped
part, or nothing changes that a request meets. -/
theorem supply_cases {c : Instr} (hc : isSupply c = true) {s t : State} (h : exec c s = .next t) :
    (t.running = false ∧ (t.main = Main.reset ∨ s.running = false ∧ t.main = s.main)) ∨
    (t.powered = s.powered ∧ t.check = s.check ∧ t.main = s.main ∧ t.ret = s.ret) := by
  have hstop : ∀ u : State, u.main = Main.reset → u.running = false → (u.running = false ∧
      (u.main = Main.reset ∨ s.running = false ∧ u.main = s.main)) ∨
      (u.powered = s.powered ∧ u.check = s.check ∧ u.main = s.main ∧ u.ret = s.ret) :=
    fun u hm hr => .inl ⟨hr, .inl hm⟩
  cases c with
  | powerLoss =>
    change execPowerLoss s = _ at h
    unfold execPowerLoss at h
    split at h <;> cases h
    · dsimp only
      split <;> exact hstop _ rfl rfl
    · exact .inr ⟨rfl, rfl, rfl, rfl⟩
  | vbatLoss =>
    change execVbatLoss s = _ at h
    unfold execVbatLoss at h
    cases h
    split
    · exact .inr ⟨rfl, rfl, rfl, rfl⟩
    · rename_i hv
      simp only [Bool.or_eq_true, not_or, Bool.not_eq_true] at hv
      exact .inl ⟨by simp [State.running, State.powered, State.loseRetention, hv.1],
        .inr ⟨by simp [State.running, State.powered, hv.1], rfl⟩⟩
  | powerReturn =>
    change execPowerReturn s = _ at h
    unfold execPowerReturn at h
    split at h <;> cases h
    · exact .inr ⟨rfl, rfl, rfl, rfl⟩
    · rename_i hv
      dsimp only
      split
      · rename_i hl
        exact .inl ⟨by simp [State.running, State.powered, hl],
          .inr ⟨by simp [State.running, State.powered, hv], rfl⟩⟩
      · exact hstop _ rfl (by simp [State.running, State.beginCheck])
  | resetAssert =>
    change execResetAssert s = _ at h
    unfold execResetAssert at h
    split at h <;> cases h
    · exact .inr ⟨rfl, rfl, rfl, rfl⟩
    · exact hstop _ rfl (by simp [State.running, State.powered])
  | resetRelease =>
    change execResetRelease s = _ at h
    unfold execResetRelease at h
    split at h <;> cases h
    · rename_i hl
      dsimp only
      split
      · exact hstop _ rfl (by simp [State.running, State.beginCheck])
      · rename_i hv
        exact .inl ⟨by simp [State.running, State.powered, hv],
          .inr ⟨by simp [State.running, State.powered, hl], rfl⟩⟩
    · exact .inr ⟨rfl, rfl, rfl, rfl⟩
  | vbatReturn => cases h; exact .inr ⟨rfl, rfl, rfl, rfl⟩
  | _ => cases hc

/-- The supplies keep a condition on the two sides of a staged change. -/
theorem supply_keeps {P : Retained → Prop} {c : Instr} (hc : isSupply c = true) {s t : State}
    (hst : exec c s = .next t) (h : s.Keeps P) : t.Keeps P := by
  obtain ⟨h1, h2, h3, h4, h5, h6⟩ := exec_power (P := P) s
  cases c with
  | powerLoss => exact h1 h t hst
  | vbatLoss => exact h2 h t hst
  | powerReturn => exact h3 h t hst
  | resetAssert => exact h4 h t hst
  | resetRelease => exact h5 h t hst
  | vbatReturn => exact h6 h t hst
  | _ => cases hc

/-- Records in range, a stopped part without holds, and the funds behind those of a running one. -/
theorem State.Keeps.recordsFunded {s : State} (h : s.Keeps Retained.Records)
    (hf : s.running = true → s.main.holder = none → s.trusted → Funded s.ret s.main.pool)
    (hs : s.running = false → s.main.pool = [] ∧ ∀ h, s.main.holder = some h → h.mains = []) :
    s.RecordsFunded :=
  ⟨⟨h.1, fun _ => ⟨fun _ => trivial, fun _ => trivial, fun _ _ _ => trivial, fun _ _ _ => trivial⟩⟩,
    h.records_cut, h.records_done, hf, hs⟩

/-- A supply or RESET_N keeps the records in range and the funds. -/
theorem State.RecordsFunded.supply {s t : State} (h : s.RecordsFunded) {c : Instr}
    (hc : isSupply c = true) (hst : exec c s = .next t) : t.RecordsFunded := by
  refine State.Keeps.recordsFunded (supply_keeps hc hst h.keeps) (fun hr hh ht => ?_) (fun hr => ?_)
  · obtain ⟨hr', _⟩ | ⟨hp, hck, hm, hret⟩ := supply_cases hc hst
    · rw [hr] at hr'; cases hr'
    · rw [hret, hm]
      refine h.funds ?_ (hm ▸ hh) ?_
      · simpa only [State.running, hp, hck] using hr
      · simpa only [State.trusted, hret, hp, hck] using ht
  · obtain ⟨_, hm | ⟨hr', hm⟩⟩ | ⟨hp, hck, hm, _⟩ := supply_cases hc hst
    · rw [hm]; exact ⟨rfl, fun _ hx => by cases hx⟩
    · rw [hm]; exact h.stopped hr'
    · rw [hm]; exact h.stopped (by simpa only [State.running, hp, hck] using hr)

/-! The notches of a staged change. -/

/-- A notch that leaves what the change in the area comes to. -/
theorem State.RecordsFunded.of_notch {s t : State} (h : s.RecordsFunded) {x y : Holder}
    (hx : s.main.holder = some x) (hk : t.Keeps fun _ => True) (hy : t.main.holder = some y)
    (hcut : t.ret.settle.books = (s.settledRet x).books)
    (hdone : (t.settledRet y).books = (s.settledRet x).books) (hmark : t.ret.mark = s.ret.mark)
    (hs : Stands s t) (hp : t.main.pool = s.main.pool) (hm : y.mains = x.mains) :
    t.RecordsFunded := by
  have ht : t.trusted → s.trusted := by
    simp only [State.trusted, hmark, hs.powered, hs.1, imp_self]
  refine ⟨hk, fun h1 => ((h.done (ht h1)) x hx).of_books hcut, fun h1 z hz => ?_,
    fun _ hn => (by rw [hy] at hn; cases hn), fun hr => ?_⟩
  · rw [hy] at hz
    cases hz
    exact ((h.done (ht h1)) x hx).of_books hdone
  · obtain ⟨h1, h2⟩ := h.stopped (hs.running ▸ hr)
    refine ⟨hp.trans h1, fun z hz => ?_⟩
    rw [hy] at hz
    cases hz
    exact hm.trans (h2 x hx)

/-- One notch of a staged change. -/
theorem State.RecordsFunded.advanceHolder {s : State} (h : s.RecordsFunded) {x : Holder}
    (hx : s.main.holder = some x) : (s.advanceHolder x).RecordsFunded := by
  have hk := keeps_advanceHolder keptByChanges_true h.coherent hx
  have hcm := h.coherent.1.phase x hx
  unfold State.advanceHolder at hk ⊢
  cases hph : x.phase with
  | write =>
    rw [hph] at hk
    have hset : s.settledRet x = s.appliedRet := by
      rw [State.settledRet, if_neg (by rw [hph]; nofun)]
    refine h.of_notch hx hk rfl ?_ ?_ rfl ⟨rfl, rfl, rfl⟩ rfl rfl
    · rw [hset]
      exact (Retained.settle_books _).trans
        (applyRets_books_staged s.ret.staged s.ret s.ret.staged true)
    · rw [hset]
      exact applyRets_books_staged s.ret.staged s.ret s.ret.staged true
  | mark =>
    rw [hph] at hk
    have hset : s.settledRet x = s.appliedRet := by
      rw [State.settledRet, if_neg (by rw [hph]; nofun)]
    refine h.of_notch hx hk rfl ?_ ?_ rfl ⟨rfl, rfl, rfl⟩ rfl rfl
    · rw [hset]
      exact State.settle_books_set (s := s) (hcm.mpr (by rw [hph]; nofun))
    · rw [hset]
      rfl
  | apply n =>
    rw [hph] at hk
    dsimp only at hk ⊢
    split at hk
    · rename_i w hw
      obtain ⟨e1, e2, e3⟩ := applyRet_control w s.ret
      have hset : s.settledRet x = s.appliedRet := by
        rw [State.settledRet, if_neg (by rw [hph]; nofun)]
      have happ : applyRets (applyRet w s.ret).staged (applyRet w s.ret) = s.appliedRet := by
        rw [e1]
        exact applyRets_absorb (List.mem_of_getElem? hw) _
      have hc : (applyRet w s.ret).completion = true := by
        rw [e2]
        exact hcm.mpr (by rw [hph]; nofun)
      refine h.of_notch hx hk rfl ?_ ?_ e3 ⟨rfl, rfl, rfl⟩ rfl rfl
      · rw [hset, ← happ]
        simp only [Retained.settle_books, hc, if_pos]
      · rw [hset]
        exact congrArg Retained.books happ
    · exact h.finishApply
  | clear => exact h

/-! The start-up check. -/

/-- A pool without holds has the funds behind them. -/
theorem Retained.Records.funded_nil {r : Retained} (h : r.Records) : Funded r [] := fun i a ha => by
  have := (h.inRange i a ha).balance.1
  simp only [heldOn, List.filter_nil, List.map_nil, List.sum_nil]
  omega

/-- Settling what is settled leaves the accounts and totals. -/
theorem Retained.settle_settle (r : Retained) : r.settle.settle.books = r.settle.books :=
  Retained.settle_books_clear rfl

theorem Retained.Records.drainAll {r : Retained} (h : r.Records) : r.drainAll.Records :=
  h.restated (sameRecords_drainAll r) rfl rfl

/-- With a clear completion mark a cut leaves the accounts and totals, whatever the retention mark is. -/
theorem Retained.settle_books_mark {r : Retained} (h : r.completion = false) (b : Bool) :
    ({ r with mark := b } : Retained).settle.books = r.books :=
  Retained.settle_books_clear (r := { r with mark := b }) h

/-- A free area and a stopped part, with records in range wherever they can be relied on. -/
theorem State.RecordsFunded.of_free {t : State} (hk : t.Keeps fun _ => True)
    (hh : t.main.holder = none) (hr : t.trusted → t.ret.settle.Records)
    (hp : t.main.pool = []) (hc : t.running = true → t.ret.completion = false) :
    t.RecordsFunded := by
  refine ⟨hk, hr, fun _ x hx => (by rw [hh] at hx; cases hx), fun hrun _ ht => ?_,
    fun _ => ⟨hp, fun x hx => by rw [hh] at hx; cases hx⟩⟩
  rw [hp]
  exact ((hr ht).of_books (Retained.settle_books_clear (hc hrun)).symm).funded_nil

/-- The slot that `firstClosing` finds is live. -/
theorem firstClosing_live {n k : Nat} {l : List (Option Account)} (h : firstClosing n l = some k) :
    ∃ a, n ≤ k ∧ l[k - n]? = some (some a) ∧ a.state = .closing := by
  induction l generalizing n with
  | nil => cases h
  | cons x l ih =>
    have hrest : firstClosing (n + 1) l = some k →
        ∃ a, n ≤ k ∧ (x :: l)[k - n]? = some (some a) ∧ a.state = .closing := fun h => by
      obtain ⟨a, hle, ha, hs⟩ := ih h
      refine ⟨a, by omega, ?_, hs⟩
      rw [show k - n = (k - (n + 1)) + 1 by omega, List.getElem?_cons_succ]
      exact ha
    cases x with
    | none => exact hrest h
    | some a =>
      unfold firstClosing at h
      split at h
      · cases h
        exact ⟨a, Nat.le_refl _, by simp, ‹_›⟩
      · exact hrest h

/-- The slot the start-up check drains next is live. -/
theorem State.live_of_firstClosing {s : State} {n slot : Nat}
    (h : firstClosing n (s.ret.accounts.drop n) = some slot) : ∃ a, s.Live slot a := by
  obtain ⟨a, hle, ha, _⟩ := firstClosing_live h
  rw [List.getElem?_drop, Nat.add_sub_cancel' hle] at ha
  exact ⟨a, by rw [State.Live, State.account?, List.getD_eq_getElem?_getD, ha]; rfl⟩

/-- A start-up drain ends. -/
theorem State.RecordsFunded.endDrain {s : State} (h : s.RecordsFunded)
    {c : Check} (hc : s.check = some c) {x : Holder} (hx : s.main.holder = some x) :
    (s.endDrain x).RecordsFunded := by
  have hk := keeps_endDrain keptByChanges_true h.coherent hx
  have hpool := (h.finishApply.stopped (by
    rw [(moves_finishApply keptByChanges_true s).2.running]
    simp [State.running, hc])).1
  unfold State.endDrain at hk ⊢
  split
  · rename_i slot he
    rw [he] at hk
    refine .of_free hk rfl (fun ht => ?_) hpool fun _ => rfl
    have ht' : s.trusted := by
      rcases ht with ht | ⟨_, ht⟩
      · exact .inl (s.finishApply_mark ▸ ht)
      · cases ht
    exact (h.done ht' x hx).of_books
      ((Retained.settle_books_clear rfl).trans (State.finishApply_books hx))
  · exact h

/-- One notch of the start-up check. -/
theorem State.RecordsFunded.advanceCheck {s : State} (h : s.RecordsFunded) (hp : s.powered = true)
    {c : Check} (hc : s.check = some c) : (s.advanceCheck c).RecordsFunded := by
  have hk := keeps_advanceCheck keptByChanges_true h.coherent hp hc
  have none_of : (∀ n, c ≠ .drains n) → s.main.holder = none := h.coherent.1.check c hc
  have hstop := h.stopped (by simp [State.running, hc])
  unfold State.advanceCheck at hk ⊢
  cases c with
  | settle =>
    refine .of_free hk (none_of nofun) (fun ht => ?_) hstop.1 fun _ => rfl
    obtain ht | ⟨_, ht⟩ := ht
    · exact (h.cut (.inl ((settle_mark s.ret) ▸ ht))).of_books (Retained.settle_settle s.ret)
    · cases ht
  | drains n =>
    dsimp only at hk ⊢
    cases hx : s.main.holder with
    | some x =>
      dsimp only
      split
      · exact h.endDrain hc hx
      · exact h.advanceHolder hx
    | none =>
      rw [hx] at hk
      have hf : s.ret.completion = false :=
        h.coherent.1.free hp hx (by rw [hc]; nofun) (by rw [hc]; nofun)
      have hrec : ∀ t : State, t.trusted → t.ret.mark = s.ret.mark → t.check ≠ some .coldMark →
          s.ret.Records := fun t ht hm hcm => by
        refine (h.cut (.inl ?_)).of_books (Retained.settle_books_clear hf).symm
        obtain ht | ⟨_, ht⟩ := ht
        · exact hm ▸ ht
        · exact absurd ht hcm
      dsimp only at hk ⊢
      split
      · rename_i slot hslot
        rw [hslot] at hk
        obtain ⟨a, hl⟩ := State.live_of_firstClosing hslot
        refine ⟨hk, fun ht => ?_, fun ht y hy => ?_, fun _ hn => (by cases hn),
          fun _ => ⟨hstop.1, fun y hy => by cases hy; rfl⟩⟩
        · exact (hrec _ ht rfl nofun).of_books (Retained.settle_books_clear rfl)
        · cases hy
          have hr := hrec _ ht rfl nofun
          exact (hr.rebooked (by rw [hstop.1]; exact hr.funded_nil)
            (State.rebooked_acctState hl .drained) rfl).of_books
            (applyRets_books_staged [.acctState slot .drained] s.ret _ false)
      · rename_i hslot
        rw [hslot] at hk
        refine .of_free hk hx (fun ht => ?_) hstop.1 fun _ => hf
        exact (hrec _ ht rfl nofun).of_books (Retained.settle_books_clear hf)
  | cold =>
    refine .of_free hk (none_of nofun) (fun _ => ?_) hstop.1 fun _ => rfl
    exact Retained.emptied_cold.records.of_books (Retained.settle_books_mark rfl false)
  | coldMark =>
    have hf : s.ret.completion = false :=
      h.coherent.1.free hp (none_of nofun) (by rw [hc]; nofun) (by rw [hc]; nofun)
    refine .of_free hk (none_of nofun) (fun _ => ?_) hstop.1 fun _ => hf
    exact (h.cut (.inr ⟨hp, hc⟩)).of_books
      ((Retained.settle_books_mark hf true).trans (Retained.settle_books_clear hf).symm)
  | complete => exact h

/-- The start-up check ends, and what waited for it is taken. -/
theorem State.RecordsFunded.endCheck {s : State} (h : s.RecordsFunded) (hp : s.powered = true)
    {c : Check} (hc : s.check = some c) : (s.endCheck c).RecordsFunded := by
  have none_of : (∀ n, c ≠ .drains n) → s.main.holder = none := h.coherent.1.check c hc
  have hstop := h.stopped (by simp [State.running, hc])
  have hwait : ∀ (l : List Waiter) (u : State), u.RecordsFunded →
      (l.foldl State.handWaiter u).RecordsFunded := by
    intro l
    induction l with
    | nil => exact fun _ hu => hu
    | cons w l ih =>
      refine fun u hu => ih _ ?_
      cases w with
      | port p => exact recordsFunded_operations.giveArea (hu.handOn p)
      | supervisor => exact recordsFunded_operations.giveArea hu.handSupervisor
  unfold State.endCheck
  dsimp only
  refine hwait _ _ (.of_free ?_ rfl (fun ht => ?_) hstop.1 fun _ => ?_)
  · exact keeps_checked keptByChanges_true (fun _ _ => trivial) h.coherent hp hc rfl rfl rfl
  · have hm : (s.ret.checked c).mark = true := by
      obtain ht | ⟨_, ht⟩ := ht
      · exact ht
      · cases ht
    have hsettled : s.ret.settle.mark = true → s.ret.settle.drainAll.settle.Records := fun hm =>
      (h.cut (.inl ((settle_mark s.ret) ▸ hm))).drainAll.of_books (Retained.settle_books_clear rfl)
    cases c with
    | settle => exact hsettled hm
    | drains n => exact hsettled hm
    | cold => exact Retained.emptied_cold.records.of_books (Retained.settle_books_clear rfl)
    | coldMark =>
      have hf : s.ret.completion = false :=
        h.coherent.1.free hp (none_of nofun) (by rw [hc]; nofun) (by rw [hc]; nofun)
      exact (h.cut (.inr ⟨hp, hc⟩)).of_books
        ((Retained.settle_books_mark hf true).trans (Retained.settle_books_clear hf).symm)
    | complete => exact h.cut (.inl hm)
  · have hf : (∀ n, c ≠ .drains n) → c ≠ .settle → c ≠ .cold → s.ret.completion = false :=
      fun hd hs hcold => h.coherent.1.free hp (none_of hd) (by rw [hc]; exact fun e => hs (by cases e; rfl))
        (by rw [hc]; exact fun e => hcold (by cases e; rfl))
    cases c with
    | settle | drains | cold => rfl
    | coldMark => exact hf nofun nofun nofun
    | complete => exact hf nofun nofun nofun

/-- Every step but the end of a staged change keeps the records in range and the funds. -/
theorem recordsFunded_steps : KeptBySteps State.RecordsFunded where
  toKeptByOperations := recordsFunded_operations
  supply _ hc hst h := h.supply hc hst
  advance _ hx h := h.advanceHolder hx
  check _ hp hc h := ⟨h.advanceCheck hp hc, h.endCheck hp hc, fun _ hx => h.endDrain hc hx⟩

/-! The end of a staged change. -/

/-- The end of a staged change leaves the funds that its accounts and its effects agree on. -/
theorem State.RecordsFunded.completeChange {s : State} (h : s.RecordsFunded)
    (hr : s.running = true) (hn : ∀ x, s.main.holder = some x → Agree (s.settledRet x) s.appliedMain) :
    s.completeChange.RecordsFunded := by
  unfold State.completeChange
  split
  · exact h
  · rename_i x hx
    have hm := moves_clearArea keptByChanges_true hr
    have hmark : s.finishApply.clearArea.ret.mark = s.ret.mark := s.finishApply_mark
    have hbooks : s.finishApply.clearArea.ret.books = (s.settledRet x).books :=
      State.finishApply_books hx
    have hpool : s.finishApply.clearArea.main.pool = s.appliedMain.pool := by
      simp only [State.clearArea, State.finishApply, State.appliedMain, hx]
      split
      · rfl
      · exact (catchUpN_frame _ _).2.2.1
    have hc : s.finishApply.clearArea.RecordsFunded := by
      refine h.of_moves hm hmark (fun _ hd => (hd x hx).of_books ?_)
        (fun _ _ y hy => by cases hy) (fun _ _ _ => ?_) (fun hs => by rw [hr] at hs; cases hs)
      · exact (Retained.settle_books_clear rfl).trans hbooks
      · rw [hpool]
        refine Funded.of_eq (r := s.settledRet x) (hn x hx).funds ?_
        exact congrArg Books.accounts hbooks
    refine recordsFunded_operations.giveArea ?_
    split
    · exact hc.answerStation _ _
    · exact hc.answerSupervisor _
    · exact hc

/-! The statement. -/

/-- Settles O57: with the funds behind the holds beside it, which the agreement of accounts and holds gives at
the end of a change, the condition is kept by every operation of the part. -/
theorem everyStepKeepsTheRecordsInRange : Obligations.EveryStepKeepsTheRecordsInRange := by
  unfold Obligations.EveryStepKeepsTheRecordsInRange
  intro s t hk ha hst
  have h : s.RecordsFunded := by
    refine hk.recordsFunded (fun hr hh _ => ?_) fun hr => ⟨(ha.stopped hr).1, (ha.stopped hr).2.1⟩
    obtain ⟨hp, hc⟩ := running_powered hr
    exact (ha.now hr (hk.1.free hp hh (by rw [hc]; nofun) (by rw [hc]; nofun))).funds
  refine (recordsFunded_steps.step_kept h (fun hr rest => ?_) hst).keeps
  exact (h.frame (t := { s with pending := rest }) rfl rfl rfl ⟨rfl, rfl, rfl⟩).completeChange hr
    (ha.next hr)

end Sys2Proof.Machine
end

section
/-! PROOFS. No answer announces a change before the change is safe. -/

namespace Sys2Proof.Machine

/-! Moves that leave the requests in hand, their answers and the events of the area. -/

/-- Two states with the same events in and for the area, the same requests in hand and pending, and the same
answers on the links. -/
structure Calm (s t : State) : Prop where
  running : t.running = s.running
  holder : t.main.holder.map (fun h => (h.event, h.reply)) =
    s.main.holder.map fun h => (h.event, h.reply)
  waiting : t.main.waiting = s.main.waiting
  inHand : ∀ p, (t.session p).inHand.isSome = (s.session p).inHand.isSome
  link : ∀ p, (t.link p).outstanding = (s.link p).outstanding ∧ (t.link p).tx = (s.link p).tx
  sup : t.main.sup.state = s.main.sup.state ∧ t.main.sup.request = s.main.sup.request ∧
    t.main.sup.answer = s.main.sup.answer

theorem Calm.refl (s : State) : Calm s s :=
  ⟨rfl, rfl, rfl, fun _ => rfl, fun _ => ⟨rfl, rfl⟩, rfl, rfl, rfl⟩

theorem Calm.trans {s t u : State} (h : Calm s t) (g : Calm t u) : Calm s u where
  running := g.running.trans h.running
  holder := g.holder.trans h.holder
  waiting := g.waiting.trans h.waiting
  inHand p := (g.inHand p).trans (h.inHand p)
  link p := ⟨(g.link p).1.trans (h.link p).1, (g.link p).2.trans (h.link p).2⟩
  sup := ⟨g.sup.1.trans h.sup.1, g.sup.2.1.trans h.sup.2.1, g.sup.2.2.trans h.sup.2.2⟩

theorem Quiet.calm {s t : State} (h : Quiet s t) : Calm s t where
  running := h.stands.running
  holder := by rw [h.holder]
  waiting := h.waiting
  inHand p := by rw [h.inHand]
  link := h.link
  sup := h.sup

/-- The events of the area, by the event that holds it. -/
theorem State.areaEvents_eq (s : State) : s.areaEvents =
    ((s.main.holder.map fun h => (h.event, h.reply)).map (·.1)).toList ++ s.main.waiting := by
  simp [State.areaEvents, Option.map_map, Function.comp_def]

theorem Calm.areaEvents {s t : State} (h : Calm s t) : t.areaEvents = s.areaEvents := by
  rw [State.areaEvents_eq, State.areaEvents_eq, h.holder, h.waiting]

/-- A request in hand, by whether there is one. -/
theorem Calm.inHand_ne {s t : State} (h : Calm s t) (p : Port) :
    (t.session p).inHand ≠ none ↔ (s.session p).inHand ≠ none := by
  rw [← Option.isSome_iff_ne_none, ← Option.isSome_iff_ne_none, h.inHand]

theorem State.AnswersKept.calm {s t : State} (h : s.AnswersKept) (c : Calm s t) : t.AnswersKept where
  station p hm := (c.inHand_ne p).mpr (h.station p (c.areaEvents ▸ hm))
  inHand p hi := by
    rw [(c.link p).1, (c.link p).2]
    exact h.inHand p ((c.inHand_ne p).mp hi)
  sending p ht := by
    rw [(c.link p).1]
    exact h.sending p ((c.link p).2 ▸ ht)
  supervisor hm := by
    rw [c.sup.2.1]
    exact h.supervisor (c.areaEvents ▸ hm)
  request hr := by
    rw [c.sup.1, c.sup.2.2]
    exact h.request (c.sup.2.1 ▸ hr)
  once := by rw [c.areaEvents]; exact h.once
  reply x hx := by
    obtain ⟨y, hy, he⟩ := Option.map_eq_some_iff.mp (c.holder.symm.trans (by rw [hx]; rfl))
    simp only [Prod.mk.injEq] at he
    rw [← he.1, ← he.2]
    exact h.reply y hy
  stopped hr e he := h.stopped (c.running ▸ hr) e (c.areaEvents ▸ he)

/-- Main-memory effects leave links, the supervisor link and the area, and whether a request is in hand. -/
theorem applyMain_calm (w : MainWrite) (m : Main) : (applyMain w m).links = m.links ∧
    (applyMain w m).sup = m.sup ∧ (applyMain w m).holder = m.holder ∧
    (applyMain w m).waiting = m.waiting ∧
    ∀ p, ((applyMain w m).sessions.get p).inHand.isSome = (m.sessions.get p).inHand.isSome := by
  cases w with
  | cursor q c | pin q c =>
    refine ⟨rfl, rfl, rfl, rfl, fun p => ?_⟩
    simp only [applyMain, Main.mapSession, Four.get_set]
    split
    · subst_vars; rfl
    · rfl
  | slotGone slot => exact ⟨rfl, rfl, rfl, rfl, fun p => by simp [applyMain, Session.mapCursors]⟩
  | wipe => exact ⟨rfl, rfl, rfl, rfl, fun p => by simp [applyMain, Session.mapCursors]⟩
  | _ => exact ⟨rfl, rfl, rfl, rfl, fun _ => rfl⟩

theorem applyMains_calm (ms : List MainWrite) (m : Main) : (applyMains ms m).links = m.links ∧
    (applyMains ms m).sup = m.sup ∧ (applyMains ms m).holder = m.holder ∧
    (applyMains ms m).waiting = m.waiting ∧
    ∀ p, ((applyMains ms m).sessions.get p).inHand.isSome = (m.sessions.get p).inHand.isSome := by
  obtain ⟨h1, h2, h3, h4, h5, h6⟩ := catchUpN_frame (m.effects ms).clockOwed (m.effects ms)
  have hfold : (m.effects ms).links = m.links ∧ (m.effects ms).sup = m.sup ∧
      (m.effects ms).holder = m.holder ∧ (m.effects ms).waiting = m.waiting ∧
      ∀ p, ((m.effects ms).sessions.get p).inHand.isSome = (m.sessions.get p).inHand.isSome := by
    clear h1 h2 h3 h4 h5 h6
    induction ms generalizing m with
    | nil => exact ⟨rfl, rfl, rfl, rfl, fun _ => rfl⟩
    | cons w ms ih =>
      obtain ⟨a, b, c, d, e⟩ := applyMain_calm w m
      obtain ⟨a', b', c', d', e'⟩ := ih (applyMain w m)
      exact ⟨a'.trans a, b'.trans b, c'.trans c, d'.trans d, fun p => (e' p).trans (e p)⟩
  obtain ⟨a, b, c, d, e⟩ := hfold
  exact ⟨h1.trans a, h4.trans b, h5.trans c, h6.trans d, fun p =>
    (congrArg (fun x : Four Session => (x.get p).inHand.isSome) h2).trans (e p)⟩

/-- Another main memory with its effects made. -/
theorem Calm.of_mains {s t : State} {ms : List MainWrite} {holder : Option Holder}
    (hm : t.main = { applyMains ms s.main with holder := holder })
    (hh : holder.map (fun h => (h.event, h.reply)) = s.main.holder.map fun h => (h.event, h.reply))
    (hr : t.running = s.running) : Calm s t := by
  obtain ⟨h1, h2, _, h4, h5⟩ := applyMains_calm ms s.main
  refine ⟨hr, by rw [hm]; exact hh, by rw [hm]; exact h4, fun p => ?_, fun p => ?_, ?_⟩
  · simp only [State.session, hm]; exact h5 p
  · simp only [State.link, hm]
    rw [h1]
    exact ⟨rfl, rfl⟩
  · rw [hm]
    dsimp only
    rw [h2]
    exact ⟨rfl, rfl, rfl⟩

theorem Calm.doMains (s : State) (ms : List MainWrite) : Calm s (s.doMains ms) := by
  unfold State.doMains
  split
  · exact .refl s
  · exact .of_mains (ms := ms) (holder := s.main.holder)
      (by rw [← applyMains_holder ms s.main]) rfl rfl

theorem Calm.finishApply (s : State) : Calm s s.finishApply := by
  unfold State.finishApply
  split
  · exact .refl s
  · rename_i h hh
    split
    · exact .refl s
    · exact .of_mains (ms := h.mains) rfl (by rw [hh]; rfl) rfl

theorem Calm.settleForRead (s : State) : Calm s s.settleForRead := by
  unfold State.settleForRead
  split
  · split
    · exact .refl s
    · exact .finishApply s
  · exact .refl s

theorem Calm.sessionReset (s : State) (p : Port) : Calm s (s.sessionReset p) := by
  refine ⟨rfl, rfl, rfl, fun q => ?_, fun q => ?_, rfl, rfl, rfl⟩
  · simp only [State.sessionReset, State.session, State.setLink_main_sessions,
      State.setSession_main_sessions, Four.get_set]
    split
    · subst_vars; simp
    · rfl
  · simp only [State.sessionReset, State.link, State.setLink_main_links,
      State.setSession_main_links, Four.get_set]
    split
    · subst_vars; exact ⟨rfl, rfl⟩
    · exact ⟨rfl, rfl⟩

/-- One notch of a staged change. -/
theorem Calm.advanceHolder {s : State} {x : Holder} (hx : s.main.holder = some x) :
    Calm s (s.advanceHolder x) := by
  have hmain : ∀ (ret : Retained) (phase : Phase), Calm s { s with
      ret := ret, main := { s.main with holder := some { x with phase := phase } } } :=
    fun _ _ => ⟨rfl, by rw [hx]; rfl, rfl, fun _ => rfl, fun _ => ⟨rfl, rfl⟩, rfl, rfl, rfl⟩
  unfold State.advanceHolder
  split
  · exact hmain _ _
  · exact hmain s.ret _
  · split
    · exact hmain _ _
    · exact .finishApply s
  · exact .refl s

/-! Requests handed over and answered. -/

/-- A port's request is in hand and neither holds the area nor waits for it. -/
structure State.TakesStation (s : State) (p : Port) : Prop where
  kept : s.AnswersKept
  inHand : (s.session p).inHand ≠ none
  free : .station p ∉ s.areaEvents

/-- The supervisor's request is pending and neither holds the area nor waits for it. -/
structure State.TakesSupervisor (s : State) : Prop where
  kept : s.AnswersKept
  request : s.main.sup.request ≠ none
  free : .supervisor ∉ s.areaEvents

theorem State.TakesStation.calm {s t : State} {p : Port} (h : s.TakesStation p) (c : Calm s t) :
    t.TakesStation p :=
  ⟨h.kept.calm c, (c.inHand_ne p).mpr h.inHand, by rw [c.areaEvents]; exact h.free⟩

theorem State.TakesSupervisor.calm {s t : State} (h : s.TakesSupervisor) (c : Calm s t) :
    t.TakesSupervisor :=
  ⟨h.kept.calm c, by rw [c.sup.2.1]; exact h.request, by rw [c.areaEvents]; exact h.free⟩

/-- A link without OUTSTANDING has no request in hand. -/
theorem State.AnswersKept.inHand_none {s : State} (h : s.AnswersKept) {p : Port}
    (ho : (s.link p).outstanding = false) : (s.session p).inHand = none := by
  by_contra hi
  have := (h.inHand p hi).1
  rw [ho] at this
  cases this

/-- An idle or answered supervisor link has no request. -/
theorem State.AnswersKept.request_none {s : State} (h : s.AnswersKept)
    (hs : s.main.sup.state ≠ .requestPending) : s.main.sup.request = none := by
  by_contra hr
  exact hs (h.request hr).1

/-- The state with another session and link at a port: what AnswersKept asks of it. -/
theorem State.AnswersKept.setPort {s : State} (h : s.AnswersKept) (p : Port) (x : Session) (l : Link)
    (hfree : x.inHand = none → .station p ∉ s.areaEvents)
    (hin : x.inHand ≠ none → l.outstanding = true ∧ l.tx = none)
    (hsend : l.tx ≠ none → l.outstanding = true) :
    ((s.setSession p x).setLink p l).AnswersKept where
  station q hm := by
    by_cases hq : q = p
    · subst hq
      intro hn
      refine hfree ?_ hm
      simpa [State.session] using hn
    · simpa [State.session, hq] using h.station q hm
  inHand q hi := by
    by_cases hq : q = p
    · subst hq
      simpa [State.link] using hin (by simpa [State.session] using hi)
    · simpa [State.link, hq] using h.inHand q (by simpa [State.session, hq] using hi)
  sending q ht := by
    by_cases hq : q = p
    · subst hq
      simpa [State.link] using hsend (by simpa [State.link] using ht)
    · simpa [State.link, hq] using h.sending q (by simpa [State.link, hq] using ht)
  supervisor := h.supervisor
  request := h.request
  once := h.once
  reply := h.reply
  stopped := h.stopped

/-- A frame handed over at a link without OUTSTANDING. -/
theorem State.AnswersKept.handed {s : State} (h : s.AnswersKept) {p : Port} (f : StationFrame)
    (ho : (s.link p).outstanding = false) :
    ((s.setSession p { s.session p with inHand := some ⟨f, none⟩ }).setLink p
      { s.link p with outstanding := true }).TakesStation p := by
  have ht : (s.link p).tx = none := by
    by_contra ht
    have := h.sending p ht
    rw [ho] at this
    cases this
  refine ⟨h.setPort p _ _ nofun (fun _ => ⟨rfl, ht⟩) (fun _ => rfl), ?_, fun hm => ?_⟩
  · simp [State.session]
  · exact h.station p hm (h.inHand_none ho)

/-- An answer is handed to its link. -/
theorem State.TakesStation.sendAnswer {s : State} {p : Port} (h : s.TakesStation p) (r : Reply) :
    (s.sendAnswer p r).AnswersKept := by
  have ho := (h.kept.inHand p h.inHand).1
  unfold State.sendAnswer
  dsimp only
  split
  · exact h.kept
  · exact h.kept.setPort p _ _ (fun _ => h.free) (fun hn => absurd rfl hn) (fun _ => ho)

/-- An answer is dropped. -/
theorem State.TakesStation.dropAnswer {s : State} {p : Port} (h : s.TakesStation p) :
    (s.dropAnswer p).AnswersKept := by
  have ht := (h.kept.inHand p h.inHand).2
  exact h.kept.setPort p _ _ (fun _ => h.free) (fun hn => absurd rfl hn) (fun hn => absurd ht hn)

/-- A supervisor answer is placed. -/
theorem State.TakesSupervisor.answerSupervisor {s : State} (h : s.TakesSupervisor) (a : Answer) :
    (s.answerSupervisor a).AnswersKept := by
  obtain ⟨k, _, hf⟩ := h
  unfold State.answerSupervisor
  split
  · exact k
  · exact ⟨k.station, k.inHand, k.sending, fun hm => absurd hm hf, fun hn => absurd rfl hn,
      k.once, k.reply, k.stopped⟩

/-- The events of the area once another waits for it. -/
theorem State.areaEvents_wait (s : State) (e : AreaEvent) :
    (s.wait e).areaEvents = s.areaEvents ++ [e] := (List.append_assoc ..).symm

/-- An event comes to wait: a request that the part has taken and that neither holds the area nor waits, or an
internal event. -/
theorem State.AnswersKept.wait {s : State} (h : s.AnswersKept) {e : AreaEvent}
    (hst : ∀ p, e = .station p → (s.session p).inHand ≠ none)
    (hsup : e = .supervisor → s.main.sup.request ≠ none)
    (hreq : e.isRequest = true → s.running = true ∧ e ∉ s.areaEvents) : (s.wait e).AnswersKept where
  station p hm := by
    rw [State.areaEvents_wait, List.mem_append, List.mem_singleton] at hm
    exact hm.elim (h.station p) fun he => hst p he.symm
  inHand := h.inHand
  sending := h.sending
  supervisor hm := by
    rw [State.areaEvents_wait, List.mem_append, List.mem_singleton] at hm
    exact hm.elim h.supervisor fun he => hsup he.symm
  request := h.request
  once := by
    rw [State.areaEvents_wait, List.filter_append]
    refine h.once.append ((List.nodup_singleton e).filter _) fun x hx hxe => ?_
    obtain ⟨hxe, hr⟩ := List.mem_filter.mp hxe
    obtain rfl := List.mem_singleton.mp hxe
    exact (hreq hr).2 (List.mem_filter.mp hx).1
  reply := h.reply
  stopped hr x hx := by
    rw [State.areaEvents_wait, List.mem_append, List.mem_singleton] at hx
    obtain hx | rfl := hx
    · exact h.stopped hr x hx
    · by_contra hreqx
      have := (hreq (by simpa using hreqx)).1
      rw [show s.running = false from hr] at this
      cases this

theorem State.AnswersKept.wait_internal {s : State} (h : s.AnswersKept) {e : AreaEvent}
    (he : e.isRequest = false) : (s.wait e).AnswersKept := by
  refine h.wait (fun p hp => ?_) (fun hs => ?_) (fun hr => ?_)
  · subst hp; cases he
  · subst hs; cases he
  · rw [he] at hr; cases hr

theorem State.TakesStation.wait {s : State} {p : Port} (h : s.TakesStation p)
    (hr : s.running = true) : (s.wait (.station p)).AnswersKept :=
  h.kept.wait (fun q hq => by cases hq; exact h.inHand) nofun fun _ => ⟨hr, h.free⟩

theorem State.TakesSupervisor.wait {s : State} (h : s.TakesSupervisor) (hr : s.running = true) :
    (s.wait .supervisor).AnswersKept :=
  h.kept.wait nofun (fun _ => h.request) fun _ => ⟨hr, h.free⟩

/-- A frame is handed over: taken at once, or waiting for the area. -/
theorem State.AnswersKept.handOver {s : State} (h : s.AnswersKept) {p : Port} (f : StationFrame)
    (hr : s.running = true) (ho : (s.link p).outstanding = false) : (s.handOver p f).AnswersKept := by
  unfold State.handOver
  dsimp only
  have hc := Calm.settleForRead ((s.setSession p { s.session p with inHand := some ⟨f, none⟩ }).setLink
    p { s.link p with outstanding := true })
  have h1 := (h.handed f ho).calm hc
  split
  · exact h1.wait (hc.running.trans hr)
  · unfold State.takeFree
    dsimp only
    refine State.TakesStation.sendAnswer (.calm ?_ (.doMains _ _)) _
    split
    · exact h1.calm (.finishApply _)
    · exact h1

/-- A waiting frame is handed on, with OUTSTANDING clear. -/
theorem State.AnswersKept.handOn {s : State} (h : s.AnswersKept) (p : Port) :
    (s.handOn p).AnswersKept := by
  unfold State.handOn
  split
  · split
    · rename_i hc
      simp only [Bool.and_eq_true, Bool.not_eq_true'] at hc
      exact (h.calm (Quiet.setLink s p (by rfl) (by rfl)).calm).handOver _ hc.1 (by simpa using hc.2)
    · exact h
  · exact h

/-- The answer of a port's request is handed to the link or dropped. -/
theorem State.TakesStation.answerStation {s : State} {p : Port} (h : s.TakesStation p) (r : Reply) :
    (s.answerStation p r).AnswersKept := by
  unfold State.answerStation
  split
  · split
    · exact h.dropAnswer.handOn p
    · exact h.sendAnswer r
  · exact h.kept

/-! The area. -/

/-- The free area is given to an event. -/
theorem State.AnswersKept.holdArea {s : State} (h : s.AnswersKept) (hh : s.main.holder = none)
    {e : AreaEvent} (ws : List RetWrite) (ms : List MainWrite) {reply : Option Reply}
    (hst : ∀ p, e = .station p → (s.session p).inHand ≠ none)
    (hsup : e = .supervisor → s.main.sup.request ≠ none)
    (hreq : e.isRequest = true → s.running = true ∧ e ∉ s.areaEvents)
    (hreply : reply ≠ none ↔ e.isRequest = true) : (s.holdArea e ws ms reply).AnswersKept := by
  have hev : (s.holdArea e ws ms reply).areaEvents = e :: s.areaEvents := by
    simp [State.areaEvents, State.holdArea, hh]
  refine ⟨fun p hm => ?_, h.inHand, h.sending, fun hm => ?_, h.request, ?_, fun x hx => ?_,
    fun hr x hx => ?_⟩
  · rw [hev, List.mem_cons] at hm
    exact hm.elim (fun he => hst p he.symm) (h.station p)
  · rw [hev, List.mem_cons] at hm
    exact hm.elim (fun he => hsup he.symm) h.supervisor
  · rw [hev, List.filter_cons]
    split
    · rename_i hr
      exact List.nodup_cons.mpr ⟨fun hm => (hreq hr).2 (List.mem_filter.mp hm).1, h.once⟩
    · exact h.once
  · cases hx
    exact hreply
  · rw [hev, List.mem_cons] at hx
    obtain rfl | hx := hx
    · by_contra hreqx
      have := (hreq (by simpa using hreqx)).1
      rw [show s.running = false from hr] at this
      cases this
    · exact h.stopped hr x hx

/-- The free area given to an event that is no request. -/
theorem State.AnswersKept.stageOrDo {s : State} (h : s.AnswersKept) (hh : s.main.holder = none)
    {e : AreaEvent} (he : e.isRequest = false) (v : List RetWrite × List MainWrite) :
    (s.stageOrDo e v).AnswersKept := by
  unfold State.stageOrDo
  split
  · exact h.calm (.doMains _ _)
  · refine h.holdArea hh _ _ (fun p hp => ?_) (fun hs => ?_) (fun hr => ?_) ?_
    · subst hp; cases he
    · subst hs; cases he
    · rw [he] at hr; cases hr
    · simp [he]

/-- The free area is given on to the event that has waited longest. -/
theorem State.AnswersKept.takeWaiting {s : State} {e : AreaEvent} {rest : List AreaEvent}
    (h : s.AnswersKept) (hr : s.running = true) (hh : s.main.holder = none)
    (hw : s.main.waiting = e :: rest) : ((s.withWaiting rest).takeWaiting e).AnswersKept := by
  have hs : s.areaEvents = e :: rest := by simp [State.areaEvents, hh, hw]
  have ht : (s.withWaiting rest).areaEvents = rest := by
    simp [State.areaEvents, State.withWaiting, hh]
  have hsub : ∀ x ∈ (s.withWaiting rest).areaEvents, x ∈ s.areaEvents := fun x hx => by
    rw [hs]; rw [ht] at hx; exact List.mem_cons_of_mem _ hx
  have hfree : e.isRequest = true → e ∉ (s.withWaiting rest).areaEvents := fun he hm => by
    have := h.once
    rw [hs, List.filter_cons, if_pos he, List.nodup_cons] at this
    exact this.1 (List.mem_filter.mpr ⟨ht ▸ hm, he⟩)
  have hk : (s.withWaiting rest).AnswersKept := by
    refine ⟨fun p hm => h.station p (hsub _ hm), h.inHand, h.sending,
      fun hm => h.supervisor (hsub _ hm), h.request, ?_, h.reply,
      fun hn x hx => h.stopped hn x (hsub x hx)⟩
    refine h.once.sublist (List.Sublist.filter _ ?_)
    rw [ht, hs]
    exact List.sublist_cons_self _ _
  have hhead : e ∈ s.areaEvents := by rw [hs]; exact List.mem_cons_self
  cases e with
  | station p =>
    have htake : (s.withWaiting rest).TakesStation p := ⟨hk, h.station p hhead, hfree rfl⟩
    unfold State.takeWaiting
    dsimp only
    split
    · exact hk
    · split
      · exact (htake.calm (.doMains _ _)).answerStation _
      · exact hk.holdArea hh _ _ (fun q hq => by cases hq; exact htake.inHand) nofun
          (fun _ => ⟨hr, htake.free⟩) (by simp [AreaEvent.isRequest])
  | supervisor =>
    have htake : (s.withWaiting rest).TakesSupervisor := ⟨hk, h.supervisor hhead, hfree rfl⟩
    unfold State.takeWaiting
    dsimp only
    split
    · exact hk
    · split
      · exact (htake.calm (.doMains _ _)).answerSupervisor _
      · exact hk.holdArea hh _ _ nofun (fun _ => htake.request)
          (fun _ => ⟨hr, htake.free⟩) (by simp [AreaEvent.isRequest])
  | holdExpiry | pinExpiry | sessionPinEnd =>
    unfold State.takeWaiting
    dsimp only
    split
    · exact hk.stageOrDo hh rfl _
    · exact hk
  | startUpDrain => exact hk

/-- The supervisor's request is taken at once, or waits for the area. -/
theorem State.AnswersKept.handSupervisor {s : State} (h : s.AnswersKept) (hr : s.running = true)
    (hf : .supervisor ∉ s.areaEvents) : s.handSupervisor.AnswersKept := by
  unfold State.handSupervisor
  split
  · exact h
  · rename_i r hq
    have ht : s.TakesSupervisor := ⟨h, by rw [hq]; nofun, hf⟩
    split
    · exact ht.wait hr
    · exact (ht.calm (.settleForRead s)).answerSupervisor _

/-- An answer has been sent. -/
theorem State.AnswersKept.sent {s : State} (h : s.AnswersKept) (p : Port)
    (ht : (s.link p).tx.isSome = true) :
    (s.setLink p { s.link p with tx := none, outstanding := false }).AnswersKept := by
  have hi : (s.session p).inHand = none := by
    by_contra hi
    rw [(h.inHand p hi).2] at ht
    cases ht
  have hs : s.setSession p (s.session p) = s := by simp [State.setSession, State.session]
  have := h.setPort p (s.session p) { s.link p with tx := none, outstanding := false }
    (fun hn hm => h.station p hm hn) (fun hn => absurd hi hn) (fun hn => absurd rfl hn)
  rwa [hs] at this

/-- The part's operations keep the answers back. -/
theorem answersKept_operations : KeptByOperations State.AnswersKept where
  quiet q h := h.calm q.calm
  finish h := h.calm (.finishApply _)
  handOver _ f hr ho h := h.handOver f hr ho
  take _ _ hr hh hw h := h.takeWaiting hr hh hw
  accept r bytes hs h := by
    have hf := fun hm => h.supervisor hm (h.request_none hs)
    have ha : (State.askedBy _ r bytes).AnswersKept :=
      ⟨h.station, h.inHand, h.sending, fun hm => absurd hm hf, fun _ => ⟨rfl, rfl⟩, h.once, h.reply,
        h.stopped⟩
    exact ⟨ha, fun hr => ha.handSupervisor hr hf⟩
  discard x hs hx h :=
    ⟨h.station, h.inHand, h.sending, fun hm => absurd (h.request_none hs) (h.supervisor hm),
      fun hn => absurd hx hn, h.once, h.reply, h.stopped⟩
  mains ms _ h := h.calm (.doMains _ ms)
  wait _ he h := h.wait_internal he
  reset p h := h.calm (.sessionReset _ p)
  sent p ht h := h.sent p ht

/-! Supplies, the start-up check, the end of a change. -/

/-- Main memory at its reset values has nothing to answer. -/
theorem State.AnswersKept.of_reset {t : State} (h : t.main = Main.reset) : t.AnswersKept := by
  have he : t.areaEvents = [] := by simp [State.areaEvents, h, Main.reset]
  have hs : ∀ p, t.session p = Session.reset := fun p => by simp [State.session, h, Main.reset]
  have hl : ∀ p, t.link p = Link.reset := fun p => by simp [State.link, h, Main.reset]
  refine ⟨fun p hm => ?_, fun p hi => ?_, fun p ht => ?_, fun hm => ?_, fun hr => ?_, ?_,
    fun x hx => ?_, fun _ x hx => ?_⟩
  · rw [he] at hm; cases hm
  · rw [hs] at hi; exact absurd rfl hi
  · rw [hl] at ht; exact absurd rfl ht
  · rw [he] at hm; cases hm
  · rw [h] at hr; exact absurd rfl hr
  · rw [he]; exact List.nodup_nil
  · rw [h] at hx; cases hx
  · rw [he] at hx; cases hx

/-- The same main memory in a part that takes requests as before, or not. -/
theorem State.AnswersKept.of_main {s t : State} (h : s.AnswersKept) (hm : t.main = s.main)
    (hr : t.running = false → s.running = false) : t.AnswersKept := by
  have he : t.areaEvents = s.areaEvents := by simp only [State.areaEvents, hm]
  obtain ⟨h1, h2, h3, h4, h5, h6, h7, h8⟩ := h
  simp only [State.session, State.link, ← hm, ← he] at h1 h2 h3 h4 h5 h6 h7 h8
  exact ⟨h1, h2, h3, h4, h5, h6, h7, fun hn => h8 (hr hn)⟩

theorem State.AnswersKept.supply {s t : State} (h : s.AnswersKept) {c : Instr}
    (hc : isSupply c = true) (hst : exec c s = .next t) : t.AnswersKept := by
  obtain ⟨_, hm | ⟨hr, hm⟩⟩ | ⟨hp, hck, hm, _⟩ := supply_cases hc hst
  · exact .of_reset hm
  · exact h.of_main hm fun _ => hr
  · exact h.of_main hm fun hn => by simpa only [State.running, hp, hck] using hn

/-- The holder has left the area, and no request of it is among those that wait. -/
theorem State.AnswersKept.withoutHolder {s t : State} (h : s.AnswersKept) {x : Holder}
    (hx : s.main.holder = some x) (hm : t.main = { s.main with holder := none })
    (hr : t.running = s.running) :
    t.AnswersKept ∧ (x.event.isRequest = true → x.event ∉ t.areaEvents) := by
  have hs : s.areaEvents = x.event :: t.areaEvents := by simp [State.areaEvents, hx, hm]
  have hses : ∀ p, t.session p = s.session p := fun p => by simp only [State.session, hm]
  have hl : ∀ p, t.link p = s.link p := fun p => by simp only [State.link, hm]
  have hsup : t.main.sup = s.main.sup := by rw [hm]
  have hsub : ∀ y ∈ t.areaEvents, y ∈ s.areaEvents := fun y hy => by
    rw [hs]; exact List.mem_cons_of_mem _ hy
  refine ⟨⟨fun p hp => ?_, fun p hi => ?_, fun p ht => ?_, fun hp => ?_, fun hq => ?_, ?_,
    fun y hy => ?_, fun hn y hy => h.stopped (hr ▸ hn) y (hsub y hy)⟩, fun he hmem => ?_⟩
  · rw [hses]; exact h.station p (hsub _ hp)
  · rw [hl]; exact h.inHand p (hses p ▸ hi)
  · rw [hl] at ht ⊢; exact h.sending p ht
  · rw [hsup]; exact h.supervisor (hsub _ hp)
  · rw [hsup] at hq ⊢; exact h.request hq
  · have := h.once
    rw [hs] at this
    exact this.sublist (List.Sublist.filter _ (List.sublist_cons_self _ _))
  · rw [hm] at hy; cases hy
  · have := h.once
    rw [hs, List.filter_cons, if_pos he, List.nodup_cons] at this
    exact this.1 (List.mem_filter.mpr ⟨hmem, he⟩)

/-- A start-up drain ends. -/
theorem State.AnswersKept.endDrain {s : State} (h : s.AnswersKept) {c : Check}
    (hc : s.check = some c) {x : Holder} (hx : s.main.holder = some x) :
    (s.endDrain x).AnswersKept := by
  have hf := Calm.finishApply s
  obtain ⟨y, hy, _⟩ := Option.map_eq_some_iff.mp (hf.holder.trans (by rw [hx]; rfl))
  have hrun : s.finishApply.running = false := by
    rw [hf.running]
    simp [State.running, hc]
  unfold State.endDrain
  split
  · exact ((h.calm hf).withoutHolder hy rfl (by rw [hrun]; simp [State.running])).1
  · exact h

/-- One notch of the start-up check. -/
theorem State.AnswersKept.advanceCheck {s : State} (h : s.AnswersKept) {c : Check}
    (hc : s.check = some c) : (s.advanceCheck c).AnswersKept := by
  have hrun : s.running = false := by simp [State.running, hc]
  have hmain : ∀ t : State, t.main = s.main → t.AnswersKept := fun t ht => h.of_main ht fun _ => hrun
  unfold State.advanceCheck
  cases c with
  | settle | cold | coldMark | complete => exact hmain _ rfl
  | drains n =>
    dsimp only
    cases hx : s.main.holder with
    | some x =>
      dsimp only
      split
      · exact h.endDrain hc hx
      · exact h.calm (.advanceHolder hx)
    | none =>
      dsimp only
      split
      · rename_i slot _
        have hheld : (s.holdArea (.startUpDrain slot) [.acctState slot .drained] [] none).AnswersKept :=
          h.holdArea hx _ _ nofun nofun nofun (by simp [AreaEvent.isRequest])
        exact hheld.of_main rfl fun _ => hrun
      · exact hmain _ rfl

/-- The order chosen is an order of those that wait. -/
theorem chooseOrder_perm (n c : Nat) (l : List Waiter) : (chooseOrder n c l).Perm l := by
  induction n generalizing c l with
  | zero => exact .refl _
  | succ n ih =>
    unfold chooseOrder
    split
    · exact .refl _
    · dsimp only
      split
      · rename_i x hx
        obtain ⟨hlt, rfl⟩ := List.getElem?_eq_some_iff.mp hx
        exact ((ih _ _).cons _).trans (List.getElem_cons_eraseIdx_perm hlt)
      · exact .refl _

/-- The supervisor waits at most once. -/
theorem State.waiters_supervisor (s : State) : s.waiters.count .supervisor ≤ 1 := by
  have hp : ∀ l : List Port, (l.map Waiter.port).count .supervisor = 0 := fun l =>
    List.count_eq_zero.mpr fun hm => by
      obtain ⟨_, _, he⟩ := List.mem_map.mp hm
      cases he
  unfold State.waiters
  rw [List.count_append, hp]
  split <;> simp

/-- Answers kept back with no supervisor request in or for the area, which handing on frames keeps. -/
def State.AnswersKeptNoSupervisor (s : State) : Prop := s.AnswersKept ∧ .supervisor ∉ s.areaEvents

theorem areaEvents_handOver (s : State) (p : Port) (f : StationFrame) :
    ∀ e ∈ (s.handOver p f).areaEvents, e ∈ s.areaEvents ∨ e = .station p := by
  intro e he
  unfold State.handOver at he
  dsimp only at he
  have hsame : ∀ (t : State) (q : Port) (r : Reply), (t.sendAnswer q r).areaEvents = t.areaEvents := by
    intro t q r
    unfold State.sendAnswer
    dsimp only
    split <;> rfl
  have hc := (Calm.settleForRead ((s.setSession p { s.session p with inHand := some ⟨f, none⟩ }).setLink
    p { s.link p with outstanding := true })).areaEvents
  split at he
  · rw [State.areaEvents_wait, hc, List.mem_append, List.mem_singleton] at he
    exact he
  · unfold State.takeFree at he
    dsimp only at he
    rw [hsame, (Calm.doMains _ _).areaEvents] at he
    refine .inl ?_
    split at he
    · rw [(Calm.finishApply _).areaEvents, hc] at he
      exact he
    · rw [hc] at he
      exact he

theorem areaEvents_handOn (s : State) (p : Port) :
    ∀ e ∈ (s.handOn p).areaEvents, e ∈ s.areaEvents ∨ e = .station p := by
  unfold State.handOn
  split
  · split
    · intro e he
      exact areaEvents_handOver (s.setLink p { s.link p with pendingSlot := none }) p _ e he
    · exact fun _ he => .inl he
  · exact fun _ he => .inl he

/-- The event a free area is given to leaves no other but waiting frames behind those that wait. -/
theorem areaEvents_takeWaiting (s : State) (hh : s.main.holder = none) (e : AreaEvent) :
    ∀ x ∈ (s.takeWaiting e).areaEvents, x ∈ s.areaEvents ∨ x = e ∨ ∃ p, x = .station p := by
  have hdo : ∀ ms, (s.doMains ms).areaEvents = s.areaEvents := fun ms => (Calm.doMains s ms).areaEvents
  have hhold : ∀ ws ms r, ∀ x ∈ (s.holdArea e ws ms r).areaEvents,
      x ∈ s.areaEvents ∨ x = e ∨ ∃ p, x = .station p := fun ws ms r x hx => by
    simp only [State.areaEvents, State.holdArea, Option.map_some, Option.toList_some,
      List.singleton_append, List.mem_cons] at hx
    simp only [State.areaEvents, hh, Option.map_none, Option.toList_none, List.nil_append]
    obtain rfl | hx := hx
    · exact .inr (.inl rfl)
    · exact .inl hx
  have hstage : ∀ v, ∀ x ∈ (s.stageOrDo e v).areaEvents,
      x ∈ s.areaEvents ∨ x = e ∨ ∃ p, x = .station p := fun v x hx => by
    unfold State.stageOrDo at hx
    split at hx
    · rw [hdo] at hx; exact .inl hx
    · exact hhold _ _ _ x hx
  intro x hx
  unfold State.takeWaiting at hx
  split at hx
  · split at hx
    · exact .inl hx
    · dsimp only at hx
      split at hx
      · unfold State.answerStation at hx
        split at hx
        · split at hx
          · rename_i p _ _ _ _ _ _
            obtain hx | rfl := areaEvents_handOn _ _ x hx
            · exact .inl (hdo _ ▸ hx)
            · exact .inr (.inr ⟨_, rfl⟩)
          · unfold State.sendAnswer at hx
            dsimp only at hx
            split at hx <;> exact .inl (hdo _ ▸ hx)
        · exact .inl (hdo _ ▸ hx)
      · exact hhold _ _ _ x hx
  · split at hx
    · exact .inl hx
    · dsimp only at hx
      split at hx
      · unfold State.answerSupervisor at hx
        split at hx <;> exact .inl (hdo _ ▸ hx)
      · exact hhold _ _ _ x hx
  · split at hx
    · exact hstage _ x hx
    · exact .inl hx
  · split at hx
    · exact hstage _ x hx
    · exact .inl hx
  · split at hx
    · exact hstage _ x hx
    · exact .inl hx
  · exact .inl hx

theorem answersKeptNoSupervisor_handing : KeptByHanding State.AnswersKeptNoSupervisor where
  quiet q h := ⟨h.1.calm q.calm, by rw [q.calm.areaEvents]; exact h.2⟩
  handOver p f hr ho h := ⟨h.1.handOver f hr ho, fun hm =>
    (areaEvents_handOver _ p f _ hm).elim h.2 nofun⟩
  take e rest hr hh hw h := by
    refine ⟨h.1.takeWaiting hr hh hw, fun hm => ?_⟩
    have hmem : ∀ x, x = e ∨ x ∈ rest → x ≠ .supervisor := fun x hx hs => h.2 (by
      subst hs
      simp only [State.areaEvents, hh, hw]
      simpa using hx)
    obtain hx | hx | ⟨_, hx⟩ := areaEvents_takeWaiting _ (by exact hh) e _ hm
    · simp only [State.areaEvents, State.withWaiting, hh] at hx
      exact hmem _ (.inr (by simpa using hx)) rfl
    · exact hmem _ (.inl hx) rfl
    · cases hx

/-- What waited for the end of the check is taken, the supervisor's request once. -/
theorem State.AnswersKept.handWaiters {l : List Waiter} (hl : l.count .supervisor ≤ 1) {s : State}
    (h : s.AnswersKept) (hs : .supervisor ∈ l → .supervisor ∉ s.areaEvents)
    (hr : s.running = true) : (l.foldl State.handWaiter s).AnswersKept := by
  induction l generalizing s with
  | nil => exact h
  | cons w l ih =>
    have hrun : (State.handWaiter s w).running = true :=
      (moves_handWaiters keptByChanges_true [w] s).2.running.trans hr
    rw [List.count_cons] at hl
    cases w with
    | port p =>
      refine ih (by simpa using hl) ?_ (fun hm => ?_) hrun
      · exact answersKept_operations.giveArea (h.handOn p)
      · exact (answersKeptNoSupervisor_handing.giveArea (answersKeptNoSupervisor_handing.handOn p
          ⟨h, hs (List.mem_cons_of_mem _ hm)⟩)).2
    | supervisor =>
      have h0 : l.count .supervisor = 0 := by simpa using hl
      refine ih (by omega) ?_ (fun hm => absurd hm (List.count_eq_zero.mp h0)) hrun
      exact answersKept_operations.giveArea (h.handSupervisor hr (hs List.mem_cons_self))

/-- The part at the end of the start-up check, before what waited for it is taken. -/
def State.checkDone (s : State) (c : Check) : State :=
  { s with ret := s.ret.checked c, main := { s.main with holder := none }, check := none }

theorem State.endCheck_eq (s : State) (c : Check) :
    s.endCheck c = (chooseOrder (s.checkDone c).waiters.length s.freeCount
      (s.checkDone c).waiters).foldl State.handWaiter
        { s.checkDone c with freeCount := s.freeCount +
          if (s.checkDone c).waiters.length ≤ 1 then 0 else (s.checkDone c).waiters.length } := rfl

/-- The start-up check ends. -/
theorem State.AnswersKept.endCheck {s : State} (h : s.AnswersKept) (hp : s.powered = true) {c : Check}
    (hc : s.check = some c) : (s.endCheck c).AnswersKept := by
  have hrun : s.running = false := by simp [State.running, hc]
  have hsub : ∀ e ∈ (s.checkDone c).areaEvents, e ∈ s.areaEvents := fun e he => by
    simp only [State.areaEvents, State.checkDone, Option.map_none, Option.toList_none,
      List.nil_append] at he
    exact List.mem_append_right _ he
  have hnone : ∀ e ∈ (s.checkDone c).areaEvents, e.isRequest = false := fun e he =>
    h.stopped hrun e (hsub e he)
  have hkept : (s.checkDone c).AnswersKept := by
    cases hx : s.main.holder with
    | none =>
      refine h.of_main ?_ fun _ => hrun
      rw [State.checkDone, ← hx]
    | some x =>
      have hv := (h.withoutHolder (t := { s with main := { s.main with holder := none } }) hx rfl rfl).1
      exact hv.of_main rfl fun _ => hrun
  rw [State.endCheck_eq]
  refine State.AnswersKept.handWaiters ?_ (hkept.of_main rfl id) (fun _ hm => ?_) ?_
  · rw [(chooseOrder_perm _ _ _).count_eq]
    exact State.waiters_supervisor _
  · exact absurd (hnone _ hm) nofun
  · simpa [State.running, State.powered, State.checkDone] using hp

/-- Every step but the end of a staged change keeps the answers back. -/
theorem answersKept_steps : KeptBySteps State.AnswersKept where
  toKeptByOperations := answersKept_operations
  supply _ hc hst h := h.supply hc hst
  advance _ hx h := h.calm (.advanceHolder hx)
  check _ hp hc h := ⟨h.advanceCheck hc, h.endCheck hp hc, fun _ hx => h.endDrain hc hx⟩

/-- The end of a staged change places its answer. -/
theorem State.AnswersKept.completeChange {s : State} (h : s.AnswersKept) :
    s.completeChange.AnswersKept := by
  unfold State.completeChange
  split
  · exact h
  · rename_i x hx
    have hf := Calm.finishApply s
    obtain ⟨y, hy, he⟩ := Option.map_eq_some_iff.mp (hf.holder.trans (by rw [hx]; rfl))
    simp only [Prod.mk.injEq] at he
    have hk := h.calm hf
    obtain ⟨hc, hfree⟩ := hk.withoutHolder (t := s.finishApply.clearArea) hy rfl rfl
    have hmem : x.event ∈ s.finishApply.areaEvents := by simp [State.areaEvents, hy, he.1]
    rw [he.1] at hfree
    refine answersKept_operations.giveArea ?_
    split
    · rename_i p reply hev _
      rw [hev] at hmem hfree
      exact State.TakesStation.answerStation ⟨hc, hk.station p hmem, hfree rfl⟩ _
    · rename_i reply hev _
      rw [hev] at hmem hfree
      exact State.TakesSupervisor.answerSupervisor ⟨hc, hk.supervisor hmem, hfree rfl⟩ _
    · exact hc

/-! The statement. -/

/-- The link of an answered port sends the answer. -/
theorem State.tx_withStationAnswer (s : State) (p : Port) (f : StationFrame) (a : Answer)
    (trial replay : Bool) : ((s.withStationAnswer p f a trial replay).link p).tx =
      some ⟨⟨f.seq, f.req.code, a, (s.session p).fresh, (s.session p).overrun, replay, trial⟩,
        s.ret.params.rates.get p⟩ := by
  simp [State.withStationAnswer, State.link]

/-- A request whose change is in the area has something staged. -/
theorem State.staged_of_held {s : State} {p : Port} (h : s.StationReady p) {f : StationFrame}
    (hh : (s.arrive p f).main.holder.isSome = true) :
    (stationOutcome p f s).verdict.writes ≠ [] := by
  intro hw
  rw [State.arrive_unstaged h f hw] at hh
  simp [h.holder] at hh

theorem State.staged_of_held_supervisor {s : State} (h : s.SupervisorReady) {r : SupervisorRequest}
    (hh : (s.submit r).main.holder.isSome = true) : (r.judge s).writes ≠ [] := by
  intro hw
  rw [State.submit_unstaged h r hw] at hh
  simp [State.afterSupervisor, h.holder] at hh

/-- Settles O3: what a request with something to stage leaves, what the end of its change places, and the
condition that every operation of the part keeps. -/
theorem noAnswerBeforeTheChangeIsSafe : Obligations.NoAnswerBeforeTheChangeIsSafe := by
  unfold Obligations.NoAnswerBeforeTheChangeIsSafe
  refine ⟨fun s t p f hwf h hst hh => ?_, fun s t r hwf h hst hh => ?_, fun s t h hst => ?_⟩
  · rw [exec_command hwf] at hst
    cases hst
    have hw := State.staged_of_held h hh
    have hdone : ∃ a, ((s.arrive p f).completeChange.link p).tx = some a ∧ a.frame.seq = f.seq ∧
        a.frame.code = f.req.code ∧ a.frame.answer = (stationOutcome p f s).verdict.answer := by
      rw [State.arrive_done h]
      exact ⟨_, State.tx_withStationAnswer .., rfl, rfl, rfl⟩
    obtain ⟨a, ha⟩ := hdone
    exact ⟨_, _, _, hw, State.arrive_staged h f hw, (s.arrive p f).completeChange, a,
      exec_stagedChangeComplete (by rw [State.arrive_staged h f hw]; exact h.running), ha⟩
  · rw [exec_supervisorCommand hwf] at hst
    cases hst
    have hw := State.staged_of_held_supervisor h hh
    have hdone : (s.submit r).completeChange.main.sup.state = .answerReady ∧
        (s.submit r).completeChange.main.sup.answer = some ⟨r.code, (r.judge s).answer⟩ := by
      rw [State.submit_done h]
      exact ⟨rfl, rfl⟩
    exact ⟨_, _, _, hw, State.submit_staged h r hw, (s.submit r).completeChange,
      exec_stagedChangeComplete (by rw [State.submit_staged h r hw]; exact h.running), hdone⟩
  · refine answersKept_steps.step_kept h (fun _ rest => ?_) hst
    exact State.AnswersKept.completeChange (s := { s with pending := rest }) (h.of_main rfl id)

end Sys2Proof.Machine
end

section
/-! PROOFS. The acceptance ladder and the requests of the session unit. -/

namespace Sys2Proof.Machine

/-! What a request's own checks come to. -/

/-- A request that the ladder lets through, by the verdict of its own checks. -/
theorem done_judged {s : State} {p : Port} {f : StationFrame} (h : s.Accepts p f)
    (hb : ∀ c b, f.req ≠ .bad c b) {a : Answer} {ws : List RetWrite} {ms : List MainWrite}
    (hj : f.req.judge p s = ⟨a, ws, ms⟩) :
    Done (f.command p) s (({ s with
      ret := applyRets ws s.ret, main := s.main.effects ms }).afterStation p f a) := by
  have := done_accepted h hb
  rwa [hj] at this

/-- A request that its own checks only report on changes nothing but the reply cache. -/
theorem done_reported {s : State} {p : Port} {f : StationFrame} (h : s.Accepts p f)
    (hb : ∀ c b, f.req ≠ .bad c b) {code : AnswerCode} {body : List Byte}
    (hj : f.req.judge p s = report code body) :
    Done (f.command p) s (s.afterStation p f ⟨code, body⟩) := done_judged h hb hj

/-! The ladder. -/

/-- Settles O4: BAD_REQUEST is the outcome of a frame that is no request, whatever the reply cache holds. -/
theorem badStationRequestIsAnsweredAndCached : Obligations.BadStationRequestIsAnsweredAndCached := by
  unfold Obligations.BadStationRequestIsAnsweredAndCached
  intro s p seq code body hwf hready
  have hdone := done_station (f := ⟨seq, .bad code body⟩) hready (exec_command hwf p s)
  have ho : stationOutcome p ⟨seq, .bad code body⟩ s =
      ⟨withCache p ⟨seq, .bad code body⟩ (report .badRequest []) s, false, false⟩ := rfl
  rw [ho] at hdone
  unfold State.afterStation State.withCached
  unfold withCache at hdone
  by_cases h0 : seq = 0
  · simp only [h0, if_true] at hdone ⊢
    exact hdone
  · simp only [h0, if_false] at hdone ⊢
    exact hdone

/-- The sequence check finds the entry with the number (R128). -/
theorem State.cached_unique {s : State} {p : Port} {seq : Byte} {e : CacheEntry} (h0 : seq ≠ 0)
    (he : e.seq = seq) (hm : e ∈ s.ret.caches.get p)
    (hu : ∀ x ∈ s.ret.caches.get p, x.seq = seq → x = e) : s.cached p seq = some e := by
  unfold State.cached
  rw [if_neg h0]
  cases hf : (s.ret.caches.get p).find? (·.seq == seq) with
  | none => simpa [he] using List.find?_eq_none.mp hf e hm
  | some x =>
    have hx : x.seq = seq := by simpa using List.find?_some hf
    rw [hu x (List.mem_of_find?_eq_some hf) hx]

/-- A request under a cached sequence number comes to a replay or a SEQ_CLASH (R133, R134). -/
theorem stationOutcome_cached {p : Port} {f : StationFrame} {s : State} {e : CacheEntry}
    (hb : ∀ c b, f.req ≠ .bad c b) (hc : s.cached p f.seq = some e) :
    stationOutcome p f s = if e.code = f.req.code then ⟨⟨e.answer, [], []⟩, e.trial, true⟩
      else ⟨report .seqClash [], f.req.isTrial, false⟩ := by
  obtain ⟨seq, r⟩ := f
  cases r with
  | bad c b => exact absurd rfl (hb c b)
  | _ => simp only [stationOutcome, hc]

/-- Settles O5: the outcome of a cached sequence number stages nothing. -/
theorem cachedSequenceIsReplayedOrClashes : Obligations.CachedSequenceIsReplayedOrClashes := by
  unfold Obligations.CachedSequenceIsReplayedOrClashes
  intro s p f e hb hready h0 he hu hm
  have ho := stationOutcome_cached hb (State.cached_unique h0 he hm hu)
  rw [exec_command (StationRequest.wf_of_ne hb) p s]
  refine ⟨fun hcode => ?_, fun hcode => ?_⟩
  · rw [if_pos hcode] at ho
    rw [State.arrive_unstaged hready f (by rw [ho]), ho]
    rfl
  · rw [if_neg hcode] at ho
    rw [State.arrive_unstaged hready f (by rw [ho]; rfl), ho]
    rfl

/-- A request whose port lacks the right is refused with every output zero (R129). -/
theorem done_noRight {s : State} {p : Port} {f : StationFrame} (h : s.StationReady p)
    (hc : s.cached p f.seq = none) (hb : ∀ c b, f.req ≠ .bad c b)
    (hr : f.req.permitted (s.ret.params.rights.get p) = false) :
    Done (f.command p) s (s.afterStation p f ⟨.noRight, f.req.zeroBody⟩) := by
  have hdone := done_fresh h (exec_command (StationRequest.wf_of_ne hb) p s) hb hc
  have hl : f.req.ladder p s = report .noRight f.req.zeroBody := by simp [StationRequest.ladder, hr]
  rwa [hl] at hdone

/-- Settles O6: the right each kind of request needs. -/
theorem missingRightIsAnsweredNoRight : Obligations.MissingRightIsAnsweredNoRight := by
  unfold Obligations.MissingRightIsAnsweredNoRight
  rintro s p ⟨seq, r⟩ hready hc
    (⟨⟨e, x, t, rfl⟩, hr⟩ | ⟨⟨a, l, t, rfl⟩ | ⟨h, a, t, rfl⟩ | ⟨h, rfl⟩, hr⟩ | ⟨⟨a, t, rfl⟩, hr⟩)
  all_goals exact done_noRight hready hc nofun hr

/-! The cursor. -/

theorem State.cursorAccount_none {s : State} {p : Port} (h : (s.session p).cursor = .none) :
    s.cursorAccount p = .error .noSelection := by simp [State.cursorAccount, h]

theorem State.cursorAccount_gone {s : State} {p : Port} (h : (s.session p).cursor = .gone) :
    s.cursorAccount p = .error .stale := by simp [State.cursorAccount, h]

/-- The five requests that need the cursor. -/
def needsCursor : StationRequest → Bool
  | .balance | .pin | .fare .. | .hold .. | .topUp .. => true
  | _ => false

/-- A request that needs the cursor is refused without one, with every output zero (R137). -/
theorem judge_cursorRefused {r : StationRequest} (hn : needsCursor r = true) {s : State} {p : Port}
    {c : AnswerCode} (hc : s.cursorAccount p = .error c) : r.judge p s = report c r.zeroBody := by
  cases r with
  | balance => simp only [StationRequest.judge, judgeBalance, hc]; rfl
  | pin => simp only [StationRequest.judge, judgePin, hc]; rfl
  | fare => simp only [StationRequest.judge, judgeFare, hc]; rfl
  | hold => simp only [StationRequest.judge, judgeHold, hc]; rfl
  | topUp => simp only [StationRequest.judge, judgeTopUp, hc]; rfl
  | _ => cases hn

/-- Settles O8, by the cursor check that the five requests share. -/
theorem cursorlessRequestIsRefused : Obligations.CursorlessRequestIsRefused := by
  unfold Obligations.CursorlessRequestIsRefused
  intro s p f hacc hreq
  have hn : needsCursor f.req = true := by
    obtain h | h | ⟨_, _, _, h⟩ | ⟨_, _, _, h⟩ | ⟨_, _, h⟩ := hreq <;> rw [h] <;> rfl
  have hb : ∀ c b, f.req ≠ .bad c b := fun c b h => by rw [h] at hn; cases hn
  exact ⟨fun h => done_reported hacc hb (judge_cursorRefused hn (State.cursorAccount_none h)),
    fun h => done_reported hacc hb (judge_cursorRefused hn (State.cursorAccount_gone h))⟩

/-! Spending. -/

theorem State.spendRefusal_pinned {s : State} {p q : Port} {slot : Nat} (a : Account) (hq : q ≠ p)
    (hp : s.PinnedBy slot q) (hu : ∀ q', s.PinnedBy slot q' → q' = q) :
    s.spendRefusal p slot a = some .pinned := by
  simp [State.spendRefusal, State.pinnedByOther_some hq hp hu]

theorem State.spendRefusal_wrongState {s : State} {p : Port} {slot : Nat} {a : Account}
    (hf : s.FreeFor p slot) (ho : a.state ≠ .opened) :
    s.spendRefusal p slot a = some .wrongState := by
  simp [State.spendRefusal, State.pinnedByOther_none hf, ho]

theorem State.spendRefusal_expired {s : State} {p : Port} {slot : Nat} {a : Account}
    (hf : s.FreeFor p slot) (ho : a.state = .opened)
    (hv : ∃ d, a.validityEnd = some d ∧ d < s.ret.day) : s.spendRefusal p slot a = some .expired := by
  obtain ⟨d, hd, hlt⟩ := hv
  simp [State.spendRefusal, State.pinnedByOther_none hf, ho, Account.outOfValidity, hd, hlt]

/-- What FARE, HOLD and TOP-UP answer when the account may not be spent from (R115, R81, R64). -/
def spendRefusedBody (s : State) (slot key : Nat) (a : Account) : StationRequest → List Byte
  | .fare .. => fareBody key 0 0 false false a.balance (s.available slot a) s.ret.activeGen
  | .hold .. => holdBody key 0 0 (s.available slot a)
  | _ => topUpBody key 0 a.balance (s.available slot a)

/-- A request that would spend from an account that may not be spent from. -/
theorem judge_spendRefused {r : StationRequest} {s : State} {p : Port} {slot key : Nat} {a : Account}
    {c : AnswerCode}
    (hr : (∃ e x t, r = .fare e x t) ∨ (∃ n l t, r = .hold n l t) ∨ ∃ n t, r = .topUp n t)
    (hc : s.cursorAccount p = .ok (slot, key, a)) (hs : s.spendRefusal p slot a = some c) :
    r.judge p s = report c (spendRefusedBody s slot key a r) := by
  obtain ⟨_, _, _, rfl⟩ | ⟨_, _, _, rfl⟩ | ⟨_, _, rfl⟩ := hr
  · simp only [StationRequest.judge, judgeFare, hc, hs, spendRefusedBody]
  · simp only [StationRequest.judge, judgeHold, hc, State.holdRefusal, hs, spendRefusedBody]
  · simp only [StationRequest.judge, judgeTopUp, hc, hs, spendRefusedBody]

/-- Settles O9: the three refusals that FARE, HOLD and TOP-UP share, in their order. -/
theorem spendingIsRefusedInOrder : Obligations.SpendingIsRefusedInOrder := by
  unfold Obligations.SpendingIsRefusedInOrder
  intro s p f slot key a hacc hreq hcur hlive body
  have hc := State.cursorAccount_set hcur hlive
  have hb : ∀ c b, f.req ≠ .bad c b := by
    obtain ⟨_, _, _, h⟩ | ⟨_, _, _, h⟩ | ⟨_, _, h⟩ := hreq <;> rw [h] <;> nofun
  have hbody : body = spendRefusedBody s slot key a f.req := by
    obtain ⟨_, _, _, h⟩ | ⟨_, _, _, h⟩ | ⟨_, _, h⟩ := hreq <;> simp only [body, h] <;> rfl
  have hrefused : ∀ {code}, s.spendRefusal p slot a = some code →
      Done (f.command p) s (s.afterStation p f ⟨code, body⟩) := fun hs =>
    hbody ▸ done_reported hacc hb (judge_spendRefused hreq hc hs)
  exact ⟨fun ⟨q, hq, hp, hu⟩ => hrefused (State.spendRefusal_pinned a hq hp hu),
    fun hf ho => hrefused (State.spendRefusal_wrongState hf ho),
    fun hf ho hv => hrefused (State.spendRefusal_expired hf ho hv)⟩

/-! Trials. -/

/-- A verdict that only answers. -/
def Verdict.answered (v : Verdict) : Verdict := ⟨v.answer, [], []⟩

theorem judgeFare_trial (p : Port) (e x : Nat) (s : State) :
    judgeFare p e x true s = (judgeFare p e x false s).answered := by
  unfold judgeFare
  split
  · rfl
  · dsimp only
    split
    · rfl
    · split
      · rfl
      · split
        · rfl
        · split
          · rfl
          · split <;> rfl

theorem judgeHold_trial (p : Port) (n l : Nat) (s : State) :
    judgeHold p n l true s = (judgeHold p n l false s).answered := by
  unfold judgeHold
  split
  · rfl
  · dsimp only
    split <;> rfl

theorem judgeCapture_trial (p : Port) (h n : Nat) (s : State) :
    judgeCapture p h n true s = (judgeCapture p h n false s).answered := by
  unfold judgeCapture
  split
  · rfl
  · split <;> rfl

theorem judgeTopUp_trial (p : Port) (n : Nat) (s : State) :
    judgeTopUp p n true s = (judgeTopUp p n false s).answered := by
  unfold judgeTopUp
  split
  · rfl
  · dsimp only
    split
    · rfl
    · split <;> rfl

/-- Settles O10: a trial comes to the verdict of the real request without what it would change. -/
theorem trialChangesNothing : Obligations.TrialChangesNothing := by
  unfold Obligations.TrialChangesNothing
  intro s p f g hf hg hreq
  have hb : (∀ c b, f.req ≠ .bad c b) ∧ ∀ c b, g.req ≠ .bad c b := by
    obtain ⟨_, _, h1, h2⟩ | ⟨_, _, h1, h2⟩ | ⟨_, _, h1, h2⟩ | ⟨_, h1, h2⟩ := hreq <;>
      rw [h1, h2] <;> exact ⟨nofun, nofun⟩
  have hj : f.req.judge p s = (g.req.judge p s).answered := by
    obtain ⟨e, x, h1, h2⟩ | ⟨n, l, h1, h2⟩ | ⟨h, n, h1, h2⟩ | ⟨n, h1, h2⟩ := hreq <;> rw [h1, h2]
    · exact judgeFare_trial p _ _ s
    · exact judgeHold_trial p _ _ s
    · exact judgeCapture_trial p _ _ s
    · exact judgeTopUp_trial p _ s
  exact ⟨(g.req.judge p s).answer, done_judged hf hb.1 hj, _, _, done_accepted hg hb.2,
    State.tx_withStationAnswer .., rfl⟩

/-! SELECT and the directory. -/

theorem judgeSelect_found {s : State} (p : Port) {key slot : Nat} {a : Account}
    (h : s.lookup key = some slot) (hl : s.Live slot a) :
    judgeSelect p key s =
      ⟨⟨.ok, selectBody key (some a.state) a.balance (s.available slot a)
        (a.outOfValidity s.ret.day) ((s.pinOn slot).map (·.1))⟩, [], [.cursor p (.sel slot key)]⟩ := by
  have hl' : s.account? slot = some a := hl
  simp only [judgeSelect, h, hl']

theorem judgeSelect_unknown {s : State} (p : Port) {key : Nat} (h : s.lookup key = none) :
    judgeSelect p key s = ⟨⟨.unknownKey, selectZero⟩, [], [.cursor p .none]⟩ := by
  simp only [judgeSelect, h]

/-- Settles O11, by the two outcomes of the lookup. -/
theorem selectSetsTheCursor : Obligations.SelectSetsTheCursor := by
  unfold Obligations.SelectSetsTheCursor
  intro s p seq key hacc
  refine ⟨fun slot a hl hlive => ?_, fun hl => ?_⟩
  · exact done_judged hacc nofun (judgeSelect_found p hl hlive)
  · exact done_judged hacc nofun (judgeSelect_unknown p hl)

/-- Settles O12: in a sound directory the live slot with a key is on the key's chain, and no other slot has
the key. -/
theorem lookupFindsTheLiveAccount : Obligations.LookupFindsTheLiveAccount := by
  unfold Obligations.LookupFindsTheLiveAccount
  intro s key slot hd
  refine ⟨fun h => (State.lookup_some h).2, fun ⟨a, hlive, hkey⟩ => ?_⟩
  cases hx : s.lookup key with
  | none =>
    have hon := (hd.onChain (bucketOf key) slot).mpr ⟨a, hlive, by rw [hkey]⟩
    have := List.find?_eq_none.mp hx slot hon
    rw [show s.account? slot = some a from hlive] at this
    simp [hkey] at this
  | some i =>
    obtain ⟨_, b, hb, hbk⟩ := State.lookup_some hx
    rw [hd.keys i slot b a hb hlive (hbk.trans hkey.symm)]

end Sys2Proof.Machine
end

section
/-! PROOFS. Sessions and the value unit: BALANCE, STATION STATUS, PIN, UNPIN, TOP-UP, CREDIT, DEBIT. -/

namespace Sys2Proof.Machine

/-! Reads. -/

theorem judgeBalance_live {s : State} {p : Port} {slot key : Nat} {a : Account}
    (hc : s.cursorAccount p = .ok (slot, key, a)) :
    judgeBalance p s = report .ok
      (keyB key ++ stateB (some a.state) ++ balanceB a.balance ++ dec 4 (s.held slot)
        ++ availableB (s.available slot a) ++ dec 3 (a.spendToday s.ret.day)
        ++ flag (a.outOfValidity s.ret.day) ++ flag (a.passInForce s.ret.day)
        ++ listB (((s.holdsOn slot).filter (·.owner == p)).map (myHoldB s))
        ++ byte1 ((s.holdsOn slot).countP (·.owner != p))
        ++ pinB s (s.pinOn slot)) := by
  simp only [judgeBalance, hc]

/-- The holds of one port on a slot, among all. -/
theorem State.filter_holdsOn (s : State) (slot : Nat) (p : Port) :
    (s.holdsOn slot).filter (·.owner == p) =
      s.main.pool.filter fun h => h.slot == slot && h.owner == p := by
  rw [State.holdsOn, List.filter_filter]
  exact List.filter_congr fun _ _ => Bool.and_comm _ _

/-- The holds of the other ports on a slot, among all. -/
theorem State.countP_holdsOn (s : State) (slot : Nat) (p : Port) :
    (s.holdsOn slot).countP (·.owner != p) =
      s.main.pool.countP fun h => h.slot == slot && h.owner != p := by
  rw [State.holdsOn, List.countP_filter]
  exact List.countP_congr fun _ _ => by rw [Bool.and_comm]

/-- Settles O13, by the two reports. -/
theorem stationReadsChangeNothing : Obligations.StationReadsChangeNothing := by
  unfold Obligations.StationReadsChangeNothing
  refine ⟨fun s p seq slot key a hacc hcur hlive => ?_, fun s p seq hacc => ?_⟩
  · have hj : (StationRequest.balance).judge p s = _ :=
      judgeBalance_live (State.cursorAccount_set hcur hlive)
    rw [State.filter_holdsOn, State.countP_holdsOn] at hj
    exact done_reported hacc nofun hj
  · refine done_reported hacc nofun ?_
    show judgeStationStatus p s = _
    unfold judgeStationStatus
    cases hcur : (s.session p).cursor <;> cases hpin : (s.session p).pin <;>
      simp only [hcur, hpin, optionalB, Option.map_some, Option.map_none, List.cons_append,
        State.portHolds] <;> rfl

/-! Pins. -/

theorem State.keyAt_live {s : State} {slot : Nat} {a : Account} (h : s.Live slot a) :
    s.keyAt slot = a.key := by
  have h' : s.account? slot = some a := h
  simp only [State.keyAt, h']

theorem judgePin_pinned {s : State} {p q : Port} {slot key : Nat} {a : Account}
    (hc : s.cursorAccount p = .ok (slot, key, a)) (hq : s.pinnedByOther p slot = some q) :
    judgePin p s = report .pinned (pinBody key 0 0 none (some q)) := by
  simp only [judgePin, hc, hq]

theorem judgePin_wrongState {s : State} {p : Port} {slot key : Nat} {a : Account}
    (hc : s.cursorAccount p = .ok (slot, key, a)) (hq : s.pinnedByOther p slot = none)
    (hs : a.state = .closing ∨ a.state = .drained) :
    judgePin p s = report .wrongState (pinBody key 0 0 none none) := by
  have : (a.state == .closing || a.state == .drained) = true := by simpa using hs
  simp only [judgePin, hc, hq, this, if_true]

/-- PIN that passes its checks, by the pin its port holds (R142, R143). -/
theorem judgePin_passed {s : State} {p : Port} {slot key : Nat} {a : Account}
    (hc : s.cursorAccount p = .ok (slot, key, a)) (hq : s.pinnedByOther p slot = none)
    (hs : a.state = .opened ∨ a.state = .suspended) :
    judgePin p s = match (s.session p).pin with
      | none => ⟨⟨.ok, pinBody key 1 s.ret.params.pinTime none none⟩, [],
          [.pin p (some ⟨slot, s.expiryAfter s.ret.params.pinTime⟩)]⟩
      | some e =>
        if e.slot = slot then ⟨⟨.ok, pinBody key 2 s.ret.params.pinTime none none⟩, [],
          [.pin p (some ⟨slot, s.expiryAfter s.ret.params.pinTime⟩)]⟩
        else ⟨⟨.ok, pinBody key 3 s.ret.params.pinTime (some (s.keyAt e.slot)) none⟩,
          s.pinEndDrain e.slot, [.pin p (some ⟨slot, s.expiryAfter s.ret.params.pinTime⟩)]⟩ := by
  have : ¬ (a.state == .closing || a.state == .drained) = true := by
    obtain h | h := hs <;> rw [h] <;> decide
  simp only [judgePin, hc, hq, if_neg this] <;> rfl

/-- The pin of a port, set or removed, with the drain of an account. -/
theorem State.pin_drained {s : State} {slot : Nat} {a : Account} (h : s.Live slot a) (p : Port)
    (e : Option PinEntry) :
    ({ s with ret := applyRets [.acctState slot .drained] s.ret, main := s.main.effects [.pin p e] } :
      State) =
      (s.setSession p { s.session p with pin := e }).setAccount slot { a with state := .drained } := by
  rw [applyRets_cons, applyRets_nil, applyRet_acctState h]
  rfl

/-- Settles O14: the refusals, and the pin that a passed PIN sets. -/
theorem pinSetsRearmsOrMoves : Obligations.PinSetsRearmsOrMoves := by
  unfold Obligations.PinSetsRearmsOrMoves
  intro s p seq slot key a hacc hcur hlive
  have hc := State.cursorAccount_set hcur hlive
  refine ⟨fun q hq hp hu => ?_, fun hf hs => ?_, fun hf hs => ?_⟩
  · exact done_reported hacc nofun (judgePin_pinned hc (State.pinnedByOther_some hq hp hu))
  · exact done_reported hacc nofun (judgePin_wrongState hc (State.pinnedByOther_none hf) hs)
  · have hj : (StationRequest.pin).judge p s = _ :=
      judgePin_passed hc (State.pinnedByOther_none hf) hs
    refine ⟨fun hpin => ?_, fun expiry hpin => ?_, fun old expiry b hpin hne hold => ⟨?_, ?_⟩⟩
    · rw [hpin] at hj
      exact done_judged hacc nofun hj
    · rw [hpin] at hj
      exact done_judged hacc nofun (hj.trans (if_pos rfl))
    · rintro ⟨hcl, hno⟩
      rw [hpin] at hj
      have hd := done_judged hacc nofun (hj.trans (if_neg hne))
      rw [State.keyAt_live hold, State.pinEndDrain_drains hold hcl hno, State.pin_drained hold] at hd
      exact hd
    · intro hn
      rw [hpin] at hj
      have hd := done_judged hacc nofun (hj.trans (if_neg hne))
      rw [State.keyAt_live hold, State.pinEndDrain_spares hold hn] at hd
      exact hd

theorem judgeUnpin_none {s : State} {p : Port} (h : (s.session p).pin = none) :
    judgeUnpin p s = report .ok (byte1 2 ++ keyB 0) := by simp only [judgeUnpin, h]

theorem judgeUnpin_some {s : State} {p : Port} {slot expiry : Nat} {a : Account}
    (h : (s.session p).pin = some ⟨slot, expiry⟩) (hl : s.Live slot a) :
    judgeUnpin p s = ⟨⟨.ok, byte1 1 ++ keyB a.key⟩, s.pinEndDrain slot, [.pin p none]⟩ := by
  simp only [judgeUnpin, h, State.keyAt_live hl]

/-- Settles O15, by the pin the port holds and the drain its end causes. -/
theorem unpinReleasesThePin : Obligations.UnpinReleasesThePin := by
  unfold Obligations.UnpinReleasesThePin
  intro s p seq hacc
  refine ⟨fun h => done_reported hacc nofun (judgeUnpin_none h),
    fun slot expiry a hpin hlive => ⟨?_, fun hn => ?_⟩⟩
  · rintro ⟨hc, hno⟩
    have hd := done_judged hacc nofun (judgeUnpin_some hpin hlive)
    rw [State.pinEndDrain_drains hlive hc hno, State.pin_drained hlive] at hd
    exact hd
  · have hd := done_judged hacc nofun (judgeUnpin_some hpin hlive)
    rw [State.pinEndDrain_spares hlive hn] at hd
    exact hd

/-! Value. -/

/-- The state after a balance event on a live slot. -/
theorem State.balance_moved {s : State} {slot : Nat} {a : Account} (h : s.Live slot a) (delta : Int) :
    ({ s with ret := applyRets (s.balanceEvent slot a delta) s.ret, main := s.main.effects [] } :
      State) = s.move slot a delta := by
  rw [applyRets_balanceEvent h]
  rfl

theorem judgeTopUp_passed {s : State} {p : Port} {slot key : Nat} {a : Account} (amount : Nat)
    (hc : s.cursorAccount p = .ok (slot, key, a)) (hs : s.spendRefusal p slot a = none) :
    judgeTopUp p amount false s =
      if Config.maxBalance < a.balance + amount then
        report .overflow (topUpBody key 0 a.balance (s.available slot a))
      else ⟨⟨.ok, topUpBody key amount (a.balance + amount) (s.available slot a + amount)⟩,
        s.balanceEvent slot a amount, []⟩ := by
  simp only [judgeTopUp, hc, hs]
  rfl

/-- Settles O16, by the room under the greatest balance. -/
theorem topUpAddsValue : Obligations.TopUpAddsValue := by
  unfold Obligations.TopUpAddsValue
  intro s p seq amount slot key a hacc hcur hlive hfree hopen hvalid
  have hj := judgeTopUp_passed (amount6 amount) (State.cursorAccount_set hcur hlive)
    (State.spendRefusal_none hfree hopen hvalid)
  refine ⟨fun hle => ?_, fun hlt => ?_⟩
  · have hd := done_judged hacc nofun
      (hj.trans (if_neg (by simp only [Config.maxBalance]; omega)))
    rw [State.balance_moved hlive] at hd
    exact hd
  · exact done_reported hacc nofun (hj.trans (if_pos hlt))

/-- A supervisor request, by the verdict of its checks. -/
theorem done_ruled {s : State} {r : SupervisorRequest} (h : s.SupervisorReady) (hw : r.wf = true)
    {a : Answer} {ws : List RetWrite} {ms : List MainWrite} (hj : r.judge s = ⟨a, ws, ms⟩) :
    Done r.command s (({ s with
      ret := applyRets ws s.ret, main := s.main.effects ms }).afterSupervisor r a) := by
  have := done_request h hw
  rwa [hj] at this

/-- A supervisor request that its checks only report on changes nothing but the supervisor link. -/
theorem done_ruled_report {s : State} {r : SupervisorRequest} (h : s.SupervisorReady)
    (hw : r.wf = true) {code : AnswerCode} {body : List Byte} (hj : r.judge s = report code body) :
    Done r.command s (s.afterSupervisor r ⟨code, body⟩) := done_ruled h hw hj

theorem amountRefusal_passed {key : BitVec 40} {amount : BitVec 32} (hk : keyDigits key = true)
    (ha : amount8Digits amount = true) (hk0 : keyOf key ≠ 0) (ha0 : amount8 amount ≠ 0) :
    amountRefusal key amount = none := by simp [amountRefusal, hk, ha, hk0, ha0]

theorem judgeCredit_found {s : State} {key : BitVec 40} {amount : BitVec 32} {slot : Nat}
    {a : Account} (hr : amountRefusal key amount = none) (hf : s.lookup (keyOf key) = some slot)
    (hl : s.Live slot a) :
    judgeCredit key amount s =
      if Config.maxBalance < a.balance + amount8 amount then
        report .overflow (creditBody (some a.state) a.balance (s.available slot a))
      else ⟨⟨.ok, creditBody (some a.state) (a.balance + amount8 amount)
        (s.available slot a + amount8 amount)⟩, s.balanceEvent slot a (amount8 amount), []⟩ := by
  have hl' : s.account? slot = some a := hl
  simp only [judgeCredit, hr, hf, hl']

theorem judgeDebit_found {s : State} {key : BitVec 40} {amount : BitVec 32} {slot : Nat}
    {a : Account} (hr : amountRefusal key amount = none) (hf : s.lookup (keyOf key) = some slot)
    (hl : s.Live slot a) :
    judgeDebit key amount s =
      if s.available slot a < amount8 amount then
        report .noFunds (creditBody (some a.state) a.balance (s.available slot a))
      else ⟨⟨.ok, creditBody (some a.state) (a.balance - amount8 amount)
        (s.available slot a - amount8 amount)⟩, s.balanceEvent slot a (-amount8 amount), []⟩ := by
  have hl' : s.account? slot = some a := hl
  simp only [judgeDebit, hr, hf, hl']

/-- Settles O17, by the room of CREDIT and the funds of DEBIT. -/
theorem creditAndDebitMoveValue : Obligations.CreditAndDebitMoveValue := by
  unfold Obligations.CreditAndDebitMoveValue
  intro s key amount slot a hready hk ha hk0 ha0 hf hlive
  have hr := amountRefusal_passed hk ha hk0 ha0
  have hcredit := judgeCredit_found hr hf hlive
  have hdebit := judgeDebit_found hr hf hlive
  refine ⟨fun hle => ?_, fun hlt => ?_, fun hle => ?_, fun hlt => ?_⟩
  · have hd := done_ruled (r := .credit key amount) hready rfl
      (hcredit.trans (if_neg (by simp only [Config.maxBalance]; omega)))
    rw [State.balance_moved hlive] at hd
    exact hd
  · exact done_ruled_report (r := .credit key amount) hready rfl (hcredit.trans (if_pos hlt))
  · have hd := done_ruled (r := .debit key amount) hready rfl
      (hdebit.trans (if_neg (by omega)))
    rw [State.balance_moved hlive] at hd
    exact hd
  · exact done_ruled_report (r := .debit key amount) hready rfl (hdebit.trans (if_pos hlt))

end Sys2Proof.Machine
end

section
/-! PROOFS. Holds: the id of a new hold, HOLD, CAPTURE, RELEASE, CANCEL HOLD. -/

namespace Sys2Proof.Machine

/-! The next id. -/

/-- The ids in the order of issue go round the numbers from 1 to 65535 (R77). -/
theorem iterate_nextIdAfter {n : Nat} (h1 : 1 ≤ n) (h2 : n ≤ 65535) (k : Nat) :
    nextIdAfter^[k] n = (n - 1 + k) % 65535 + 1 := by
  induction k with
  | zero => simp only [Function.iterate_zero, id_eq, Nat.add_zero]; omega
  | succ k ih =>
    rw [Function.iterate_succ_apply', ih]
    unfold nextIdAfter Config.maxWord
    by_cases hx : (n - 1 + k) % 65535 + 1 = 65535
    · rw [if_pos hx]; omega
    · rw [if_neg hx]; omega

/-- The steps that the search for an unused id makes: each passes over an id in use, and the search ends at an
unused one unless it has made all it may. -/
theorem unusedId_steps (used : List Nat) (fuel n : Nat) :
    ∃ k, k ≤ fuel ∧ unusedId used fuel n = nextIdAfter^[k] n ∧
      (∀ m, m < k → nextIdAfter^[m] n ∈ used) ∧ (nextIdAfter^[k] n ∈ used → k = fuel) := by
  induction fuel generalizing n with
  | zero => exact ⟨0, Nat.le_refl _, rfl, (fun _ h => absurd h (Nat.not_lt_zero _)), fun _ => rfl⟩
  | succ fuel ih =>
    unfold unusedId
    split
    · rename_i hn
      obtain ⟨k, hk, he, hm, hu⟩ := ih (nextIdAfter n)
      refine ⟨k + 1, by omega, he, fun m hlt => ?_, fun h => by rw [hu h]⟩
      cases m with
      | zero => simpa using hn
      | succ m => exact hm m (by omega)
    · rename_i hn
      refine ⟨0, Nat.zero_le _, rfl, (fun _ h => absurd h (Nat.not_lt_zero _)), fun h => ?_⟩
      exact absurd (by simpa using h) hn

/-- Fewer ids in use than 65535 cannot fill as many steps of the search as there are of them and one more. -/
theorem exists_unused {used : List Nat} {n : Nat} (h1 : 1 ≤ n) (h2 : n ≤ 65535)
    (hlen : used.length ≤ 384) : ∃ m, m ≤ used.length ∧ nextIdAfter^[m] n ∉ used := by
  by_contra hall
  push Not at hall
  have hnodup : ((List.range (used.length + 1)).map fun i => nextIdAfter^[i] n).Nodup := by
    refine List.Nodup.map_on (fun i hi j hj hij => ?_) List.nodup_range
    rw [List.mem_range] at hi hj
    rw [iterate_nextIdAfter h1 h2, iterate_nextIdAfter h1 h2] at hij
    omega
  have hsub : ((List.range (used.length + 1)).map fun i => nextIdAfter^[i] n) ⊆ used := fun x hx => by
    obtain ⟨i, hi, rfl⟩ := List.mem_map.mp hx
    rw [List.mem_range] at hi
    exact hall i (by omega)
  have := (List.Nodup.subperm hnodup hsub).length_le
  simp at this

/-- Settles O18: the search ends at an unused id, for the ids in use are fewer than the ids there are. -/
theorem holdIdIsTheFirstUnused : Obligations.HoldIdIsTheFirstUnused := by
  unfold Obligations.HoldIdIsTheFirstUnused
  intro s hlen h1 h2
  have hlen' : (s.main.pool.map (·.id)).length = s.main.pool.length := List.length_map _
  obtain ⟨k, hk, he, hm, hu⟩ := unusedId_steps (s.main.pool.map (·.id)) s.main.pool.length s.main.nextId
  have hfree : nextIdAfter^[k] s.main.nextId ∉ s.main.pool.map (·.id) := fun hmem => by
    obtain ⟨m, hle, hnot⟩ := exists_unused h1 h2 (by rw [hlen']; exact hlen)
    rw [hlen'] at hle
    obtain hlt | rfl : m < k ∨ m = k := by have := hu hmem; omega
    · exact hnot (hm m hlt)
    · exact hnot hmem
  have he' : s.assignedId = nextIdAfter^[k] s.main.nextId := he
  rw [he']
  refine ⟨fun h hh hid => hfree (hid ▸ List.mem_map_of_mem hh), ?_, ?_, k, rfl, fun m hlt => ?_⟩
  · rw [iterate_nextIdAfter h1 h2]; omega
  · rw [iterate_nextIdAfter h1 h2]; omega
  · exact List.mem_map.mp (hm m hlt)

/-! HOLD. -/

/-- HOLD after the checks that FARE and TOP-UP share (R81). -/
theorem judgeHold_checked {s : State} {p : Port} {slot key : Nat} {a : Account}
    (amount lifetime : Nat) (trial : Bool) (hc : s.cursorAccount p = .ok (slot, key, a))
    (hs : s.spendRefusal p slot a = none) :
    judgeHold p amount lifetime trial s =
      if 4 ≤ (s.main.pool.filter (·.slot == slot)).length then
        report .holdLimit (holdBody key 0 0 (s.available slot a))
      else if s.available slot a < amount then
        report .noFunds (holdBody key 0 0 (s.available slot a))
      else if 128 ≤ s.main.pool.countP (·.owner == p) then
        report .portQuota (holdBody key 0 0 (s.available slot a))
      else if 384 ≤ s.main.pool.length then
        report .poolFull (holdBody key 0 0 (s.available slot a))
      else
        ⟨⟨.ok, holdBody key s.assignedId (min lifetime s.ret.params.holdLimit)
            (s.available slot a - amount)⟩, [],
          if trial then [] else
            [.addHold ⟨s.assignedId, slot, p, amount,
                s.expiryAfter (min lifetime s.ret.params.holdLimit)⟩,
              .nextId (nextIdAfter s.assignedId), .forgetEnd s.assignedId]⟩ := by
  simp only [judgeHold, hc, State.holdRefusal, hs, State.holdsOn, State.portHolds,
    Config.holdsPerAccount, Config.portQuota, Config.pool]
  by_cases h1 : 4 ≤ (s.main.pool.filter (·.slot == slot)).length
  · simp only [h1, if_true]
  · by_cases h2 : s.available slot a < amount
    · simp only [h1, h2, if_true, if_false]
    · by_cases h3 : 128 ≤ s.main.pool.countP (·.owner == p)
      · simp only [h1, h2, h3, if_true, if_false]
      · by_cases h4 : 384 ≤ s.main.pool.length
        · simp only [h1, h2, h3, h4, if_true, if_false]
        · simp only [h1, h2, h3, h4, if_false]

/-- Settles O19: a HOLD that passes every check. -/
theorem holdReserves : Obligations.HoldReserves := by
  unfold Obligations.HoldReserves
  intro s p seq amount lifetime slot key a hacc hcur hlive hfree hopen hvalid hholds hfunds hquota hpool
  have hj := judgeHold_checked (amount6 amount) lifetime.toNat false
    (State.cursorAccount_set hcur hlive) (State.spendRefusal_none hfree hopen hvalid)
  rw [if_neg (Nat.not_le.mpr hholds), if_neg (Int.not_lt.mpr hfunds), if_neg (Nat.not_le.mpr hquota),
    if_neg (Nat.not_le.mpr hpool)] at hj
  exact done_judged hacc nofun hj

/-- Settles O20: the four limits, in their order. -/
theorem holdLimitsAreCheckedInOrder : Obligations.HoldLimitsAreCheckedInOrder := by
  unfold Obligations.HoldLimitsAreCheckedInOrder
  intro s p seq amount lifetime trial slot key a hacc hcur hlive hfree hopen hvalid n refused
  have hj := judgeHold_checked (amount6 amount) lifetime.toNat (trial == 1)
    (State.cursorAccount_set hcur hlive) (State.spendRefusal_none hfree hopen hvalid)
  refine ⟨fun h1 => ?_, fun h1 h2 => ?_, fun h1 h2 h3 => ?_, fun h1 h2 h3 h4 => ?_⟩
  · rw [if_pos h1] at hj
    exact done_reported hacc nofun hj
  · rw [if_neg (Nat.not_le.mpr h1), if_pos h2] at hj
    exact done_reported hacc nofun hj
  · rw [if_neg (Nat.not_le.mpr h1), if_neg (Int.not_lt.mpr h2), if_pos h3] at hj
    exact done_reported hacc nofun hj
  · rw [if_neg (Nat.not_le.mpr h1), if_neg (Int.not_lt.mpr h2), if_neg (Nat.not_le.mpr h3),
      if_pos h4] at hj
    exact done_reported hacc nofun hj

/-! CAPTURE and RELEASE. -/

theorem State.ownedHold_live {s : State} {p : Port} {id : Nat} {h : Hold} {a : Account}
    (hf : s.findHold id = some h) (ho : h.owner = p) (hl : s.Live h.slot a) :
    s.ownedHold p id = .ok (h, a) := by
  have hl' : s.account? h.slot = some a := hl
  simp [State.ownedHold, hf, ho, hl']

theorem judgeCapture_owned {s : State} {p : Port} {id : Nat} {h : Hold} {a : Account} (amount : Nat)
    (ho : s.ownedHold p id = .ok (h, a)) (hle : amount ≤ h.amount) :
    judgeCapture p id amount false s =
      ⟨⟨.ok, captureBody a.key amount (h.amount - amount) (a.balance - amount)⟩,
        s.balanceEvent h.slot a (-amount) ++ s.holdEndDrain h, [.dropHold h.id]⟩ := by
  simp only [judgeCapture, ho, if_neg (Nat.not_lt.mpr hle)]
  rfl

/-- A debit and a drain of one account. -/
theorem State.capture_drained {s : State} {slot : Nat} {a : Account} (h : s.Live slot a) (delta : Int)
    (id : Nat) :
    ({ s with
      ret := applyRets (s.balanceEvent slot a delta ++ [.acctState slot .drained]) s.ret
      main := s.main.effects [.dropHold id] } : State) =
      ((s.move slot a delta).withoutHold id).setAccount slot
        { a with balance := a.balance + delta, state := .drained } := by
  rw [applyRets_append, applyRets_balanceEvent h, applyRets_cons, applyRets_nil, applyRet,
    Retained.mapAccount_written h]
  simp only [State.setAccount, State.withoutHold, State.move, List.set_set]
  rfl

/-- A debit of an account. -/
theorem State.capture_moved {s : State} {slot : Nat} {a : Account} (h : s.Live slot a) (delta : Int)
    (id : Nat) :
    ({ s with
      ret := applyRets (s.balanceEvent slot a delta ++ []) s.ret
      main := s.main.effects [.dropHold id] } : State) = (s.move slot a delta).withoutHold id := by
  rw [List.append_nil, applyRets_balanceEvent h]
  rfl

/-- Settles O21: the debit, the end of the hold and the drain it causes. -/
theorem captureSettlesTheHold : Obligations.CaptureSettlesTheHold := by
  unfold Obligations.CaptureSettlesTheHold
  intro s p seq holdId amount h a hacc hfind howner hlive hle
  have hj := judgeCapture_owned (amount6 amount) (State.ownedHold_live hfind howner hlive) hle
  refine ⟨fun hcl hlast => ?_, fun hn => ?_, fun hn hseq hamount => ?_⟩
  · have hd := done_judged (f := ⟨seq, .capture holdId amount 0⟩) hacc nofun hj
    rw [State.holdEndDrain_drains hlive hcl hlast, State.capture_drained hlive] at hd
    exact hd
  · have hd := done_judged (f := ⟨seq, .capture holdId amount 0⟩) hacc nofun hj
    rw [State.holdEndDrain_spares hlive hn, State.capture_moved hlive] at hd
    exact hd
  · subst hseq hamount
    rw [State.holdEndDrain_spares hlive hn] at hj
    have ho : stationOutcome p ⟨0, .capture holdId 0 0⟩ s =
        ⟨judgeCapture p holdId.toNat (amount6 0) false s, false, false⟩ := by
      rw [stationOutcome_fresh (f := ⟨0, .capture holdId 0 0⟩) nofun hacc.uncached, ladder_passed hacc.right hacc.fields]
      rfl
    have hx := exec_command (f := ⟨0, .capture holdId 0 0⟩) rfl p s
    rw [State.arrive_unstaged hacc.toStationReady _ (by rw [ho, hj]; rfl), ho, hj] at hx
    exact hx

theorem judgeRelease_owned {s : State} {p : Port} {id : Nat} {h : Hold} {a : Account}
    (ho : s.ownedHold p id = .ok (h, a)) :
    judgeRelease p id s =
      ⟨⟨.ok, releaseBody a.key h.amount (s.available h.slot a + h.amount)⟩, s.holdEndDrain h,
        [.dropHold h.id]⟩ := by simp only [judgeRelease, ho]

/-- The end of a hold that drains its account. -/
theorem State.hold_drained {s : State} {slot : Nat} {a : Account} (h : s.Live slot a)
    (ms : List MainWrite) :
    ({ s with ret := applyRets [.acctState slot .drained] s.ret, main := s.main.effects ms } : State) =
      ({ s with main := s.main.effects ms } : State).setAccount slot { a with state := .drained } := by
  rw [applyRets_cons, applyRets_nil, applyRet_acctState h]
  rfl

/-- Settles O22: the end of the hold and the drain it causes. -/
theorem releaseEndsTheHold : Obligations.ReleaseEndsTheHold := by
  unfold Obligations.ReleaseEndsTheHold
  intro s p seq holdId h a hacc hfind howner hlive
  have hd := done_judged (f := ⟨seq, .release holdId⟩) hacc nofun
    (judgeRelease_owned (State.ownedHold_live hfind howner hlive))
  refine ⟨fun hcl hlast => ?_, fun hn => ?_⟩
  · rw [State.holdEndDrain_drains hlive hcl hlast, State.hold_drained hlive] at hd
    exact hd
  · rw [State.holdEndDrain_spares hlive hn] at hd
    exact hd

/-- CAPTURE and RELEASE of a hold that the port does not own report with every output zero (R84, R87). -/
theorem judge_notOwned {s : State} {p : Port} {r : StationRequest} {holdId : BitVec 16}
    {c : AnswerCode} (hr : (∃ n t, r = .capture holdId n t) ∨ r = .release holdId)
    (ho : s.ownedHold p holdId.toNat = .error c) : r.judge p s = report c r.zeroBody := by
  obtain ⟨_, _, rfl⟩ | rfl := hr
  · simp only [StationRequest.judge, judgeCapture, ho, StationRequest.zeroBody]
  · simp only [StationRequest.judge, judgeRelease, ho, StationRequest.zeroBody]

/-- Settles O23: what an id that is no active hold of the port comes to. -/
theorem holdRequestsOfOtherHoldsAreRefused : Obligations.HoldRequestsOfOtherHoldsAreRefused := by
  unfold Obligations.HoldRequestsOfOtherHoldsAreRefused
  intro s p f holdId hacc hreq refused
  have hb : ∀ c b, f.req ≠ .bad c b := by
    obtain ⟨_, _, h⟩ | h := hreq <;> rw [h] <;> nofun
  have hrefused : ∀ {code}, s.ownedHold p holdId.toNat = .error code → refused code := fun ho =>
    done_reported hacc hb (judge_notOwned hreq ho)
  refine ⟨fun hnone => ⟨fun e he => ⟨fun hr => ?_, fun hr => ?_⟩, fun hno => ?_⟩, fun h hf ho => ?_,
    fun h a n t hf ho hl hfr hlt => ?_⟩
  · exact hrefused (by simp only [State.ownedHold, hnone, State.endedAnswer, he, hr])
  · exact hrefused (by simp only [State.ownedHold, hnone, State.endedAnswer, he, hr])
  · have he : (s.main.ended.get p).find? (·.id == holdId.toNat) = none :=
      List.find?_eq_none.mpr fun e hm => by simpa using hno e hm
    exact hrefused (by simp only [State.ownedHold, hnone, State.endedAnswer, he])
  · exact hrefused (by simp [State.ownedHold, hf, ho])
  · refine done_reported hacc hb ?_
    rw [hfr]
    show judgeCapture p holdId.toNat (amount6 n) (t == 1) s = _
    simp only [judgeCapture, State.ownedHold_live hf ho hl, if_pos hlt]

/-! CANCEL HOLD. -/

theorem toNat_ne_zero {w : Nat} {x : BitVec w} (h : x ≠ 0) : x.toNat ≠ 0 := fun h0 =>
  h (BitVec.eq_of_toNat_eq (by simpa using h0))

theorem judgeCancelHold_found {s : State} {holdId : BitVec 16} {h : Hold} {a : Account}
    (h0 : holdId ≠ 0) (hf : s.findHold holdId.toNat = some h) (hl : s.Live h.slot a) :
    judgeCancelHold holdId s = ⟨⟨.ok, cancelBody a.key h.owner.toNat h.amount⟩, s.holdEndDrain h,
      [.dropHold h.id, .recordEnd h.owner h.id .cancelled]⟩ := by
  simp only [judgeCancelHold, if_neg (toNat_ne_zero h0), hf, State.keyAt_live hl]

theorem judgeCancelHold_none {s : State} {holdId : BitVec 16} (h0 : holdId ≠ 0)
    (hf : s.findHold holdId.toNat = none) :
    judgeCancelHold holdId s = report .noHold (cancelBody 0 0 0) := by
  simp only [judgeCancelHold, if_neg (toNat_ne_zero h0), hf]

/-- A supervisor request that stages nothing is answered at once. -/
theorem exec_ruled {s : State} {r : SupervisorRequest} {a : Answer} {ms : List MainWrite}
    (h : s.SupervisorReady) (hw : r.wf = true) (hj : r.judge s = ⟨a, [], ms⟩) :
    exec r.command s = .next (({ s with main := s.main.effects ms }).afterSupervisor r a) := by
  rw [exec_supervisorCommand hw, State.submit_unstaged h r (by rw [hj]), hj]

/-- Settles O24: the end of the hold, its record, and the drain it causes. -/
theorem cancelHoldEndsAnyHold : Obligations.CancelHoldEndsAnyHold := by
  unfold Obligations.CancelHoldEndsAnyHold
  intro s holdId hready h0
  refine ⟨fun h a hf hl => ⟨fun hcl hlast => ?_, fun hn => ?_⟩, fun hf => ?_⟩
  · have hd := done_ruled (r := .cancelHold holdId) hready rfl (judgeCancelHold_found h0 hf hl)
    rw [State.holdEndDrain_drains hl hcl hlast, State.hold_drained hl] at hd
    exact hd
  · have hj := judgeCancelHold_found h0 hf hl
    rw [State.holdEndDrain_spares hl hn] at hj
    exact exec_ruled (r := .cancelHold holdId) hready rfl hj
  · exact exec_reported (r := .cancelHold holdId) hready rfl (judgeCancelHold_none h0 hf)

end Sys2Proof.Machine
end

section
/-! PROOFS. Tariffs: a covered FARE, the refusals of FARE, TARIFF ROW and TARIFF CAP. -/

namespace Sys2Proof.Machine

/-! FARE. -/

/-- A FARE that the account's pass covers (R116, R117). -/
theorem judgeFare_covered {s : State} {p : Port} {entryZone exitZone slot key : Nat} {a : Account}
    {b : BankId} (trial : Bool) (hc : s.cursorAccount p = .ok (slot, key, a))
    (hs : s.spendRefusal p slot a = none) (hb : s.ret.selector = some b)
    (hp : a.passCovers s.ret.day entryZone exitZone = true) :
    judgeFare p entryZone exitZone trial s =
      report .ok (fareBody key ((s.ret.bank b).entry a.cls entryZone exitZone) 0 true false a.balance
        (s.available slot a) s.ret.activeGen) := by
  simp only [judgeFare, hc, hs, hb, hp, if_true]

/-- Settles O26: a pass that covers the trip comes before the route and the funds. -/
theorem coveredFareIsFree : Obligations.CoveredFareIsFree := by
  unfold Obligations.CoveredFareIsFree
  intro s p seq entryZone exitZone trial slot key a b x hacc hcur hlive hfree hopen hvalid hsel hpass
    hentry hexit hday
  refine done_reported hacc nofun (judgeFare_covered _ (State.cursorAccount_set hcur hlive)
    (State.spendRefusal_none hfree hopen hvalid) hsel ?_)
  simp [Account.passCovers, hpass, hentry, hexit, hday]

/-- A FARE with no active bank (R115). -/
theorem judgeFare_noTariff {s : State} {p : Port} {entryZone exitZone slot key : Nat} {a : Account}
    (trial : Bool) (hc : s.cursorAccount p = .ok (slot, key, a))
    (hs : s.spendRefusal p slot a = none) (hb : s.ret.selector = none) :
    judgeFare p entryZone exitZone trial s =
      report .noTariff (fareBody key 0 0 false false a.balance (s.available slot a) 0) := by
  simp only [judgeFare, hc, hs, hb]

/-- A FARE with no route (R115). -/
theorem judgeFare_noRoute {s : State} {p : Port} {entryZone exitZone slot key : Nat} {a : Account}
    {b : BankId} (trial : Bool) (hc : s.cursorAccount p = .ok (slot, key, a))
    (hs : s.spendRefusal p slot a = none) (hb : s.ret.selector = some b)
    (hp : a.passCovers s.ret.day entryZone exitZone = false)
    (hr : (s.ret.bank b).entry a.cls entryZone exitZone = Config.noRoute) :
    judgeFare p entryZone exitZone trial s =
      report .noRoute (fareBody key Config.noRoute 0 false false a.balance (s.available slot a)
        s.ret.activeGen) := by
  simp only [judgeFare, hc, hs, hb, hp, hr, if_true, Bool.false_eq_true, if_false]

/-- A FARE beyond the funds (R118). -/
theorem judgeFare_noFunds {s : State} {p : Port} {entryZone exitZone slot key charge : Nat}
    {capped : Bool} {a : Account} {b : BankId} (trial : Bool)
    (hc : s.cursorAccount p = .ok (slot, key, a)) (hs : s.spendRefusal p slot a = none)
    (hb : s.ret.selector = some b) (hp : a.passCovers s.ret.day entryZone exitZone = false)
    (hr : (s.ret.bank b).entry a.cls entryZone exitZone ≠ Config.noRoute)
    (hcap : capCharge ((s.ret.bank b).entry a.cls entryZone exitZone) ((s.ret.bank b).cap a.cls)
      (a.spendToday s.ret.day) = (charge, capped))
    (hf : s.available slot a < (charge : Int)) :
    judgeFare p entryZone exitZone trial s =
      report .noFunds (fareBody key ((s.ret.bank b).entry a.cls entryZone exitZone) charge false capped
        a.balance (s.available slot a) s.ret.activeGen) := by
  simp only [judgeFare, hc, hs, hb, hp, if_neg hr, hcap, if_pos hf, Bool.false_eq_true, if_false]

/-- A base fare under a cap with less room is capped (R118). -/
theorem capCharge_some (base cap spendToday : Nat) :
    capCharge base (some cap) spendToday =
      (min base (cap - spendToday), decide (cap - spendToday < base)) := by
  simp only [capCharge, Prod.mk.injEq, true_and, decide_eq_decide]
  omega

/-- Settles O27: FARE's own checks 5 to 7. -/
theorem fareIsRefusedInOrder : Obligations.FareIsRefusedInOrder := by
  unfold Obligations.FareIsRefusedInOrder
  intro s p seq entryZone exitZone trial slot key a hacc hcur hlive hfree hopen hvalid refused
  have hc := State.cursorAccount_set hcur hlive
  have hs := State.spendRefusal_none hfree hopen hvalid
  refine ⟨fun hsel => done_reported hacc nofun (judgeFare_noTariff _ hc hs hsel),
    fun b base hsel hpass hbase => ?_⟩
  subst hbase
  refine ⟨fun hr => done_reported hacc nofun (judgeFare_noRoute _ hc hs hsel hpass hr),
    fun hr hcap hf => ?_, fun cap room hr hcap hroom hf => ?_⟩
  · refine done_reported hacc nofun (judgeFare_noFunds _ hc hs hsel hpass hr ?_ hf)
    rw [show (s.ret.bank b).cap a.cls = none from hcap]
    rfl
  · subst hroom
    refine done_reported hacc nofun (judgeFare_noFunds _ hc hs hsel hpass hr ?_ hf)
    rw [show (s.ret.bank b).cap a.cls = some cap from hcap]
    exact capCharge_some ..

/-! TARIFF ROW and TARIFF CAP. -/

theorem judgeTariffRow_fields {s : State} {cls entryZone : Byte} {fares : List (BitVec 16)}
    (hd : fares.all fareDigits = true) (hc : cls.toNat ≤ 7) (he : entryZone.toNat ≤ 15) :
    judgeTariffRow cls entryZone fares s =
      if s.main.loading = false then
        report .wrongState (rowBody (rowOf cls.toNat entryZone.toNat) s.main.loaded.length)
      else
        ⟨⟨.ok, rowBody (rowOf cls.toNat entryZone.toNat)
            (loadRow s.main.loaded (rowOf cls.toNat entryZone.toNat)).length⟩,
          [.tariffRow s.ret.standbyBank (rowOf cls.toNat entryZone.toNat) (fares.map fareOf)],
          [.loaded (loadRow s.main.loaded (rowOf cls.toNat entryZone.toNat))]⟩ := by
  cases hl : s.main.loading <;> simp [judgeTariffRow, hd, classOk, zoneOk, hc, he, hl]

theorem judgeTariffCap_fields {s : State} {cls change : Byte} {cap : BitVec 24}
    (hd : amount6Digits cap = true) (hc : cls.toNat ≤ 7) (hch : change = 1 ∨ change = 2) :
    judgeTariffCap cls change cap s =
      if s.main.loading = false then
        report .wrongState (capBody cls.toNat ((s.ret.bank s.ret.standbyBank).cap cls.toNat))
      else
        ⟨⟨.ok, capBody cls.toNat (if change = 1 then some (amount6 cap) else none)⟩,
          [.classCap s.ret.standbyBank cls.toNat (if change = 1 then some (amount6 cap) else none)],
          []⟩ := by
  have hch' : (change == 1 || change == 2) = true := by simpa using hch
  cases hl : s.main.loading <;>
    simp only [judgeTariffCap, hd, classOk, hc, hch', hl] <;> simp

/-- Settles O29: the row or the cap written to the standby bank during a load. -/
theorem tariffRowAndCapWriteTheStandbyBank : Obligations.TariffRowAndCapWriteTheStandbyBank := by
  unfold Obligations.TariffRowAndCapWriteTheStandbyBank
  intro s hready
  refine ⟨fun cls entryZone fares hlen hd hc he => ?_, fun cls cap hd hc => ?_⟩
  · have hwf : (SupervisorRequest.tariffRow cls entryZone fares).wf = true := by
      simpa [SupervisorRequest.wf] using hlen
    have hj : (SupervisorRequest.tariffRow cls entryZone fares).judge s = _ :=
      judgeTariffRow_fields hd hc he
    refine ⟨fun hl hmem => ?_, fun hl hmem => ?_, fun hl => ?_⟩
    · have hload : loadRow s.main.loaded (rowOf cls.toNat entryZone.toNat) = s.main.loaded := by
        simpa [loadRow, rowOf] using hmem
      rw [if_neg (by simp [hl]), hload] at hj
      exact done_ruled hready hwf hj
    · have hload : loadRow s.main.loaded (rowOf cls.toNat entryZone.toNat) =
          s.main.loaded ++ [rowOf cls.toNat entryZone.toNat] := by
        simpa [loadRow, rowOf] using hmem
      rw [if_neg (by simp [hl]), hload, List.length_append] at hj
      exact done_ruled hready hwf hj
    · rw [if_pos hl] at hj
      exact done_ruled_report hready hwf hj
  · have hset : (SupervisorRequest.tariffCap cls 1 cap).judge s = _ :=
      judgeTariffCap_fields hd hc (.inl rfl)
    have hremove : (SupervisorRequest.tariffCap cls 2 cap).judge s = _ :=
      judgeTariffCap_fields hd hc (.inr rfl)
    refine ⟨fun hl => ⟨?_, ?_⟩, fun hl r hr => ?_⟩
    · rw [if_neg (by simp [hl])] at hset
      exact done_ruled hready rfl hset
    · rw [if_neg (by simp [hl])] at hremove
      exact done_ruled hready rfl hremove
    · rw [if_pos hl] at hset hremove
      obtain rfl | rfl := hr
      · exact done_ruled_report hready rfl hset
      · exact done_ruled_report hready rfl hremove

end Sys2Proof.Machine
end

section
/-! PROOFS. The account table: OPEN ACCOUNT, SET TERMS, the requests that change one item, RETIRE, CONFIRM
RETIRE. -/

namespace Sys2Proof.Machine

/-! Fields in range. -/

theorem isFlag_iff {b : Byte} : isFlag b = true ↔ b.toNat ≤ 1 := by
  simp only [isFlag, Bool.or_eq_true, beq_iff_eq]
  refine ⟨?_, fun h => ?_⟩
  · rintro (rfl | rfl) <;> decide
  · bv_omega

theorem keepSet_iff {c : Byte} : keepSet c = true ↔ c.toNat ≤ 1 := isFlag_iff

theorem keepSetRemove_iff {c : Byte} : keepSetRemove c = true ↔ c.toNat ≤ 2 := by
  simp only [keepSetRemove, Bool.or_eq_true, beq_iff_eq]
  refine ⟨?_, fun h => ?_⟩
  · rintro ((rfl | rfl) | rfl) <;> decide
  · bv_omega

theorem dayOk_iff {d : BitVec 16} : dayOk d = true ↔ d ≠ 0 := by simp [dayOk]

theorem classOk_iff {c : Byte} : classOk c = true ↔ c.toNat ≤ 7 := by simp [classOk]

theorem zoneOk_iff {z : Byte} : zoneOk z = true ↔ z.toNat ≤ 15 := by simp [zoneOk]

/-! Accounts named by key. -/

theorem State.byKey_found {s : State} {key slot : Nat} {a : Account} (h : s.lookup key = some slot)
    (hl : s.Live slot a) : s.byKey key = some (slot, a) := by
  have hl' : s.account? slot = some a := hl
  simp only [State.byKey, h, hl']

theorem keyRefusal_passed {key : BitVec 40} (hd : keyDigits key = true) (h0 : keyOf key ≠ 0) :
    keyRefusal key = none := by simp [keyRefusal, hd, h0]

theorem State.named_found {s : State} {key : BitVec 40} {slot : Nat} {a : Account}
    (hd : keyDigits key = true) (h0 : keyOf key ≠ 0) (h : s.lookup (keyOf key) = some slot)
    (hl : s.Live slot a) : s.named key = .ok (slot, a) := by
  simp only [State.named, keyRefusal_passed hd h0, State.byKey_found h hl]

/-! OPEN ACCOUNT. -/

theorem openRefusal_passed {key : BitVec 40} {cls sign : Byte} {initial : BitVec 32}
    {floor : BitVec 24} {vePresent : Byte} {ve : BitVec 16} {passPresent : Byte} {passEnd : BitVec 16}
    (hk : keyDigits key = true) (hi : amount8Digits initial = true) (hf : amount6Digits floor = true)
    (h0 : keyOf key ≠ 0) (hc : cls.toNat ≤ 7) (hs : sign = 0 ∨ sign = 1 ∧ amount8 initial = 0)
    (hv : vePresent = 0 ∨ vePresent = 1 ∧ ve ≠ 0) (hp : passPresent = 0 ∨ passPresent = 1 ∧ passEnd ≠ 0) :
    openRefusal key cls sign initial floor vePresent ve passPresent passEnd = none := by
  have hsign : isFlag sign = true ∧ (sign == 1 && amount8 initial != 0) = false := by
    obtain rfl | ⟨rfl, h⟩ := hs
    · exact ⟨rfl, rfl⟩
    · exact ⟨rfl, by rw [h]; rfl⟩
  have hflag : ∀ {b : Byte} {d : BitVec 16}, (b = 0 ∨ b = 1 ∧ d ≠ 0) →
      isFlag b = true ∧ (b == 1 && !dayOk d) = false := by
    intro b d h
    obtain rfl | ⟨rfl, h⟩ := h
    · exact ⟨rfl, rfl⟩
    · exact ⟨rfl, by rw [dayOk_iff.mpr h]; rfl⟩
  simp only [openRefusal, hk, hi, hf, decide_eq_false h0, classOk_iff.mpr hc, hsign.1, hsign.2,
    (hflag hv).1, (hflag hv).2, (hflag hp).1, (hflag hp).2, Bool.and_self, Bool.not_true, Bool.or_self,
    Bool.false_eq_true, if_false]

/-- Settles O31: a live key and an empty free list refuse it, and otherwise the head of the list is taken. -/
theorem openAccountTakesTheHeadOfTheFreeList : Obligations.OpenAccountTakesTheHeadOfTheFreeList := by
  unfold Obligations.OpenAccountTakesTheHeadOfTheFreeList
  intro s key cls sign initial floor vePresent ve passPresent zones passEnd hready hk hi hf h0 hc hs hv
    hp r bucket
  have hr := openRefusal_passed hk hi hf h0 hc hs hv hp
  refine ⟨fun slot hl => exec_reported hready rfl ?_, fun hl hfree => exec_reported hready rfl ?_,
    fun slot rest hl hfree => ?_⟩
  · show judgeOpenAccount .. = _
    simp only [judgeOpenAccount, hr, hl, Option.isSome_some, if_true]
    rfl
  · show judgeOpenAccount .. = _
    simp only [judgeOpenAccount, hr, hl, hfree, Option.isSome_none, Bool.false_eq_true, if_false]
    rfl
  · have hj : r.judge s = ⟨⟨.ok, openBody slot s.ret.day⟩,
        [.freeList rest, .chain bucket (s.chain bucket ++ [slot]),
          .record slot (newAccount key cls initial floor vePresent ve passPresent zones passEnd
            s.ret.day),
          .floatTotal (s.ret.floatTotal + amount8 initial)], []⟩ := by
      show judgeOpenAccount .. = _
      simp only [judgeOpenAccount, hr, hl, hfree, Option.isSome_none, Bool.false_eq_true, if_false]
      rfl
    have hd := done_ruled hready rfl hj
    simp only [newAccount, beq_iff_eq] at hd
    exact hd

/-! SET TERMS. -/

theorem termsRefusal_passed {key : BitVec 40} {clsChange cls floorChange : Byte} {floor : BitVec 24}
    {veChange : Byte} {ve : BitVec 16} {passChange : Byte} {passEnd : BitVec 16}
    (hk : keyDigits key = true) (hf : amount6Digits floor = true) (h0 : keyOf key ≠ 0)
    (h1 : clsChange.toNat ≤ 1) (h2 : cls.toNat ≤ 7) (h3 : floorChange.toNat ≤ 1)
    (h4 : veChange.toNat ≤ 2) (h5 : ve ≠ 0) (h6 : passChange.toNat ≤ 2) (h7 : passEnd ≠ 0) :
    termsRefusal key clsChange cls floorChange floor veChange ve passChange passEnd = none := by
  simp [termsRefusal, hk, hf, h0, keepSet_iff.mpr h1, classOk_iff.mpr h2, keepSet_iff.mpr h3,
    keepSetRemove_iff.mpr h4, dayOk_iff.mpr h5, keepSetRemove_iff.mpr h6, dayOk_iff.mpr h7]

/-- SET TERMS after its field checks and the lookup (R21, R22). -/
theorem judgeSetTerms_found {s : State} {key : BitVec 40} {clsChange cls floorChange : Byte}
    {floor : BitVec 24} {veChange : Byte} {ve : BitVec 16} {passChange : Byte}
    {zones passEnd : BitVec 16} {slot : Nat} {a : Account}
    (hr : termsRefusal key clsChange cls floorChange floor veChange ve passChange passEnd = none)
    (hb : s.byKey (keyOf key) = some (slot, a)) :
    judgeSetTerms key clsChange cls floorChange floor veChange ve passChange zones passEnd s =
      if a.state = .closing ∨ a.state = .drained then report .wrongState (termsOf s slot a)
      else
        let t := a.withTerms clsChange cls floorChange floor veChange ve passChange zones passEnd
        if t.floor < a.floor ∧ s.available slot t < 0 then report .noFunds (termsOf s slot a)
        else ⟨⟨.ok, termsOf s slot t⟩,
          termsWrites slot t clsChange floorChange veChange passChange, []⟩ := by
  simp only [judgeSetTerms, hr, hb]
  exact if_congr (by simp only [Bool.or_eq_true, beq_iff_eq]) rfl rfl

/-- Settles O32: the account with its new terms, and the two refusals. -/
theorem setTermsChangesTheTerms : Obligations.SetTermsChangesTheTerms := by
  unfold Obligations.SetTermsChangesTheTerms
  intro s key clsChange cls floorChange floor veChange ve passChange zones passEnd slot a hready hk hf
    h0 h1 h2 h3 h4 h5 h6 h7 hl hlive r t terms
  have hj : r.judge s = _ := judgeSetTerms_found (zones := zones)
    (termsRefusal_passed hk hf h0 h1 h2 h3 h4 h5 h6 h7) (State.byKey_found hl hlive)
  have ht : a.withTerms clsChange cls floorChange floor veChange ve passChange zones passEnd = t := by
    simp only [Account.withTerms, beq_iff_eq, t]
  refine ⟨fun hs => ?_, fun hs => ?_⟩
  · rw [if_neg (by obtain h | h := hs <;> rw [h] <;> decide)] at hj
    dsimp only at hj
    rw [ht] at hj
    refine ⟨fun hok => ?_, fun hlt hav => ?_⟩
    · rw [if_neg (fun ⟨h, h'⟩ => hok.elim (fun hle => absurd h (Nat.not_lt.mpr hle))
        fun hge => absurd h' (Int.not_lt.mpr hge))] at hj
      have hd := done_ruled hready rfl hj
      have hw := applyRets_termsWrites hlive clsChange cls floorChange floor veChange ve passChange
        zones passEnd
      rw [ht] at hw
      rw [hw] at hd
      exact hd
    · rw [if_pos ⟨hlt, hav⟩] at hj
      exact exec_reported hready rfl hj
  · rw [if_pos hs] at hj
    exact exec_reported hready rfl hj

/-! Requests that change one item. -/

theorem judgeMove_moves {s : State} {key : BitVec 40} {slot : Nat} {a : Account} {source : AcctState}
    (target : AcctState) (hn : s.named key = .ok (slot, a)) (hs : a.state = source) :
    judgeMove key source target s = ⟨⟨.ok, stateB (some target)⟩, [.acctState slot target], []⟩ := by
  simp only [judgeMove, hn, if_pos hs]

theorem judgeMove_refused {s : State} {key : BitVec 40} {slot : Nat} {a : Account}
    {source : AcctState} (target : AcctState) (hn : s.named key = .ok (slot, a))
    (hs : a.state ≠ source) :
    judgeMove key source target s = report .wrongState (stateB (some a.state)) := by
  simp only [judgeMove, hn, if_neg hs]

/-- The state of an account, written. -/
theorem State.acctState_set {s : State} {slot : Nat} {a : Account} (h : s.Live slot a) (st : AcctState) :
    ({ s with ret := applyRets [.acctState slot st] s.ret, main := s.main.effects [] } : State) =
      s.setAccount slot { a with state := st } := by
  rw [applyRets_cons, applyRets_nil, applyRet_acctState h]
  rfl

/-- A DRAINED account is one of a positive count of them. -/
theorem Retained.drainedCount_pos (r : Retained) :
    decide (0 < r.drainedCount) = r.accounts.any isDrained := by
  rw [Bool.eq_iff_iff, decide_eq_true_eq, Retained.drainedCount, List.countP_pos_iff, List.any_eq_true]

/-- Settles O33, request by request. -/
theorem oneItemRequestsChangeOneItem : Obligations.OneItemRequestsChangeOneItem := by
  unfold Obligations.OneItemRequestsChangeOneItem
  intro s hready
  refine ⟨fun key slot a hd h0 hl hlive => ?_, fun hday => ?_, fun hday => ?_, ?_, ?_⟩
  · have hn := State.named_found hd h0 hl hlive
    have hmove : ∀ {r : SupervisorRequest} {st : AcctState}, r.wf = true →
        r.judge s = ⟨⟨.ok, stateB (some st)⟩, [.acctState slot st], []⟩ → Done r.command s
        ((s.setAccount slot { a with state := st }).afterSupervisor r ⟨.ok, stateB (some st)⟩) :=
      fun hw hj => State.acctState_set hlive _ ▸ done_ruled hready hw hj
    exact ⟨fun h => hmove (r := .suspend key) rfl (judgeMove_moves _ hn h),
      fun h => exec_reported (r := .suspend key) hready rfl (judgeMove_refused _ hn h),
      fun h => hmove (r := .resume key) rfl (judgeMove_moves _ hn h),
      fun h => exec_reported (r := .resume key) hready rfl (judgeMove_refused _ hn h)⟩
  · have hj : SupervisorRequest.dayRoll.judge s =
        ⟨⟨.ok, word (s.ret.day + 1)⟩, [.businessDay (s.ret.day + 1)], []⟩ := if_neg hday
    exact done_ruled (r := .dayRoll) hready rfl hj
  · have hj : SupervisorRequest.dayRoll.judge s = report .range (word s.ret.day) := if_pos hday
    rw [hday] at hj
    exact exec_reported (r := .dayRoll) hready rfl hj
  · have hd := done_ruled (r := .clearUnclaimed) (ws := if 0 < s.ret.unclaimed then [.unclaimed 0] else [])
      hready rfl rfl
    have hret : applyRets (if 0 < s.ret.unclaimed then [.unclaimed 0] else []) s.ret =
        { s.ret with unclaimed := 0 } := by
      split
      · rfl
      · rw [applyRets_nil, ← show s.ret.unclaimed = 0 by omega]
    rw [hret] at hd
    exact hd
  · have hd := done_ruled (r := .clearBackupFlag)
      (ws := if s.ret.backupLost then [.backupLost false] else []) hready rfl rfl
    have hret : applyRets (if s.ret.backupLost then [.backupLost false] else []) s.ret =
        { s.ret with backupLost := false } := by
      split
      · rfl
      · rename_i hb
        rw [applyRets_nil, ← Bool.eq_false_iff.mpr hb]
    rw [hret, Retained.drainedCount_pos] at hd
    exact hd

/-! RETIRE and CONFIRM RETIRE. -/

/-- What RETIRE answers about the account as it stands. -/
def retireReport (s : State) (slot : Nat) (a : Account) (outcome moved : Nat) : List Byte :=
  retireBody outcome moved a.balance (s.holdsOn slot).length ((s.pinOn slot).map (·.1))

/-- RETIRE of a named account, case by case (R25). -/
theorem judgeRetire_named {s : State} {key : BitVec 40} {slot : Nat} {a : Account}
    (hn : s.named key = .ok (slot, a)) :
    judgeRetire key s =
      if a.state = .closing then report .ok (retireReport s slot a 2 0)
      else if a.state = .drained then report .ok (retireReport s slot a 3 0)
      else if a.balance < 0 then report .inDebt (retireReport s slot a 0 0)
      else if 0 < (s.holdsOn slot).length || ((s.pinOn slot).map (·.1)).isSome then
        ⟨⟨.ok, retireReport s slot a 2 0⟩, [.acctState slot .closing], []⟩
      else if s.noRoom a then report .totalFull (retireReport s slot a 0 0)
      else ⟨⟨.ok, retireReport s slot a 1 a.balance.toNat⟩, s.retirementWrites slot a,
        [.slotGone slot]⟩ := by
  simp only [judgeRetire, hn]
  rfl

/-- CONFIRM RETIRE of a named account, case by case (R29). -/
theorem judgeConfirmRetire_named {s : State} {key : BitVec 40} {slot : Nat} {a : Account}
    (hn : s.named key = .ok (slot, a)) :
    judgeConfirmRetire key s =
      if a.state ≠ .drained then report .wrongState (confirmBody 0 a.balance)
      else if a.balance < 0 then report .inDebt (confirmBody 0 a.balance)
      else if s.noRoom a then report .totalFull (confirmBody 0 a.balance)
      else ⟨⟨.ok, confirmBody a.balance.toNat a.balance⟩, s.retirementWrites slot a,
        [.slotGone slot]⟩ := by
  simp only [judgeConfirmRetire, hn]

/-- An account stands with a hold or a pin (R25). -/
theorem State.bound_iff (s : State) (slot : Nat) :
    (0 < (s.holdsOn slot).length || ((s.pinOn slot).map (·.1)).isSome) = true ↔
      ¬ ((s.main.pool.filter (·.slot == slot)).length = 0 ∧ ∀ q, ¬ s.PinnedBy slot q) := by
  rw [← State.pinOn_none, Bool.or_eq_true, decide_eq_true_eq, Option.isSome_map,
    Option.isSome_iff_ne_none, not_and_or]
  exact or_congr Nat.pos_iff_ne_zero Iff.rfl

/-- The unclaimed total has no room for a balance that is not negative (R60). -/
theorem State.noRoom_iff {s : State} {a : Account} (h : 0 ≤ a.balance) :
    s.noRoom a = true ↔ (999999999999 : Int) < s.ret.unclaimed + a.balance := by
  unfold State.noRoom Config.maxTotal
  rw [decide_eq_true_iff]
  omega

/-- Settles O34: the cases of RETIRE and CONFIRM RETIRE that move no slot. -/
theorem retireIsJudgedByTheFirstCase : Obligations.RetireIsJudgedByTheFirstCase := by
  unfold Obligations.RetireIsJudgedByTheFirstCase
  intro s key slot a hready hd h0 hl hlive holds pin body retired confirmed free full
  have hn := State.named_found hd h0 hl hlive
  have hbody : ∀ outcome, retireReport s slot a outcome 0 = body outcome := fun outcome => by
    simp only [retireReport, retireBody, Option.map_map, body, pin, holds]
    rfl
  have hretire := judgeRetire_named hn
  have hconfirm := judgeConfirmRetire_named hn
  simp only [hbody] at hretire
  refine ⟨fun hs => ?_, fun hs => ?_, fun hs => ?_, fun hs => ?_, fun hs hb => ?_, fun hs hb hf => ?_⟩
  · rw [if_pos hs] at hretire
    exact exec_reported (r := .retire key) hready rfl hretire
  · rw [if_neg (by rw [hs]; decide), if_pos hs] at hretire
    exact exec_reported (r := .retire key) hready rfl hretire
  · rw [if_neg (by obtain h | h := hs <;> rw [h] <;> decide),
      if_neg (by obtain h | h := hs <;> rw [h] <;> decide)] at hretire
    refine ⟨fun hb => ?_, fun hb hfree => ?_, fun hb hfree hfull => ?_⟩
    · rw [if_pos hb] at hretire
      exact exec_reported (r := .retire key) hready rfl hretire
    · rw [if_neg (Int.not_lt.mpr hb), if_pos ((s.bound_iff slot).mpr hfree)] at hretire
      exact State.acctState_set hlive .closing ▸ done_ruled (r := .retire key) hready rfl hretire
    · rw [if_neg (Int.not_lt.mpr hb), if_neg (fun h => (s.bound_iff slot).mp h hfree),
        if_pos ((State.noRoom_iff hb).mpr hfull)] at hretire
      exact exec_reported (r := .retire key) hready rfl hretire
  · rw [if_pos hs] at hconfirm
    exact exec_reported (r := .confirmRetire key) hready rfl hconfirm
  · rw [if_neg (not_not.mpr hs), if_pos hb] at hconfirm
    exact exec_reported (r := .confirmRetire key) hready rfl hconfirm
  · rw [if_neg (not_not.mpr hs), if_neg (Int.not_lt.mpr hb), if_pos ((State.noRoom_iff hb).mpr hf)]
      at hconfirm
    exact exec_reported (r := .confirmRetire key) hready rfl hconfirm

/-- Cursors SET on a freed slot turn GONE (R41). -/
theorem afterFreeing_eq (slot : Nat) : Cursor.afterFreeing slot = fun c => match c with
    | .sel i k => if i = slot then .gone else .sel i k
    | c => c := by
  funext c
  cases c with
  | sel i k => by_cases h : i = slot <;> simp [Cursor.afterFreeing, h]
  | none | gone => rfl

/-- Settles O35: what the retirement move records, and the cursors it turns GONE. -/
theorem retirementMoveFreesTheSlot : Obligations.RetirementMoveFreesTheSlot := by
  unfold Obligations.RetirementMoveFreesTheSlot
  intro s key slot a hready hd h0 hl hlive hkey hb hroom bucket moved
  have hn := State.named_found hd h0 hl hlive
  have hfull : ¬ s.noRoom a = true := fun h => by
    have := (State.noRoom_iff hb).mp h
    omega
  have hmoved : ({ s with
      ret := applyRets (s.retirementWrites slot a) s.ret
      main := s.main.effects [.slotGone slot] } : State) = moved := by
    rw [applyRets_retirementWrites hlive, hkey]
    simp only [Main.effects_cons, Main.effects_nil, applyMain, afterFreeing_eq, moved]
    rfl
  refine ⟨fun hs hholds hpins => ?_, fun hs => ?_⟩
  · have hj := judgeRetire_named hn
    have hnone : (s.main.pool.filter (·.slot == slot)).length = 0 := by
      simpa [List.filter_eq_nil_iff] using hholds
    rw [if_neg (by obtain h | h := hs <;> rw [h] <;> decide),
      if_neg (by obtain h | h := hs <;> rw [h] <;> decide), if_neg (Int.not_lt.mpr hb),
      if_neg (fun h => (s.bound_iff slot).mp h ⟨hnone, hpins⟩), if_neg hfull] at hj
    have hbody : retireReport s slot a 1 a.balance.toNat =
        [1] ++ dec 4 a.balance.toNat ++ balanceB a.balance ++ [0, 0, 0] := by
      have hh : (s.holdsOn slot).length = 0 := hnone
      simp only [retireReport, retireBody, hh, State.pinOn_none.mpr hpins, List.append_assoc]
      rfl
    have hdone := done_ruled (r := .retire key) hready rfl hj
    rwa [hmoved, hbody] at hdone
  · have hj := judgeConfirmRetire_named hn
    rw [if_neg (not_not.mpr hs), if_neg (Int.not_lt.mpr hb), if_neg hfull] at hj
    have hdone := done_ruled (r := .confirmRetire key) hready rfl hj
    rwa [hmoved] at hdone

end Sys2Proof.Machine
end

section
/-! PROOFS. ENUMERATE: the scan of the account table. -/

namespace Sys2Proof.Machine

/-- The slots of a list, from a slot number on, whose accounts are in a state of the filter. -/
def reportable (filter : Byte) : Nat → List (Option Account) → List (Nat × Account)
  | _, [] => []
  | slot, none :: rest => reportable filter (slot + 1) rest
  | slot, some a :: rest =>
    if filterHas filter a.state then (slot, a) :: reportable filter (slot + 1) rest
    else reportable filter (slot + 1) rest

theorem reportable_some (filter : Byte) (slot : Nat) (a : Account) (rest : List (Option Account)) :
    reportable filter slot (some a :: rest) =
      if filterHas filter a.state then (slot, a) :: reportable filter (slot + 1) rest
      else reportable filter (slot + 1) rest := rfl

/-- The scan reports the first of them, and goes on after the last it has room for (R44, R45). -/
theorem scan_eq (filter : Byte) (room slot : Nat) (l : List (Option Account)) (hr : 1 ≤ room) :
    scan filter room slot l = ((reportable filter slot l).take room,
      if room ≤ (reportable filter slot l).length then
        ((reportable filter slot l).map (·.1)).getD (room - 1) 0 + 1
      else Config.slots) := by
  induction l generalizing slot room with
  | nil =>
    rw [scan, reportable, if_neg (by simp; omega), List.take_nil]
  | cons x l ih =>
    cases x with
    | none => exact ih room (slot + 1) hr
    | some a =>
      rw [scan, reportable_some]
      by_cases hf : filterHas filter a.state = true
      · rw [if_pos hf, if_pos hf]
        by_cases h1 : room ≤ 1
        · obtain rfl : room = 1 := by omega
          simp
        · obtain ⟨n, rfl⟩ : ∃ n, room = n + 2 := ⟨room - 2, by omega⟩
          rw [if_neg h1, ih (n + 2 - 1) (slot + 1) (by omega)]
          simp only [List.take_succ_cons, List.length_cons, List.map_cons, Prod.mk.injEq,
            Nat.add_sub_cancel, show n + 2 - 1 = n + 1 by omega, List.getD_cons_succ, true_and]
          exact if_congr (Nat.succ_le_succ_iff (a := n + 1)).symm rfl rfl
      · rw [if_neg hf, if_neg hf]
        exact ih room (slot + 1) hr

/-- A slot of a table holds an account in a state of the filter. -/
def reportableAt (filter : Byte) (l : List (Option Account)) (slot : Nat) : Bool :=
  match l.getD slot none with
  | some a => filterHas filter a.state
  | none => false

/-- The slots that the scan may report, in ascending order. -/
theorem reportable_slots (filter : Byte) (all : List (Option Account)) (n : Nat) :
    (reportable filter n (all.drop n)).map (·.1) =
      (List.range' n (all.length - n)).filter (reportableAt filter all) := by
  generalize hk : all.length - n = k
  induction k generalizing n with
  | zero =>
    rw [List.drop_eq_nil_of_le (by omega)]
    rfl
  | succ k ih =>
    have hn : n < all.length := by omega
    have hget : all.getD n none = all[n] := by
      rw [List.getD_eq_getElem?_getD, List.getElem?_eq_getElem hn, Option.getD_some]
    rw [List.drop_eq_getElem_cons hn, List.range'_succ, List.filter_cons, reportableAt, hget,
      ← ih (n + 1) (by omega)]
    cases all[n] with
    | none => rfl
    | some a =>
      rw [reportable_some]
      by_cases hf : filterHas filter a.state = true
      · simp only [hf, if_true, List.map_cons]
      · simp only [hf, if_false, Bool.false_eq_true]

/-- What the scan may report is what the table holds. -/
theorem reportable_live {filter : Byte} {all : List (Option Account)} {n slot : Nat} {a : Account}
    (h : (slot, a) ∈ reportable filter n (all.drop n)) : all.getD slot none = some a := by
  generalize hk : all.length - n = k at h
  induction k generalizing n with
  | zero =>
    rw [List.drop_eq_nil_of_le (by omega)] at h
    cases h
  | succ k ih =>
    have hn : n < all.length := by omega
    have hrest : (slot, a) ∈ reportable filter (n + 1) (all.drop (n + 1)) → all.getD slot none = some a :=
      fun h => ih h (by omega)
    rw [List.drop_eq_getElem_cons hn] at h
    cases hx : all[n] with
    | none =>
      rw [hx] at h
      exact hrest h
    | some b =>
      rw [hx] at h
      rw [reportable_some] at h
      split at h
      · obtain heq | h := List.mem_cons.mp h
        · cases heq
          rw [List.getD_eq_getElem?_getD, List.getElem?_eq_getElem hn, hx]
          rfl
        · exact hrest h
      · exact hrest h

/-- The slots below a number, from a slot on. -/
theorem filter_range_from (n m : Nat) (h : n ≤ m) (q : Nat → Bool) :
    (List.range m).filter (fun i => decide (n ≤ i) && q i) = (List.range' n (m - n)).filter q := by
  have hsplit : List.range m = List.range n ++ List.range' n (m - n) := by
    have := List.range'_append_1 (s := 0) (m := n) (n := m - n)
    rw [Nat.zero_add, Nat.add_sub_cancel' h] at this
    rw [List.range_eq_range', List.range_eq_range', this]
  rw [hsplit, List.filter_append]
  have hlow : (List.range n).filter (fun i => decide (n ≤ i) && q i) = [] :=
    List.filter_eq_nil_iff.mpr fun i hi => by
      have := List.mem_range.mp hi
      simp; omega
  rw [hlow, List.nil_append]
  refine List.filter_congr fun i hi => ?_
  have := (List.mem_range'_1.mp hi).1
  simp [this]

/-- The answer of a page: the entries of what the scan may report, as far as it has room (R43 to R45). -/
theorem judgeEnumerate_page {s : State} {start : BitVec 16} {filter : Byte}
    (hs : start.toNat ≤ 2048) (h1 : 1 ≤ filter.toNat) (h2 : filter.toNat ≤ 15)
    {found : List (Nat × Account)}
    (hf : reportable filter start.toNat (s.ret.accounts.drop start.toNat) = found) :
    judgeEnumerate start filter s = report .ok
      (listB ((found.take 8).map fun x => entryB s x.1 x.2)
        ++ word (if 8 ≤ found.length then (found.map (·.1)).getD 7 0 + 1 else 2048)) := by
  have hr : (decide (Config.slots < start.toNat) || filter == 0 || decide (15 < filter.toNat)) = false := by
    have h0 : (filter == 0) = false := by
      rw [beq_eq_false_iff_ne]
      rintro rfl
      exact absurd h1 (by decide)
    rw [decide_eq_false (by simp only [Config.slots]; omega), h0, decide_eq_false (by omega)]
    rfl
  simp only [judgeEnumerate, hr, Bool.false_eq_true, if_false, scan_eq filter Config.page _ _ (by decide),
    hf]
  rfl

/-- Settles O36: the scan reports the slots that qualify, in ascending order, as far as it has room. -/
theorem enumerateReportsOnePage : Obligations.EnumerateReportsOnePage := by
  unfold Obligations.EnumerateReportsOnePage
  intro s start filter hready hlen hstart h1 h2 qualifies found entry
  have hslots : (reportable filter start.toNat (s.ret.accounts.drop start.toNat)).map (·.1) = found := by
    have hq : ∀ i, qualifies i = (decide (start.toNat ≤ i) && reportableAt filter s.ret.accounts i) := by
      intro i
      simp only [qualifies, reportableAt, State.account?]
      cases s.ret.accounts.getD i none with
      | none => rfl
      | some a => cases h : a.state <;> simp only [h] <;> rfl
    rw [reportable_slots, hlen, ← filter_range_from _ _ hstart]
    exact List.filter_congr fun i _ => (hq i).symm
  have hentries : ((reportable filter start.toNat (s.ret.accounts.drop start.toNat)).take 8).map
      (fun x => entryB s x.1 x.2) = (found.take 8).map entry := by
    rw [← hslots, ← List.map_take, List.map_map]
    refine List.map_congr_left fun x hx => ?_
    have hl : s.account? x.1 = some x.2 := reportable_live (List.mem_of_mem_take hx)
    simp only [Function.comp_apply, entry, hl]
    rfl
  have hlength : (reportable filter start.toNat (s.ret.accounts.drop start.toNat)).length =
      found.length := by rw [← hslots, List.length_map]
  have hj := judgeEnumerate_page (s := s) hstart h1 h2 rfl
  rw [hentries, hslots, hlength] at hj
  exact exec_reported (r := .enumerate start filter) hready rfl hj

end Sys2Proof.Machine
end

section
/-! PROOFS. Supervision: the reads, SET PARAMETERS, WIPE, and the field checks of every request. -/

namespace Sys2Proof.Machine

/-! Reads. -/

theorem judgeReadAccount_found {s : State} {key : BitVec 40} {slot : Nat} {a : Account}
    (hn : s.named key = .ok (slot, a)) : judgeReadAccount key s = report .ok
      (word slot ++ stateB (some a.state) ++ byte1 a.cls ++ balanceB a.balance ++ dec 3 a.floor
        ++ dec 4 (s.held slot) ++ availableB (s.available slot a)
        ++ dec 3 (a.spendToday s.ret.day) ++ word a.spendDay
        ++ dayB a.validityEnd ++ flag (a.outOfValidity s.ret.day)
        ++ passB a.pass ++ flag (a.passInForce s.ret.day)
        ++ listB ((s.holdsOn slot).map (holdB s)) ++ pinB s (s.pinOn slot)) := by
  simp only [judgeReadAccount, hn]

theorem judgeReadTariffRow_standby {s : State} {cls entryZone : Byte} (hc : cls.toNat ≤ 7)
    (he : entryZone.toNat ≤ 15) :
    judgeReadTariffRow 1 cls entryZone s =
      readRow s s.ret.standbyBank cls.toNat entryZone.toNat true := by
  simp only [judgeReadTariffRow, classOk_iff.mpr hc, zoneOk_iff.mpr he]
  rfl

theorem judgeReadTariffRow_active {s : State} {cls entryZone : Byte} {b : BankId}
    (hc : cls.toNat ≤ 7) (he : entryZone.toNat ≤ 15) (hs : s.ret.selector = some b) :
    judgeReadTariffRow 0 cls entryZone s = readRow s b cls.toNat entryZone.toNat false := by
  simp only [judgeReadTariffRow, classOk_iff.mpr hc, zoneOk_iff.mpr he, hs]
  rfl

theorem judgeReadTariffRow_none {s : State} {cls entryZone : Byte} (hc : cls.toNat ≤ 7)
    (he : entryZone.toNat ≤ 15) (hs : s.ret.selector = none) :
    judgeReadTariffRow 0 cls entryZone s =
      report .noTariff ([0, 0, 0] ++ flag s.main.loading ++ List.replicate 37 0) := by
  simp only [judgeReadTariffRow, classOk_iff.mpr hc, zoneOk_iff.mpr he, hs]
  cases s.main.loading <;> rfl

theorem judgeStatus_running {s : State} (h : s.running = true) : judgeStatus s = report .ok
    (flag s.ret.backupLost ++ flag (s.ret.accounts.any isDrained || s.ret.backupLost)
      ++ word (2048 - s.ret.free.length) ++ word s.ret.free.length
      ++ word (s.ret.accounts.countP isDrained) ++ word s.main.pool.length
      ++ byte1 (s.main.pool.countP (·.owner == .p0)) ++ byte1 (s.main.pool.countP (·.owner == .p1))
      ++ byte1 (s.main.pool.countP (·.owner == .p2)) ++ byte1 (s.main.pool.countP (·.owner == .p3))
      ++ byte1 (Port.all.countP fun q => (s.session q).pin.isSome) ++ word s.ret.day
      ++ bankB s.ret.selector ++ word s.ret.activeGen ++ flag s.main.loading
      ++ byte1 s.main.loaded.length ++ signed 6 s.ret.floatTotal ++ dec 6 s.ret.unclaimed
      ++ toBytes 4 s.main.clock) := by
  have hattn : s.attn = (s.ret.accounts.any isDrained || s.ret.backupLost) := by
    rw [State.attn, h, Retained.attnCause, Retained.drainedCount_pos, Bool.true_and]
  have hports : Port.all.flatMap (fun p => byte1 (s.portHolds p)) =
      byte1 (s.main.pool.countP (·.owner == .p0)) ++ (byte1 (s.main.pool.countP (·.owner == .p1))
        ++ (byte1 (s.main.pool.countP (·.owner == .p2))
          ++ byte1 (s.main.pool.countP (·.owner == .p3)))) := rfl
  unfold judgeStatus
  rw [hattn, hports]
  simp only [List.append_assoc]
  rfl

/-- Settles O37, read by read. -/
theorem supervisorReadsReportAndChangeNothing : Obligations.SupervisorReadsReportAndChangeNothing := by
  unfold Obligations.SupervisorReadsReportAndChangeNothing
  intro s hready
  refine ⟨fun key slot a hd h0 hl hlive => ?_, fun which cls entryZone hw hc he => ⟨?_, ?_, ?_⟩, ?_,
    exec_reported (r := .readParameters) hready rfl rfl⟩
  · exact exec_reported (r := .readAccount key) hready rfl
      (judgeReadAccount_found (State.named_found hd h0 hl hlive))
  · rintro rfl
    exact exec_reported hready rfl (judgeReadTariffRow_standby hc he)
  · rintro b rfl hs
    exact exec_reported hready rfl (judgeReadTariffRow_active hc he hs)
  · rintro rfl hs
    exact exec_reported hready rfl (judgeReadTariffRow_none hc he hs)
  · exact exec_reported (r := .status) hready rfl (judgeStatus_running hready.running)

/-! SET PARAMETERS. -/

/-- The parameter set with one port's items changed (R159). -/
def Params.withPort (q : Params) (p : Port) (c : PortChange) : Params :=
  { q with
    rights := if c.rightsChange = 1 then q.rights.set p (Rights.ofByte c.rights) else q.rights
    rates := if c.rateChange = 1 then q.rates.set p (Rate.ofCode c.rate) else q.rates }

theorem applyRets_portWrites (r : Retained) (p : Port) (c : PortChange) :
    applyRets (portWrites p c) r = { r with params := r.params.withPort p c } := by
  simp only [portWrites, Params.withPort, beq_iff_eq, applyRets_append]
  by_cases h1 : c.rightsChange = 1 <;> by_cases h2 : c.rateChange = 1 <;>
    simp only [h1, h2, if_true, if_false] <;> rfl

theorem Params.withPort_rights (q : Params) (p x : Port) (c : PortChange) :
    (q.withPort p c).rights.get x =
      if x = p ∧ c.rightsChange = 1 then Rights.ofByte c.rights else q.rights.get x := by
  unfold Params.withPort
  by_cases h : c.rightsChange = 1 <;> simp only [h, if_true, if_false, Four.get_set, and_true, and_false]

theorem Params.withPort_rates (q : Params) (p x : Port) (c : PortChange) :
    (q.withPort p c).rates.get x =
      if x = p ∧ c.rateChange = 1 then Rate.ofCode c.rate else q.rates.get x := by
  unfold Params.withPort
  by_cases h : c.rateChange = 1 <;> simp only [h, if_true, if_false, Four.get_set, and_true, and_false]

/-- What a SET PARAMETERS makes of the parameter set (R159). -/
def Params.changed (q : Params) (hlChange : Byte) (holdLimit : BitVec 16) (ptChange pinTime : Byte)
    (ports : Four PortChange) : Params :=
  ((((({ q with
    holdLimit := if hlChange = 1 then holdLimit.toNat else q.holdLimit
    pinTime := if ptChange = 1 then pinTime.toNat else q.pinTime } : Params).withPort
      .p0 ports.v0).withPort .p1 ports.v1).withPort .p2 ports.v2).withPort .p3 ports.v3)

/-- What a SET PARAMETERS stages (R159). -/
def parameterWrites (hlChange : Byte) (holdLimit : BitVec 16) (ptChange pinTime : Byte)
    (ports : Four PortChange) : List RetWrite :=
  (if hlChange == 1 then [RetWrite.holdLimit holdLimit.toNat] else [])
    ++ (if ptChange == 1 then [RetWrite.pinTime pinTime.toNat] else [])
    ++ portWrites .p0 ports.v0 ++ portWrites .p1 ports.v1 ++ portWrites .p2 ports.v2
    ++ portWrites .p3 ports.v3

theorem applyRets_parameterWrites (r : Retained) (hlChange : Byte) (holdLimit : BitVec 16)
    (ptChange pinTime : Byte) (ports : Four PortChange) :
    applyRets (parameterWrites hlChange holdLimit ptChange pinTime ports) r =
      { r with params := r.params.changed hlChange holdLimit ptChange pinTime ports } := by
  simp only [parameterWrites, applyRets_append, applyRets_portWrites, Params.changed, beq_iff_eq]
  by_cases h1 : hlChange = 1 <;> by_cases h2 : ptChange = 1 <;>
    simp only [h1, h2, if_true, if_false] <;> rfl

theorem Params.changed_rights (q : Params) (hlChange : Byte) (holdLimit : BitVec 16)
    (ptChange pinTime : Byte) (ports : Four PortChange) (p : Port) :
    (q.changed hlChange holdLimit ptChange pinTime ports).rights.get p =
      if (ports.get p).rightsChange = 1 then Rights.ofByte (ports.get p).rights
      else q.rights.get p := by
  simp only [Params.changed, Params.withPort_rights]
  cases p <;> simp [Four.get] <;> rfl

theorem Params.changed_rates (q : Params) (hlChange : Byte) (holdLimit : BitVec 16)
    (ptChange pinTime : Byte) (ports : Four PortChange) (p : Port) :
    (q.changed hlChange holdLimit ptChange pinTime ports).rates.get p =
      if (ports.get p).rateChange = 1 then Rate.ofCode (ports.get p).rate else q.rates.get p := by
  simp only [Params.changed, Params.withPort_rates]
  cases p <;> simp [Four.get] <;> rfl

/-- A rate code of the table is that of its rate (R157). -/
theorem Rate.code_ofCode {b : Byte} (h : b.toNat ≤ 4) : (Rate.ofCode b).code = b := by
  have hb : b = 0 ∨ b = 1 ∨ b = 2 ∨ b = 3 ∨ b = 4 := by bv_omega
  obtain rfl | rfl | rfl | rfl | rfl := hb <;> rfl

/-- The items of every port are in range (R158). -/
theorem all_portChangeOk_iff (ports : Four PortChange) : ports.toList.all portChangeOk = true ↔
    ∀ p, (ports.get p).rightsChange.toNat ≤ 1 ∧ (ports.get p).rights.toNat ≤ 7 ∧
      (ports.get p).rateChange.toNat ≤ 1 ∧ (ports.get p).rate.toNat ≤ 4 := by
  have hone : ∀ c : PortChange, portChangeOk c = true ↔ c.rightsChange.toNat ≤ 1 ∧
      c.rights.toNat ≤ 7 ∧ c.rateChange.toNat ≤ 1 ∧ c.rate.toNat ≤ 4 := fun c => by
    simp only [portChangeOk, Bool.and_eq_true, keepSet_iff, decide_eq_true_eq, and_assoc]
  rw [List.all_eq_true]
  refine ⟨fun h p => (hone _).mp (h _ ?_), fun h c hc => ?_⟩
  · cases p <;> simp [Four.toList, Four.get]
  · simp only [Four.toList, List.mem_cons, List.not_mem_nil, or_false] at hc
    obtain rfl | rfl | rfl | rfl := hc
    exacts [(hone _).mpr (h .p0), (hone _).mpr (h .p1), (hone _).mpr (h .p2), (hone _).mpr (h .p3)]

/-- Every item of a SET PARAMETERS is in range (R158). -/
def ParametersInRange (hlChange : Byte) (holdLimit : BitVec 16) (ptChange pinTime : Byte)
    (ports : Four PortChange) : Prop :=
  hlChange.toNat ≤ 1 ∧ 1 ≤ holdLimit.toNat ∧ holdLimit.toNat ≤ 3600 ∧
    ptChange.toNat ≤ 1 ∧ 1 ≤ pinTime.toNat ∧ pinTime.toNat ≤ 60 ∧
    ∀ p, (ports.get p).rightsChange.toNat ≤ 1 ∧ (ports.get p).rights.toNat ≤ 7 ∧
      (ports.get p).rateChange.toNat ≤ 1 ∧ (ports.get p).rate.toNat ≤ 4

/-- The range check of SET PARAMETERS. -/
theorem parametersInRange_iff {hlChange : Byte} {holdLimit : BitVec 16} {ptChange pinTime : Byte}
    {ports : Four PortChange} : ParametersInRange hlChange holdLimit ptChange pinTime ports ↔
      (keepSet hlChange && decide (1 ≤ holdLimit.toNat ∧ holdLimit.toNat ≤ Config.maxLifetime)
        && keepSet ptChange && decide (1 ≤ pinTime.toNat ∧ pinTime.toNat ≤ Config.maxPinTime)
        && ports.toList.all portChangeOk) = true := by
  rw [Bool.and_eq_true, Bool.and_eq_true, Bool.and_eq_true, Bool.and_eq_true, keepSet_iff, keepSet_iff,
    decide_eq_true_iff, decide_eq_true_iff, all_portChangeOk_iff, and_assoc, and_assoc, and_assoc,
    and_assoc, and_assoc]
  rfl

/-- SET PARAMETERS in range (R159). -/
theorem judgeSetParameters_inRange {hlChange : Byte} {holdLimit : BitVec 16} {ptChange pinTime : Byte}
    {ports : Four PortChange} (h : ParametersInRange hlChange holdLimit ptChange pinTime ports)
    (s : State) :
    judgeSetParameters hlChange holdLimit ptChange pinTime ports s =
      ⟨⟨.ok, paramsBody (s.ret.params.changed hlChange holdLimit ptChange pinTime ports)⟩,
        parameterWrites hlChange holdLimit ptChange pinTime ports, []⟩ := by
  have hw := congrArg Retained.params
    (applyRets_parameterWrites s.ret hlChange holdLimit ptChange pinTime ports)
  unfold judgeSetParameters
  rw [parametersInRange_iff.mp h]
  exact congrArg (fun q => (⟨⟨.ok, paramsBody q⟩,
    parameterWrites hlChange holdLimit ptChange pinTime ports, []⟩ : Verdict)) hw

/-- SET PARAMETERS out of range (R158). -/
theorem judgeSetParameters_outOfRange {hlChange : Byte} {holdLimit : BitVec 16}
    {ptChange pinTime : Byte} {ports : Four PortChange}
    (h : ¬ ParametersInRange hlChange holdLimit ptChange pinTime ports) (s : State) :
    judgeSetParameters hlChange holdLimit ptChange pinTime ports s =
      report .range (paramsBody s.ret.params) := by
  unfold judgeSetParameters
  rw [parametersInRange_iff, Bool.not_eq_true] at h
  rw [h]
  rfl

/-- Settles O38: the items marked SET are written, the others kept. -/
theorem setParametersWritesTheItemsMarkedSet : Obligations.SetParametersWritesTheItemsMarkedSet := by
  unfold Obligations.SetParametersWritesTheItemsMarkedSet
  intro s hlChange holdLimit ptChange pinTime ports hready r portOk ok
  refine ⟨fun hok => ?_, fun hno => ?_⟩
  · have hd := done_ruled hready rfl (r := r) (judgeSetParameters_inRange hok s)
    rw [applyRets_parameterWrites] at hd
    refine ⟨_, rfl, rfl, fun p => ⟨Params.changed_rights .., fun hc => ?_, fun hc => ?_⟩, hd⟩
    · rw [Params.changed_rates, if_pos hc]
      exact Rate.code_ofCode (hok.2.2.2.2.2.2 p).2.2.2
    · rw [Params.changed_rates, if_neg (by rw [hc]; decide)]
  · exact exec_reported hready rfl (r := r) (judgeSetParameters_outOfRange hno s)

/-! WIPE. -/

/-- SET cursors turn GONE (R152). -/
theorem afterWipe_eq : Cursor.afterWipe = fun c => match c with
    | .sel _ _ => .gone
    | c => c := by
  funext c
  cases c <;> rfl

/-- What a WIPE leaves of retention memory with nothing staged (R167). -/
theorem Retained.wiped_eq {r : Retained} (hs : r.staged = []) (hc : r.completion = false) :
    r.wiped = { Retained.cold with params := r.params, backupLost := r.backupLost, mark := r.mark } := by
  simp only [Retained.wiped, Retained.cold, hs, hc]

/-- Settles O39: one recorded value and one main-memory effect empty the installation. -/
theorem wipeEmptiesTheInstallation : Obligations.WipeEmptiesTheInstallation := by
  unfold Obligations.WipeEmptiesTheInstallation
  intro s hready
  have hd := done_ruled (r := .wipe) hready rfl (s := s) rfl
  rw [applyRets_cons, applyRets_nil, applyRet, Retained.wiped_eq hready.staged hready.completion,
    Main.effects_cons, Main.effects_nil, applyMain, afterWipe_eq] at hd
  exact hd

end Sys2Proof.Machine
end

section
/-! PROOFS. The field checks of the supervisor's requests. -/

namespace Sys2Proof.Machine

/-! Decimal fields that are zero. -/

/-- A decimal field denotes zero exactly when all its digits are zero. -/
theorem decVal_eq_zero {n v : Nat} (h : digitsOk n v = true) (hv : v < 16 ^ n) :
    decVal n v = 0 ↔ v = 0 := by
  induction n generalizing v with
  | zero =>
    have : v = 0 := by simpa using hv
    simp [decVal, this]
  | succ n ih =>
    simp only [digitsOk, Bool.and_eq_true] at h
    have hlt : v / 16 < 16 ^ n := by
      rw [Nat.div_lt_iff_lt_mul (by decide)]
      rwa [Nat.pow_succ] at hv
    have := ih h.2 hlt
    simp only [decVal]
    omega

theorem keyOf_eq_zero {key : BitVec 40} (h : keyDigits key = true) : keyOf key = 0 ↔ key = 0 := by
  refine (decVal_eq_zero h ?_).trans ⟨fun h => BitVec.eq_of_toNat_eq (by simpa using h), fun h => by rw [h]; rfl⟩
  exact lt_of_lt_of_eq key.isLt (by norm_num)

theorem amount8_eq_zero {amount : BitVec 32} (h : amount8Digits amount = true) :
    amount8 amount = 0 ↔ amount = 0 := by
  refine (decVal_eq_zero h ?_).trans ⟨fun h => BitVec.eq_of_toNat_eq (by simpa using h), fun h => by rw [h]; rfl⟩
  exact lt_of_lt_of_eq amount.isLt (by norm_num)

/-! Requests whose only field is a key. -/

theorem State.named_badDigit (s : State) {key : BitVec 40} (h : keyDigits key = false) :
    s.named key = .error .badDigit := by simp [State.named, keyRefusal, h]

theorem State.named_range (s : State) : s.named 0 = .error .range := rfl

theorem State.byKey_unknown {s : State} {key : Nat} (h : s.lookup key = none) : s.byKey key = none := by
  simp only [State.byKey, h]

theorem State.named_unknown {s : State} {key : BitVec 40} (hd : keyDigits key = true)
    (h0 : keyOf key ≠ 0) (h : s.lookup (keyOf key) = none) : s.named key = .error .unknownKey := by
  simp only [State.named, keyRefusal_passed hd h0, State.byKey_unknown h]

/-- The five requests with nothing but a key, and how many output bytes they have. -/
def KeyOnly (key : BitVec 40) (r : SupervisorRequest) (n : Nat) : Prop :=
  r = .readAccount key ∧ n = 42 ∨ r = .suspend key ∧ n = 1 ∨ r = .resume key ∧ n = 1 ∨
    r = .retire key ∧ n = 13 ∨ r = .confirmRetire key ∧ n = 9

/-- They are refused with every output zero when the key names no account (R16, R20, R23 to R25, R29). -/
theorem judge_keyRefused {s : State} {key : BitVec 40} {r : SupervisorRequest} {n : Nat}
    (hr : KeyOnly key r n) {c : AnswerCode} (hn : s.named key = .error c) :
    r.judge s = report c (List.replicate n 0) := by
  obtain ⟨rfl, rfl⟩ | ⟨rfl, rfl⟩ | ⟨rfl, rfl⟩ | ⟨rfl, rfl⟩ | ⟨rfl, rfl⟩ := hr
  · simp only [SupervisorRequest.judge, judgeReadAccount, hn]; rfl
  · simp only [SupervisorRequest.judge, judgeSuspend, judgeMove, hn]; rfl
  · simp only [SupervisorRequest.judge, judgeResume, judgeMove, hn]; rfl
  · simp only [SupervisorRequest.judge, judgeRetire, hn]; rfl
  · simp only [SupervisorRequest.judge, judgeConfirmRetire, hn]; rfl

theorem KeyOnly.wf {key : BitVec 40} {r : SupervisorRequest} {n : Nat} (h : KeyOnly key r n) :
    r.wf = true := by
  obtain ⟨rfl, _⟩ | ⟨rfl, _⟩ | ⟨rfl, _⟩ | ⟨rfl, _⟩ | ⟨rfl, _⟩ := h <;> rfl

/-! CREDIT and DEBIT. -/

theorem amountRefusal_badDigit {key : BitVec 40} {amount : BitVec 32}
    (h : keyDigits key = false ∨ amount8Digits amount = false) :
    amountRefusal key amount = some .badDigit := by
  obtain h | h := h <;> simp [amountRefusal, h]

theorem amountRefusal_range {key : BitVec 40} {amount : BitVec 32} (hk : keyDigits key = true)
    (ha : amount8Digits amount = true) (h : key = 0 ∨ amount = 0) :
    amountRefusal key amount = some .range := by
  rw [← keyOf_eq_zero hk, ← amount8_eq_zero ha] at h
  obtain h | h := h <;> simp [amountRefusal, hk, ha, h]

/-- CREDIT and DEBIT refused by their fields, with every output zero (R66). -/
theorem judge_amountRefused {s : State} {key : BitVec 40} {amount : BitVec 32}
    {r : SupervisorRequest} (hr : r = .credit key amount ∨ r = .debit key amount) {c : AnswerCode}
    (h : amountRefusal key amount = some c) : r.judge s = report c (List.replicate 12 0) := by
  obtain rfl | rfl := hr
  · simp only [SupervisorRequest.judge, judgeCredit, h]; rfl
  · simp only [SupervisorRequest.judge, judgeDebit, h]; rfl

/-- CREDIT and DEBIT of an unknown key, with every output zero (R66). -/
theorem judge_amountUnknown {s : State} {key : BitVec 40} {amount : BitVec 32}
    {r : SupervisorRequest} (hr : r = .credit key amount ∨ r = .debit key amount)
    (h : amountRefusal key amount = none) (hl : s.lookup (keyOf key) = none) :
    r.judge s = report .unknownKey (List.replicate 12 0) := by
  obtain rfl | rfl := hr
  · simp only [SupervisorRequest.judge, judgeCredit, h, hl]; rfl
  · simp only [SupervisorRequest.judge, judgeDebit, h, hl]; rfl

/-! OPEN ACCOUNT. -/

/-- The digits and the sign byte of OPEN ACCOUNT (R52, R53). -/
theorem openDigits_iff {key : BitVec 40} {sign : Byte} {initial : BitVec 32} {floor : BitVec 24} :
    (keyDigits key && isFlag sign && amount8Digits initial && amount6Digits floor) = true ↔
      keyDigits key = true ∧ sign.toNat ≤ 1 ∧ amount8Digits initial = true ∧
        amount6Digits floor = true := by
  rw [Bool.and_eq_true, Bool.and_eq_true, Bool.and_eq_true, isFlag_iff, and_assoc, and_assoc]

theorem openRefusal_badDigit {key : BitVec 40} {cls sign : Byte} {initial : BitVec 32}
    {floor : BitVec 24} {vePresent : Byte} {ve : BitVec 16} {passPresent : Byte} {passEnd : BitVec 16}
    (h : ¬ (keyDigits key = true ∧ sign.toNat ≤ 1 ∧ amount8Digits initial = true ∧
      amount6Digits floor = true)) :
    openRefusal key cls sign initial floor vePresent ve passPresent passEnd = some .badDigit := by
  rw [← openDigits_iff, Bool.not_eq_true] at h
  unfold openRefusal
  rw [h]
  rfl

/-- A flag byte above 1, or one that is set beside a day of 0, is out of range (R53, R197). -/
theorem presence_range {b : Byte} {d : BitVec 16} (h : 1 < b.toNat ∨ b = 1 ∧ d = 0) :
    isFlag b = false ∨ (b == 1 && !dayOk d) = true := by
  obtain h | ⟨rfl, rfl⟩ := h
  · exact .inl (isFlag_eq_false h)
  · exact .inr rfl

theorem openRefusal_range {key : BitVec 40} {cls sign : Byte} {initial : BitVec 32}
    {floor : BitVec 24} {vePresent : Byte} {ve : BitVec 16} {passPresent : Byte} {passEnd : BitVec 16}
    (hd : keyDigits key = true ∧ sign.toNat ≤ 1 ∧ amount8Digits initial = true ∧
      amount6Digits floor = true)
    (h : key = 0 ∨ 7 < cls.toNat ∨ sign = 1 ∧ initial ≠ 0 ∨ 1 < vePresent.toNat ∨
      vePresent = 1 ∧ ve = 0 ∨ 1 < passPresent.toNat ∨ passPresent = 1 ∧ passEnd = 0) :
    openRefusal key cls sign initial floor vePresent ve passPresent passEnd = some .range := by
  have hdigits := openDigits_iff.mpr hd
  obtain ⟨hk, _, hi, _⟩ := hd
  have hcond : (decide (keyOf key = 0) || !classOk cls || (sign == 1 && amount8 initial != 0)
      || !isFlag vePresent || (vePresent == 1 && !dayOk ve)
      || !isFlag passPresent || (passPresent == 1 && !dayOk passEnd)) = true := by
    obtain h | h | ⟨h1, h2⟩ | h := h
    · simp [(keyOf_eq_zero hk).mpr h]
    · have : classOk cls = false := by simpa [classOk] using h
      simp [this]
    · have : amount8 initial ≠ 0 := fun h0 => h2 ((amount8_eq_zero hi).mp h0)
      simp [h1, this]
    · have h' : (1 < vePresent.toNat ∨ vePresent = 1 ∧ ve = 0) ∨
          (1 < passPresent.toNat ∨ passPresent = 1 ∧ passEnd = 0) := by tauto
      obtain h | h := h'
      · obtain h | h := presence_range h <;> simp only [h, Bool.not_false, Bool.or_true, Bool.true_or]
      · obtain h | h := presence_range h <;> simp only [h, Bool.not_false, Bool.or_true, Bool.true_or]
  unfold openRefusal
  rw [hdigits, hcond]
  rfl

theorem judgeOpenAccount_refused {key : BitVec 40} {cls sign : Byte} {initial : BitVec 32}
    {floor : BitVec 24} {vePresent : Byte} {ve : BitVec 16} {passPresent : Byte}
    (zones : BitVec 16) {passEnd : BitVec 16} {c : AnswerCode}
    (h : openRefusal key cls sign initial floor vePresent ve passPresent passEnd = some c) (s : State) :
    judgeOpenAccount key cls sign initial floor vePresent ve passPresent zones passEnd s =
      report c ([0, 0] ++ word s.ret.day) := by
  simp only [judgeOpenAccount, h]
  rfl

/-! SET TERMS. -/

/-- The fields of SET TERMS but its digits are in range (R21). -/
def TermsInRange (key : BitVec 40) (clsChange cls floorChange veChange : Byte) (ve : BitVec 16)
    (passChange : Byte) (passEnd : BitVec 16) : Prop :=
  key ≠ 0 ∧ clsChange.toNat ≤ 1 ∧ cls.toNat ≤ 7 ∧ floorChange.toNat ≤ 1 ∧
    veChange.toNat ≤ 2 ∧ ve ≠ 0 ∧ passChange.toNat ≤ 2 ∧ passEnd ≠ 0

theorem termsRefusal_badDigit {key : BitVec 40} {clsChange cls floorChange : Byte} {floor : BitVec 24}
    {veChange : Byte} {ve : BitVec 16} {passChange : Byte} {passEnd : BitVec 16}
    (h : ¬ (keyDigits key = true ∧ amount6Digits floor = true)) :
    termsRefusal key clsChange cls floorChange floor veChange ve passChange passEnd =
      some .badDigit := by
  rw [← Bool.and_eq_true, Bool.not_eq_true] at h
  unfold termsRefusal
  rw [h]
  rfl

/-- The range check of SET TERMS. -/
theorem termsInRange_iff {key : BitVec 40} {clsChange cls floorChange veChange : Byte}
    {ve : BitVec 16} {passChange : Byte} {passEnd : BitVec 16} (hk : keyDigits key = true) :
    (decide (keyOf key = 0) || !keepSet clsChange || !classOk cls || !keepSet floorChange
      || !keepSetRemove veChange || !dayOk ve || !keepSetRemove passChange || !dayOk passEnd) = false ↔
      TermsInRange key clsChange cls floorChange veChange ve passChange passEnd := by
  simp only [Bool.or_eq_false_iff, Bool.not_eq_false', keepSet_iff, classOk_iff, keepSetRemove_iff,
    dayOk_iff, decide_eq_false_iff_not, keyOf_eq_zero hk, TermsInRange, and_assoc]

theorem termsRefusal_range {key : BitVec 40} {clsChange cls floorChange : Byte} {floor : BitVec 24}
    {veChange : Byte} {ve : BitVec 16} {passChange : Byte} {passEnd : BitVec 16}
    (hd : keyDigits key = true ∧ amount6Digits floor = true)
    (h : ¬ TermsInRange key clsChange cls floorChange veChange ve passChange passEnd) :
    termsRefusal key clsChange cls floorChange floor veChange ve passChange passEnd = some .range := by
  rw [← termsInRange_iff hd.1, Bool.not_eq_false] at h
  unfold termsRefusal
  rw [Bool.and_eq_true .. |>.mpr hd, h]
  rfl

theorem termsRefusal_none_of {key : BitVec 40} {clsChange cls floorChange : Byte} {floor : BitVec 24}
    {veChange : Byte} {ve : BitVec 16} {passChange : Byte} {passEnd : BitVec 16}
    (hd : keyDigits key = true ∧ amount6Digits floor = true)
    (h : TermsInRange key clsChange cls floorChange veChange ve passChange passEnd) :
    termsRefusal key clsChange cls floorChange floor veChange ve passChange passEnd = none := by
  rw [← termsInRange_iff hd.1] at h
  unfold termsRefusal
  rw [Bool.and_eq_true .. |>.mpr hd, h]
  rfl

/-- A SET TERMS whose key names no account answers zero terms (log 25). -/
theorem State.standingTerms_none {s : State} {key : BitVec 40}
    (h : keyDigits key = false ∨ key = 0 ∨ s.lookup (keyOf key) = none) :
    s.standingTerms key = List.replicate 18 0 := by
  have hn : ∃ c, s.named key = .error c := by
    cases hd : keyDigits key with
    | false => exact ⟨_, s.named_badDigit hd⟩
    | true =>
      by_cases h0 : key = 0
      · subst h0; exact ⟨_, s.named_range⟩
      · obtain h | h | h := h
        · rw [hd] at h; cases h
        · exact absurd h h0
        · exact ⟨_, State.named_unknown hd (fun hz => h0 ((keyOf_eq_zero hd).mp hz)) h⟩
  obtain ⟨c, hn⟩ := hn
  simp only [State.standingTerms, hn]
  rfl

theorem judgeSetTerms_refused {s : State} {key : BitVec 40} {clsChange cls floorChange : Byte}
    {floor : BitVec 24} {veChange : Byte} {ve : BitVec 16} {passChange : Byte} (zones : BitVec 16)
    {passEnd : BitVec 16} {c : AnswerCode}
    (h : termsRefusal key clsChange cls floorChange floor veChange ve passChange passEnd = some c) :
    judgeSetTerms key clsChange cls floorChange floor veChange ve passChange zones passEnd s =
      report c (s.standingTerms key) := by
  simp only [judgeSetTerms, h]

/-! The tariff requests. -/

theorem classZone_false {cls entryZone : Byte} (h : 7 < cls.toNat ∨ 15 < entryZone.toNat) :
    (classOk cls && zoneOk entryZone) = false := by
  obtain h | h := h
  · simp [classOk, h]
  · rw [zoneOk_eq_false h, Bool.and_false]

/-- Settles O40: each request's field checks, in their order. -/
theorem supervisorFieldsAreChecked : Obligations.SupervisorFieldsAreChecked := by
  unfold Obligations.SupervisorFieldsAreChecked
  intro s hready refused
  refine ⟨fun code body hw => exec_reported hready hw rfl, fun key r n hr => ⟨fun hd => ?_, fun h0 => ?_,
    fun hd h0 hl => ?_⟩, fun key amount r hr => ⟨fun h => ?_, fun hk ha h => ?_, fun hk ha hk0 ha0 hl => ?_⟩,
    fun key cls sign initial floor vePresent ve passPresent zones passEnd => ⟨fun h => ?_, fun hd h => ?_⟩,
    fun key clsChange cls floorChange floor veChange ve passChange zones passEnd => ?_,
    fun start filter h => ?_, exec_reported (r := .cancelHold 0) hready rfl rfl,
    fun cls entryZone fares hlen => ⟨fun h => ?_, fun hd h => ?_⟩, fun cls change cap => ⟨fun h => ?_,
    fun hd h => ?_⟩, fun which cls entryZone h => ?_⟩
  · exact exec_reported hready (KeyOnly.wf hr) (judge_keyRefused hr (s.named_badDigit hd))
  · subst h0
    exact exec_reported hready (KeyOnly.wf hr) (judge_keyRefused hr s.named_range)
  · exact exec_reported hready (KeyOnly.wf hr) (judge_keyRefused hr (State.named_unknown hd h0 hl))
  · have hw : r.wf = true := by obtain rfl | rfl := hr <;> rfl
    exact exec_reported hready hw (judge_amountRefused hr (amountRefusal_badDigit h))
  · have hw : r.wf = true := by obtain rfl | rfl := hr <;> rfl
    exact exec_reported hready hw (judge_amountRefused hr (amountRefusal_range hk ha h))
  · have hw : r.wf = true := by obtain rfl | rfl := hr <;> rfl
    exact exec_reported hready hw
      (judge_amountUnknown hr (amountRefusal_passed hk ha hk0 ha0) hl)
  · exact exec_reported (r := .openAccount ..) hready rfl
      (judgeOpenAccount_refused zones (openRefusal_badDigit h) s)
  · exact exec_reported (r := .openAccount ..) hready rfl
      (judgeOpenAccount_refused zones (openRefusal_range hd h) s)
  · have hstopped : ∀ body, s.standingTerms key = body →
        (¬ (keyDigits key = true ∧ amount6Digits floor = true) →
          refused (.setTerms key clsChange cls floorChange floor veChange ve passChange zones passEnd)
            .badDigit body) ∧
        (keyDigits key = true ∧ amount6Digits floor = true →
          ¬ TermsInRange key clsChange cls floorChange veChange ve passChange passEnd →
          refused (.setTerms key clsChange cls floorChange floor veChange ve passChange zones passEnd)
            .range body) := by
      rintro body rfl
      exact ⟨fun h => exec_reported (r := .setTerms ..) hready rfl
          (judgeSetTerms_refused zones (termsRefusal_badDigit h)),
        fun hd h => exec_reported (r := .setTerms ..) hready rfl
          (judgeSetTerms_refused zones (termsRefusal_range hd h))⟩
    refine ⟨fun h => hstopped _ (State.standingTerms_none h), fun slot a hd h0 hl hlive => hstopped _ ?_,
      fun hd h h0 hl => ?_⟩
    · simp only [State.standingTerms, State.named_found hd h0 hl hlive]
      rfl
    · refine exec_reported (r := .setTerms ..) hready rfl ?_
      show judgeSetTerms .. = _
      simp only [judgeSetTerms, termsRefusal_none_of hd h, State.byKey_unknown hl]
      rfl
  · have hcond : (decide (Config.slots < start.toNat) || filter == 0 || decide (15 < filter.toNat)) =
        true := by
      obtain h | rfl | h := h
      · rw [decide_eq_true (by exact h)]; rfl
      · simp
      · rw [decide_eq_true h, Bool.or_true]
    refine exec_reported (r := .enumerate start filter) hready rfl ?_
    show judgeEnumerate start filter s = _
    unfold judgeEnumerate
    rw [hcond]
    rfl
  · have hall : fares.all fareDigits = false := by
      obtain ⟨v, hv, hf⟩ := h
      exact List.all_eq_false.mpr ⟨v, hv, by simp [hf]⟩
    refine exec_reported (r := .tariffRow cls entryZone fares) hready
      (by simpa [SupervisorRequest.wf] using hlen) ?_
    simp only [SupervisorRequest.judge, judgeTariffRow, hall]
    rfl
  · have hall : fares.all fareDigits = true := List.all_eq_true.mpr hd
    refine exec_reported (r := .tariffRow cls entryZone fares) hready
      (by simpa [SupervisorRequest.wf] using hlen) ?_
    simp only [SupervisorRequest.judge, judgeTariffRow, hall, classZone_false h]
    rfl
  · refine exec_reported (r := .tariffCap cls change cap) hready rfl ?_
    simp only [SupervisorRequest.judge, judgeTariffCap, h]
    rfl
  · have hcond : (classOk cls && (change == 1 || change == 2)) = false := by
      obtain h | rfl | h := h
      · simp [classOk, h]
      · simp
      · have h1 : change ≠ 1 := by rintro rfl; exact absurd h (by decide)
        have h2 : change ≠ 2 := by rintro rfl; exact absurd h (by decide)
        rw [beq_eq_false_iff_ne.mpr h1, beq_eq_false_iff_ne.mpr h2, Bool.or_self, Bool.and_false]
    refine exec_reported (r := .tariffCap cls change cap) hready rfl ?_
    simp only [SupervisorRequest.judge, judgeTariffCap, hd, hcond]
    rfl
  · have hcond : (isFlag which && classOk cls && zoneOk entryZone) = false := by
      obtain h | h := h
      · rw [isFlag_eq_false h, Bool.false_and, Bool.false_and]
      · rw [Bool.and_assoc, classZone_false h, Bool.and_false]
    refine exec_reported (r := .readTariffRow which cls entryZone) hready rfl ?_
    simp only [SupervisorRequest.judge, judgeReadTariffRow, hcond]
    rfl

end Sys2Proof.Machine
end

section
/-! PROOFS. The state after reset, the queue, supplies and RESET_N. -/

namespace Sys2Proof.Machine

/-- Settles O1. -/
theorem stepRunsTheFrontCommand : Obligations.StepRunsTheFrontCommand := by
  unfold Obligations.StepRunsTheFrontCommand
  intro s c rest h
  simp only [step, h]

/-! The state after reset. -/

theorem State.session_reset (p : Port) : State.reset.session p = Session.reset := by cases p <;> rfl

theorem State.link_reset (p : Port) : State.reset.link p = Link.reset := by cases p <;> rfl

theorem State.bank_reset (b : BankId) : State.reset.ret.bank b = Bank.cold := by
  cases b <;> rfl

/-- The entry of a bank that was never written is NO ROUTE. -/
theorem Bank.entry_cold {cls entryZone exitZone : Nat} (hc : cls < 8) (he : entryZone < 16)
    (hx : exitZone < 16) : Bank.cold.entry cls entryZone exitZone = 9999 := by
  have hrow : cls * 16 + entryZone < Config.rows := by
    have : Config.rows = 128 := rfl
    omega
  have hr : Bank.cold.row (rowOf cls entryZone) = List.replicate 16 Config.noRoute := by
    rw [Bank.row, Bank.cold, List.getD_eq_getElem _ _ (by rwa [List.length_replicate]), List.getElem_replicate]
  rw [Bank.entry, hr, List.getD_eq_getElem _ _ (by rwa [List.length_replicate]), List.getElem_replicate]
  rfl

theorem Bank.cap_cold (cls : Nat) : Bank.cold.cap cls = none := by
  rw [Bank.cap, show Bank.cold.caps = List.replicate 8 none from rfl, List.getD_eq_getElem?_getD,
    List.getElem?_replicate]
  split <;> rfl

/-- Settles O2: reset is written out field by field. -/
theorem resetHoldsTheColdValues : Obligations.ResetHoldsTheColdValues := by
  unfold Obligations.ResetHoldsTheColdValues
  refine ⟨⟨rfl, rfl, rfl, rfl, rfl⟩, ⟨?_, fun i => ?_, rfl, ?_, fun b => ?_, ?_, rfl, rfl⟩,
    fun b => ?_, ⟨rfl, rfl, rfl, rfl, fun p => ?_, rfl, rfl, rfl, rfl⟩, fun p => ?_,
    ⟨rfl, rfl, rfl, rfl, rfl, rfl, rfl, rfl, ?_⟩⟩
  · exact (congrArg List.length Retained.emptied_cold.accounts).trans List.length_replicate
  · simp [State.account?, State.reset, Retained.cold]
  · exact (congrArg List.length Retained.emptied_cold.chains).trans List.length_replicate
  · simp [State.chain, State.reset, Retained.cold]
  · exact Retained.emptied_cold.free
  · rw [State.bank_reset]
    exact ⟨rfl, fun cls e x hc he hx => Bank.entry_cold hc he hx, Bank.cap_cold⟩
  · cases p <;> exact ⟨rfl, rfl, rfl⟩
  · rw [State.session_reset, State.link_reset]
    refine ⟨rfl, rfl, rfl, rfl, rfl, rfl, rfl, rfl, rfl, rfl, ?_, ?_⟩
    · rw [State.rateInUse_hunt (by rw [State.link_reset]; rfl), State.portRate_free rfl rfl]
      cases p <;> rfl
    · cases p <;> rfl
  · simp [State.attn, Retained.attnCause, State.reset, State.running, State.powered, Retained.cold]

/-- A condition that the cold values meet is kept by the state after reset. -/
theorem State.keeps_reset {P : Retained → Prop} (h : P Retained.cold) : State.reset.Keeps P := by
  have hh : ∀ x, State.reset.main.holder ≠ some x := fun _ hx => by cases hx
  exact ⟨⟨fun _ => rfl, fun x hx => absurd hx (hh x), fun _ _ _ _ => rfl, fun _ _ _ => rfl⟩, fun _ =>
    ⟨fun _ => h, fun hc => (by cases hc), fun x hx => absurd hx (hh x), fun x hx => absurd hx (hh x)⟩⟩

/-- Main memory at its reset values has an empty hold pool. -/
theorem Main.poolOk_reset : Main.reset.PoolOk where
  size := Nat.zero_le _
  ids := List.nodup_nil
  fields _ hx := by cases hx
  perPort _ := Nat.zero_le _
  perSlot _ := Nat.zero_le _
  counter := by decide
  ended p := by cases p <;> exact ⟨Nat.zero_le _, List.nodup_nil⟩
  notActive p _ _ _ hx := by cases hx

theorem State.getD_reset (i : Nat) : State.reset.ret.accounts.getD i none = none := by
  simp [State.reset, Retained.cold]

/-- With no account, hold, pin or cursor there is nothing to disagree. -/
theorem State.agree_reset : Agree State.reset.ret Main.reset where
  funds i a h := by rw [State.getD_reset] at h; cases h
  holds _ h := by cases h
  pins p _ h := by cases p <;> (obtain ⟨_, h, _⟩ := h; cases h)
  onePin p _ _ h := by cases p <;> (obtain ⟨_, h, _⟩ := h; cases h)
  cursors p _ _ h := by cases p <;> (obtain h | ⟨_, h, _⟩ := h <;> cases h)
  closing i a h := by rw [State.getD_reset] at h; cases h

theorem State.agrees_reset : State.reset.Agrees where
  mark _ _ _ := rfl
  stopped h := by cases h
  drains _ h := by cases h
  checked h := by obtain h | h := h <;> cases h
  now _ _ := State.agree_reset
  next _ _ h := by cases h

/-- Settles O54. -/
theorem resetMeetsTheConditions : Obligations.ResetMeetsTheConditions := by
  unfold Obligations.ResetMeetsTheConditions
  exact ⟨State.keeps_reset Retained.emptied_cold.ledger, State.keeps_reset Retained.emptied_cold.directory,
    State.keeps_reset Retained.emptied_cold.records, State.keeps_reset keptByChanges_replyCaches.cold,
    ⟨Main.poolOk_reset, Main.poolOk_reset⟩, State.agrees_reset, .of_reset rfl⟩

/-! Supplies and RESET_N. -/

/-- Settles O49, supply by supply. -/
theorem suppliesAndResetStopAndStart : Obligations.SuppliesAndResetStopAndStart := by
  unfold Obligations.SuppliesAndResetStopAndStart
  intro s
  refine ⟨fun hd hb => ?_, fun hd hb => ?_, fun hd => ?_, fun h => ?_, fun hd hb => ?_, rfl,
    fun hd => ?_, fun hd hr => ?_, fun hd hr => ?_, fun hr => ?_, fun hr => ?_, fun hr => ?_,
    fun hr hd => ?_, fun hr hd => ?_⟩
  · show execPowerLoss s = _
    simp [execPowerLoss, hd, hb, State.stop]
  · refine ⟨{ Config.lostRetention s.freeCount with mark := false }, rfl, ?_⟩
    show execPowerLoss s = _
    simp [execPowerLoss, hd, hb, State.stop, State.loseRetention]
  · show execPowerLoss s = _
    simp [execPowerLoss, hd]
  · show execVbatLoss s = _
    obtain h | h := h <;> simp [execVbatLoss, h]
  · refine ⟨{ Config.lostRetention s.freeCount with mark := false }, rfl, ?_⟩
    show execVbatLoss s = _
    simp [execVbatLoss, hd, hb, State.loseRetention]
  · show execPowerReturn s = _
    simp [execPowerReturn, hd]
  · show execPowerReturn s = _
    simp [execPowerReturn, hd, hr]
  · show execPowerReturn s = _
    simp [execPowerReturn, hd, hr, State.beginCheck]
  · show execResetAssert s = _
    simp [execResetAssert, hr]
  · show execResetAssert s = _
    simp [execResetAssert, hr, State.stop]
  · show execResetRelease s = _
    simp [execResetRelease, hr]
  · show execResetRelease s = _
    simp [execResetRelease, hr, hd]
  · show execResetRelease s = _
    simp [execResetRelease, hr, hd, State.beginCheck]

/-! Read periods. -/

theorem padFF_eq (count : Nat) (bytes : List Byte) :
    padFF count bytes = (bytes ++ List.replicate count 0xFF).take count := by
  rw [padFF, List.take_append, List.take_replicate]
  congr 2
  omega

/-- What a read period puts on MISO. -/
theorem State.driveMiso_padFF (s : State) (count : Nat) (bytes : List Byte) :
    s.driveMiso (padFF count bytes) = s.setSup { s.main.sup with
      miso := 0xFF :: (bytes ++ List.replicate count 0xFF).take count } := by
  rw [padFF_eq]
  rfl

/-- The causes of the attention line, as R165 lists them. -/
theorem Retained.attnCause_iff (r : Retained) :
    r.attnCause = true ↔ r.accounts.any isDrained = true ∨ r.backupLost = true := by
  rw [Retained.attnCause, Retained.drainedCount_pos, Bool.or_eq_true]

/-- What the status byte of a read-status period is about: retention memory as the start-up check leaves it, or as
another event's change does once the mark is set. -/
def State.seenRet (s : State) : Retained :=
  match s.check, s.main.holder with
  | some .cold, _ => Retained.cold
  | some .settle, _ | some (.drains _), _ =>
    if s.ret.completion = true then applyRets s.ret.staged s.ret else s.ret
  | some _, _ => s.ret
  | none, some h => if h.phase = .write then s.ret else s.settledRet h
  | none, none => s.ret

/-- A link reads the same BACKUP LOST, whatever part of the check is left. -/
theorem State.readRet_backupLost (s : State) : s.readRet.backupLost = s.seenRet.backupLost := by
  cases hc : s.check with
  | some c =>
    rw [State.readRet_check hc, State.seenRet, hc]
    cases c <;> simp only [Retained.checked, Retained.settle, Retained.drainAll]
  | none =>
    rw [State.readRet_running hc, State.seenRet, hc]
    cases hh : s.main.holder with
    | none => rw [State.settleForRead_free hh]
    | some h =>
      by_cases hw : h.phase = .write
      · rw [State.settleForRead_write hh hw]; simp only [hw, if_true]
      · rw [State.settleForRead_apply hh hw]
        by_cases hp : h.phase = .clear <;>
          simp [State.finishApply, State.settledRet, State.appliedRet, hh, hw, hp]

/-- Outside the check it reads the same accounts. -/
theorem State.readRet_accounts {s : State} (hc : s.check = none) :
    s.readRet.accounts = s.seenRet.accounts := by
  rw [State.readRet_running hc, State.seenRet, hc]
  cases hh : s.main.holder with
  | none => rw [State.settleForRead_free hh]
  | some h =>
    by_cases hw : h.phase = .write
    · rw [State.settleForRead_write hh hw]; simp only [hw, if_true]
    · rw [State.settleForRead_apply hh hw]
      by_cases hp : h.phase = .clear <;>
        simp [State.finishApply, State.settledRet, State.appliedRet, hh, hw, hp]

/-- The status byte of a read-status period (R193). -/
theorem State.statusBits_read {s : State} (hp : s.powered = true) :
    ({ s with ret := s.readRet } : State).statusBits =
      (if s.check = none ∧ (s.seenRet.accounts.any isDrained = true ∨ s.seenRet.backupLost = true)
        then 1 else 0) + (if s.seenRet.backupLost = true then 2 else 0) := by
  have hattn : ({ s with ret := s.readRet } : State).attn = true ↔
      s.check = none ∧ (s.seenRet.accounts.any isDrained = true ∨ s.seenRet.backupLost = true) := by
    have hrun : ({ s with ret := s.readRet } : State).running = true ↔ s.check = none := by
      rw [State.running, Bool.and_eq_true, Option.isNone_iff_eq_none]
      exact and_iff_right hp
    rw [State.attn, Bool.and_eq_true, hrun, Retained.attnCause_iff, s.readRet_backupLost]
    exact and_congr_right fun hc => by rw [State.readRet_accounts hc]
  rw [State.statusBits, s.readRet_backupLost, if_congr hattn rfl rfl]

/-- Settles O48, period by period. -/
theorem readPeriodsChangeNothing : Obligations.ReadPeriodsChangeNothing := by
  unfold Obligations.ReadPeriodsChangeNothing
  intro s count hp
  have hread : ∀ bytes : List Byte, bytes.length = count →
      s.selectPeriod (0x02 :: bytes) = s.driveMiso (padFF count s.main.sup.answerBytes) :=
    fun bytes hb => by rw [State.selectPeriod_answer hp, hb]
  have hans : exec (.readAnswer count) s = .next (s.driveMiso (padFF count s.main.sup.answerBytes)) :=
    congrArg _ (hread _ List.length_replicate)
  refine ⟨fun h => ?_, fun h => ?_, fun a h ha => ?_, fun bytes hb => ⟨?_, ?_, fun d hd => ?_⟩, rfl, ?_⟩
  · rw [hans, State.driveMiso_padFF, SupLink.answerBytes, h]
  · rw [hans, State.driveMiso_padFF, SupLink.answerBytes, h]
  · rw [hans, State.driveMiso_padFF, SupLink.answerBytes, h, ha]
  · rw [hans, hread bytes hb]
  · show execReadLinkStatus count s = _
    rw [execReadLinkStatus, State.selectPeriod_status hp, State.selectPeriod_status hp, hb,
      List.length_replicate]
  · have hne : ∀ k : Nat, 1 ≤ k → k ≤ 3 → d ≠ BitVec.ofNat 8 k := by
      rintro k h1 h3 rfl
      rw [BitVec.toNat_ofNat] at hd
      omega
    rw [State.selectPeriod_other hp (hne 1 (by decide) (by decide)) (hne 2 (by decide) (by decide))
      (hne 3 (by decide) (by decide)), hb]
    simp [State.driveMiso, List.take_replicate]
  · dsimp only
    show execReadLinkStatus count s = _
    rw [execReadLinkStatus, State.selectPeriod_status hp, State.driveMiso_padFF, List.length_replicate,
      State.statusBits_read hp]
    rfl

end Sys2Proof.Machine
end

section
/-! PROOFS. The bytes of request frames: numbers in bytes, the fields of a body, and reading a request back. -/

namespace Sys2Proof

/-! Numbers in bytes. -/

@[simp] theorem length_toBytes (k v : Nat) : (toBytes k v).length = k := by
  induction k generalizing v with
  | zero => rfl
  | succ k ih => rw [toBytes, List.length_append, ih, List.length_singleton]

theorem fromBytes_concat (l : List Byte) (b : Byte) : fromBytes (l ++ [b]) = fromBytes l * 256 + b.toNat := by
  rw [fromBytes, List.foldl_append]
  rfl

/-- The bytes written for a number are read back as the number, as far as they hold it. -/
theorem fromBytes_toBytes (k v : Nat) : fromBytes (toBytes k v) = v % 256 ^ k := by
  induction k generalizing v with
  | zero => rw [pow_zero, Nat.mod_one]; rfl
  | succ k ih =>
    have h : v % (256 * 256 ^ k) = v % 256 + 256 * (v / 256 % 256 ^ k) := Nat.mod_mul
    rw [toBytes, fromBytes_concat, ih, BitVec.toNat_ofNat, pow_succ' 256 k, h]
    omega

theorem fromBytes_lt (l : List Byte) : fromBytes l < 256 ^ l.length := by
  induction l using List.reverseRecOn with
  | nil => exact Nat.one_pos
  | append_singleton l b ih =>
    have hb := b.isLt
    rw [fromBytes_concat, List.length_append, List.length_singleton, pow_succ]
    omega

/-- Bytes are what is written for the number they carry. -/
theorem toBytes_fromBytes {k : Nat} {l : List Byte} (h : l.length = k) : toBytes k (fromBytes l) = l := by
  subst h
  induction l using List.reverseRecOn with
  | nil => rfl
  | append_singleton l b ih =>
    have hb := b.isLt
    rw [List.length_append, List.length_singleton, toBytes, fromBytes_concat,
      show (fromBytes l * 256 + b.toNat) / 256 = fromBytes l by omega, ih]
    congr 2
    apply BitVec.eq_of_toNat_eq
    rw [BitVec.toNat_ofNat]
    omega

/-! Reading the fields of a body that was written. -/

/-- A field at the front of a body is the value written there. -/
theorem field_toBytes {w n : Nat} (hw : w = 8 * n) (x : BitVec w) (l : List Byte) :
    field w (toBytes n x.toNat ++ l) 0 n = x := by
  have hx : x.toNat % 256 ^ n = x.toNat := by
    have h256 : 2 ^ w = 256 ^ n := by rw [hw, pow_mul]; rfl
    exact Nat.mod_eq_of_lt (h256 ▸ x.isLt)
  rw [field, List.drop_zero, List.take_append_of_le_length (length_toBytes n _).ge,
    List.take_of_length_le (length_toBytes n _).le, fromBytes_toBytes, hx, BitVec.ofNat_toNat,
    BitVec.setWidth_eq]

theorem field_toBytes_nil {w n : Nat} (hw : w = 8 * n) (x : BitVec w) :
    field w (toBytes n x.toNat) 0 n = x := by
  have := field_toBytes hw x []
  rwa [List.append_nil] at this

theorem field_cons {w : Nat} (b : Byte) (l : List Byte) {off : Nat} (n : Nat) (h : 1 ≤ off) :
    field w (b :: l) off n = field w l (off - 1) n := by
  obtain ⟨k, rfl⟩ := Nat.exists_eq_add_of_le' h
  rfl

theorem field_append {w k : Nat} (v : Nat) (l : List Byte) {off : Nat} (n : Nat) (h : k ≤ off) :
    field w (toBytes k v ++ l) off n = field w l (off - k) n := by
  have hk : (toBytes k v).length ≤ off := (length_toBytes k v).le.trans h
  rw [field, field, List.drop_append, List.drop_of_length_le hk, List.nil_append, length_toBytes]

theorem fieldByte_zero (b : Byte) (l : List Byte) : fieldByte (b :: l) 0 = b := rfl

theorem fieldByte_cons (b : Byte) (l : List Byte) {off : Nat} (h : 1 ≤ off) :
    fieldByte (b :: l) off = fieldByte l (off - 1) := by
  obtain ⟨k, rfl⟩ := Nat.exists_eq_add_of_le' h
  rfl

theorem fieldByte_append {k : Nat} (v : Nat) (l : List Byte) {off : Nat} (h : k ≤ off) :
    fieldByte (toBytes k v ++ l) off = fieldByte l (off - k) := by
  rw [fieldByte, List.getD_append_right _ _ _ _ ((length_toBytes k v).le.trans h), length_toBytes]
  rfl

/-! The fares of a TARIFF ROW. -/

/-- The bytes of a list of fares. -/
def fareBytes (fares : List (BitVec 16)) : List Byte := fares.flatMap fun v => toBytes 2 v.toNat

theorem length_fareBytes (fares : List (BitVec 16)) : (fareBytes fares).length = 2 * fares.length := by
  rw [fareBytes, List.length_flatMap]
  simp only [length_toBytes, List.map_const', List.sum_replicate, smul_eq_mul]
  omega

theorem fares_fareBytes (fares : List (BitVec 16)) :
    (List.range fares.length).map (fun i => field 16 (fareBytes fares) (2 * i) 2) = fares := by
  induction fares with
  | nil => rfl
  | cons v fares ih =>
    have hnext : ∀ i, field 16 (fareBytes (v :: fares)) (2 * (i + 1)) 2 =
        field 16 (fareBytes fares) (2 * i) 2 := fun i => by
      rw [fareBytes, List.flatMap_cons, field_append _ _ _ (by omega)]
      rfl
    rw [List.length_cons, List.range_succ_eq_map, List.map_cons, List.map_map]
    exact congrArg₂ List.cons (field_toBytes (n := 2) rfl v _)
      ((List.map_congr_left fun i _ => hnext i).trans ih)

theorem faresOf_written {cls entryZone : Byte} {fares : List (BitVec 16)} (h : fares.length = 16) :
    faresOf (cls :: entryZone :: fareBytes fares) = fares := by
  have := fares_fareBytes fares
  rw [h] at this
  refine Eq.trans (List.map_congr_left fun i _ => ?_) this
  rw [field_cons _ _ _ (by omega), field_cons _ _ _ (by omega)]
  congr 1
  omega

/-! Requests read back. -/

/-- Reading a station request's code and body gives the request. -/
theorem StationRequest.parse_written {r : StationRequest} (h : r.wf = true) :
    StationRequest.parse r.code r.body = r := by
  cases r with
  | bad code body =>
    simp only [StationRequest.wf, Bool.and_eq_true, beq_iff_eq] at h
    exact h.2
  | _ =>
    simp [StationRequest.parse, StationRequest.code, StationRequest.body, field_toBytes,
      field_toBytes_nil, field_append, fieldByte_append, fieldByte_cons, fieldByte_zero]

/-- Reading a supervisor request's code and body gives the request. -/
theorem SupervisorRequest.parse_written {r : SupervisorRequest} (h : r.wf = true) :
    SupervisorRequest.parse r.code r.body = r := by
  cases r with
  | bad code body =>
    simp only [SupervisorRequest.wf, Bool.and_eq_true, beq_iff_eq] at h
    exact h.2
  | tariffRow cls entryZone fares =>
    simp only [SupervisorRequest.wf, beq_iff_eq] at h
    have hb : (SupervisorRequest.tariffRow cls entryZone fares).body =
      cls :: entryZone :: fareBytes fares := rfl
    rw [hb]
    simp [SupervisorRequest.parse, SupervisorRequest.code, length_fareBytes, h, faresOf_written,
      fieldByte_cons, fieldByte_zero]
  | _ =>
    simp [SupervisorRequest.parse, SupervisorRequest.code, SupervisorRequest.body, field_toBytes,
      field_toBytes_nil, field_append, field_cons, fieldByte_append, fieldByte_cons, fieldByte_zero,
      portChangeAt, PortChange.bytes]

/-! Writing the fields of a body that was read. -/

/-- Writing a field that was read gives its bytes. -/
theorem toBytes_field {w n : Nat} (hw : w = 8 * n) {body : List Byte} {off : Nat}
    (h : off + n ≤ body.length) : toBytes n (field w body off n).toNat = (body.drop off).take n := by
  have hlen : ((body.drop off).take n).length = n := by
    rw [List.length_take, List.length_drop]
    omega
  have hlt : fromBytes ((body.drop off).take n) < 2 ^ w := by
    have := fromBytes_lt ((body.drop off).take n)
    rwa [hlen, show (256 : Nat) = 2 ^ 8 from rfl, ← pow_mul, ← hw] at this
  rw [field, BitVec.toNat_ofNat, Nat.mod_eq_of_lt hlt, toBytes_fromBytes hlen]

/-- Bytes are the rest of a body from an offset on. -/
def RestAt (body : List Byte) (off : Nat) (rest : List Byte) : Prop := rest = body.drop off

theorem RestAt.ends {body : List Byte} {off : Nat} (h : body.length = off) : RestAt body off [] :=
  (List.drop_of_length_le h.le).symm

theorem RestAt.byte {body : List Byte} {off : Nat} (h : off < body.length) {rest : List Byte}
    (hr : RestAt body (off + 1) rest) : RestAt body off (fieldByte body off :: rest) := by
  rw [RestAt, List.drop_eq_getElem_cons h, hr, fieldByte, List.getD_eq_getElem _ _ h]

theorem RestAt.field {w n : Nat} (hw : w = 8 * n) {body : List Byte} {off : Nat}
    (h : off + n ≤ body.length) {rest : List Byte} (hr : RestAt body (off + n) rest) :
    RestAt body off (toBytes n (field w body off n).toNat ++ rest) := by
  rw [RestAt, toBytes_field hw h, hr, ← List.drop_drop, List.take_append_drop]

theorem RestAt.whole {body rest : List Byte} (h : RestAt body 0 rest) : rest = body := h

/-- A body's last field. -/
theorem RestAt.last {w n : Nat} (hw : w = 8 * n) {body : List Byte} {off : Nat}
    (h : body.length = off + n) : RestAt body off (toBytes n (Sys2Proof.field w body off n).toNat) := by
  have := RestAt.field hw h.ge (.ends h)
  rwa [List.append_nil] at this

/-- The fares read from a body. -/
theorem RestAt.fares {body : List Byte} {off n : Nat} (h : body.length = off + 2 * n) :
    RestAt body off (fareBytes ((List.range n).map fun i => Sys2Proof.field 16 body (off + 2 * i) 2)) := by
  induction n generalizing off with
  | zero => exact .ends h
  | succ n ih =>
    rw [List.range_succ_eq_map, List.map_cons, List.map_map, fareBytes, List.flatMap_cons]
    refine .field rfl (by omega) ?_
    have := ih (off := off + 2) (by omega)
    rw [show ((fun i => Sys2Proof.field 16 body (off + 2 * i) 2) ∘ Nat.succ) =
      fun i => Sys2Proof.field 16 body (off + 2 + 2 * i) 2 from funext fun i => by
        rw [Function.comp, Nat.mul_succ, Nat.add_assoc, Nat.add_comm 2]]
    exact this

/-- The station request read from a code and a body carries them. -/
theorem StationRequest.written_parse (code : Byte) (body : List Byte) :
    (StationRequest.parse code body).code = code ∧ (StationRequest.parse code body).body = body := by
  unfold StationRequest.parse
  split
  case h_11 => exact ⟨rfl, rfl⟩
  all_goals rename_i hc hl; refine ⟨BitVec.eq_of_toNat_eq hc.symm, ?_⟩
  case h_1 => exact (RestAt.last (n := 5) rfl hl).whole
  case h_2 | h_3 | h_4 | h_5 => exact (List.length_eq_zero_iff.mp hl).symm
  case h_6 =>
    exact (RestAt.byte (by omega) <| .byte (by omega) <| .byte (by omega) <| .ends hl).whole
  case h_7 =>
    rw [StationRequest.body, List.append_assoc]
    exact (RestAt.field (n := 3) rfl (by omega) <| .field (n := 2) rfl (by omega) <|
      .byte (by omega) <| .ends hl).whole
  case h_8 =>
    rw [StationRequest.body, List.append_assoc]
    exact (RestAt.field (n := 2) rfl (by omega) <| .field (n := 3) rfl (by omega) <|
      .byte (by omega) <| .ends hl).whole
  case h_9 => exact (RestAt.last (n := 2) rfl hl).whole
  case h_10 =>
    exact (RestAt.field (n := 3) rfl (by omega) <| .byte (by omega) <| .ends hl).whole

/-- The supervisor request read from a code and a body carries them. -/
theorem SupervisorRequest.written_parse (code : Byte) (body : List Byte) :
    (SupervisorRequest.parse code body).code = code ∧ (SupervisorRequest.parse code body).body = body := by
  unfold SupervisorRequest.parse
  split
  case h_24 => exact ⟨rfl, rfl⟩
  all_goals rename_i hc hl; refine ⟨BitVec.eq_of_toNat_eq hc.symm, ?_⟩
  case h_1 =>
    simp only [SupervisorRequest.body, List.append_assoc, List.cons_append, List.nil_append]
    exact (RestAt.field (n := 5) rfl (by omega) <| .byte (by omega) <| .byte (by omega) <|
      .field (n := 4) rfl (by omega) <| .field (n := 3) rfl (by omega) <| .byte (by omega) <|
      .field (n := 2) rfl (by omega) <| .byte (by omega) <| .field (n := 2) rfl (by omega) <|
      .last (n := 2) rfl hl).whole
  case h_2 | h_4 | h_5 | h_6 | h_7 => exact (RestAt.last (n := 5) rfl hl).whole
  case h_3 =>
    simp only [SupervisorRequest.body, List.append_assoc, List.cons_append, List.nil_append]
    exact (RestAt.field (n := 5) rfl (by omega) <| .byte (by omega) <| .byte (by omega) <|
      .byte (by omega) <| .field (n := 3) rfl (by omega) <| .byte (by omega) <|
      .field (n := 2) rfl (by omega) <| .byte (by omega) <| .field (n := 2) rfl (by omega) <|
      .last (n := 2) rfl hl).whole
  case h_8 | h_12 | h_14 | h_17 | h_19 | h_21 | h_22 | h_23 => exact (List.length_eq_zero_iff.mp hl).symm
  case h_9 => exact (RestAt.field (n := 2) rfl (by omega) <| .byte (by omega) <| .ends hl).whole
  case h_10 | h_11 =>
    exact (RestAt.field (n := 5) rfl (by omega) <| .last (n := 4) rfl hl).whole
  case h_13 => exact (RestAt.last (n := 2) rfl hl).whole
  case h_15 =>
    exact (RestAt.byte (by omega) <| .byte (by omega) <| .fares (n := 16) hl).whole
  case h_16 =>
    exact (RestAt.byte (by omega) <| .byte (by omega) <| .last (n := 3) rfl hl).whole
  case h_18 =>
    exact (RestAt.byte (by omega) <| .byte (by omega) <| .byte (by omega) <| .ends hl).whole
  case h_20 =>
    simp only [SupervisorRequest.body, PortChange.bytes, portChangeAt, List.append_assoc,
      List.cons_append, List.nil_append]
    exact (RestAt.byte (by omega) <| .field (n := 2) rfl (by omega) <| .byte (by omega) <|
      .byte (by omega) <| .byte (by omega) <| .byte (by omega) <| .byte (by omega) <|
      .byte (by omega) <| .byte (by omega) <| .byte (by omega) <| .byte (by omega) <|
      .byte (by omega) <| .byte (by omega) <| .byte (by omega) <| .byte (by omega) <|
      .byte (by omega) <| .byte (by omega) <| .byte (by omega) <| .byte (by omega) <|
      .byte (by omega) <| .ends hl).whole

/-- Settles O60, by reading what was written and writing what was read. -/
theorem framesCarryEveryField : Obligations.FramesCarryEveryField :=
  ⟨fun _ h => StationRequest.parse_written h, fun _ h => SupervisorRequest.parse_written h,
    fun code body => by
      obtain ⟨hc, hb⟩ := StationRequest.written_parse code body
      obtain ⟨hc', hb'⟩ := SupervisorRequest.written_parse code body
      exact ⟨hc, hb, hc', hb'⟩⟩

end Sys2Proof
end

section
/-! PROOFS. The links: broken frames, the characters of a frame, the pending slot, write periods. -/

namespace Sys2Proof.Machine

/-! States written back as they were. -/

theorem State.setLink_link (s : State) (p : Port) : s.setLink p (s.link p) = s := by
  simp only [State.setLink, State.link, Four.set_get]

/-- Settles O44. -/
theorem brokenFramesAreDiscarded : Obligations.BrokenFramesAreDiscarded := by
  unfold Obligations.BrokenFramesAreDiscarded
  intro s p hp
  refine ⟨fun h => ?_, fun h => ?_, ?_⟩
  · have hd : s.discardFrame p = s.setLink p (s.link p).hunt := by
      simp [State.discardFrame, hp, h]
    exact ⟨congrArg _ hd, congrArg _ hd⟩
  · have hd : s.discardFrame p = s := by
      simp [State.discardFrame, h]
    exact ⟨congrArg _ hd, congrArg _ hd⟩
  · show execReceiveLineReturnHigh p s = _
    simp [execReceiveLineReturnHigh, hp]

/-! The characters of a frame. -/

theorem runAll_append {cs ds : List Instr} {s t : State} (h : runAll cs s = .next t) :
    runAll (cs ++ ds) s = runAll ds t := by
  induction cs generalizing s with
  | nil =>
    injection h with h
    rw [← h]
    rfl
  | cons c cs ih =>
    simp only [List.cons_append, runAll] at h ⊢
    cases hc : exec c s with
    | next u => rw [hc] at h; exact ih h
    | fault x => rw [hc] at h; cases h
    | refused x => rw [hc] at h; cases h

/-- A stopped part receives nothing. -/
theorem runAll_received_stopped {s : State} (h : s.powered = false) (p : Port) (cs : List Byte) :
    runAll (cs.map (.stationCharacterReceived p)) s = .next s := by
  have hone : ∀ b, exec (.stationCharacterReceived p b) s = .next s := fun b => by
    show execStationCharacterReceived p b s = _
    simp [execStationCharacterReceived, h]
  induction cs with
  | nil => rfl
  | cons b cs ih => simp only [List.map_cons, runAll, hone b, ih]

/-- A link with nothing received whose line is high. -/
structure Link.Idle (l : Link) : Prop where
  rx : l.rx = .hunt
  buffer : l.buffer = []
  rate : l.rxRate = none
  line : l.lineLow = false

theorem Link.Idle.hunt {l : Link} (h : l.Idle) : l.hunt = l := by
  obtain ⟨hr, hb, hx, -⟩ := h
  rw [Link.hunt, ← hr, ← hb, ← hx]

/-- A station link in the middle of a frame. -/
def State.inFrame (s : State) (p : Port) (rx : RxState) (buffer : List Byte) : State :=
  s.setLink p { s.link p with rx := rx, buffer := buffer, rxRate := some (s.portRate p) }

section Characters

variable {s : State} {p : Port}

/-- A character meets the receiver's state as it stands when the line is already known high. -/
theorem exec_received (hp : s.powered = true) (hl : (s.link p).lineLow = false) (b : Byte) :
    exec (.stationCharacterReceived p b) s = .next (s.receive p b) := by
  show execStationCharacterReceived p b s = _
  rw [execStationCharacterReceived, if_pos hp, ← hl, State.setLink_link]

theorem exec_received_inFrame (hp : s.powered = true) (hl : (s.link p).Idle) (rx : RxState)
    (buffer : List Byte) (b : Byte) :
    exec (.stationCharacterReceived p b) (s.inFrame p rx buffer) =
      .next ((s.inFrame p rx buffer).receive p b) :=
  exec_received (s := s.inFrame p rx buffer) hp (by simp [State.inFrame, hl.line]) b

@[simp] theorem State.inFrame_rx (rx : RxState) (buffer : List Byte) :
    ((s.inFrame p rx buffer).link p).rx = rx := by simp [State.inFrame]

@[simp] theorem State.inFrame_buffer (rx : RxState) (buffer : List Byte) :
    ((s.inFrame p rx buffer).link p).buffer = buffer := by simp [State.inFrame]

/-- The next character of a frame that goes on. -/
theorem State.inFrame_next (rx rx' : RxState) (buffer buffer' : List Byte) :
    (s.inFrame p rx buffer).setLink p
        { (s.inFrame p rx buffer).link p with rx := rx', buffer := buffer' } =
      s.inFrame p rx' buffer' := by
  simp [State.inFrame]

/-- The frame is gone. -/
theorem State.inFrame_hunt (hl : (s.link p).Idle) (rx : RxState) (buffer : List Byte) :
    (s.inFrame p rx buffer).setLink p ((s.inFrame p rx buffer).link p).hunt = s := by
  have : ((s.inFrame p rx buffer).link p).hunt = (s.link p).hunt := by simp [State.inFrame, Link.hunt]
  rw [this, hl.hunt, State.inFrame, State.setLink_setLink, State.setLink_link]

/-- The start byte. -/
theorem State.receive_start (hl : (s.link p).Idle) : s.receive p 0xA5 = s.inFrame p .length [0xA5] := by
  simp [State.receive, hl.rx, State.inFrame]

/-- A LENGTH in range. -/
theorem State.receive_length {b : Byte} (h : 2 ≤ b.toNat ∧ b.toNat ≤ 64) (buffer : List Byte) :
    (s.inFrame p .length buffer).receive p b = s.inFrame p .body (buffer ++ [b]) := by
  simp only [State.receive, State.inFrame_rx, State.inFrame_buffer, if_pos h]
  exact State.inFrame_next ..

/-- A LENGTH out of range. -/
theorem State.receive_badLength (hl : (s.link p).Idle) {b : Byte} (h : ¬ (2 ≤ b.toNat ∧ b.toNat ≤ 64))
    (buffer : List Byte) : (s.inFrame p .length buffer).receive p b = s := by
  simp only [State.receive, State.inFrame_rx, if_neg h]
  exact State.inFrame_hunt hl ..

/-- The bytes from LENGTH to the end of the body, one after another. -/
theorem runAll_body (hp : s.powered = true) (hl : (s.link p).Idle) {length : Byte} (bytes head : List Byte)
    (hb : bytes ≠ []) (hn : head.length + 2 + bytes.length = length.toNat + 2) :
    runAll (bytes.map (.stationCharacterReceived p)) (s.inFrame p .body (0xA5 :: length :: head)) =
      .next (s.inFrame p .check (0xA5 :: length :: (head ++ bytes))) := by
  induction bytes generalizing head with
  | nil => exact absurd rfl hb
  | cons b bytes ih =>
    rw [List.length_cons] at hn
    have hsplit : 0xA5 :: length :: (head ++ b :: bytes) = 0xA5 :: length :: (head ++ [b] ++ bytes) := by
      rw [List.append_assoc, List.singleton_append]
    rw [List.map_cons, runAll, exec_received_inFrame hp hl, hsplit]
    dsimp only
    have hrecv : (s.inFrame p .body (0xA5 :: length :: head)).receive p b =
        s.inFrame p (if bytes = [] then .check else .body) (0xA5 :: length :: (head ++ [b])) := by
      have hget : (0xA5 :: length :: (head ++ [b])).getD 1 0 = length := rfl
      simp only [State.receive, State.inFrame_rx, State.inFrame_buffer, List.cons_append, hget,
        List.length_cons, List.length_append, List.length_nil]
      by_cases hnil : bytes = []
      · subst hnil
        rw [List.length_nil] at hn
        rw [if_neg (by omega), if_pos rfl]
        exact State.inFrame_next ..
      · have := List.length_pos_iff.mpr hnil
        rw [if_pos (by omega), if_neg hnil]
        exact State.inFrame_next ..
    rw [hrecv]
    by_cases hnil : bytes = []
    · subst hnil
      rw [if_pos rfl, List.append_nil]
      rfl
    · rw [if_neg hnil]
      refine ih _ hnil ?_
      rw [List.length_append, List.length_singleton]
      omega

/-- The bytes of a frame from SEQUENCE on as the receiver's buffer holds them at its end. -/
def frameBuffer (seq code : Byte) (body check : List Byte) : List Byte :=
  0xA5 :: BitVec.ofNat 8 (body.length + 2) :: seq :: code :: (body ++ check)

theorem toNat_frameLength {body : List Byte} (h : body.length ≤ 62) :
    (BitVec.ofNat 8 (body.length + 2)).toNat = body.length + 2 := by
  rw [BitVec.toNat_ofNat]
  omega

/-- A frame is good when its check bytes are those of R185. -/
theorem frameGood_iff {seq code : Byte} {body check : List Byte} (h : body.length ≤ 62) :
    frameGood (frameBuffer seq code body check) = true ↔
      check = crcBytes (BitVec.ofNat 8 (body.length + 2) :: seq :: code :: body) := by
  have hget : (frameBuffer seq code body check).getD 1 0 = BitVec.ofNat 8 (body.length + 2) := rfl
  rw [frameGood, hget, toNat_frameLength h, beq_iff_eq]
  simp [frameBuffer]

/-- What a frame carries. -/
theorem frameOf_frameBuffer {seq code : Byte} {body : List Byte} (check : List Byte)
    (h : body.length ≤ 62) :
    frameOf (frameBuffer seq code body check) = ⟨seq, StationRequest.parse code body⟩ := by
  have hget : (frameBuffer seq code body check).getD 1 0 = BitVec.ofNat 8 (body.length + 2) := rfl
  rw [frameOf, hget, toNat_frameLength h]
  simp [frameBuffer]

/-- The two check bytes. -/
theorem runAll_check (hp : s.powered = true) (hl : (s.link p).Idle) {seq code : Byte} {body : List Byte}
    (c d : Byte) (h : body.length ≤ 62) :
    runAll ([c, d].map (.stationCharacterReceived p)) (s.inFrame p .check (frameBuffer seq code body [])) =
      .next (if frameGood (frameBuffer seq code body [c, d]) then
        s.deliver p (frameOf (frameBuffer seq code body [c, d])) else s) := by
  have hc : frameBuffer seq code body [] ++ [c] = frameBuffer seq code body [c] := by simp [frameBuffer]
  have hd : frameBuffer seq code body [c] ++ [d] = frameBuffer seq code body [c, d] := by simp [frameBuffer]
  have hget : ∀ check, ((frameBuffer seq code body check).getD 1 0).toNat = body.length + 2 :=
    fun _ => toNat_frameLength h
  have hlen : ∀ check, (frameBuffer seq code body check).length = body.length + 4 + check.length :=
    fun check => by simp [frameBuffer]; omega
  have hone : (s.inFrame p .check (frameBuffer seq code body [])).receive p c =
      s.inFrame p .check (frameBuffer seq code body [c]) := by
    simp only [State.receive, State.checkByte, State.inFrame_rx, State.inFrame_buffer, hc, hget, hlen]
    rw [if_pos (by simp)]
    exact State.inFrame_next (s := s) (p := p) .check .check _ _
  have htwo : (s.inFrame p .check (frameBuffer seq code body [c])).receive p d =
      if frameGood (frameBuffer seq code body [c, d]) then
        s.deliver p (frameOf (frameBuffer seq code body [c, d])) else s := by
    simp only [State.receive, State.checkByte, State.inFrame_rx, State.inFrame_buffer, hd, hget, hlen]
    rw [if_neg (by simp), State.inFrame_hunt hl]
  rw [List.map_cons, runAll, exec_received_inFrame hp hl]
  dsimp only
  rw [hone, List.map_cons, runAll, exec_received_inFrame hp hl]
  dsimp only
  rw [htwo]
  rfl

/-- The characters of a whole frame, received from HUNT. -/
theorem runAll_frame (hp : s.powered = true) (hl : (s.link p).Idle) (seq code : Byte) {body check : List Byte}
    (h : body.length ≤ 62) (hc : check.length = 2) :
    runAll ((frameBuffer seq code body check).map (.stationCharacterReceived p)) s =
      .next (if check = crcBytes (BitVec.ofNat 8 (body.length + 2) :: seq :: code :: body) then
        s.deliver p ⟨seq, StationRequest.parse code body⟩ else s) := by
  obtain ⟨c, d, rfl⟩ := List.length_eq_two.mp hc
  have hlen : 2 ≤ (BitVec.ofNat 8 (body.length + 2)).toNat ∧
      (BitVec.ofNat 8 (body.length + 2)).toNat ≤ 64 := by
    rw [toNat_frameLength h]
    omega
  have hbody := runAll_body (s := s) (p := p) (length := BitVec.ofNat 8 (body.length + 2)) hp hl
    (seq :: code :: body) [] (List.cons_ne_nil _ _) (by
      rw [toNat_frameLength h]; simp only [List.length_nil, List.length_cons]; omega)
  have hbuf : frameBuffer seq code body [c, d] =
    0xA5 :: BitVec.ofNat 8 (body.length + 2) :: ((seq :: code :: body) ++ [c, d]) := rfl
  have hmid : frameBuffer seq code body [] =
      0xA5 :: BitVec.ofNat 8 (body.length + 2) :: ([] ++ seq :: code :: body) := by
    simp [frameBuffer]
  rw [hbuf, List.map_cons, List.map_cons, List.map_append, runAll,
    exec_received hp hl.line, State.receive_start hl]
  dsimp only
  rw [runAll, exec_received_inFrame hp hl, State.receive_length hlen]
  dsimp only
  rw [List.singleton_append, runAll_append hbody, ← hmid, runAll_check hp hl c d h, frameOf_frameBuffer _ h,
    if_congr (frameGood_iff h) rfl rfl]

end Characters

/-- A frame's body is never too long. -/
theorem StationRequest.body_length {r : StationRequest} (h : r.wf = true) : r.body.length ≤ 62 := by
  cases r with
  | bad code body =>
    simp only [StationRequest.wf, Bool.and_eq_true, decide_eq_true_eq] at h
    exact h.1
  | _ => simp [StationRequest.body]

theorem length_crcBytes (l : List Byte) : (crcBytes l).length = 2 := length_toBytes 2 _

/-- Settles O45, character by character. -/
theorem charactersOfAFrameMakeTheRequest : Obligations.CharactersOfAFrameMakeTheRequest := by
  unfold Obligations.CharactersOfAFrameMakeTheRequest
  intro s p hrx hbuf hrate hline
  have hl : (s.link p).Idle := ⟨hrx, hbuf, hrate, hline⟩
  cases hp : s.powered with
  | false =>
    have hstop := fun cs => runAll_received_stopped hp p cs
    refine ⟨fun f hf => ?_, fun seq code body check _ _ _ => hstop _, fun b _ => ?_,
      fun length _ => hstop [0xA5, length]⟩
    · rw [hstop, exec_command hf, State.arrive, hp]
      rfl
    · show execStationCharacterReceived p b s = _
      simp [execStationCharacterReceived, hp]
  | true =>
    refine ⟨fun f hf => ?_, fun seq code body check hb hc hne => ?_, fun b hb => ?_, fun length hlen => ?_⟩
    · have hbytes : f.bytes = frameBuffer f.seq f.req.code f.req.body
        (crcBytes (BitVec.ofNat 8 (f.req.body.length + 2) :: f.seq :: f.req.code :: f.req.body)) := rfl
      rw [hbytes, runAll_frame hp hl _ _ (StationRequest.body_length hf) (length_crcBytes _), if_pos rfl,
        StationRequest.parse_written hf, exec_command hf, State.arrive, if_pos hp]
    · exact (runAll_frame hp hl seq code hb hc).trans (by rw [if_neg hne])
    · rw [exec_received hp hline]
      simp only [State.receive, hrx, if_neg hb]
    · rw [runAll, exec_received hp hline, State.receive_start hl]
      dsimp only
      rw [runAll, exec_received_inFrame hp hl, State.receive_badLength hl (by omega)]
      rfl

/-! The pending slot and the transmit line. -/

/-- The levels of one character among those of several. -/
theorem flatMap_charLevels {l : List Byte} {i : Nat} {b : Byte} (h : l[i]? = some b) :
    ((l.flatMap charLevels).drop (10 * i)).take 10 = charLevels b := by
  induction l generalizing i with
  | nil => cases h
  | cons x l ih =>
    cases i with
    | zero =>
      injection h with h
      rw [List.flatMap_cons, h, Nat.mul_zero, List.drop_zero]
      rfl
    | succ i =>
      rw [List.flatMap_cons, show 10 * (i + 1) = (charLevels x).length + 10 * i from Nat.add_comm _ _,
        List.drop_length_add_append]
      exact ih h

theorem length_flatMap_charLevels (l : List Byte) : (l.flatMap charLevels).length = 10 * l.length := by
  induction l with
  | nil => rfl
  | cons x l ih =>
    rw [List.flatMap_cons, List.length_append, ih, show (charLevels x).length = 10 from rfl,
      List.length_cons]
    omega

/-- Settles O46, by what becomes of a frame that is delivered and of one that waits. -/
theorem outstandingHoldsTheNextFrame : Obligations.OutstandingHoldsTheNextFrame := by
  unfold Obligations.OutstandingHoldsTheNextFrame
  refine ⟨fun l => ⟨fun h => by rw [Link.txd, h], fun x hx => ?_⟩, fun s p hp =>
    ⟨fun f hf hbusy => ?_, fun hc hw => ⟨fun ht => ?_, fun ht => ?_⟩⟩⟩
  · have htxd : l.txd = x.frame.bytes.flatMap charLevels := by rw [Link.txd, hx]
    rw [htxd]
    exact ⟨length_flatMap_charLevels _, fun i b hb => flatMap_charLevels hb⟩
  · have hwait : ¬ (s.running && !(s.link p).outstanding) = true := by
      obtain h | h := hbusy
      · simp [h]
      · simp [State.running, h]
    rw [exec_command hf, State.arrive, if_pos hp, State.deliver, if_neg hwait]
    exact ⟨fun h => by rw [h]; rfl, fun h => by rw [if_neg (by rwa [Option.isNone_iff_eq_none])]⟩
  · show execAnswerTransmissionEnd p s = _
    simp [execAnswerTransmissionEnd, ht]
  · have hexec : exec (.answerTransmissionEnd p) s =
        .next ((s.setLink p { s.link p with tx := none, outstanding := false }).handOn p).giveArea := by
      show execAnswerTransmissionEnd p s = _
      simp [execAnswerTransmissionEnd, hp, ht, Option.isSome_iff_ne_none]
    have hrun : s.running = true := by simp [State.running, hp, hc]
    rw [hexec]
    refine ⟨fun hs => ?_, fun f hf hs => ?_⟩
    · rw [State.handOn, State.link_setLink]
      simp only [hs]
      rw [State.giveArea_nothing (s := State.setLink ..) hw]
    · rw [exec_command hf, State.arrive, State.deliver, State.handOn, State.link_setLink]
      simp only [hs, State.running_setLink, State.powered_setLink, hrun, hp, State.link_setLink,
        State.setLink_setLink, Bool.not_false, Bool.and_self, if_true]

/-! Write periods. -/

/-- A supervisor frame's body is never too long. -/
theorem SupervisorRequest.body_length {r : SupervisorRequest} (h : r.wf = true) : r.body.length ≤ 60 := by
  cases r with
  | bad code body =>
    simp only [SupervisorRequest.wf, Bool.and_eq_true, decide_eq_true_eq] at h
    exact h.1
  | tariffRow cls entryZone fares =>
    simp only [SupervisorRequest.wf, beq_iff_eq] at h
    have hb : (SupervisorRequest.tariffRow cls entryZone fares).body =
      cls :: entryZone :: fareBytes fares := rfl
    rw [hb, List.length_cons, List.length_cons, length_fareBytes, h]
    decide
  | _ => simp [SupervisorRequest.body, PortChange.bytes]

/-- How a write period with at least one byte is judged. -/
theorem State.judgeWrite_cons (s : State) (length : Byte) (rest : List Byte) :
    s.judgeWrite (length :: rest) =
      if length.toNat = 0 ∨ 61 < length.toNat then s.placeBadFrame
      else if rest.length + 1 < length.toNat + 3 then
        s.setSup { s.main.sup with
          state := .idle, requestBuffer := [], request := none, answer := none }
      else if length.toNat + 3 < rest.length + 1 then s.placeBadFrame
      else if supervisorFrameGood (length :: rest) then
        s.acceptSupervisor (SupervisorRequest.parse (rest.getD 0 0)
          ((rest.drop 1).take (length.toNat - 1))) (length :: rest)
      else s.placeBadFrame := rfl

/-- A write period that carries a request's frame, judged at its end. -/
theorem State.judgeWrite_request {r : SupervisorRequest} (h : r.wf = true) (s : State) :
    s.judgeWrite r.bytes = s.acceptSupervisor r r.bytes := by
  have hle := SupervisorRequest.body_length h
  have hn : (BitVec.ofNat 8 (r.body.length + 1)).toNat = r.body.length + 1 := by
    rw [BitVec.toNat_ofNat]
    omega
  have hb : r.bytes = BitVec.ofNat 8 (r.body.length + 1) :: r.code :: (r.body ++
    crcBytes (BitVec.ofNat 8 (r.body.length + 1) :: r.code :: r.body)) := rfl
  have hgood : supervisorFrameGood r.bytes = true := by
    rw [supervisorFrameGood, hb, List.getD_cons_zero, hn, beq_iff_eq]
    simp
  rw [hb, State.judgeWrite_cons, ← hb, hn, if_neg (by omega), List.length_cons, List.length_append,
    length_crcBytes, if_neg (by omega), if_neg (by omega), if_pos hgood, List.getD_cons_zero,
    List.drop_succ_cons, List.drop_zero, Nat.add_sub_cancel, List.take_left',
    SupervisorRequest.parse_written h]
  rfl

/-- Settles O47, by the case a period's bytes fall in. -/
theorem writePeriodsAreJudged : Obligations.WritePeriodsAreJudged := by
  unfold Obligations.WritePeriodsAreJudged
  refine ⟨fun s r hr => ?_, fun s hp => ⟨fun _ => rfl, fun bytes hs => ?_, fun hs =>
    ⟨?_, fun length rest => ?_⟩⟩⟩
  · show Host.Outcome.next (s.selectPeriod (0x01 :: r.bytes)) = _
    rw [exec_supervisorCommand hr, State.submit]
    cases hp : s.powered with
    | false => rw [State.selectPeriod_stopped hp]; rfl
    | true =>
      rw [State.selectPeriod_write hp, State.writePeriod, State.judgeWrite_request hr]
      rfl
  · show Host.Outcome.next (s.selectPeriod (0x01 :: bytes)) = _
    rw [State.selectPeriod_write hp, State.writePeriod, if_pos hs]
    rfl
  · show Host.Outcome.next (s.selectPeriod [0x01]) = _
    rw [State.selectPeriod_write hp, State.writePeriod, if_neg hs]
    rfl
  · have hexec : exec (.writeRequest (length :: rest)) s = .next
        ((s.driveMiso (List.replicate (rest.length + 1) 0xFF)).judgeWrite (length :: rest)) := by
      show Host.Outcome.next (s.selectPeriod (0x01 :: length :: rest)) = _
      rw [State.selectPeriod_write hp, State.writePeriod, if_neg hs, List.length_cons]
    have hbad : (s.driveMiso (List.replicate (rest.length + 1) 0xFF)).placeBadFrame = s.setSup
        { state := .answerReady, requestBuffer := [], request := none,
          answer := some ⟨0, ⟨.badFrame, []⟩⟩, miso := List.replicate (rest.length + 2) 0xFF } := rfl
    dsimp only
    rw [hexec, ← hbad, State.judgeWrite_cons]
    refine ⟨fun h => ?_, fun h1 h61 h => ?_, fun h1 h61 h => ?_, fun h1 h61 h hne => ?_⟩
    · rw [if_pos (by omega)]
    · rw [if_neg (by omega), if_pos (by omega)]
      rfl
    · rw [if_neg (by omega), if_neg (by omega), if_pos (by omega)]
    · have hg : ¬ supervisorFrameGood (length :: rest) = true := by
        rw [supervisorFrameGood, beq_iff_eq]
        exact hne
      rw [if_neg (by omega), if_neg (by omega), if_neg (by omega), if_neg hg]

end Sys2Proof.Machine
end

section
/-! PROOFS. The hold clock and the internal events: an advance, an expiry, the pin end of a session reset. -/

namespace Sys2Proof.Machine

/-! The clock and the rest of main memory. -/

/-- A change of main memory that the clock does not look at: it touches neither the clock nor what is due. -/
structure SparesClock (g : Main → Main) : Prop where
  clock : ∀ m, (g m).clock = m.clock
  owed : ∀ m, (g m).clockOwed = m.clockOwed
  due : ∀ m, (g m).dueNow = m.dueNow
  set : ∀ (m : Main) (c o : Nat),
    g { m with clock := c, clockOwed := o } = { g m with clock := c, clockOwed := o }

theorem SparesClock.catchUpN {g : Main → Main} (h : SparesClock g) (n : Nat) (m : Main) :
    catchUpN n (g m) = g (catchUpN n m) := by
  induction n generalizing m with
  | zero =>
    have hset := h.set m m.clock 0
    have hclock := h.clock m
    rw [Machine.catchUpN, Machine.catchUpN, hset, ← hclock]
  | succ n ih =>
    have hclock := h.clock m
    have howed := h.owed m
    rw [Machine.catchUpN, Machine.catchUpN, h.due]
    split
    · rw [h.set m m.clock (n + 1), ← hclock]
    · rw [← ih, h.set m ((m.clock + 1) % Config.clockModulus) m.clockOwed, hclock, ← howed]

theorem SparesClock.catchUp {g : Main → Main} (h : SparesClock g) (m : Main) :
    (g m).catchUp = g m.catchUp := by
  rw [Main.catchUp, h.owed]
  exact h.catchUpN _ _

/-- Main-memory effects and the advances they set free do not look at the holder of the area. -/
theorem applyMains_withHolder (ws : List MainWrite) (m : Main) (x : Option Holder) :
    applyMains ws { m with holder := x } = { applyMains ws m with holder := x } := by
  show (Main.effects { m with holder := x } ws).catchUp = _
  rw [Main.effects_withHolder]
  exact SparesClock.catchUp (g := fun m => { m with holder := x })
    ⟨fun _ => rfl, fun _ => rfl, fun _ => rfl, fun _ _ _ => rfl⟩ _

theorem applyMains_waiting (ws : List MainWrite) (m : Main) : (applyMains ws m).waiting = m.waiting := by
  obtain ⟨-, -, -, -, -, hw⟩ := catchUpN_frame (m.effects ws).clockOwed (m.effects ws)
  exact hw.trans (Main.effects_waiting ws m)

/-! The advance of the clock. -/

/-- HOLD CLOCK ADVANCE on a running part. -/
theorem exec_holdClockAdvance {s : State} (h : s.running = true) :
    exec .holdClockAdvance s = .next { s.finishApply with
      main := { s.finishApply.main with clockOwed := s.finishApply.main.clockOwed + 1 }.catchUp } := by
  show execHoldClockAdvance s = _
  rw [execHoldClockAdvance, if_pos h]

theorem Main.catchUp_due {m : Main} (h : m.Due m.clock) (n : Nat) :
    { m with clockOwed := n + 1 }.catchUp = { m with clockOwed := n + 1 } := by
  have hd : ({ m with clockOwed := n + 1 } : Main).dueNow = true :=
    (Main.dueNow_iff _).mpr h
  rw [Main.catchUp, catchUpN, if_pos hd]

theorem Main.catchUp_once {m : Main} (h : ¬ m.Due m.clock) :
    { m with clockOwed := 1 }.catchUp =
      { m with clock := (m.clock + 1) % Config.clockModulus, clockOwed := 0 } := by
  have hd : ¬ ({ m with clockOwed := 1 } : Main).dueNow = true := fun hd =>
    h ((Main.dueNow_iff _).mp hd)
  rw [Main.catchUp, catchUpN, if_neg hd]
  rfl

/-! An internal event with the area free. -/

section Internal

variable {s : State} {e : AreaEvent}

/-- An event with nothing to stage is done at once. -/
theorem State.raise_spared (ms : List MainWrite) : s.raise e ([], ms) = s.doMains ms := rfl

theorem State.doMains_ne {ms : List MainWrite} (h : ms ≠ []) :
    s.doMains ms = { s with main := applyMains ms s.main } := by
  rw [State.doMains, if_neg (by simpa using h)]

theorem State.wait_withWaiting (hw : s.main.waiting = []) : (s.wait e).withWaiting [] = s := by
  show { s with main := { s.main with waiting := [] } } = _
  rw [← hw]

/-- An event with something to stage is given the free area at once. -/
theorem State.raise_staged (hr : s.running = true) (hh : s.main.holder = none)
    (hw : s.main.waiting = []) {ws : List RetWrite} {ms : List MainWrite} (hws : ws ≠ [])
    (htake : s.takeWaiting e = s.stageOrDo e (ws, ms)) :
    s.raise e (ws, ms) = s.holdArea e ws ms none := by
  have hne : ¬ ws.isEmpty = true := by simpa using hws
  have hwait : (s.wait e).main.waiting = [e] := by simp [State.wait, hw]
  rw [State.raise, if_neg hne, if_neg (by simp [hw]), State.requestArea,
    State.giveArea_one (s := s.wait e) hr hh hwait, State.wait_withWaiting hw, htake, State.stageOrDo,
    if_neg hne]
  exact giveAreaN_held _ rfl

/-- The end of the change an internal event has made. -/
theorem State.completeChange_internal (hh : s.main.holder = none) (hw : s.main.waiting = [])
    (hs : s.ret.staged = []) (hc : s.ret.completion = false) (ws : List RetWrite) (ms : List MainWrite) :
    (s.holdArea e ws ms none).completeChange =
      { s with ret := applyRets ws s.ret, main := applyMains ms s.main } := by
  have hfinish : (s.holdArea e ws ms none).finishApply.clearArea =
      { s with ret := applyRets ws s.ret, main := applyMains ms s.main } := by
    have h1 : (s.holdArea e ws ms none).finishApply =
        { s with
          ret := { applyRets ws { s.ret with staged := ws, completion := false } with
            completion := true }
          main := { applyMains ms { s.main with holder := some ⟨e, .write, ms, none⟩ } with
            holder := some ⟨e, .clear, [], none⟩ } } := rfl
    have h3 : (applyMains ms s.main).holder = none := (applyMains_holder ms s.main).trans hh
    have h4 : (applyRets ws s.ret).staged = [] := (applyRets_staged ws s.ret).trans hs
    have h5 : (applyRets ws s.ret).completion = false := (applyRets_completion ws s.ret).trans hc
    rw [h1, applyMains_withHolder, applyRets_withStaged]
    simp only [State.clearArea]
    rw [← h3, ← h4, ← h5]
  have hcomplete : (s.holdArea e ws ms none).completeChange =
      (s.holdArea e ws ms none).finishApply.clearArea.giveArea := by
    cases e <;> rfl
  rw [hcomplete, hfinish]
  exact State.giveArea_nothing ((applyMains_waiting ms s.main).trans hw)

/-- An internal event given the free area, run to the end of what it stages. -/
theorem done_staged {c : Instr} {u : State} (hr : u.running = true) (hh : u.main.holder = none)
    (hw : u.main.waiting = []) (hs : u.ret.staged = []) (hc : u.ret.completion = false)
    {ws : List RetWrite} {ms : List MainWrite} (hexec : exec c s = .next (u.holdArea e ws ms none)) :
    Done c s { u with ret := applyRets ws u.ret, main := applyMains ms u.main } := by
  have hrun : (u.holdArea e ws ms none).running = true := hr
  exact ⟨_, hexec, by
    rw [exec_stagedChangeComplete hrun, State.completeChange_internal hh hw hs hc]⟩

end Internal

/-! Expiries with the area free. -/

section Expiries

variable {s : State}

theorem exec_holdExpiry_due (hr : s.running = true) (hh : s.main.holder = none) {holdId : BitVec 16}
    {h : Hold} (hd : s.dueHold holdId.toNat = some h) :
    exec (.holdExpiry holdId) s =
      .next (s.raise (.holdExpiry holdId.toNat) (holdExpiryVerdict h s)) := by
  show execHoldExpiry holdId s = _
  simp only [execHoldExpiry, if_pos hr, State.finishApply_of_free hh, hd]

theorem exec_holdExpiry_early (hr : s.running = true) (hh : s.main.holder = none) {holdId : BitVec 16}
    (hd : s.dueHold holdId.toNat = none) : exec (.holdExpiry holdId) s = .next s := by
  show execHoldExpiry holdId s = _
  simp only [execHoldExpiry, if_pos hr, State.finishApply_of_free hh, hd]

theorem exec_pinExpiry_due (hr : s.running = true) (hh : s.main.holder = none) {p : Port} {e : PinEntry}
    (hd : s.duePin p = some e) :
    exec (.pinExpiry p) s = .next (s.raise (.pinExpiry p) (pinEndVerdict p e s)) := by
  show execPinExpiry p s = _
  simp only [execPinExpiry, if_pos hr, State.finishApply_of_free hh, hd]

theorem exec_pinExpiry_early (hr : s.running = true) (hh : s.main.holder = none) {p : Port}
    (hd : s.duePin p = none) : exec (.pinExpiry p) s = .next s := by
  show execPinExpiry p s = _
  simp only [execPinExpiry, if_pos hr, State.finishApply_of_free hh, hd]

/-- The state in which a hold has lapsed, and the advances that its end sets free are made. -/
def State.lapsed (s : State) (h : Hold) : State :=
  { s with main := applyMains [.dropHold h.id, .recordEnd h.owner h.id .lapsed] s.main }

/-- The state in which a port's pin has ended, and the advances that its end sets free are made. -/
def State.unpinned (s : State) (p : Port) : State :=
  { s with main := applyMains [.pin p none] s.main }

theorem State.lapsed_eq (h : Hold) : s.lapsed h =
    { (s.withoutHold h.id).withEnded h.owner h.id .lapsed with
      main := ((s.withoutHold h.id).withEnded h.owner h.id .lapsed).main.catchUp } := rfl

theorem State.unpinned_eq (p : Port) : s.unpinned p =
    { s.setSession p { s.session p with pin := none } with
      main := (s.setSession p { s.session p with pin := none }).main.catchUp } := rfl

variable (hr : s.running = true) (hh : s.main.holder = none)
include hr hh

/-- A due hold ends without a drain. -/
theorem exec_holdExpiry_spared {holdId : BitVec 16} {h : Hold} (hd : s.dueHold holdId.toNat = some h)
    (hn : s.holdEndDrain h = []) : exec (.holdExpiry holdId) s = .next (s.lapsed h) := by
  rw [exec_holdExpiry_due hr hh hd, holdExpiryVerdict, hn, State.raise_spared, State.doMains_ne (by simp)]
  rfl

/-- A due hold ends and drains its account. -/
theorem done_holdExpiry_drained {holdId : BitVec 16} {h : Hold} {a : Account}
    (hd : s.dueHold holdId.toNat = some h) (hl : s.Live h.slot a)
    (hn : s.holdEndDrain h = [.acctState h.slot .drained]) (hw : s.main.waiting = [])
    (hs : s.ret.staged = []) (hc : s.ret.completion = false) :
    Done (.holdExpiry holdId) s ((s.lapsed h).setAccount h.slot { a with state := .drained }) := by
  have htake : s.takeWaiting (.holdExpiry holdId.toNat) =
      s.stageOrDo (.holdExpiry holdId.toNat) (holdExpiryVerdict h s) := by
    simp only [State.takeWaiting, hd]
  rw [holdExpiryVerdict, hn] at htake
  have hexec := exec_holdExpiry_due hr hh hd
  rw [holdExpiryVerdict, hn, State.raise_staged hr hh hw (by simp) htake] at hexec
  have hdone := done_staged hr hh hw hs hc hexec
  rw [applyRets_cons, applyRets_nil, applyRet_acctState hl] at hdone
  exact hdone

/-- A due pin ends without a drain. -/
theorem exec_pinExpiry_spared {p : Port} {e : PinEntry} (hd : s.duePin p = some e)
    (hn : s.pinEndDrain e.slot = []) : exec (.pinExpiry p) s = .next (s.unpinned p) := by
  rw [exec_pinExpiry_due hr hh hd, pinEndVerdict, hn, State.raise_spared, State.doMains_ne (by simp)]
  rfl

/-- A due pin ends and drains its account. -/
theorem done_pinExpiry_drained {p : Port} {e : PinEntry} {a : Account} (hd : s.duePin p = some e)
    (hl : s.Live e.slot a) (hn : s.pinEndDrain e.slot = [.acctState e.slot .drained])
    (hw : s.main.waiting = []) (hs : s.ret.staged = []) (hc : s.ret.completion = false) :
    Done (.pinExpiry p) s ((s.unpinned p).setAccount e.slot { a with state := .drained }) := by
  have htake : s.takeWaiting (.pinExpiry p) = s.stageOrDo (.pinExpiry p) (pinEndVerdict p e s) := by
    simp only [State.takeWaiting, hd]
  rw [pinEndVerdict, hn] at htake
  have hexec := exec_pinExpiry_due hr hh hd
  rw [pinEndVerdict, hn, State.raise_staged hr hh hw (by simp) htake] at hexec
  have hdone := done_staged hr hh hw hs hc hexec
  rw [applyRets_cons, applyRets_nil, applyRet_acctState hl] at hdone
  exact hdone

end Expiries

theorem State.dueHold_some {s : State} {id : Nat} {h : Hold} (hf : s.findHold id = some h)
    (he : h.expiry = s.main.clock) : s.dueHold id = some h := by
  simp only [State.dueHold, hf, he, if_true]

theorem State.duePin_some {s : State} {p : Port} {e : PinEntry} (hp : (s.session p).pin = some e)
    (he : e.expiry = s.main.clock) : s.duePin p = some e := by
  simp only [State.duePin, hp, he, if_true]

/-- Settles O41: the advance, made or deferred, and the ends that set deferred advances free. -/
theorem holdClockAdvancesOrIsDeferred : Obligations.HoldClockAdvancesOrIsDeferred := by
  unfold Obligations.HoldClockAdvancesOrIsDeferred
  refine ⟨fun s hr hh => ⟨fun hd ho => ?_, fun hd => ?_⟩, fun s hr => ?_, fun s hr hh =>
    ⟨fun holdId h a hf he hl => ?_, fun p e a hp he hl => ?_⟩⟩
  · rw [exec_holdClockAdvance hr, State.finishApply_of_free hh, ho, Main.catchUp_once hd, ← ho]
    rfl
  · rw [exec_holdClockAdvance hr, State.finishApply_of_free hh, Main.catchUp_due hd]
  · exact ⟨_, Main.catchUp_caughtUp _, exec_holdClockAdvance hr⟩
  · have hd := State.dueHold_some hf he
    refine ⟨_, Main.catchUp_caughtUp _, fun hn => ?_, fun hcl hlast hw hs hc => ?_⟩
    · exact exec_holdExpiry_spared hr hh hd (State.holdEndDrain_spares hl hn)
    · exact done_holdExpiry_drained hr hh hd hl (State.holdEndDrain_drains hl hcl hlast) hw hs hc
  · have hd := State.duePin_some hp he
    refine ⟨_, Main.catchUp_caughtUp _, fun hn => ?_, fun hcl hlast hw hs hc => ?_⟩
    · exact exec_pinExpiry_spared hr hh hd (State.pinEndDrain_spares hl hn)
    · exact done_pinExpiry_drained hr hh hd hl (State.pinEndDrain_drains hl hcl hlast) hw hs hc

/-- With no advance owed nothing but the hold ends. -/
theorem State.AreaFree.lapsed {s : State} (h : s.AreaFree) (x : Hold) :
    s.lapsed x = (s.withoutHold x.id).withEnded x.owner x.id .lapsed := by
  have hm : ((s.withoutHold x.id).withEnded x.owner x.id .lapsed).main.catchUp =
      ((s.withoutHold x.id).withEnded x.owner x.id .lapsed).main := Main.catchUp_of_owed h.owed
  rw [State.lapsed_eq, hm]

/-- With no advance owed nothing but the pin ends. -/
theorem State.AreaFree.unpinned {s : State} (h : s.AreaFree) (p : Port) :
    s.unpinned p = s.setSession p { s.session p with pin := none } := by
  have hm : (s.setSession p { s.session p with pin := none }).main.catchUp =
      (s.setSession p { s.session p with pin := none }).main := Main.catchUp_of_owed h.owed
  rw [State.unpinned_eq, hm]

/-- Settles O42: an expiry at its second, with and without a drain, and before it. -/
theorem expiriesEndHoldsAndPins : Obligations.ExpiriesEndHoldsAndPins := by
  unfold Obligations.ExpiriesEndHoldsAndPins
  intro s hfree
  have hr := hfree.running
  have hh := hfree.holder
  refine ⟨fun holdId h a hf hl => ⟨fun he hcl hlast => ?_, fun he hn => ?_, fun he => ?_⟩,
    fun p e a hp hl => ⟨fun he hcl hlast => ?_, fun he hn => ?_, fun he => ?_⟩, fun holdId hf => ?_,
    fun p hp => ?_⟩
  · rw [← hfree.lapsed]
    exact done_holdExpiry_drained hr hh (State.dueHold_some hf he) hl
      (State.holdEndDrain_drains hl hcl hlast) hfree.waiting hfree.staged hfree.completion
  · rw [← hfree.lapsed]
    exact exec_holdExpiry_spared hr hh (State.dueHold_some hf he) (State.holdEndDrain_spares hl hn)
  · have hd : s.dueHold holdId.toNat = none := by simp only [State.dueHold, hf, if_neg he]
    exact exec_holdExpiry_early hr hh hd
  · rw [← hfree.unpinned]
    exact done_pinExpiry_drained hr hh (State.duePin_some hp he) hl
      (State.pinEndDrain_drains hl hcl hlast) hfree.waiting hfree.staged hfree.completion
  · rw [← hfree.unpinned]
    exact exec_pinExpiry_spared hr hh (State.duePin_some hp he) (State.pinEndDrain_spares hl hn)
  · have hd : s.duePin p = none := by simp only [State.duePin, hp, if_neg he]
    exact exec_pinExpiry_early hr hh hd
  · have hd : s.dueHold holdId.toNat = none := by simp only [State.dueHold, hf]
    exact exec_holdExpiry_early hr hh hd
  · have hd : s.duePin p = none := by simp only [State.duePin, hp]
    exact exec_pinExpiry_early hr hh hd

end Sys2Proof.Machine
end

section
/-! PROOFS. The end of a staged change from any notch of its phases, and the start-up check. -/

namespace Sys2Proof.Machine

/-! The end of a staged change. -/

/-- Main memory with the effects of the event that holds the area, and the advances they set free, made. -/
def State.settledMain (s : State) (h : Holder) : Main :=
  if h.phase = .clear then s.main else applyMains h.mains s.main

/-- The state that the end of the change of the event that holds the area leaves, before its answer. -/
def State.changed (s : State) (h : Holder) : State :=
  { s with
    ret := { s.settledRet h with staged := [], completion := false }
    main := { s.settledMain h with holder := none } }

/-- The answer of the event whose change has ended is placed. -/
def State.placeAnswer (s : State) : AreaEvent → Option Reply → State
  | .station p, some reply => s.answerStation p reply
  | .supervisor, some reply => s.answerSupervisor reply.answer
  | _, _ => s

section Holder

variable {s : State} {h : Holder}

theorem State.settledRet_clear (hp : h.phase = .clear) : s.settledRet h = s.ret := if_pos hp

theorem State.settledRet_phase (hp : h.phase ≠ .clear) : s.settledRet h = applyRets s.ret.staged s.ret :=
  if_neg hp

theorem State.settledMain_clear (hp : h.phase = .clear) : s.settledMain h = s.main := if_pos hp

theorem State.settledMain_phase (hp : h.phase ≠ .clear) : s.settledMain h = applyMains h.mains s.main :=
  if_neg hp

theorem State.finishApply_clear (hh : s.main.holder = some h) (hp : h.phase = .clear) :
    s.finishApply = s := by
  simp only [State.finishApply, hh, hp, if_true]

theorem State.finishApply_phase (hh : s.main.holder = some h) (hp : h.phase ≠ .clear) :
    s.finishApply = { s with
      ret := { applyRets s.ret.staged s.ret with completion := true }
      main := { applyMains h.mains s.main with holder := some { h with phase := .clear, mains := [] } } } := by
  simp only [State.finishApply, hh, hp, if_false]

theorem State.clearArea_finishApply (hh : s.main.holder = some h) :
    s.finishApply.clearArea = s.changed h := by
  by_cases hp : h.phase = .clear
  · rw [State.finishApply_clear hh hp, State.changed, State.settledRet_clear hp,
      State.settledMain_clear hp, State.clearArea]
  · rw [State.finishApply_phase hh hp, State.changed, State.settledRet_phase hp,
      State.settledMain_phase hp, State.clearArea]

theorem State.completeChange_held (hh : s.main.holder = some h) :
    s.completeChange = ((s.changed h).placeAnswer h.event h.reply).giveArea := by
  rw [State.completeChange, hh]
  dsimp only
  rw [State.clearArea_finishApply hh]
  cases h.event <;> cases h.reply <;> rfl

/-- One more notch of a change leaves the same event, reply and end. -/
theorem State.changed_advanceHolder (hh : s.main.holder = some h) :
    ∃ g, (s.advanceHolder h).main.holder = some g ∧ g.event = h.event ∧ g.reply = h.reply ∧
      (s.advanceHolder h).changed g = s.changed h := by
  have hnotch : ∀ (g : Holder) (r : Retained), g.mains = h.mains → g.phase ≠ .clear → h.phase ≠ .clear →
      { applyRets r.staged r with staged := [], completion := false } =
        { applyRets s.ret.staged s.ret with staged := [], completion := false } →
      ({ s with ret := r, main := { s.main with holder := some g } } : State).changed g =
        s.changed h := by
    intro g r hm hg hp hr
    rw [State.changed, State.changed, State.settledRet_phase hg, State.settledRet_phase hp,
      State.settledMain_phase hg, State.settledMain_phase hp, hm]
    dsimp only
    rw [hr, applyMains_withHolder]
  rw [State.advanceHolder]
  split
  · rename_i hp
    refine ⟨_, rfl, rfl, rfl, hnotch _ _ rfl nofun (by rw [hp]; nofun) ?_⟩
    exact congrArg (fun r : Retained => { r with staged := [], completion := false })
      (applyRets_withStaged s.ret.staged s.ret s.ret.staged true)
  · rename_i hp
    exact ⟨_, rfl, rfl, rfl, hnotch _ s.ret rfl nofun (by rw [hp]; nofun) rfl⟩
  · rename_i n hp
    have hp' : h.phase ≠ .clear := by rw [hp]; nofun
    split
    · rename_i w hw
      refine ⟨_, rfl, rfl, rfl, hnotch _ _ rfl nofun hp' ?_⟩
      have hstaged : (applyRet w s.ret).staged = s.ret.staged := applyRets_staged [w] s.ret
      rw [hstaged, applyRets_absorb (List.mem_of_getElem? hw)]
    · refine ⟨{ h with phase := .clear, mains := [] }, ?_, rfl, rfl, ?_⟩
      · rw [State.finishApply_phase hh hp']
      · rw [State.finishApply_phase hh hp', State.changed, State.changed, State.settledRet_clear rfl,
          State.settledMain_clear rfl, State.settledRet_phase hp', State.settledMain_phase hp']
  · exact ⟨h, hh, rfl, rfl, rfl⟩

/-- A notch of a change does not change its end. -/
theorem State.completeChange_advanceHolder (hh : s.main.holder = some h) :
    (s.advanceHolder h).completeChange = s.completeChange := by
  obtain ⟨g, hg, he, hr, hc⟩ := State.changed_advanceHolder hh
  rw [State.completeChange_held hg, State.completeChange_held hh, hc, he, hr]

end Holder

theorem State.powered_of_running {s : State} (h : s.running = true) : s.powered = true := by
  simp only [State.running, Bool.and_eq_true] at h
  exact h.1

theorem State.check_of_running {s : State} (h : s.running = true) : s.check = none := by
  simp only [State.running, Bool.and_eq_true, Option.isNone_iff_eq_none] at h
  exact h.2

/-- Between commands the holder of a running part's area moves on by one notch. -/
theorem step_notch {s : State} {h : Holder} (hq : s.pending = []) (hr : s.running = true)
    (hh : s.main.holder = some h) : step s = .next (s.advanceHolder h) := by
  simp only [step, hq, State.idle, State.powered_of_running hr, State.check_of_running hr, hh, if_true]

/-- A notch leaves the part running. -/
theorem State.running_advanceHolder {s : State} (h : Holder) :
    (s.advanceHolder h).running = s.running := by
  rw [State.advanceHolder]
  split
  · rfl
  · rfl
  · split
    · rfl
    · rw [State.finishApply]
      split
      · rfl
      · split <;> rfl
  · rfl

/-- Settles O52. -/
theorem stagedChangeEndsTheSameFromEveryPhase : Obligations.StagedChangeEndsTheSameFromEveryPhase := by
  unfold Obligations.StagedChangeEndsTheSameFromEveryPhase
  refine ⟨fun ws k r => applyRets_again ws r _ fun v hv => List.mem_of_mem_take hv, fun s h hq hr hh =>
    ⟨s.advanceHolder h, s.completeChange, step_notch hq hr hh, ?_, exec_stagedChangeComplete hr⟩,
    fun s h hr hh hreply hphase hw ho => ?_⟩
  · rw [exec_stagedChangeComplete ((State.running_advanceHolder h).trans hr),
      State.completeChange_advanceHolder hh]
  · have hp : h.phase ≠ .clear := by rw [hphase]; nofun
    have hplace : ∀ x : State, x.placeAnswer h.event none = x := fun x => by cases h.event <;> rfl
    have hc : s.changed h = { s with
        ret := { applyRets s.ret.staged s.ret with staged := [], completion := false }
        main := { s.main.effects h.mains with holder := none } } := by
      rw [State.changed, State.settledRet_phase hp, State.settledMain_phase hp, applyMains_of_owed ho]
    rw [exec_stagedChangeComplete hr, State.completeChange_held hh, hreply, hplace, hc,
      State.giveArea_nothing]
    · rfl
    · exact (Main.effects_waiting _ _).trans hw

/-! The end of the start-up check. -/

theorem drainAll_eq (r : Retained) : r.drainAll = { r with
    accounts := r.accounts.map fun x => x.map fun a =>
      if a.state = .closing then { a with state := .drained } else a } := by
  have : drainSlot = fun x => x.map fun a =>
      if a.state = .closing then { a with state := .drained } else a := by
    funext x
    cases x <;> rfl
  rw [Retained.drainAll, this]

/-- The start-up check ends with nothing waiting for it. -/
theorem State.endCheck_alone {s : State} {c : Check} (h : (s.checkDone c).waiters = []) :
    s.endCheck c = s.checkDone c := by
  rw [State.endCheck_eq, h]
  rfl

/-- It ends with one frame, or the supervisor's request, waiting. -/
theorem State.endCheck_one {s : State} {c : Check} {w : Waiter} (h : (s.checkDone c).waiters = [w]) :
    s.endCheck c = (s.checkDone c).handWaiter w := by
  rw [State.endCheck_eq, h]
  rfl

/-- A request written to a supervisor link that takes one is handed to its owner. -/
theorem State.submit_running {s : State} (h : s.running = true) (hs : s.main.sup.state ≠ .requestPending)
    (r : SupervisorRequest) :
    s.submit r = (s.setSup (SupLink.asked r)).handSupervisor.giveArea := by
  have hr : ((s.driveMiso (List.replicate r.bytes.length 0xFF)).setSup
      { (s.driveMiso (List.replicate r.bytes.length 0xFF)).main.sup with
        state := .requestPending, requestBuffer := r.bytes, request := some r,
        answer := none }).running = true := h
  simp only [State.submit, State.powered_of_running h, Bool.not_true, Bool.false_eq_true, if_false, hs,
    State.acceptSupervisor, hr, if_true]
  rfl

theorem exec_startUpCheckEnd {s : State} (hp : s.powered = true) {c : Check} (hc : s.check = some c) :
    exec .startUpCheckEnd s = .next (s.endCheck c) := by
  show execStartUpCheckEnd s = _
  simp only [execStartUpCheckEnd, hp, hc, if_true]

/-- The frames that wait are those of the pending slots. -/
theorem State.waiters_none {s : State} (hl : ∀ p, (s.link p).pendingSlot = none)
    (hs : s.main.sup.request = none) : s.waiters = [] := by
  simp [State.waiters, hl, hs]

theorem State.waiters_port {s : State} {p : Port} {f : StationFrame}
    (hp : (s.link p).pendingSlot = some f) (hl : ∀ q, q ≠ p → (s.link q).pendingSlot = none)
    (hs : s.main.sup.request = none) : s.waiters = [.port p] := by
  have hfilter : Port.all.filter (fun q => (s.link q).pendingSlot.isSome) = [p] := by
    have hq : ∀ q, (s.link q).pendingSlot.isSome = decide (q = p) := fun q => by
      by_cases h : q = p
      · rw [h, hp]; simp
      · rw [hl q h]; simp [h]
    rw [List.filter_congr fun q _ => hq q]
    cases p <;> rfl
  rw [State.waiters, hfilter, hs]
  rfl

theorem State.waiters_supervisor_only {s : State} {r : SupervisorRequest}
    (hl : ∀ p, (s.link p).pendingSlot = none) (hs : s.main.sup.request = some r) :
    s.waiters = [.supervisor] := by
  simp [State.waiters, hl, hs]

/-- What the start-up check makes of retention memory, as R178 to R180 say. -/
theorem Retained.checked_begins {r : Retained} {c : Check} (h : c = .settle ∨ c = .cold) :
    r.checked c = if c = .cold then Retained.cold else r.settle.drainAll := by
  obtain rfl | rfl := h
  · rw [if_neg nofun]; rfl
  · rw [if_pos rfl]; rfl

theorem State.checkDone_eq {s : State} {c : Check} (h : c = .settle ∨ c = .cold) :
    s.checkDone c = { s with
      check := none
      main := { s.main with holder := none }
      ret := if c = .cold then Retained.cold else { s.ret.settle with
        accounts := s.ret.settle.accounts.map fun x => x.map fun a =>
          if a.state = .closing then { a with state := .drained } else a } } := by
  rw [State.checkDone, Retained.checked_begins h, drainAll_eq]

/-- Settles O50, by what waits for the end of the check. -/
theorem startUpCheckEndsWarmOrCold : Obligations.StartUpCheckEndsWarmOrCold := by
  unfold Obligations.StartUpCheckEndsWarmOrCold
  intro s hp
  refine ⟨fun hc => ?_, fun begins hc hb hw => ?_⟩
  · show execStartUpCheckEnd s = _
    simp only [execStartUpCheckEnd, hp, hc, if_true]
  · have hended := State.checkDone_eq (s := s) hb
    have hrun : (s.checkDone begins).running = true := by
      simpa [State.running, State.powered, State.checkDone] using hp
    rw [exec_startUpCheckEnd hp hc]
    refine ⟨fun hl hs => ?_, fun p f hf hslot ho hl hs => ?_, fun r hr hl hs => ?_⟩
    · rw [State.endCheck_alone (State.waiters_none (s := s.checkDone begins) hl hs)]
      exact congrArg _ hended
    · rw [State.endCheck_one (State.waiters_port (s := s.checkDone begins) hslot hl hs), exec_command hf]
      refine congrArg _ (Eq.trans ?_ (congrArg (fun x : State =>
        (x.setLink p { s.link p with pendingSlot := none }).arrive p f) hended))
      have hslot' : ((s.checkDone begins).link p).pendingSlot = some f := hslot
      have ho' : ((s.checkDone begins).link p).outstanding = false := ho
      rw [State.handWaiter, State.handOn, hslot']
      dsimp only
      rw [hrun, ho', State.arrive, State.deliver]
      simp only [State.powered_setLink, State.powered_of_running hrun, State.running_setLink, hrun,
        State.link_setLink, ho, Bool.not_false, Bool.and_self, if_true]
      rfl
    · have hq : (s.checkDone begins).main.sup.request = some r := by
        show s.main.sup.request = _
        rw [hs]
      rw [State.endCheck_one (State.waiters_supervisor_only (s := s.checkDone begins) hl hq),
        exec_supervisorCommand hr]
      refine congrArg _ (Eq.trans ?_ (congrArg (fun x : State =>
        (x.setSup SupLink.reset).submit r) hended))
      have hready : ((s.checkDone begins).setSup SupLink.reset).submit r =
          ((s.checkDone begins).setSup s.main.sup).handSupervisor.giveArea := by
        rw [State.submit_running (s := (s.checkDone begins).setSup SupLink.reset) hrun nofun, hs]
        rfl
      rw [hready]
      rfl

/-- Settles O51: a start-up check that found nothing waiting. -/
theorem cutChangesAreWholeOrAbsent : Obligations.CutChangesAreWholeOrAbsent := by
  unfold Obligations.CutChangesAreWholeOrAbsent
  intro s hp hmark
  have hon : s.vdd = true ∧ s.resetLow = false := by
    simpa [State.powered] using hp
  obtain ⟨hvdd, hlow⟩ := hon
  have hstart : ∀ t : State, t = { s with main := Main.reset, check := some .settle } →
      exec .startUpCheckEnd t = .next ((s.stop).checkDone .settle) := by
    rintro t rfl
    rw [exec_startUpCheckEnd (s := { s with main := Main.reset, check := some .settle }) hp rfl, State.endCheck_alone rfl]
    rfl
  have hrestarted := State.checkDone_eq (s := s.stop) (c := .settle) (.inl rfl)
  rw [if_neg nofun] at hrestarted
  refine ⟨fun hvbat => ?_, ?_⟩
  · have h1 : exec .powerLoss s = .next { s.stop with vdd := false } := by
      show execPowerLoss s = _
      simp [execPowerLoss, hvdd, hvbat, State.stop]
    have h2 : exec .powerReturn { s.stop with vdd := false } =
        .next { s with main := Main.reset, check := some .settle } := by
      show execPowerReturn _ = _
      simp [execPowerReturn, hlow, hmark, State.stop, State.beginCheck, hvdd]
    rw [runAll, h1]
    dsimp only
    rw [runAll, h2]
    dsimp only
    rw [runAll, hstart _ rfl]
    exact congrArg _ hrestarted
  · have h1 : exec .resetAssert s = .next { s.stop with resetLow := true } := by
      show execResetAssert s = _
      simp [execResetAssert, hlow, State.stop]
    have h2 : exec .resetRelease { s.stop with resetLow := true } =
        .next { s with main := Main.reset, check := some .settle } := by
      show execResetRelease _ = _
      simp [execResetRelease, hvdd, hmark, State.stop, State.beginCheck, hlow]
    rw [runAll, h1]
    dsimp only
    rw [runAll, h2]
    dsimp only
    rw [runAll, hstart _ rfl]
    exact congrArg _ hrestarted

end Sys2Proof.Machine
end

section
/-! PROOFS. Requests that come while another event holds the staged-change area. -/

namespace Sys2Proof.Machine

/-! What main-memory effects leave of a request in hand. -/

/-- A request in hand with the cursor it was dropped under changed. -/
def InHand.mapDropped (g : Cursor → Cursor) (h : InHand) : InHand := { h with dropped := h.dropped.map g }

theorem InHand.mapDropped_id (x : Option InHand) : x.map (InHand.mapDropped id) = x := by
  obtain _ | ⟨f, d⟩ := x
  · rfl
  · cases d <;> rfl

/-- Effects change of a request in hand no more than the cursor it was dropped under. -/
theorem applyMain_inHand (w : MainWrite) (m : Main) : ∃ g, ∀ p,
    ((applyMain w m).sessions.get p).inHand = ((m.sessions.get p).inHand).map (InHand.mapDropped g) := by
  have hid : ∀ x : Option InHand, x = x.map (InHand.mapDropped id) := fun x => (InHand.mapDropped_id x).symm
  cases w with
  | cursor q c | pin q c =>
    refine ⟨id, fun p => Eq.trans ?_ (hid _)⟩
    simp only [applyMain, Main.mapSession, Four.get_set]
    split
    · subst_vars; rfl
    · rfl
  | slotGone slot =>
    exact ⟨Cursor.afterFreeing slot, fun p => by
      simp only [applyMain, Four.get_map, Session.mapCursors]; rfl⟩
  | wipe =>
    exact ⟨Cursor.afterWipe, fun p => by simp only [applyMain, Four.get_map, Session.mapCursors]; rfl⟩
  | _ => exact ⟨id, fun p => hid _⟩

theorem applyMains_inHand (ms : List MainWrite) (m : Main) : ∃ g, ∀ p,
    ((applyMains ms m).sessions.get p).inHand = ((m.sessions.get p).inHand).map (InHand.mapDropped g) := by
  obtain ⟨-, hs, -⟩ := catchUpN_frame (m.effects ms).clockOwed (m.effects ms)
  have heffects : ∃ g, ∀ p, ((m.effects ms).sessions.get p).inHand =
      ((m.sessions.get p).inHand).map (InHand.mapDropped g) := by
    clear hs
    induction ms generalizing m with
    | nil => exact ⟨id, fun p => (InHand.mapDropped_id _).symm⟩
    | cons w ms ih =>
      obtain ⟨g, hg⟩ := applyMain_inHand w m
      obtain ⟨g', hg'⟩ := ih (applyMain w m)
      refine ⟨g' ∘ g, fun p => ?_⟩
      rw [Main.effects_cons, hg' p, hg p, Option.map_map]
      congr 1
      funext h
      simp only [Function.comp, InHand.mapDropped, Option.map_map]
  obtain ⟨g, hg⟩ := heffects
  exact ⟨g, fun p => (congrArg (fun x : Four Session => (x.get p).inHand) hs).trans (hg p)⟩

/-- A request in hand that no session reset has dropped stays as it is. -/
theorem applyMains_stands (ms : List MainWrite) {m : Main} {p : Port} {f : StationFrame}
    (h : (m.sessions.get p).inHand = some ⟨f, none⟩) :
    ((applyMains ms m).sessions.get p).inHand = some ⟨f, none⟩ := by
  obtain ⟨g, hg⟩ := applyMains_inHand ms m
  rw [hg, h]
  rfl

/-! The state that a read sees while the area is held. -/

section Held

variable {s : State} {h : Holder}

theorem State.giveArea_held (hh : s.main.holder.isSome = true) : s.giveArea = s := by
  rw [State.giveArea, giveAreaN_held _ hh, ite_self]

theorem State.finishApply_finishApply (hh : s.main.holder = some h) :
    s.finishApply.finishApply = s.finishApply := by
  by_cases hp : h.phase = .clear
  · rw [State.finishApply_clear hh hp, State.finishApply_clear hh hp]
  · rw [State.finishApply_phase hh hp]
    exact State.finishApply_clear rfl rfl

theorem State.settleForRead_held (hh : s.main.holder = some h) :
    s.settleForRead = if h.phase = .write then s else s.finishApply := by
  simp only [State.settleForRead, hh]

theorem State.settleForRead_stands {p : Port} {f : StationFrame}
    (hi : (s.session p).inHand = some ⟨f, none⟩) : (s.finishApply.session p).inHand = some ⟨f, none⟩ := by
  rw [State.finishApply]
  split
  · exact hi
  · split
    · exact hi
    · exact applyMains_stands _ hi

/-- The rest of the part looks at the area only through its holder and those that wait. -/
theorem State.doMains_stands (ms : List MainWrite) {p : Port} {f : StationFrame}
    (hi : (s.session p).inHand = some ⟨f, none⟩) : ((s.doMains ms).session p).inHand = some ⟨f, none⟩ := by
  rw [State.doMains]
  split
  · exact hi
  · exact applyMains_stands _ hi

end Held

/-! A station request. -/

/-- The state with a frame handed to the session unit (R126). -/
def State.asked (s : State) (p : Port) (f : StationFrame) : State :=
  (s.setSession p { s.session p with inHand := some ⟨f, none⟩ }).setLink p
    { s.link p with outstanding := true }

section Station

variable {s : State} {p : Port} {f : StationFrame}

theorem State.asked_inHand : ((s.asked p f).session p).inHand = some ⟨f, none⟩ := by simp [State.asked]

theorem State.asked_outstanding : ((s.asked p f).link p).outstanding = true := by simp [State.asked]

/-- The answer of a request in hand goes to its link. -/
theorem State.sendAnswer_eq {d : Option Cursor} (hi : (s.session p).inHand = some ⟨f, d⟩)
    (ho : (s.link p).outstanding = true) (r : Reply) :
    s.sendAnswer p r = s.withStationAnswer p f r.answer r.trial r.replay := by
  simp only [State.sendAnswer, hi]
  rw [State.withStationAnswer, ← ho]
  rfl

theorem State.sendAnswer_holder (r : Reply) : (s.sendAnswer p r).main.holder = s.main.holder := by
  simp only [State.sendAnswer]
  split <;> rfl

/-- A request that is taken without the area. -/
theorem State.takeFree_eq (hi : (s.session p).inHand = some ⟨f, none⟩)
    (ho : (s.link p).outstanding = true) {t : State}
    (ht : t = if stationMayChange f then s.finishApply else s) :
    s.takeFree p f = (t.doMains (stationOutcome p f t).verdict.mains).withStationAnswer p f
      (stationOutcome p f t).verdict.answer (stationOutcome p f t).trial (stationOutcome p f t).replay := by
  have hcalm : Calm s t := by
    rw [ht]
    split
    · exact .finishApply s
    · exact .refl s
  have hti : (t.session p).inHand = some ⟨f, none⟩ := by
    rw [ht]
    split
    · exact State.settleForRead_stands hi
    · exact hi
  rw [State.takeFree, ← ht, State.sendAnswer_eq (f := f) (d := none) (State.doMains_stands _ hti)
    (((Calm.doMains t _).link p).1.trans ((hcalm.link p).1.trans ho))]

theorem Calm.holder_isSome {s t : State} (h : Calm s t) : t.main.holder.isSome = s.main.holder.isSome := by
  have := congrArg Option.isSome h.holder
  rwa [Option.isSome_map, Option.isSome_map] at this

/-- A frame that arrives while another event holds the area: the request waits behind it, or is answered. -/
theorem State.arrive_held {h : Holder} (hr : s.running = true) (hh : s.main.holder = some h)
    (ho : (s.link p).outstanding = false) (f : StationFrame) {seen : State}
    (hseen : seen = if h.phase = .write then s.asked p f else (s.asked p f).finishApply) :
    s.arrive p f = if stationNeedsArea p f seen then
        { seen with main := { seen.main with waiting := s.main.waiting ++ [.station p] } }
      else seen.takeFree p f := by
  have hsettle : (s.asked p f).settleForRead = seen :=
    hseen ▸ State.settleForRead_held (s := s.asked p f) hh
  have hcalm : Calm (s.asked p f) seen := hsettle ▸ .settleForRead _
  have hsome : seen.main.holder.isSome = true := by
    rw [hcalm.holder_isSome]
    exact hh ▸ rfl
  have hover : s.handOver p f =
      if stationNeedsArea p f seen then seen.wait (.station p) else seen.takeFree p f := by
    show (if stationNeedsArea p f (s.asked p f).settleForRead then
      (s.asked p f).settleForRead.wait (.station p) else (s.asked p f).settleForRead.takeFree p f) = _
    rw [hsettle]
  have hwait : seen.wait (.station p) =
      { seen with main := { seen.main with waiting := s.main.waiting ++ [.station p] } } := by
    rw [State.wait, hcalm.waiting]
    rfl
  rw [State.arrive, if_pos (State.powered_of_running hr), State.deliver, if_pos (by rw [hr, ho]; rfl), hover,
    ← hwait]
  refine State.giveArea_held ?_
  split
  · exact hsome
  · rw [State.takeFree, State.sendAnswer_holder, (Calm.doMains _ _).holder_isSome]
    split
    · rw [(Calm.finishApply seen).holder_isSome, hsome]
    · exact hsome

/-- Whether a request needs the area, kind by kind (R175). -/
theorem stationNeedsArea_of_ne (hb : ∀ c b, f.req ≠ .bad c b) :
    stationNeedsArea p f s = ((s.cached p f.seq).isNone && (f.seq != 0 || f.req.stagesAlways)) := by
  obtain ⟨seq, r⟩ := f
  cases r with
  | bad c b => exact absurd rfl (hb c b)
  | _ => rfl

theorem State.cached_zero : s.cached p 0 = none := if_pos rfl

end Station

/-- What the part does of a station request while another event holds the area. -/
def HeldStation (s : State) (p : Port) (f : StationFrame) (seen : State) : Prop :=
  let waits := exec (f.command p) s = .next { seen with main := { seen.main with
    waiting := s.main.waiting ++ [.station p] } }
  let answered := fun (x : State) answer trial replay =>
    exec (f.command p) s = .next (x.withStationAnswer p f answer trial replay)
  ((∃ c b, f.req = .bad c b) →
    (f.seq ≠ 0 → waits) ∧ (f.seq = 0 → answered seen ⟨.badRequest, []⟩ false false)) ∧
  ((∀ c b, f.req ≠ .bad c b) → f.seq ≠ 0 →
    (seen.cached p f.seq = none → waits) ∧
    ∀ e, seen.cached p f.seq = some e →
      (e.code = f.req.code → answered seen e.answer e.trial true) ∧
      (e.code ≠ f.req.code → answered seen ⟨.seqClash, []⟩ f.req.isTrial false)) ∧
  (((∃ e x t, f.req = .fare e x t) ∨ (∃ n t, f.req = .topUp n t) ∨
    (∃ i n t, f.req = .capture i n t) ∨ (∃ i, f.req = .release i) ∨ f.req = .pin ∨
    f.req = .unpin) → f.seq = 0 → waits) ∧
  (f.req = .balance ∨ f.req = .stationStatus → f.seq = 0 →
    answered seen (f.req.ladder p seen).answer false false) ∧
  ((∃ k, f.req = .select k) ∨ (∃ n l t, f.req = .hold n l t) → f.seq = 0 →
    answered ((s.asked p f).finishApply.doMains (f.req.ladder p (s.asked p f).finishApply).mains)
      (f.req.ladder p (s.asked p f).finishApply).answer f.req.isTrial false)

/-- Reading a session or an account has no main-memory effect. -/
theorem ladder_read_mains {r : StationRequest} (hr : r = .balance ∨ r = .stationStatus) (p : Port)
    (s : State) : (r.ladder p s).mains = [] := by
  obtain rfl | rfl := hr
  · rw [StationRequest.ladder]
    split
    · rfl
    · split
      · rfl
      · show (judgeBalance p s).mains = []
        rw [judgeBalance]
        split <;> rfl
  · rw [StationRequest.ladder]
    split
    · rfl
    · split <;> rfl

/-- A station request that comes while another event holds the area. -/
theorem exec_heldStation {s : State} {h : Holder} (hr : s.running = true) (hh : s.main.holder = some h)
    {p : Port} {f : StationFrame} (hf : f.req.wf = true) (ho : (s.link p).outstanding = false) {seen : State}
    (hseen : seen = if h.phase = .write then s.asked p f else (s.asked p f).finishApply) :
    HeldStation s p f seen := by
  have harrive := State.arrive_held hr hh ho f hseen
  have hcalm : Calm (s.asked p f) seen := by
    rw [hseen]
    split
    · exact .refl _
    · exact .finishApply _
  have hi : (seen.session p).inHand = some ⟨f, none⟩ := by
    rw [hseen]
    split
    · exact State.asked_inHand
    · exact State.settleForRead_stands State.asked_inHand
  have hout : (seen.link p).outstanding = true := (hcalm.link p).1.trans State.asked_outstanding
  have hwaits : stationNeedsArea p f seen = true → exec (f.command p) s = .next { seen with
      main := { seen.main with waiting := s.main.waiting ++ [.station p] } } := fun hn => by
    rw [exec_command hf, harrive, if_pos hn]
  have htaken : stationNeedsArea p f seen = false → ∀ t,
      t = (if stationMayChange f then seen.finishApply else seen) →
      exec (f.command p) s = .next
        ((t.doMains (stationOutcome p f t).verdict.mains).withStationAnswer p f
          (stationOutcome p f t).verdict.answer (stationOutcome p f t).trial
          (stationOutcome p f t).replay) := fun hn t ht => by
    rw [exec_command hf, harrive, hn, if_neg nofun, State.takeFree_eq hi hout ht]
  refine ⟨fun hb => ⟨fun h0 => hwaits ?_, fun h0 => ?_⟩, fun hb h0 => ⟨fun hc => hwaits ?_,
    fun e hc => ?_⟩, fun hk h0 => hwaits ?_, fun hk h0 => ?_, fun hk h0 => ?_⟩
  · obtain ⟨c, b, hb⟩ := hb
    simp only [stationNeedsArea, hb, bne_iff_ne, ne_eq, h0, not_false_iff]
  · obtain ⟨c, b, hb⟩ := hb
    have hn : stationNeedsArea p f seen = false := by simp [stationNeedsArea, hb, h0]
    have hout : stationOutcome p f seen = ⟨report .badRequest [], false, false⟩ := by
      simp only [stationOutcome, hb, withCache, h0, if_true]
    have := htaken hn seen (by simp [stationMayChange, hb])
    rw [hout] at this
    exact this
  · rw [stationNeedsArea_of_ne hb, hc, bne_iff_ne.mpr h0]
    rfl
  · have hn : stationNeedsArea p f seen = false := by
      rw [stationNeedsArea_of_ne hb, hc]
      rfl
    have hsame : seen = if stationMayChange f then seen.finishApply else seen := by
      have : stationMayChange f = false := by
        rw [stationMayChange]
        split
        · exact beq_eq_false_iff_ne.mpr h0
        · exact beq_eq_false_iff_ne.mpr h0
        · rfl
      rw [this]
      rfl
    have := htaken hn seen hsame
    rw [stationOutcome_cached hb hc] at this
    exact ⟨fun he => by rw [if_pos he] at this; exact this,
      fun he => by rw [if_neg he] at this; exact this⟩
  · have hb : ∀ c b, f.req ≠ .bad c b := by
      rintro c b hbad
      rw [hbad] at hk
      simp at hk
    have hs : f.req.stagesAlways = true := by
      obtain ⟨_, _, _, hk⟩ | ⟨_, _, hk⟩ | ⟨_, _, _, hk⟩ | ⟨_, hk⟩ | hk | hk := hk <;> rw [hk] <;> rfl
    rw [stationNeedsArea_of_ne hb, h0, State.cached_zero, hs]
    rfl
  · have hb : ∀ c b, f.req ≠ .bad c b := by
      rintro c b hbad
      rw [hbad] at hk
      simp at hk
    have hs : f.req.stagesAlways = false ∧ f.req.isTrial = false ∧ stationMayChange f = false := by
      obtain hk | hk := hk <;> simp [stationMayChange, hk, StationRequest.stagesAlways,
        StationRequest.isTrial]
    obtain ⟨hs, ht, hm⟩ := hs
    have hc : seen.cached p f.seq = none := by rw [h0]; exact State.cached_zero
    have hn : stationNeedsArea p f seen = false := by
      rw [stationNeedsArea_of_ne hb, hc, h0, hs]
      rfl
    have := htaken hn seen (by rw [hm]; rfl)
    rw [stationOutcome_fresh hb hc, withCache, if_pos h0, ladder_read_mains hk, ht] at this
    exact this
  · have hb : ∀ c b, f.req ≠ .bad c b := by
      rintro c b hbad
      rw [hbad] at hk
      simp at hk
    have hs : f.req.stagesAlways = false ∧ stationMayChange f = true := by
      obtain ⟨_, hk⟩ | ⟨_, _, _, hk⟩ := hk <;> simp [stationMayChange, hk, StationRequest.stagesAlways, h0]
    obtain ⟨hs, hm⟩ := hs
    have hc : ∀ x : State, x.cached p f.seq = none := fun x => by rw [h0]; exact State.cached_zero
    have hn : stationNeedsArea p f seen = false := by
      rw [stationNeedsArea_of_ne hb, hc, h0, hs]
      rfl
    have hfin : (s.asked p f).finishApply = if stationMayChange f then seen.finishApply else seen := by
      rw [hm, if_pos rfl, hseen]
      split
      · rfl
      · exact (State.finishApply_finishApply (s := s.asked p f) hh).symm
    have := htaken hn _ hfin
    rw [stationOutcome_fresh hb (hc _), withCache, if_pos h0] at this
    exact this

/-! A supervisor request. -/

/-- The supervisor link of a request that comes does not touch the change of the event that holds the area. -/
theorem State.finishApply_setSup (s : State) (x : SupLink) :
    (s.setSup x).finishApply = s.finishApply.setSup x := by
  cases hh : s.main.holder with
  | none => rw [State.finishApply_of_free hh, State.finishApply_of_free (s := s.setSup x) hh]
  | some h =>
    by_cases hp : h.phase = .clear
    · rw [State.finishApply_clear hh hp, State.finishApply_clear (s := s.setSup x) hh hp]
    · have hm : applyMains h.mains (s.setSup x).main = { applyMains h.mains s.main with sup := x } := by
        show (Main.effects { s.main with sup := x } h.mains).catchUp = _
        rw [Main.effects_withSup]
        exact SparesClock.catchUp (g := fun m => { m with sup := x })
          ⟨fun _ => rfl, fun _ => rfl, fun _ => rfl, fun _ _ _ => rfl⟩ _
      rw [State.finishApply_phase hh hp, State.finishApply_phase (s := s.setSup x) hh hp, hm]
      rfl

/-- A supervisor request is judged without a look at its link. -/
theorem judge_link (r : SupervisorRequest) (s : State) (x : SupLink) : r.judge (s.setSup x) = r.judge s :=
  judge_setSup r s x s.main.waiting

/-- A supervisor request that is answered at once. -/
theorem State.handSupervisor_free {s : State} {r : SupervisorRequest} (hn : r.needsArea = false)
    {seen : State} (hseen : (s.setSup (SupLink.asked r)).settleForRead = seen.setSup (SupLink.asked r)) :
    (s.setSup (SupLink.asked r)).handSupervisor = seen.afterSupervisor r (r.judge seen).answer := by
  have hq : (s.setSup (SupLink.asked r)).main.sup.request = some r := rfl
  simp only [State.handSupervisor, hq, hn, Bool.false_eq_true, if_false, hseen, judge_link]
  rfl

/-- A supervisor request that comes while another event holds the area. -/
theorem exec_heldSupervisor {s : State} {h : Holder} (hr : s.running = true) (hh : s.main.holder = some h)
    {r : SupervisorRequest} (hw : r.wf = true) (hs : s.main.sup.state ≠ .requestPending) :
    (r.needsArea = true → exec r.command s = .next { s with main := { s.main with
      waiting := s.main.waiting ++ [.supervisor], sup := SupLink.asked r } }) ∧
    (r.needsArea = false → ∀ seen, seen = (if h.phase = .write then s else s.finishApply) →
      exec r.command s = .next (seen.afterSupervisor r (r.judge seen).answer)) := by
  rw [exec_supervisorCommand hw, State.submit_running hr hs]
  refine ⟨fun hn => ?_, fun hn seen hseen => ?_⟩
  · have hq : (s.setSup (SupLink.asked r)).main.sup.request = some r := rfl
    have hwait : (s.setSup (SupLink.asked r)).handSupervisor =
        (s.setSup (SupLink.asked r)).wait .supervisor := by
      simp only [State.handSupervisor, hq, hn, if_true]
    have hsome : ((s.setSup (SupLink.asked r)).wait .supervisor).main.holder.isSome = true := by
      show s.main.holder.isSome = true
      rw [hh]
      rfl
    rw [hwait, State.giveArea_held hsome]
    rfl
  · have hsettle : (s.setSup (SupLink.asked r)).settleForRead = seen.setSup (SupLink.asked r) := by
      rw [State.settleForRead_held (s := s.setSup (SupLink.asked r)) hh, State.finishApply_setSup, hseen]
      split <;> rfl
    rw [State.handSupervisor_free hn hsettle, State.giveArea_held]
    show seen.main.holder.isSome = true
    rw [hseen]
    split
    · rw [hh]; rfl
    · rw [(Calm.finishApply s).holder_isSome, hh]; rfl

end Sys2Proof.Machine
end

section
/-! PROOFS. The staged-change area handed on at the end of a change. -/

namespace Sys2Proof.Machine

/-! The events that wait, and everything else. -/

/-- The same part, with another retention and main memory. -/
def SamePart (s t : State) : Prop := ∃ r m, t = { s with ret := r, main := m }

theorem SamePart.refl (s : State) : SamePart s s := ⟨s.ret, s.main, rfl⟩

theorem SamePart.trans {s t u : State} (h : SamePart s t) (g : SamePart t u) : SamePart s u := by
  obtain ⟨r, m, rfl⟩ := h
  obtain ⟨r', m', rfl⟩ := g
  exact ⟨r', m', rfl⟩

theorem SamePart.running {s t : State} (h : SamePart s t) : t.running = s.running := by
  obtain ⟨r, m, rfl⟩ := h
  rfl

theorem SamePart.pending {s t : State} (h : SamePart s t) : t.pending = s.pending := by
  obtain ⟨r, m, rfl⟩ := h
  rfl

theorem SamePart.doMains (s : State) (ms : List MainWrite) : SamePart s (s.doMains ms) := by
  rw [State.doMains]
  split
  · exact .refl s
  · exact ⟨s.ret, _, rfl⟩

theorem SamePart.sendAnswer (s : State) (p : Port) (r : Reply) : SamePart s (s.sendAnswer p r) := by
  rw [State.sendAnswer]
  dsimp only
  split
  · exact .refl s
  · exact ⟨s.ret, _, rfl⟩

theorem SamePart.answerSupervisor (s : State) (a : Answer) : SamePart s (s.answerSupervisor a) := by
  rw [State.answerSupervisor]
  split
  · exact .refl s
  · exact ⟨s.ret, _, rfl⟩

theorem SamePart.stageOrDo (s : State) (e : AreaEvent) (v : List RetWrite × List MainWrite) :
    SamePart s (s.stageOrDo e v) := by
  rw [State.stageOrDo]
  split
  · exact .doMains s _
  · exact ⟨_, _, rfl⟩

section Waiting

variable (s : State) (w : List AreaEvent)

@[simp] theorem State.withWaiting_waiting : (s.withWaiting w).main.waiting = w := rfl
@[simp] theorem State.withWaiting_holder : (s.withWaiting w).main.holder = s.main.holder := rfl
@[simp] theorem State.withWaiting_withWaiting (v : List AreaEvent) :
    (s.withWaiting w).withWaiting v = s.withWaiting v := rfl
theorem State.withWaiting_self : s.withWaiting s.main.waiting = s := rfl

/-- Main-memory effects, and the advances they set free, do not look at the events that wait. -/
theorem applyMains_withWaiting (ms : List MainWrite) (m : Main) :
    applyMains ms { m with waiting := w } = { applyMains ms m with waiting := w } := by
  have heffects : ({ m with waiting := w } : Main).effects ms = { m.effects ms with waiting := w } := by
    induction ms generalizing m with
    | nil => rfl
    | cons x ms ih =>
      have hx : applyMain x { m with waiting := w } = { applyMain x m with waiting := w } := by
        cases x <;> rfl
      simp only [Main.effects_cons, hx, ih]
  show (Main.effects { m with waiting := w } ms).catchUp = _
  rw [heffects]
  exact SparesClock.catchUp (g := fun m => { m with waiting := w })
    ⟨fun _ => rfl, fun _ => rfl, fun _ => rfl, fun _ _ _ => rfl⟩ _

theorem State.doMains_withWaiting (ms : List MainWrite) :
    (s.withWaiting w).doMains ms = (s.doMains ms).withWaiting w := by
  rw [State.doMains, State.doMains]
  split
  · rfl
  · show { s with main := applyMains ms { s.main with waiting := w } } = _
    rw [applyMains_withWaiting]
    rfl

theorem State.sendAnswer_withWaiting (p : Port) (r : Reply) :
    (s.withWaiting w).sendAnswer p r = (s.sendAnswer p r).withWaiting w := by
  have hs : (s.withWaiting w).session p = s.session p := rfl
  rw [State.sendAnswer, State.sendAnswer, hs]
  dsimp only
  split <;> rfl

theorem State.answerSupervisor_withWaiting (a : Answer) :
    (s.withWaiting w).answerSupervisor a = (s.answerSupervisor a).withWaiting w := by
  have hs : (s.withWaiting w).main.sup = s.main.sup := rfl
  rw [State.answerSupervisor, State.answerSupervisor, hs]
  split <;> rfl

theorem State.stageOrDo_withWaiting (e : AreaEvent) (v : List RetWrite × List MainWrite) :
    (s.withWaiting w).stageOrDo e v = (s.stageOrDo e v).withWaiting w := by
  rw [State.stageOrDo, State.stageOrDo]
  split
  · exact State.doMains_withWaiting s w _
  · rfl

theorem stationOutcome_withWaiting (p : Port) (f : StationFrame) :
    stationOutcome p f (s.withWaiting w) = stationOutcome p f s := by
  obtain ⟨seq, r⟩ := f
  cases r <;> rfl

theorem judge_withWaiting (r : SupervisorRequest) : r.judge (s.withWaiting w) = r.judge s :=
  judge_setSup r s s.main.sup w

end Waiting

/-! The answer of the event whose change has ended. -/

/-- No frame waits in the pending slot of the port whose request's change has ended. -/
def State.SlotFree (s : State) (e : AreaEvent) : Prop :=
  ∀ q, e = .station q → (s.link q).pendingSlot = none

theorem State.handOn_none {s : State} {p : Port} (h : (s.link p).pendingSlot = none) : s.handOn p = s := by
  simp only [State.handOn, h]

/-- An answer that a session reset has dropped, with no frame pending behind it. -/
theorem State.dropAnswer_handOn {s : State} {p : Port} (h : (s.link p).pendingSlot = none) :
    (s.dropAnswer p).handOn p = s.dropAnswer p :=
  State.handOn_none (by simp [State.dropAnswer, h])

/-- The answer of a port's request, sent or dropped, with no frame pending behind it. -/
theorem State.answerStation_eq {s : State} {p : Port} (h : (s.link p).pendingSlot = none) (r : Reply) :
    s.answerStation p r = if ((s.session p).inHand.bind InHand.dropped).isSome then s.dropAnswer p
      else s.sendAnswer p r := by
  rw [State.answerStation]
  split
  · rename_i x hx
    rw [State.dropAnswer_handOn h, hx]
    rfl
  · rename_i hx
    rw [hx]
    simp only [State.sendAnswer, hx]
    rfl

theorem SamePart.answerStation {s : State} {p : Port} (h : (s.link p).pendingSlot = none) (r : Reply) :
    SamePart s (s.answerStation p r) := by
  rw [State.answerStation_eq h]
  split
  · exact ⟨s.ret, _, rfl⟩
  · exact .sendAnswer s p r

/-- What the placing of an answer leaves as it was. -/
structure Placed (s t : State) (e : AreaEvent) : Prop where
  part : SamePart s t
  ret : t.ret = s.ret
  holder : t.main.holder = s.main.holder
  waiting : t.main.waiting = s.main.waiting
  owed : t.main.clockOwed = s.main.clockOwed
  link : ∀ p, e ≠ .station p → t.link p = s.link p
  session : ∀ p, e ≠ .station p → t.session p = s.session p
  sup : e ≠ .supervisor → t.main.sup = s.main.sup
  inHand : ∀ p, (t.session p).inHand = (s.session p).inHand ∨ (t.session p).inHand = none

theorem Placed.refl (s : State) (e : AreaEvent) : Placed s s e :=
  ⟨.refl s, rfl, rfl, rfl, rfl, fun _ _ => rfl, fun _ _ => rfl, fun _ => rfl, fun _ => .inl rfl⟩

/-- Another session and link at the event's own port. -/
theorem Placed.setPort (s : State) (p : Port) {x : Session} (l : Link) (hx : x.inHand = none) :
    Placed s ((s.setSession p x).setLink p l) (.station p) := by
  refine ⟨⟨s.ret, _, rfl⟩, rfl, rfl, rfl, rfl, fun q hq => ?_, fun q hq => ?_, fun _ => rfl, fun q => ?_⟩
  · exact Four.get_set_of_ne _ _ fun h => hq (h ▸ rfl)
  · exact Four.get_set_of_ne _ _ fun h => hq (h ▸ rfl)
  · by_cases hq : q = p
    · subst hq
      exact .inr (by simp [hx])
    · exact .inl (congrArg Session.inHand (Four.get_set_of_ne _ _ hq))

theorem Placed.answer {s : State} {e : AreaEvent} (h : s.SlotFree e) (r : Option Reply) :
    Placed s (s.placeAnswer e r) e := by
  rw [State.placeAnswer.eq_def]
  split
  · rename_i p reply
    rw [State.answerStation_eq (h p rfl)]
    split
    · exact .setPort s p _ rfl
    · rw [State.sendAnswer]
      dsimp only
      split
      · exact .refl s _
      · exact .setPort s p _ rfl
  · rw [State.answerSupervisor]
    split
    · exact .refl s _
    · exact ⟨⟨s.ret, _, rfl⟩, rfl, rfl, rfl, rfl, fun _ _ => rfl, fun _ _ => rfl,
        fun hn => absurd rfl hn, fun _ => .inl rfl⟩
  · exact .refl s _

theorem State.placeAnswer_withWaiting {s : State} {e : AreaEvent} (h : s.SlotFree e) (r : Option Reply)
    (w : List AreaEvent) : (s.withWaiting w).placeAnswer e r = (s.placeAnswer e r).withWaiting w := by
  rw [State.placeAnswer.eq_def, State.placeAnswer.eq_def s]
  split
  · rename_i p reply
    have hl : ((s.withWaiting w).link p).pendingSlot = none := h p rfl
    have hs : (s.withWaiting w).session p = s.session p := rfl
    rw [State.answerStation_eq hl, State.answerStation_eq (h p rfl), hs]
    split
    · rfl
    · exact State.sendAnswer_withWaiting s w p reply
  · exact State.answerSupervisor_withWaiting s w _
  · rfl

/-! The state that the end of a change leaves. -/

/-- The end of a change, its answer placed, before the area is given on. -/
def State.freed (s : State) (h : Holder) : State := (s.changed h).placeAnswer h.event h.reply

section Freed

variable {s : State} {h : Holder}

theorem State.settledMain_frame : (s.settledMain h).links = s.main.links ∧
    (s.settledMain h).sup = s.main.sup ∧ (s.settledMain h).waiting = s.main.waiting := by
  by_cases hp : h.phase = .clear
  · rw [State.settledMain_clear hp]
    exact ⟨rfl, rfl, rfl⟩
  · rw [State.settledMain_phase hp]
    obtain ⟨hl, hs, _, hw, _⟩ := applyMains_calm h.mains s.main
    exact ⟨hl, hs, hw⟩

theorem State.settledMain_inHand : ∃ g, ∀ p, ((s.settledMain h).sessions.get p).inHand =
    ((s.session p).inHand).map (InHand.mapDropped g) := by
  by_cases hp : h.phase = .clear
  · rw [State.settledMain_clear hp]
    exact ⟨id, fun p => (InHand.mapDropped_id _).symm⟩
  · rw [State.settledMain_phase hp]
    exact applyMains_inHand h.mains s.main

theorem State.changed_link (p : Port) : (s.changed h).link p = s.link p :=
  congrArg (fun x : Four Link => x.get p) State.settledMain_frame.1

theorem State.slotFree_changed {e : AreaEvent} (hf : s.SlotFree e) : (s.changed h).SlotFree e :=
  fun q hq => by rw [State.changed_link]; exact hf q hq

theorem State.changed_withWaiting (w : List AreaEvent) :
    (s.withWaiting w).changed h = (s.changed h).withWaiting w := by
  have hm : (s.withWaiting w).settledMain h = { s.settledMain h with waiting := w } := by
    by_cases hp : h.phase = .clear
    · rw [State.settledMain_clear hp, State.settledMain_clear hp]
      rfl
    · rw [State.settledMain_phase hp, State.settledMain_phase hp]
      exact applyMains_withWaiting w h.mains s.main
  have hr : (s.withWaiting w).settledRet h = s.settledRet h := rfl
  rw [State.changed, State.changed, hm, hr]
  rfl

theorem State.freed_withWaiting (hf : s.SlotFree h.event) (w : List AreaEvent) :
    (s.withWaiting w).freed h = (s.freed h).withWaiting w := by
  rw [State.freed, State.changed_withWaiting, State.placeAnswer_withWaiting (State.slotFree_changed hf)]
  rfl

theorem State.freed_placed (hf : s.SlotFree h.event) : Placed (s.changed h) (s.freed h) h.event :=
  .answer (State.slotFree_changed hf) _

theorem State.freed_part (hf : s.SlotFree h.event) : SamePart s (s.freed h) :=
  SamePart.trans ⟨_, _, rfl⟩ (State.freed_placed hf).part

theorem State.freed_holder (hf : s.SlotFree h.event) : (s.freed h).main.holder = none :=
  (State.freed_placed hf).holder

theorem State.freed_waiting (hf : s.SlotFree h.event) : (s.freed h).main.waiting = s.main.waiting :=
  (State.freed_placed hf).waiting.trans State.settledMain_frame.2.2

/-- What the end of another event's change leaves of a port's link. -/
theorem State.freed_link (hf : s.SlotFree h.event) {p : Port} (hp : h.event ≠ .station p) :
    (s.freed h).link p = s.link p :=
  ((State.freed_placed hf).link p hp).trans (State.changed_link p)

theorem State.freed_sup (hf : s.SlotFree h.event) (hp : h.event ≠ .supervisor) :
    (s.freed h).main.sup = s.main.sup :=
  ((State.freed_placed hf).sup hp).trans State.settledMain_frame.2.1

/-- A request in hand at another port that no session reset has dropped stands. -/
theorem State.freed_stands (hf : s.SlotFree h.event) {p : Port} (hp : h.event ≠ .station p)
    {f : StationFrame} (hi : (s.session p).inHand = some ⟨f, none⟩) :
    ((s.freed h).session p).inHand = some ⟨f, none⟩ := by
  obtain ⟨g, hg⟩ := State.settledMain_inHand (s := s) (h := h)
  rw [(State.freed_placed hf).session p hp]
  refine (hg p).trans ?_
  rw [hi]
  rfl

/-- No request in hand comes to be dropped. -/
theorem State.freed_undropped (hf : s.SlotFree h.event) {p : Port}
    (hi : ∀ x, (s.session p).inHand = some x → x.dropped = none) :
    ∀ x, ((s.freed h).session p).inHand = some x → x.dropped = none := by
  obtain ⟨g, hg⟩ := State.settledMain_inHand (s := s) (h := h)
  intro x hx
  obtain hsame | hnone := (State.freed_placed hf).inHand p
  · rw [hsame, show ((s.changed h).session p).inHand = _ from hg p] at hx
    obtain ⟨y, hy, rfl⟩ := Option.map_eq_some_iff.mp hx
    rw [InHand.mapDropped, hi y hy]
    rfl
  · rw [hnone] at hx
    cases hx

/-- The end of a change gives the area on in the state it leaves. -/
theorem exec_complete_freed (hr : s.running = true) (hh : s.main.holder = some h) :
    exec .stagedChangeComplete s = .next (s.freed h).giveArea := by
  rw [exec_stagedChangeComplete hr, State.completeChange_held hh]
  rfl

/-- With nothing waiting that is all. -/
theorem exec_complete_alone (hr : s.running = true) (hh : s.main.holder = some h)
    (hf : s.SlotFree h.event) :
    exec .stagedChangeComplete (s.withWaiting []) = .next ((s.freed h).withWaiting []) := by
  rw [exec_complete_freed (s := s.withWaiting []) hr hh, State.freed_withWaiting hf]
  exact congrArg _ (State.giveArea_nothing rfl)

/-- With one event waiting the area is given to it. -/
theorem exec_complete_one (hr : s.running = true) (hh : s.main.holder = some h)
    (hf : s.SlotFree h.event) {e : AreaEvent} (hw : s.main.waiting = [e]) :
    exec .stagedChangeComplete s = .next (giveAreaN 4 (((s.freed h).withWaiting []).takeWaiting e)) := by
  rw [exec_complete_freed hr hh, State.giveArea_one ((State.freed_part hf).running.trans hr)
    (State.freed_holder hf) ((State.freed_waiting hf).trans hw)]

end Freed

/-! The area given to the one event that waits. -/

/-- A request in hand, taken back and handed over again. -/
theorem State.asked_dropAnswer {s : State} {p : Port} {f : StationFrame}
    (hi : (s.session p).inHand = some ⟨f, none⟩) (ho : (s.link p).outstanding = true) :
    (s.dropAnswer p).asked p f = s := by
  have hsession : { s.session p with inHand := some ⟨f, none⟩ } = s.session p := by rw [← hi]
  have hlink : { s.link p with outstanding := true } = s.link p := by rw [← ho]
  have hset : (s.dropAnswer p).asked p f =
      (s.setSession p { s.session p with inHand := some ⟨f, none⟩ }).setLink p
        { s.link p with outstanding := true } := by
    simp only [State.asked, State.dropAnswer, State.session_setLink, State.session_setSession,
      State.link_setLink]
    simp only [State.setSession, State.setLink, Four.set_set]
  rw [hset, hsession, hlink]
  simp only [State.setSession, State.setLink, State.session, State.link, Four.set_get]

/-- A request that waited for the area and stages nothing is answered. -/
theorem State.takeWaiting_unstaged {s : State} {p : Port} {f : StationFrame}
    (hi : (s.session p).inHand = some ⟨f, none⟩) (ho : (s.link p).outstanding = true)
    (hw : (stationOutcome p f s).verdict.writes = []) :
    s.takeWaiting (.station p) =
      (s.doMains (stationOutcome p f s).verdict.mains).withStationAnswer p f
        (stationOutcome p f s).verdict.answer (stationOutcome p f s).trial
        (stationOutcome p f s).replay := by
  have hi' := State.doMains_stands (stationOutcome p f s).verdict.mains hi
  have ho' := ((Calm.doMains s (stationOutcome p f s).verdict.mains).link p).1.trans ho
  have hans : ∀ r : Reply, (s.doMains (stationOutcome p f s).verdict.mains).answerStation p r =
      (s.doMains (stationOutcome p f s).verdict.mains).sendAnswer p r := fun r => by
    rw [State.answerStation, hi']
    rfl
  rw [State.takeWaiting, hi]
  dsimp only
  rw [State.judgedFor_none, hw, List.isEmpty_nil, if_pos rfl, InHand.standing_none, hans,
    State.sendAnswer_eq hi' ho']

theorem State.handOver_asked (s : State) (p : Port) (f : StationFrame) :
    s.handOver p f = if stationNeedsArea p f (s.asked p f).settleForRead then
      (s.asked p f).settleForRead.wait (.station p) else (s.asked p f).settleForRead.takeFree p f := rfl

section Turn

variable {s : State} (hr : s.running = true) (hh : s.main.holder = none) (hw : s.main.waiting = [])
include hr hh hw

theorem State.wait_giveArea (e : AreaEvent) :
    (s.wait e).giveArea = giveAreaN 4 (s.takeWaiting e) := by
  have hwait : (s.wait e).main.waiting = [e] := by simp [hw]
  rw [State.giveArea_one (s := s.wait e) hr hh hwait, State.wait_withWaiting hw]

/-- A station request given the free area comes to what its frame's arrival comes to. -/
theorem State.take_station {p : Port} {f : StationFrame}
    (hi : (s.session p).inHand = some ⟨f, none⟩) (ho : (s.link p).outstanding = true) :
    giveAreaN 4 (s.takeWaiting (.station p)) = (s.dropAnswer p).arrive p f := by
  have harrive : (s.dropAnswer p).arrive p f =
      (if stationNeedsArea p f s then s.wait (.station p) else s.takeFree p f).giveArea := by
    have hready : ((s.dropAnswer p).running && !((s.dropAnswer p).link p).outstanding) = true := by
      rw [State.dropAnswer, State.link_setLink, State.running_setLink, State.running_setSession, hr]
      rfl
    have hp : (s.dropAnswer p).powered = true := State.powered_of_running hr
    rw [State.arrive, if_pos hp, State.deliver, if_pos hready, State.handOver_asked,
      State.asked_dropAnswer hi ho, State.settleForRead_free hh]
  rw [harrive]
  cases hn : stationNeedsArea p f s with
  | true =>
    rw [if_pos rfl]
    exact (State.wait_giveArea hr hh hw _).symm
  | false =>
    have htake : s.takeWaiting (.station p) = s.takeFree p f := by
      have ht : s = if stationMayChange f then s.finishApply else s := by
        rw [State.finishApply_of_free hh, ite_self]
      rw [State.takeFree_eq hi ho ht, State.takeWaiting_unstaged hi ho (stationOutcome_writes_of_free hn)]
    have hwait : (s.takeFree p f).main.waiting = [] := by
      rw [State.takeFree_eq hi ho (t := s) (by rw [State.finishApply_of_free hh, ite_self])]
      exact (Calm.doMains s _).waiting.trans hw
    rw [if_neg nofun, htake, giveAreaN_nothing _ hwait, State.giveArea_nothing hwait]

/-- The supervisor's request given the free area comes to what its write comes to. -/
theorem State.take_supervisor {r : SupervisorRequest} (hs : s.main.sup = SupLink.asked r) :
    giveAreaN 4 (s.takeWaiting .supervisor) = (s.setSup SupLink.reset).submit r := by
  have hback : (s.setSup SupLink.reset).setSup (SupLink.asked r) = s := by
    rw [State.setSup_setSup, ← hs]
    rfl
  have hq : s.main.sup.request = some r := by
    rw [hs]
    rfl
  rw [State.submit_running (s := s.setSup SupLink.reset) hr nofun, hback]
  cases hn : r.needsArea with
  | true =>
    have hhand : s.handSupervisor = s.wait .supervisor := by
      simp only [State.handSupervisor, hq, hn, if_true]
    rw [hhand]
    exact (State.wait_giveArea hr hh hw _).symm
  | false =>
    obtain ⟨hwrites, hmains⟩ := judge_of_free hn s
    have hhand : s.handSupervisor = s.answerSupervisor (r.judge s).answer := by
      simp only [State.handSupervisor, hq, hn, Bool.false_eq_true, if_false, State.settleForRead_free hh]
    have htake : s.takeWaiting .supervisor = s.answerSupervisor (r.judge s).answer := by
      simp only [State.takeWaiting, hq, hwrites, hmains, List.isEmpty_nil, if_true, State.doMains]
    have hwait : (s.answerSupervisor (r.judge s).answer).main.waiting = [] := by
      simp only [State.answerSupervisor, hq]
      exact hw
    rw [htake, hhand, giveAreaN_nothing _ hwait, State.giveArea_nothing hwait]

/-- An internal event given the free area comes to what it comes to when it is raised. -/
theorem State.take_raised {e : AreaEvent} {v : List RetWrite × List MainWrite}
    (htake : s.takeWaiting e = s.stageOrDo e v) : giveAreaN 4 (s.takeWaiting e) = s.raise e v := by
  cases hv : v.1.isEmpty with
  | true =>
    rw [htake, State.stageOrDo, if_pos hv, State.raise, if_pos hv]
    exact giveAreaN_nothing _ ((Calm.doMains s _).waiting.trans hw)
  | false =>
    rw [State.raise, hv, if_neg nofun, if_neg (by simp [hw]), State.requestArea,
      State.wait_giveArea hr hh hw]

end Turn

end Sys2Proof.Machine
end

section
/-! PROOFS. The area held by one event while others wait for it, and given to them in their order. -/

namespace Sys2Proof.Machine

/-! An event given the area does not look at those that wait behind it. -/

/-- Nothing of the event has been dropped by a session reset. -/
def State.Undropped (s : State) (e : AreaEvent) : Prop :=
  ∀ p, e = .station p → ∀ x, (s.session p).inHand = some x → x.dropped = none

/-- A request in hand that stands, with something to stage or nothing. -/
theorem State.takeWaiting_stands {s : State} {p : Port} {f : StationFrame}
    (hi : (s.session p).inHand = some ⟨f, none⟩) :
    s.takeWaiting (.station p) =
      if (stationOutcome p f s).verdict.writes.isEmpty then
        (s.doMains (stationOutcome p f s).verdict.mains).sendAnswer p
          ⟨(stationOutcome p f s).verdict.answer, (stationOutcome p f s).trial,
            (stationOutcome p f s).replay⟩
      else s.holdArea (.station p) (stationOutcome p f s).verdict.writes
        (stationOutcome p f s).verdict.mains
        (some ⟨(stationOutcome p f s).verdict.answer, (stationOutcome p f s).trial,
          (stationOutcome p f s).replay⟩) := by
  have hans : ∀ r : Reply, (s.doMains (stationOutcome p f s).verdict.mains).answerStation p r =
      (s.doMains (stationOutcome p f s).verdict.mains).sendAnswer p r := fun r => by
    rw [State.answerStation, State.doMains_stands (stationOutcome p f s).verdict.mains hi]
    rfl
  rw [State.takeWaiting, hi]
  dsimp only
  rw [State.judgedFor_none, InHand.standing_none, hans]

theorem State.takeWaiting_station_none {s : State} {p : Port} (hi : (s.session p).inHand = none) :
    s.takeWaiting (.station p) = s := by
  rw [State.takeWaiting, hi]

theorem State.takeWaiting_supervisor (s : State) :
    s.takeWaiting .supervisor = match s.main.sup.request with
      | none => s
      | some r => if (r.judge s).writes.isEmpty then
          (s.doMains (r.judge s).mains).answerSupervisor (r.judge s).answer
        else s.holdArea .supervisor (r.judge s).writes (r.judge s).mains
          (some ⟨(r.judge s).answer, false, false⟩) := rfl

/-- What an internal event has to stage and to make, when there is such an event. -/
def State.internalVerdict (s : State) : AreaEvent → Option (List RetWrite × List MainWrite)
  | .holdExpiry id => (s.dueHold id).map fun h => holdExpiryVerdict h s
  | .pinExpiry p => (s.duePin p).map fun x => pinEndVerdict p x s
  | .sessionPinEnd p => (s.session p).pin.map fun x => pinEndVerdict p x s
  | .station _ | .supervisor | .startUpDrain _ => none

/-- An internal event given the area has its verdict, or nothing to do. -/
theorem State.takeWaiting_internal (s : State) {e : AreaEvent} (he : e.isRequest = false) :
    s.takeWaiting e = (s.internalVerdict e).elim s (s.stageOrDo e) := by
  cases e with
  | station | supervisor => cases he
  | startUpDrain slot => rfl
  | holdExpiry id =>
    rw [State.takeWaiting, State.internalVerdict]
    cases s.dueHold id <;> rfl
  | pinExpiry p =>
    rw [State.takeWaiting, State.internalVerdict]
    cases s.duePin p <;> rfl
  | sessionPinEnd p =>
    rw [State.takeWaiting, State.internalVerdict]
    cases (s.session p).pin <;> rfl

theorem State.internalVerdict_withWaiting (s : State) (e : AreaEvent) (w : List AreaEvent) :
    (s.withWaiting w).internalVerdict e = s.internalVerdict e := by
  cases e <;> rfl

/-- Nor does it change them, or another part of the state than the two memories. -/
theorem State.takeWaiting_withWaiting {s : State} {e : AreaEvent} (hu : s.Undropped e) (w : List AreaEvent) :
    (s.withWaiting w).takeWaiting e = (s.takeWaiting e).withWaiting w ∧ SamePart s (s.takeWaiting e) := by
  cases e with
  | station p =>
    cases hi : (s.session p).inHand with
    | none =>
      rw [State.takeWaiting_station_none hi, State.takeWaiting_station_none (s := s.withWaiting w) hi]
      exact ⟨rfl, .refl s⟩
    | some x =>
      obtain ⟨f, d⟩ := x
      obtain rfl : d = none := hu p rfl _ hi
      rw [State.takeWaiting_stands hi, State.takeWaiting_stands (s := s.withWaiting w) hi,
        stationOutcome_withWaiting]
      split
      · rw [State.doMains_withWaiting, State.sendAnswer_withWaiting]
        exact ⟨rfl, .trans (.doMains s _) (.sendAnswer _ _ _)⟩
      · exact ⟨rfl, _, _, rfl⟩
  | supervisor =>
    have hq : (s.withWaiting w).main.sup.request = s.main.sup.request := rfl
    rw [State.takeWaiting_supervisor, State.takeWaiting_supervisor, hq]
    split
    · exact ⟨rfl, .refl s⟩
    · rw [judge_withWaiting]
      split
      · rw [State.doMains_withWaiting, State.answerSupervisor_withWaiting]
        exact ⟨rfl, .trans (.doMains s _) (.answerSupervisor _ _)⟩
      · exact ⟨rfl, _, _, rfl⟩
  | holdExpiry | pinExpiry | sessionPinEnd | startUpDrain =>
    rw [State.takeWaiting_internal _ rfl, State.takeWaiting_internal _ rfl,
      State.internalVerdict_withWaiting]
    cases s.internalVerdict _ with
    | none => exact ⟨rfl, .refl s⟩
    | some v => exact ⟨State.stageOrDo_withWaiting s w _ v, .stageOrDo s _ v⟩

/-- With events waiting behind it, an event given the area hands on to them what it leaves. -/
theorem exec_complete_first {s : State} {h : Holder} {e : AreaEvent} {rest : List AreaEvent}
    (hr : s.running = true) (hh : s.main.holder = some h) (hf : s.SlotFree h.event)
    (hw : s.main.waiting = e :: rest) (hu : s.Undropped e) {t : State}
    (ht : exec .stagedChangeComplete (s.withWaiting [e]) = .next t) :
    exec .stagedChangeComplete s = .next (giveAreaN (rest.length + 4) (t.withWaiting rest)) ∧
      SamePart s t := by
  have hpart := State.freed_part hf
  have hundropped : (s.freed h).Undropped e := fun p hp => State.freed_undropped hf (hu p hp)
  have hone := exec_complete_one (s := s.withWaiting [e]) hr hh hf rfl
  rw [ht, State.freed_withWaiting hf, State.withWaiting_withWaiting] at hone
  obtain ⟨hcomm, hsame⟩ := State.takeWaiting_withWaiting hundropped []
  have hnone : (((s.freed h).withWaiting []).takeWaiting e).main.waiting = [] := by
    rw [hcomm]
    rfl
  rw [giveAreaN_nothing _ hnone, hcomm] at hone
  injection hone with hone
  have hleft : t.withWaiting rest = ((s.freed h).withWaiting rest).takeWaiting e := by
    rw [hone, (State.takeWaiting_withWaiting hundropped rest).1]
    rfl
  refine ⟨?_, hone ▸ hpart.trans (hsame.trans ⟨_, _, rfl⟩)⟩
  have hwait := (State.freed_waiting hf).trans hw
  rw [exec_complete_freed hr hh, State.giveArea, hpart.running, hr, if_pos rfl, hwait, List.length_cons,
    hleft]
  exact congrArg _ (giveAreaN_next (rest.length + 4) (State.freed_holder hf) hwait)

/-- Settles O53: what comes while the area is held, and how the area goes on at the end of the change. -/
theorem heldAreaMakesRequestsWait : Obligations.HeldAreaMakesRequestsWait := by
  unfold Obligations.HeldAreaMakesRequestsWait
  refine ⟨fun s h hr hh => ⟨fun p f hf ho => ?_, fun r hw hs => ?_⟩,
    fun s freed h hr hh hslot hfreed => ?_, fun s t h e rest hr hq hh hw hslot hin ht => ?_⟩
  · exact exec_heldStation hr hh hf ho rfl
  · obtain ⟨hwaits, hfree⟩ := exec_heldSupervisor hr hh hw hs
    exact ⟨hwaits, fun hn => hfree hn _ rfl⟩
  · have hfreed' : freed = (s.freed h).withWaiting [] := by
      have := (exec_complete_alone hr hh hslot).symm.trans hfreed
      injection this with this
      exact this.symm
    have hrun : freed.running = true := hfreed' ▸ (State.freed_part hslot).running.trans hr
    have hfree : freed.main.holder = none := hfreed' ▸ State.freed_holder hslot
    have hnone : freed.main.waiting = [] := hfreed' ▸ rfl
    have hone : ∀ {e : AreaEvent}, s.main.waiting = [e] →
        exec .stagedChangeComplete s = .next (giveAreaN 4 (freed.takeWaiting e)) := fun hw =>
      hfreed' ▸ exec_complete_one hr hh hslot hw
    have hevent : ∀ (e : AreaEvent) (c : Instr), s.main.waiting = [e] → e.isRequest = false →
        exec c freed = .next ((freed.internalVerdict e).elim freed (freed.raise e)) →
        exec .stagedChangeComplete s = exec c freed := fun e c hw he hc => by
      have htake := State.takeWaiting_internal freed he
      rw [hone hw, hc]
      cases hv : freed.internalVerdict e with
      | none =>
        rw [hv] at htake
        rw [htake]
        exact congrArg _ (giveAreaN_nothing _ hnone)
      | some v =>
        rw [hv] at htake
        exact congrArg _ (State.take_raised hrun hfree hnone htake)
    refine ⟨fun p f hw hne hf hi ho => ?_, fun r hw hne hrw hs => ?_, fun holdId hw => hevent _ _ hw rfl ?_,
      fun p hw => hevent _ _ hw rfl ?_, fun p hw => ?_⟩
    · have hi' : (freed.session p).inHand = some ⟨f, none⟩ := hfreed' ▸ State.freed_stands hslot hne hi
      have ho' : (freed.link p).outstanding = true := by
        have : (s.freed h).link p = s.link p := State.freed_link hslot hne
        rw [hfreed']
        exact (congrArg Link.outstanding this).trans ho
      rw [hone hw, exec_command hf, State.take_station hrun hfree hnone hi' ho']
      rfl
    · have hs' : freed.main.sup = SupLink.asked r := hfreed' ▸ (State.freed_sup hslot hne).trans hs
      rw [hone hw, exec_supervisorCommand hrw, State.take_supervisor hrun hfree hnone hs']
    · cases hd : freed.dueHold holdId.toNat with
      | none => rw [exec_holdExpiry_early hrun hfree hd, State.internalVerdict, hd]; rfl
      | some x => rw [exec_holdExpiry_due hrun hfree hd, State.internalVerdict, hd]; rfl
    · cases hd : freed.duePin p with
      | none => rw [exec_pinExpiry_early hrun hfree hd, State.internalVerdict, hd]; rfl
      | some x => rw [exec_pinExpiry_due hrun hfree hd, State.internalVerdict, hd]; rfl
    · show _ = execSessionResetPinEnd p (freed.withWaiting [.sessionPinEnd p])
      have hready : ((freed.withWaiting [.sessionPinEnd p]).running &&
          (freed.withWaiting [.sessionPinEnd p]).main.waiting.contains (.sessionPinEnd p)) = true := by
        rw [show (freed.withWaiting [.sessionPinEnd p]).running = true from hrun]
        simp
      rw [execSessionResetPinEnd, if_pos hready, hone hw,
        State.giveArea_one (s := freed.withWaiting [.sessionPinEnd p]) hrun hfree rfl,
        State.withWaiting_withWaiting, ← hnone]
      rfl
  · have hu : s.Undropped e := fun p hp x hx => by
      obtain ⟨f, hf⟩ := hin p hp
      rw [hf] at hx
      injection hx with hx
      rw [← hx]
    obtain ⟨hexec, hpart⟩ := exec_complete_first hr hh hslot hw hu ht
    have hrun : t.running = true := hpart.running.trans hr
    refine ⟨fun hn => ?_, fun hn => ?_⟩
    · rw [hexec, giveAreaN_held (s := t.withWaiting rest) _ (Option.isSome_iff_ne_none.mpr hn)]
      rfl
    · have hpend : (t.withWaiting rest).pending = [] := hpart.pending.trans hq
      have hidle : (t.withWaiting rest).idle = giveAreaN (rest.length + 4) (t.withWaiting rest) := by
        have hp : (t.withWaiting rest).powered = true := State.powered_of_running hrun
        have hc : (t.withWaiting rest).check = none := State.check_of_running hrun
        have hgive : (t.withWaiting rest).giveArea = giveAreaN (rest.length + 4) (t.withWaiting rest) :=
          if_pos hrun
        simp only [State.idle, hp, hc, State.withWaiting_holder, hn, if_true, hgive]
      show _ = step (t.withWaiting rest)
      rw [hexec, step, hpend]
      exact congrArg _ hidle.symm

end Sys2Proof.Machine
end

section
/-! PROOFS. A BREAK, the pin end of a session reset, and the request that a session reset has dropped. -/

namespace Sys2Proof.Machine

/-! A BREAK. -/

/-- A request in hand after a session reset under a cursor: the first reset's cursor is kept. -/
theorem InHand.dropped_getD (x : Option InHand) (cursor : Cursor) :
    x.map (fun h => { h with dropped := some (h.dropped.getD cursor) }) =
      x.map fun h => { h with
        dropped := match h.dropped with
          | none => some cursor
          | some c => some c } := by
  obtain _ | ⟨f, d⟩ := x
  · rfl
  · cases d <;> rfl

theorem State.waitsToPin_iff (s : State) (p : Port) : s.waitsToPin p = true ↔
    (∃ h, (s.session p).inHand = some h ∧ h.frame.req = .pin) ∧ .station p ∈ s.main.waiting := by
  rw [State.waitsToPin]
  cases hi : (s.session p).inHand with
  | none => simp
  | some h => simp

/-- The state of a port after a BREAK, before the end of its pin. -/
def State.broken (s : State) (p : Port) : State :=
  (s.setLink p { (s.link p).hunt with lineLow := true }).sessionReset p

theorem State.broken_eq (u : State) (p : Port) :
    u.broken p = (u.setSession p { u.session p with
        cursor := .none
        fresh := true
        inHand := (u.session p).inHand.map fun h => { h with
          dropped := match h.dropped with
            | none => some (u.session p).cursor
            | some c => some c } }).setLink p
      { u.link p with
        rx := .hunt
        buffer := []
        rxRate := none
        lineLow := true
        pendingSlot := none } := by
  rw [← InHand.dropped_getD]
  simp only [State.broken, State.sessionReset, State.session_setLink, State.link_setLink]
  exact State.setLink_setLink (u.setSession p _) p _ _

theorem exec_break {s u : State} {p : Port} (hp : s.powered = true) (hl : (s.link p).lineLow = false)
    (hu : u = if s.check = none then s.finishApply else s) :
    exec (.breakReceived p) s =
      .next (if (u.broken p).pinEndDue p then (u.broken p).wait (.sessionPinEnd p) else u.broken p) := by
  have hrun : (if s.running = true then s.finishApply else s) = u := by
    rw [hu]
    refine if_congr ?_ rfl rfl
    rw [State.running, hp, Bool.true_and, Option.isNone_iff_eq_none]
  show execBreak p s = _
  rw [execBreak, hp, hl, if_neg nofun]
  dsimp only
  rw [hrun]
  rfl

/-- Port p's request in hand is a PIN, and waits for the area in another state with the same events waiting. -/
def State.PinWaits (u : State) (p : Port) : Prop :=
  (∃ h, (u.session p).inHand = some h ∧ h.frame.req = .pin) ∧ .station p ∈ u.main.waiting

/-- When the pin end of a BREAK comes to wait. -/
theorem State.pinEndDue_broken (u : State) (p : Port) :
    (u.PinWaits p → ((u.broken p).pinEndDue p = true ↔
      .sessionPinEnd p ∉ u.main.waiting.dropWhile (· != .station p))) ∧
    (¬ u.PinWaits p → ((u.broken p).pinEndDue p = true ↔
      (u.session p).pin ≠ none ∧ .sessionPinEnd p ∉ u.main.waiting)) := by
  have hsession := congrArg (fun t => t.session p) (u.broken_eq p)
  simp only [State.session_setLink, State.session_setSession] at hsession
  have hwait : (u.broken p).main.waiting = u.main.waiting := rfl
  have hpins : (u.broken p).waitsToPin p = true ↔ u.PinWaits p := by
    rw [State.waitsToPin_iff, State.PinWaits, hwait, hsession]
    cases (u.session p).inHand <;> simp
  refine ⟨fun h => ?_, fun h => ?_⟩
  · rw [State.pinEndDue_iff, if_pos (hpins.mpr h), hwait]
  · rw [State.pinEndDue_iff, if_neg fun hc => h (hpins.mp hc), hwait, hsession]

/-! The pin end of a session reset. -/

/-- The area is free, and the pin end of a session reset waits for it alone. -/
theorem exec_sessionPinEnd {s : State} (h : s.AreaFree) (p : Port) :
    exec (.sessionResetPinEnd p) (s.withWaiting [.sessionPinEnd p]) =
      .next (giveAreaN 4 (s.takeWaiting (.sessionPinEnd p))) := by
  have hready : ((s.withWaiting [.sessionPinEnd p]).running &&
      (s.withWaiting [.sessionPinEnd p]).main.waiting.contains (.sessionPinEnd p)) = true := by
    rw [show (s.withWaiting [.sessionPinEnd p]).running = true from h.running]
    simp
  have hback : (s.withWaiting [.sessionPinEnd p]).withWaiting [] = s := by
    rw [State.withWaiting_withWaiting, ← h.waiting, State.withWaiting_self]
  show execSessionResetPinEnd p _ = _
  rw [execSessionResetPinEnd, if_pos hready,
    State.giveArea_one (s := s.withWaiting [.sessionPinEnd p]) h.running h.holder rfl, hback]

theorem takeWaiting_pinEnd {s : State} {p : Port} {e : PinEntry} (hp : (s.session p).pin = some e) :
    s.takeWaiting (.sessionPinEnd p) = s.stageOrDo (.sessionPinEnd p) (pinEndVerdict p e s) := by
  rw [State.takeWaiting, hp]

/-- Without such a pin end waiting, or with the area held, the command does nothing. -/
theorem exec_sessionPinEnd_idle {s : State} {p : Port}
    (h : .sessionPinEnd p ∉ s.main.waiting ∨ s.main.holder ≠ none) :
    exec (.sessionResetPinEnd p) s = .next s := by
  show execSessionResetPinEnd p s = _
  rw [execSessionResetPinEnd]
  split
  · rename_i hc
    obtain h | h := h
    · simp [h] at hc
    · rw [State.giveArea_held (Option.isSome_iff_ne_none.mpr h)]
  · rfl

/-! The effects of a station request. -/

/-- A main-memory effect that a request of port p can have. -/
def MainWrite.ofStation (p : Port) : MainWrite → Bool
  | .cursor q _ => q == p
  | .pin .. | .addHold _ | .dropHold _ | .nextId _ | .recordEnd .. | .forgetEnd _ => true
  | .slotGone _ | .standby _ | .loaded _ | .wipe => false

theorem judge_ofStation (r : StationRequest) (p : Port) (s : State) :
    (r.judge p s).mains.all (MainWrite.ofStation p) = true := by
  cases r with
  | bad => rfl
  | stationStatus => rfl
  | balance =>
    show (judgeBalance p s).mains.all _ = true
    rw [judgeBalance]
    split <;> rfl
  | select key =>
    show (judgeSelect p (keyOf key) s).mains.all _ = true
    rw [judgeSelect]
    split
    · simp [MainWrite.ofStation]
    · split <;> simp [MainWrite.ofStation]
  | pin =>
    show (judgePin p s).mains.all _ = true
    rw [judgePin]
    split
    · rfl
    · split
      · rfl
      · dsimp only
        split
        · rfl
        · split
          · rfl
          · split <;> rfl
  | unpin =>
    show (judgeUnpin p s).mains.all _ = true
    rw [judgeUnpin]
    split <;> rfl
  | fare e x t =>
    show (judgeFare p e.toNat x.toNat (t == 1) s).mains.all _ = true
    rw [judgeFare]
    split
    · rfl
    · dsimp only
      split
      · rfl
      · split
        · rfl
        · split
          · rfl
          · split
            · rfl
            · split <;> rfl
  | hold n l t =>
    show (judgeHold p (amount6 n) l.toNat (t == 1) s).mains.all _ = true
    rw [judgeHold]
    split
    · rfl
    · dsimp only
      split
      · rfl
      · dsimp only
        split <;> rfl
  | capture i n t =>
    show (judgeCapture p i.toNat (amount6 n) (t == 1) s).mains.all _ = true
    rw [judgeCapture]
    split
    · rfl
    · split
      · rfl
      · dsimp only
        split <;> rfl
  | release i =>
    show (judgeRelease p i.toNat s).mains.all _ = true
    rw [judgeRelease]
    split <;> rfl
  | topUp n t =>
    show (judgeTopUp p (amount6 n) (t == 1) s).mains.all _ = true
    rw [judgeTopUp]
    split
    · rfl
    · dsimp only
      split
      · rfl
      · split <;> rfl

/-- What a station request has to make in main memory is its own port's. -/
theorem stationOutcome_ofStation (p : Port) (f : StationFrame) (s : State) :
    (stationOutcome p f s).verdict.mains.all (MainWrite.ofStation p) = true := by
  have hcache : ∀ v : Verdict, (withCache p f v s).mains = v.mains := fun v => by
    rw [withCache]
    split <;> rfl
  rw [stationOutcome]
  split
  · rw [hcache]
    rfl
  · split
    · split <;> rfl
    · rw [hcache, StationRequest.ladder]
      split
      · rfl
      · split
        · rfl
        · exact judge_ofStation _ p s

/-- Main memory with another cursor and no request in hand at a port, and other links. -/
def Main.reseat (m : Main) (p : Port) (c : Cursor) (l : Four Link) : Main :=
  { m.mapSession p (fun x => { x with cursor := c, inHand := none }) with links := l }

/-- An effect other than a cursor's does not look at the port's cursor. -/
theorem applyMain_reseat {w : MainWrite} {p : Port} (hw : w.ofStation p = true)
    (hs : w.sparesCursor = true) (m : Main) (c : Cursor) (l : Four Link) :
    applyMain w (m.reseat p c l) = (applyMain w m).reseat p c l := by
  cases w with
  | cursor => cases hs
  | slotGone | standby | loaded | wipe => cases hw
  | pin q e => cases p <;> cases q <;> rfl
  | _ => rfl

/-- A request's effects with its cursor's left out, made on another cursor and without the request in hand. -/
theorem Main.effects_reseat {p : Port} {ms : List MainWrite} (h : ms.all (MainWrite.ofStation p) = true)
    (m : Main) (c : Cursor) (l : Four Link) :
    ∃ c', (m.reseat p c l).effects ms = (m.effects (ms.filter MainWrite.sparesCursor)).reseat p c' l := by
  induction ms generalizing m c with
  | nil => exact ⟨c, rfl⟩
  | cons w ms ih =>
    rw [List.all_cons, Bool.and_eq_true] at h
    obtain ⟨hw, h⟩ := h
    cases hs : w.sparesCursor with
    | true =>
      rw [Main.effects_cons, applyMain_reseat hw hs, List.filter_cons_of_pos hs, Main.effects_cons]
      exact ih h (applyMain w m) c
    | false =>
      cases w with
      | cursor q x =>
        obtain rfl : q = p := by simpa [MainWrite.ofStation] using hw
        have hc : applyMain (.cursor q x) (m.reseat q c l) = m.reseat q x l := by
          cases q <;> rfl
        rw [Main.effects_cons, hc, List.filter_cons_of_neg (by simp [MainWrite.sparesCursor])]
        exact ih h m x
      | _ => cases hs

/-- The effects of a request, its cursor's left out, leave cursor, FRESH and OVERRUN. -/
theorem Main.effects_spare {p : Port} {ms : List MainWrite} (h : ms.all (MainWrite.ofStation p) = true)
    (m : Main) :
    ∃ pin, ((m.effects (ms.filter MainWrite.sparesCursor)).sessions.get p) =
      { m.sessions.get p with pin := pin } := by
  induction ms generalizing m with
  | nil => exact ⟨(m.sessions.get p).pin, rfl⟩
  | cons w ms ih =>
    rw [List.all_cons, Bool.and_eq_true] at h
    obtain ⟨hw, h⟩ := h
    cases hs : w.sparesCursor with
    | false =>
      rw [List.filter_cons_of_neg (by simp [hs])]
      exact ih h m
    | true =>
      obtain ⟨pin, hpin⟩ := ih h (applyMain w m)
      have hone : ∃ e, (applyMain w m).sessions.get p = { m.sessions.get p with pin := e } := by
        cases w with
        | cursor => cases hs
        | slotGone | standby | loaded | wipe => cases hw
        | pin q e =>
          by_cases hq : p = q
          · subst hq
            exact ⟨e, Four.get_set_self _ _ _⟩
          · exact ⟨(m.sessions.get p).pin, Four.get_set_of_ne _ _ hq⟩
        | _ => exact ⟨(m.sessions.get p).pin, rfl⟩
      obtain ⟨e, he⟩ := hone
      rw [List.filter_cons_of_pos hs, Main.effects_cons, hpin, he]
      exact ⟨pin, rfl⟩

end Sys2Proof.Machine
end

section
/-! PROOFS. A BREAK resets the session: its parts put together. -/

namespace Sys2Proof.Machine

/-! The answer that a session reset has dropped, with another frame pending or none. -/

section Dropped

variable {s : State} {p : Port} {f : StationFrame} {c : Cursor}

theorem State.answerStation_dropped (hi : ((s.session p).inHand.bind InHand.dropped).isSome = true)
    (r : Reply) : s.answerStation p r = (s.dropAnswer p).handOn p := by
  rw [State.answerStation]
  cases h : (s.session p).inHand with
  | none =>
    rw [h] at hi
    cases hi
  | some x =>
    rw [h] at hi
    exact if_pos hi

/-- The port's request is done and its answer dropped: nothing is in hand and nothing pending. -/
def State.dropped (s : State) (p : Port) : State :=
  (s.setSession p { s.session p with inHand := none }).setLink p
    { s.link p with outstanding := false, pendingSlot := none }

theorem State.dropAnswer_handOn_some (hr : s.running = true) {g : StationFrame}
    (hg : (s.link p).pendingSlot = some g) :
    (s.dropAnswer p).handOn p = (s.dropped p).handOver p g := by
  have hslot : ((s.dropAnswer p).link p).pendingSlot = some g := by simp [State.dropAnswer, hg]
  have hready : ((s.dropAnswer p).running && !((s.dropAnswer p).link p).outstanding) = true := by
    rw [State.dropAnswer, State.link_setLink, State.running_setLink, State.running_setSession, hr]
    rfl
  have hdropped : (s.dropAnswer p).setLink p { (s.dropAnswer p).link p with pendingSlot := none } =
      s.dropped p := by
    simp only [State.dropAnswer, State.link_setLink, State.setLink_setLink, State.dropped]
  rw [State.handOn, hslot]
  dsimp only
  rw [if_pos hready, hdropped]

theorem State.dropped_of_none (hg : (s.link p).pendingSlot = none) : s.dropAnswer p = s.dropped p := by
  have hlink : { s.link p with outstanding := false, pendingSlot := none } =
      { s.link p with outstanding := false } := by rw [← hg]
  rw [State.dropped, hlink, State.dropAnswer]

/-- Main-memory effects leave it dropped. -/
theorem applyMains_dropped {m : Main} (ms : List MainWrite)
    (hi : (m.sessions.get p).inHand = some ⟨f, some c⟩) :
    ((((applyMains ms m).sessions.get p).inHand).bind InHand.dropped).isSome = true := by
  obtain ⟨g, hg⟩ := applyMains_inHand ms m
  rw [hg, hi]
  rfl

end Dropped

/-! A dropped request that held the area. -/

theorem State.settledMain_of_owed {s : State} {h : Holder} (hh : s.main.holder = some h)
    (ho : s.main.clockOwed = 0) : s.settledMain h = s.appliedMain := by
  have happlied : s.appliedMain = if h.phase = .clear then s.main else s.main.effects h.mains := by
    simp only [State.appliedMain, hh]
    rfl
  rw [happlied]
  by_cases hp : h.phase = .clear
  · rw [State.settledMain_clear hp, if_pos hp]
  · rw [State.settledMain_phase hp, if_neg hp, applyMains_of_owed ho]

/-- The end of the change of a port's request whose answer a session reset has dropped. -/
theorem exec_complete_dropped {s : State} {p : Port} {h : Holder} {reply : Reply} {f : StationFrame}
    {c : Cursor} (hr : s.running = true) (hh : s.main.holder = some h) (he : h.event = .station p)
    (hreply : h.reply = some reply) (hi : (s.session p).inHand = some ⟨f, some c⟩) :
    exec .stagedChangeComplete s = .next (((s.changed h).dropAnswer p).handOn p).giveArea := by
  have hdropped : (((s.changed h).session p).inHand.bind InHand.dropped).isSome = true := by
    obtain ⟨g, hg⟩ := State.settledMain_inHand (s := s) (h := h)
    rw [show ((s.changed h).session p).inHand = _ from hg p, hi]
    rfl
  rw [exec_complete_freed hr hh, State.freed, he, hreply, ← State.answerStation_dropped hdropped reply]
  rfl

/-! A dropped request that waited for the area. -/

theorem Done.unique {c : Instr} {s u v : State} (h : Done c s u) (g : Done c s v) : u = v := by
  obtain ⟨t, ht, hu⟩ := h
  obtain ⟨t', ht', hv⟩ := g
  rw [ht] at ht'
  injection ht' with ht'
  subst ht'
  rw [hu] at hv
  injection hv

section Waited

variable {s : State} {p : Port} {f : StationFrame} {c : Cursor}

/-- The same request asked anew under the cursor that the session reset found. -/
def State.askedUnder (s : State) (p : Port) (c : Cursor) : State :=
  (s.setSession p { s.session p with cursor := c, inHand := none }).setLink p
    { s.link p with outstanding := false }

theorem State.askedUnder_main : (s.askedUnder p c).main =
    s.main.reseat p c (s.main.links.set p { s.link p with outstanding := false }) := rfl

theorem stationOutcome_askedUnder :
    stationOutcome p f (s.judgedFor p ⟨f, some c⟩) = stationOutcome p f (s.askedUnder p c) := by
  have hasked : s.askedUnder p c = (s.judgedFor p ⟨f, some c⟩).inHand p none
      (s.main.links.set p { s.link p with outstanding := false }) s.main.waiting := by
    simp only [State.askedUnder, State.judgedFor, State.inHand, State.setSession, State.setLink,
      State.session, State.link, Main.mapSession, Four.set_set, Four.get_set_self]
  rw [hasked, stationOutcome_inHand]

/-- What is left of a dropped request that has been carried out in full. -/
def State.carriedOut (s : State) (p : Port) (o : StationOutcome) : State :=
  ({ s with
    ret := applyRets o.verdict.writes s.ret
    main := s.main.effects (o.verdict.mains.filter MainWrite.sparesCursor) } : State).dropAnswer p

/-- The area free for a request in hand that a session reset has dropped, with no frame behind it. -/
structure State.DroppedFree (s : State) (p : Port) (f : StationFrame) (c : Cursor) : Prop extends
    s.AreaFree where
  inHand : (s.session p).inHand = some ⟨f, some c⟩
  slot : (s.link p).pendingSlot = none

theorem State.DroppedFree.answer (h : s.DroppedFree p f c) (ret : Retained) (ms : List MainWrite)
    (r : Reply) : ({ s with ret := ret, main := s.main.effects ms } : State).answerStation p r =
      ({ s with ret := ret, main := s.main.effects ms } : State).dropAnswer p := by
  have hi : ((({ s with ret := ret, main := s.main.effects ms } : State).session p).inHand.bind
      InHand.dropped).isSome = true := by
    have := applyMains_dropped ms h.inHand
    rwa [applyMains_of_owed h.owed] at this
  have hl : (({ s with ret := ret, main := s.main.effects ms } : State).link p).pendingSlot = none := by
    rw [State.link, Main.effects_links]
    exact h.slot
  rw [State.answerStation_dropped hi, State.dropAnswer_handOn hl]

/-- A dropped request is carried out in full once it is given the area. -/
theorem State.DroppedFree.carriedOut (h : s.DroppedFree p f c) :
    (giveAreaN 4 (s.takeWaiting (.station p))).completeChange =
        s.carriedOut p (stationOutcome p f (s.askedUnder p c)) ∧
      (giveAreaN 4 (s.takeWaiting (.station p))).running = true := by
  have hi := h.inHand
  have hmains : ∀ ms, (⟨f, some c⟩ : InHand).standing ms = ms.filter MainWrite.sparesCursor := fun _ => rfl
  have htake : s.takeWaiting (.station p) =
      if (stationOutcome p f (s.askedUnder p c)).verdict.writes.isEmpty then
        (s.doMains ((stationOutcome p f (s.askedUnder p c)).verdict.mains.filter
          MainWrite.sparesCursor)).answerStation p
          ⟨(stationOutcome p f (s.askedUnder p c)).verdict.answer,
            (stationOutcome p f (s.askedUnder p c)).trial, (stationOutcome p f (s.askedUnder p c)).replay⟩
      else s.holdArea (.station p) (stationOutcome p f (s.askedUnder p c)).verdict.writes
        ((stationOutcome p f (s.askedUnder p c)).verdict.mains.filter MainWrite.sparesCursor)
        (some ⟨(stationOutcome p f (s.askedUnder p c)).verdict.answer,
          (stationOutcome p f (s.askedUnder p c)).trial,
          (stationOutcome p f (s.askedUnder p c)).replay⟩) := by
    rw [State.takeWaiting, hi]
    dsimp only
    rw [stationOutcome_askedUnder, hmains]
  generalize stationOutcome p f (s.askedUnder p c) = o at htake ⊢
  have hwait : (s.carriedOut p o).main.waiting = [] := by
    show (s.main.effects _).waiting = []
    rw [Main.effects_waiting]
    exact h.waiting
  have hfree : (s.carriedOut p o).main.holder = none := by
    show (s.main.effects _).holder = none
    rw [Main.effects_holder]
    exact h.holder
  cases hw : o.verdict.writes.isEmpty with
  | true =>
    rw [hw, if_pos rfl, State.doMains_of_owed h.owed, h.answer s.ret] at htake
    have hcarried : s.takeWaiting (.station p) = s.carriedOut p o := by
      rw [htake, State.carriedOut, List.isEmpty_iff.mp hw]
      rfl
    rw [hcarried, giveAreaN_nothing _ hwait, State.completeChange_of_free hfree]
    exact ⟨rfl, h.running⟩
  | false =>
    rw [hw, if_neg nofun] at htake
    rw [htake, giveAreaN_held _ rfl]
    refine ⟨?_, h.running⟩
    have hcomplete : ∀ (ws : List RetWrite) (ms : List MainWrite) (x : Reply),
        (s.holdArea (.station p) ws ms (some x)).completeChange =
          (((s.holdArea (.station p) ws ms (some x)).finishApply.clearArea).answerStation p
            x).giveArea := fun _ _ _ => rfl
    rw [hcomplete, State.finish_holdArea h.owed h.holder h.staged h.completion, h.answer]
    exact State.giveArea_nothing hwait

/-- That is what the request asked anew comes to, but for the port's session and its answer. -/
theorem State.carriedOut_eq (o : StationOutcome)
    (ho : o.verdict.mains.all (MainWrite.ofStation p) = true) {u : State}
    (hu : u = ({ s.askedUnder p c with
      ret := applyRets o.verdict.writes (s.askedUnder p c).ret
      main := (s.askedUnder p c).main.effects o.verdict.mains } : State).withStationAnswer p f
        o.verdict.answer o.trial o.replay) :
    s.carriedOut p o = (u.setSession p { u.session p with
        cursor := (s.session p).cursor
        fresh := (s.session p).fresh
        overrun := (s.session p).overrun }).setLink p { s.link p with outstanding := false } := by
  obtain ⟨c', hreseat⟩ := Main.effects_reseat ho s.main c
    (s.main.links.set p { s.link p with outstanding := false })
  obtain ⟨pin, hpin⟩ := Main.effects_spare ho s.main
  have hlinks : (s.main.effects (o.verdict.mains.filter MainWrite.sparesCursor)).links = s.main.links :=
    Main.effects_links _ _
  rw [hu, State.askedUnder_main, hreseat, State.carriedOut]
  simp only [State.dropAnswer, State.withStationAnswer, Main.reseat, Main.mapSession, State.setSession,
    State.setLink, State.session, State.link, Four.set_set, Four.get_set_self, hpin, hlinks]
  rfl

end Waited

/-! A BREAK, by what its pin end finds waiting. -/

/-- The state of a port after a BREAK, with the end of its pin waiting behind the events of another state. -/
def State.brokenWaiting (u : State) (p : Port) (w : List AreaEvent) : State :=
  { u.broken p with main := { (u.broken p).main with waiting := w ++ [.sessionPinEnd p] } }

theorem exec_break_judged {s u : State} {p : Port} (hp : s.powered = true)
    (hl : (s.link p).lineLow = false) (hu : u = if s.check = none then s.finishApply else s) :
    (¬ ((∃ h, (u.session p).inHand = some h ∧ h.frame.req = .pin) ∧ .station p ∈ s.main.waiting) →
      ((u.session p).pin = none → exec (.breakReceived p) s = .next (u.broken p)) ∧
      ((u.session p).pin ≠ none → .sessionPinEnd p ∉ s.main.waiting →
        exec (.breakReceived p) s = .next (u.brokenWaiting p s.main.waiting)) ∧
      ((u.session p).pin ≠ none → .sessionPinEnd p ∈ s.main.waiting →
        exec (.breakReceived p) s = .next (u.broken p))) ∧
    ∀ before behind, (∃ h, (u.session p).inHand = some h ∧ h.frame.req = .pin) →
      s.main.waiting = before ++ .station p :: behind → .station p ∉ before →
      (.sessionPinEnd p ∉ behind →
        exec (.breakReceived p) s = .next (u.brokenWaiting p s.main.waiting)) ∧
      (.sessionPinEnd p ∈ behind → exec (.breakReceived p) s = .next (u.broken p)) := by
  have hwait : u.main.waiting = s.main.waiting := by
    rw [hu]
    split
    · exact (Calm.finishApply s).waiting
    · rfl
  have hexec := exec_break hp hl hu
  have hdue : (u.broken p).pinEndDue p = true →
      exec (.breakReceived p) s = .next (u.brokenWaiting p s.main.waiting) := fun hd => by
    rw [hexec, if_pos hd, ← hwait]
    rfl
  have hspared : ¬ (u.broken p).pinEndDue p = true →
      exec (.breakReceived p) s = .next (u.broken p) := fun hd => by
    rw [hexec, if_neg hd]
  obtain ⟨hpins, hpin⟩ := u.pinEndDue_broken p
  rw [State.PinWaits, hwait] at hpins hpin
  refine ⟨fun hn => ?_, fun before behind hreq hsplit hb => ?_⟩
  · have hiff := hpin hn
    refine ⟨fun h => hspared fun hd => (hiff.mp hd).1 h, fun h hm => hdue (hiff.mpr ⟨h, hm⟩),
      fun h hm => hspared fun hd => (hiff.mp hd).2 hm⟩
  · have hiff := hpins ⟨hreq, by rw [hsplit]; simp⟩
    have hdrop : s.main.waiting.dropWhile (· != .station p) = .station p :: behind := by
      have hbefore : ∀ e ∈ before, (e != AreaEvent.station p) = true := fun e he =>
        bne_iff_ne.mpr fun heq => hb (heq ▸ he)
      rw [hsplit, List.dropWhile_append_of_pos hbefore]
      simp
    have hmem : (AreaEvent.sessionPinEnd p ∉ AreaEvent.station p :: behind) ↔
        .sessionPinEnd p ∉ behind := by simp
    rw [hdrop, hmem] at hiff
    exact ⟨fun h => hdue (hiff.mpr h), fun h => hspared fun hd => hiff.mp hd h⟩

/-- The pin end of a session reset, with a drain and without. -/
theorem exec_sessionPinEnd_cases {s : State} (h : s.AreaFree) (p : Port) :
    ((s.session p).pin = none →
      exec (.sessionResetPinEnd p) (s.withWaiting [.sessionPinEnd p]) = .next s) ∧
    ∀ slot expiry a, (s.session p).pin = some ⟨slot, expiry⟩ → s.Live slot a →
      (a.state = .closing → (∀ g ∈ s.main.pool, g.slot ≠ slot) →
        Done (.sessionResetPinEnd p) (s.withWaiting [.sessionPinEnd p])
          ((s.setSession p { s.session p with pin := none }).setAccount slot
            { a with state := .drained })) ∧
      (a.state ≠ .closing ∨ (∃ g ∈ s.main.pool, g.slot = slot) →
        exec (.sessionResetPinEnd p) (s.withWaiting [.sessionPinEnd p]) =
          .next (s.setSession p { s.session p with pin := none })) := by
  have hexec := exec_sessionPinEnd h p
  refine ⟨fun hp => ?_, fun slot expiry a hp hl => ⟨fun hcl hn => ?_, fun hn => ?_⟩⟩
  · have htake : s.takeWaiting (.sessionPinEnd p) = s := by rw [State.takeWaiting, hp]
    rw [hexec, htake, giveAreaN_nothing _ h.waiting]
  · rw [takeWaiting_pinEnd hp, pinEndVerdict, State.pinEndDrain_drains hl hcl hn, State.stageOrDo,
      if_neg (by simp), giveAreaN_held _ rfl] at hexec
    have hdone := done_staged h.running h.holder h.waiting h.staged h.completion hexec
    rw [applyMains_of_owed h.owed, State.pin_drained hl] at hdone
    exact hdone
  · have hunpinned := h.unpinned p
    have hwait : (s.unpinned p).main.waiting = [] := (applyMains_waiting _ _).trans h.waiting
    rw [hexec, takeWaiting_pinEnd hp, pinEndVerdict, State.pinEndDrain_spares hl hn, State.stageOrDo,
      if_pos List.isEmpty_nil, State.doMains_ne (by simp), ← hunpinned]
    exact congrArg _ (giveAreaN_nothing _ hwait)

/-- Settles O43: the BREAK, the pin end it leaves, and the request in hand that it dropped. -/
theorem breakResetsTheSession : Obligations.BreakResetsTheSession := by
  unfold Obligations.BreakResetsTheSession
  refine ⟨fun s p => ⟨fun h => ?_, fun hp hl => ?_⟩, fun s p h => exec_sessionPinEnd_cases h p,
    fun s p h => exec_sessionPinEnd_idle h, fun s p h reply f c hr hh he hreply hi hw ho => ?_,
    fun s freed h p f c hr hh hne hslot hw hpend hf hfreed hi ho => ?_⟩
  · show execBreak p s = _
    obtain h | h := h <;> simp [execBreak, h]
  · have hjudged := exec_break_judged hp hl rfl
    rw [State.brokenWaiting, State.broken_eq] at hjudged
    exact hjudged
  · have hchanged : s.changed h = { s with
        ret := { s.settledRet h with staged := [], completion := false }
        main := { s.appliedMain with holder := none } } := by
      rw [State.changed, State.settledMain_of_owed hh ho]
    have hexec := exec_complete_dropped hr hh he hreply hi
    have hlink : (s.changed h).link p = s.link p := State.changed_link p
    have hwait : (s.changed h).main.waiting = [] := State.settledMain_frame.2.2.trans hw
    have hdropped : (s.changed h).dropped p = ((s.changed h).setSession p
        { (s.changed h).session p with inHand := none }).setLink p
          { s.link p with outstanding := false, pendingSlot := none } := by
      rw [State.dropped, hlink]
    rw [← hchanged]
    dsimp only
    rw [← hdropped]
    refine ⟨fun hg => ?_, fun g hgw hg => ?_⟩
    · have hg' : ((s.changed h).link p).pendingSlot = none := by rw [hlink]; exact hg
      rw [hexec, State.dropAnswer_handOn hg', State.dropped_of_none hg']
      exact congrArg _ (State.giveArea_nothing hwait)
    · have hg' : ((s.changed h).link p).pendingSlot = some g := by rw [hlink]; exact hg
      have hready : (((s.changed h).dropped p).running && !(((s.changed h).dropped p).link p).outstanding) =
          true := by
        rw [State.dropped, State.link_setLink, State.running_setLink, State.running_setSession,
          show (s.changed h).running = true from hr]
        rfl
      have hpow : ((s.changed h).dropped p).powered = true := State.powered_of_running hr
      rw [hexec, State.dropAnswer_handOn_some (s := s.changed h) hr hg', exec_command hgw, State.arrive, if_pos hpow,
        State.deliver, if_pos hready]
  · have hfreed' : freed = (s.freed h).withWaiting [] := by
      have := (exec_complete_alone hr hh hslot).symm.trans hfreed
      injection this with this
      exact this.symm
    have hlink : freed.link p = s.link p := by
      have : (s.freed h).link p = s.link p := State.freed_link hslot hne
      rw [hfreed']
      exact this
    have hret : (s.freed h).ret.staged = [] ∧ (s.freed h).ret.completion = false := by
      rw [(State.freed_placed hslot).ret]
      exact ⟨rfl, rfl⟩
    obtain ⟨hstaged, hcompletion⟩ := hret
    have hfree : freed.DroppedFree p f c :=
      { running := hfreed' ▸ (State.freed_part hslot).running.trans hr
        holder := hfreed' ▸ State.freed_holder hslot
        waiting := hfreed' ▸ rfl
        staged := hfreed' ▸ hstaged
        completion := hfreed' ▸ hcompletion
        owed := ho
        inHand := hi
        slot := hlink ▸ hpend }
    have hready : (freed.askedUnder p c).StationReady p :=
      { running := hfree.running
        holder := hfree.holder
        waiting := hfree.waiting
        staged := hfree.staged
        completion := hfree.completion
        owed := hfree.owed
        outstanding := by simp [State.askedUnder] }
    intro asked u hu
    have huniq := Done.unique hu (done_station hready (exec_command hf p _))
    obtain ⟨hdone, hrun⟩ := hfree.carriedOut
    have hone := exec_complete_one hr hh hslot hw
    rw [← hfreed'] at hone
    refine ⟨_, hone, ?_⟩
    rw [exec_stagedChangeComplete hrun, hdone]
    exact congrArg _ (State.carriedOut_eq _ (stationOutcome_ofStation p f _) huniq)

end Sys2Proof.Machine
end

section
/-! PROOFS. What `EveryStepKeepsTheHoldPool` asks of the free value. `State.Agrees` speaks of a start-up check without
asking that the part works, so its condition on CLOSING accounts also binds a stopped part that still shows a check;
there the loss of VBAT puts the free value `Config.lostRetention` (log 12) into retention memory. -/

namespace Sys2Proof.Machine

/-- A stopped part that still shows a completed check, about to lose its cell. No run reaches it: whatever stops the part
ends its check. -/
def State.staleCheck (k : Nat) : State :=
  { State.reset with pending := [.vbatLoss], vdd := false, check := some .complete, freeCount := k }

/-- The same part with retention memory lost (R170). -/
def State.staleCheckLost (k : Nat) : State :=
  { State.staleCheck k with
    pending := []
    vbat := false
    ret := { Config.lostRetention k with mark := false }
    freeCount := k + 1 }

/-- The stopped part loses retention memory in one step. -/
theorem step_staleCheck (k : Nat) : step (.staleCheck k) = .next (.staleCheckLost k) := rfl

/-- A condition that the cold values meet is kept by the stopped part. -/
theorem State.keeps_staleCheck {P : Retained → Prop} (h : P Retained.cold) (k : Nat) :
    (State.staleCheck k).Keeps P := by
  have hfree : ∀ x, (State.staleCheck k).main.holder ≠ some x := fun _ hx => by cases hx
  exact ⟨⟨fun _ => rfl, fun x hx => absurd hx (hfree x), fun _ _ _ _ => rfl, fun _ _ _ => rfl⟩, fun _ =>
    ⟨fun _ => h, fun hc => (by cases hc), fun x hx => absurd hx (hfree x), fun x hx => absurd hx (hfree x)⟩⟩

theorem State.agrees_staleCheck (k : Nat) : (State.staleCheck k).Agrees where
  mark h := by cases h
  stopped _ := ⟨rfl, fun _ h => (by cases h), fun p => by cases p <;> exact ⟨rfl, rfl, rfl⟩⟩
  drains _ h := by cases h
  checked _ _ i a _ ha := by
    have hnone : (State.staleCheck k).ret.accounts.getD i none = none := State.getD_reset i
    rw [hnone] at ha
    cases ha
  now h := by cases h
  next h := by cases h

/-- Once retention memory is lost, account table and main memory agree exactly when the free value has no CLOSING
account. -/
theorem State.agrees_staleCheckLost_iff (k : Nat) :
    (State.staleCheckLost k).Agrees ↔ ∀ n, (Config.lostRetention k).NoClosingBelow n where
  mp h := h.checked (.inr rfl)
  mpr h :=
    { mark := fun hp => by cases hp
      stopped := fun _ => ⟨rfl, fun _ hx => (by cases hx), fun p => by cases p <;> exact ⟨rfl, rfl, rfl⟩⟩
      drains := fun _ hc => by cases hc
      checked := fun _ => h
      now := fun hr => by cases hr
      next := fun hr => by cases hr }

/-- The statement of `EveryStepKeepsTheHoldPool` bounds the free value, of which nothing is known. -/
theorem lostRetention_noClosingBelow_of_everyStepKeepsTheHoldPool
    (h : Obligations.EveryStepKeepsTheHoldPool) (k n : Nat) : (Config.lostRetention k).NoClosingBelow n := by
  obtain ⟨-, hagrees⟩ := h
  have hlost : (State.staleCheckLost k).Agrees :=
    hagrees _ _ (State.keeps_staleCheck Retained.emptied_cold.directory k)
      (State.keeps_staleCheck Retained.emptied_cold.records k) ⟨Main.poolOk_reset, Main.poolOk_reset⟩
      (State.agrees_staleCheck k) (step_staleCheck k)
  exact (State.agrees_staleCheckLost_iff k).mp hlost n

end Sys2Proof.Machine
end

section
/-! PROOFS. What an event makes of the account table and of main memory together: one inversion for every
request and expiry, on which the hold pool's limits and the agreement of accounts and main memory rest. -/

namespace Sys2Proof.Machine

/-! One slot of the account table. -/

/-- A table that differs from the state's in the account of one slot at most; the account before and after, if
the slot is live, are related as given. -/
def State.Redone (s : State) (slot : Nat) (Q : Account → Account → Prop) (l : List (Option Account)) : Prop :=
  (l = s.ret.accounts ∧ ∀ a, s.Live slot a → Q a a) ∨
    ∃ a b, s.Live slot a ∧ b.key = a.key ∧ Q a b ∧ l = s.ret.accounts.set slot (some b)

/-- On a live slot the account is written anew. -/
theorem State.Redone.live {s : State} {slot : Nat} {Q : Account → Account → Prop} {l : List (Option Account)}
    (h : s.Redone slot Q l) {a : Account} (hl : s.Live slot a) :
    ∃ b, b.key = a.key ∧ Q a b ∧ l = s.ret.accounts.set slot (some b) := by
  obtain ⟨rfl, hq⟩ | ⟨a', b, hl', hk, hq, rfl⟩ := h
  · exact ⟨a, rfl, hq a hl, (set_live hl).symm⟩
  · have ha : a' = a := by
      unfold State.Live at hl hl'
      rw [hl] at hl'
      exact (Option.some.inj hl').symm
    subst ha
    exact ⟨b, hk, hq, rfl⟩

/-- A table with one account written. -/
theorem State.Redone.set {s : State} {slot : Nat} {Q : Account → Account → Prop} {a b : Account}
    (hl : s.Live slot a) (hk : b.key = a.key) (hq : Q a b) :
    s.Redone slot Q (s.ret.accounts.set slot (some b)) := .inr ⟨a, b, hl, hk, hq, rfl⟩

/-! What events come to. -/

/-- The funds behind the holds of a slot stand, with some held amount gone (R9). -/
def State.KeepsFunds (s : State) (slot freed : Nat) (a b : Account) : Prop :=
  (s.held slot : Int) ≤ a.balance + a.floor → (s.held slot : Int) ≤ b.balance + b.floor + freed

/-- The account after a request that ends no hold and no pin: in the state it had, or in another that is not
DRAINED and is CLOSING with a hold or a pin alone (R23 to R25). -/
def State.Changed (s : State) (slot : Nat) (a b : Account) : Prop :=
  s.KeepsFunds slot 0 a b ∧ (b.state = a.state ∨ b.state ≠ .drained ∧
    (b.state = .closing → (∃ g ∈ s.main.pool, g.slot = slot) ∨ ∃ p, s.PinnedBy slot p))

/-- The account after the end of a hold: DRAINED when it was a CLOSING account's last (R28, R93). -/
def State.Unheld (s : State) (h : Hold) (a b : Account) : Prop :=
  s.KeepsFunds h.slot h.amount a b ∧ (b.state = a.state ∧ (a.state = .closing → ¬ s.LastHold h) ∨
    b.state = .drained ∧ s.LastHold h)

/-- The account after the end of its pin: DRAINED when it was CLOSING without a hold (R28, R148). -/
def State.Unpinned (s : State) (slot : Nat) (a b : Account) : Prop :=
  s.KeepsFunds slot 0 a b ∧ (b.state = a.state ∧ (a.state = .closing → ∃ g ∈ s.main.pool, g.slot = slot) ∨
    b.state = .drained ∧ ∀ g ∈ s.main.pool, g.slot ≠ slot)

/-- A main-memory effect on the standby bank alone. -/
def MainWrite.isLoad : MainWrite → Bool
  | .standby _ | .loaded _ => true
  | _ => false

/-- A HOLD that passed its checks: the new hold has an unused id and is within every limit, with the funds for
it, on an OPEN account (R77, R81). -/
structure State.Grants (s : State) (h : Hold) (a : Account) : Prop where
  id : h.id = s.assignedId
  live : s.Live h.slot a
  opened : a.state = .opened
  amount : 1 ≤ h.amount ∧ h.amount ≤ 999999
  expiry : h.expiry < Config.clockModulus
  slotLimit : (s.holdsOn h.slot).length < Config.holdsPerAccount
  funds : (h.amount : Int) ≤ s.available h.slot a
  quota : s.portHolds h.owner < Config.portQuota
  room : s.main.pool.length < Config.pool

/-- What an event comes to: the account table it leaves, and its main-memory effects. -/
inductive State.Settles (s : State) : List (Option Account) → List MainWrite → Prop
  | nothing (ms : List MainWrite) (load : ∀ w ∈ ms, w.isLoad = true) : s.Settles s.ret.accounts ms
  | selected (p : Port) (c : Cursor) (named : ∀ slot key, c = .sel slot key → ∃ a, s.Live slot a ∧ a.key = key) :
      s.Settles s.ret.accounts [.cursor p c]
  | held (h : Hold) (a : Account) (grants : s.Grants h a) :
      s.Settles s.ret.accounts [.addHold h, .nextId (nextIdAfter h.id), .forgetEnd h.id]
  | changed (slot : Nat) (l : List (Option Account)) (table : s.Redone slot (s.Changed slot) l) : s.Settles l []
  | holdEnded (h : Hold) (l : List (Option Account)) (tail : List MainWrite) (mem : h ∈ s.main.pool)
      (table : s.Redone h.slot (s.Unheld h) l)
      (ending : tail = [] ∨ ∃ r, tail = [.recordEnd h.owner h.id r]) : s.Settles l (.dropHold h.id :: tail)
  | pinSet (p : Port) (x : PinEntry) (a : Account) (l : List (Option Account)) (live : s.Live x.slot a)
      (state : a.state ≠ .closing ∧ a.state ≠ .drained) (free : s.pinnedByOther p x.slot = none)
      (table : l = s.ret.accounts ∧ (∀ e, (s.session p).pin = some e → e.slot = x.slot) ∨
        ∃ e, (s.session p).pin = some e ∧ e.slot ≠ x.slot ∧ s.Redone e.slot (s.Unpinned e.slot) l) :
      s.Settles l [.pin p (some x)]
  | pinEnded (p : Port) (e : PinEntry) (l : List (Option Account)) (pin : (s.session p).pin = some e)
      (table : s.Redone e.slot (s.Unpinned e.slot) l) : s.Settles l [.pin p none]
  | opened (slot : Nat) (rest : List Nat) (b : Account) (free : s.ret.free = slot :: rest)
      (state : b.state = .opened) (funds : 0 ≤ b.balance + b.floor) :
      s.Settles (s.ret.accounts.set slot (some b)) []
  | retired (slot : Nat) (a : Account) (live : s.Live slot a)
      (bare : a.state = .drained ∨ (∀ g ∈ s.main.pool, g.slot ≠ slot) ∧ ∀ p, ¬ s.PinnedBy slot p) :
      s.Settles (s.ret.accounts.set slot none) [.slotGone slot]
  | wiped : s.Settles (List.replicate Config.slots none) [.wipe]

/-- An answer that changes nothing. -/
theorem State.Settles.refl (s : State) : s.Settles s.ret.accounts [] := .nothing [] nofun

/-- What an event comes to is judged by retention memory, the pool, the next id and the pins. -/
theorem State.Settles.congr {s t : State} (hr : t.ret = s.ret) (hp : t.main.pool = s.main.pool)
    (hn : t.main.nextId = s.main.nextId) (hq : ∀ p, (t.session p).pin = (s.session p).pin)
    {l : List (Option Account)} {ms : List MainWrite} (h : s.Settles l ms) : t.Settles l ms := by
  have hlive : ∀ slot a, t.Live slot a ↔ s.Live slot a := fun slot a => by
    simp only [State.Live, State.account?, hr]
  have hpinned : ∀ slot p, t.PinnedBy slot p ↔ s.PinnedBy slot p := fun slot p => by
    simp only [State.PinnedBy, hq]
  have hheld : ∀ slot, t.held slot = s.held slot := fun slot => by
    simp only [State.held, State.holdsOn, hp]
  have hon : ∀ slot, t.pinOn slot = s.pinOn slot := fun slot => by
    simp only [State.pinOn, hq]
  have hlast : ∀ g, t.LastHold g ↔ s.LastHold g := fun g => by
    simp only [State.LastHold, hp, hpinned]
  have hredone : ∀ {slot Q Q' l}, (∀ a b, Q a b → Q' a b) → s.Redone slot Q l → t.Redone slot Q' l := by
    rintro slot Q Q' l hQ (⟨rfl, h⟩ | ⟨a, b, ha, hk, h, rfl⟩)
    · exact .inl ⟨by rw [hr], fun a ha => hQ _ _ (h a ((hlive _ _).mp ha))⟩
    · exact .inr ⟨a, b, (hlive _ _).mpr ha, hk, hQ _ _ h, by rw [hr]⟩
  have hchanged : ∀ slot a b, s.Changed slot a b → t.Changed slot a b := fun slot a b h => by
    simpa only [State.Changed, State.KeepsFunds, hheld, hp, hpinned] using h
  have hunheld : ∀ g a b, s.Unheld g a b → t.Unheld g a b := fun g a b h => by
    simpa only [State.Unheld, State.KeepsFunds, hheld, hlast] using h
  have hunpinned : ∀ slot a b, s.Unpinned slot a b → t.Unpinned slot a b := fun slot a b h => by
    simpa only [State.Unpinned, State.KeepsFunds, hheld, hp] using h
  cases h with
  | nothing ms load => exact hr ▸ .nothing ms load
  | selected p c named =>
    exact hr ▸ .selected p c fun slot key hc => by simpa only [hlive] using named slot key hc
  | held h a g =>
    refine hr ▸ .held h a ⟨?_, (hlive _ _).mpr g.live, g.opened, g.amount, g.expiry, ?_, ?_, ?_, ?_⟩
    · simpa only [State.assignedId, hp, hn] using g.id
    · simpa only [State.holdsOn, hp] using g.slotLimit
    · simpa only [State.available, hheld] using g.funds
    · simpa only [State.portHolds, hp] using g.quota
    · simpa only [hp] using g.room
  | changed slot l table => exact .changed slot l (hredone (hchanged slot) table)
  | holdEnded g l tail mem table ending =>
    exact .holdEnded g l tail (hp ▸ mem) (hredone (hunheld g) table) ending
  | pinSet p x a l live state free table =>
    refine .pinSet p x a l ((hlive _ _).mpr live) state ?_ ?_
    · simpa only [State.pinnedByOther, hon] using free
    · rw [hr, hq]
      obtain h | ⟨e, he, hne, h⟩ := table
      · exact .inl h
      · exact .inr ⟨e, he, hne, hredone (hunpinned e.slot) h⟩
  | pinEnded p e l pin table => exact .pinEnded p e l ((hq p).trans pin) (hredone (hunpinned e.slot) table)
  | opened slot rest b free state funds => exact hr ▸ .opened slot rest b (by rw [hr]; exact free) state funds
  | retired slot a live bare =>
    refine hr ▸ .retired slot a ((hlive _ _).mpr live) ?_
    simpa only [hp, hpinned] using bare
  | wiped => exact .wiped

/-- What stands of an event without its cursor's change. -/
theorem State.Settles.sparing {s : State} {l : List (Option Account)} {ms : List MainWrite} (h : s.Settles l ms) :
    s.Settles l (ms.filter MainWrite.sparesCursor) := by
  cases h with
  | nothing ms load => exact .nothing _ fun w hw => load w (List.mem_filter.mp hw).1
  | selected => exact .refl s
  | held h a g => exact .held h a g
  | changed slot l table => exact .changed slot l table
  | holdEnded h l tail mem table ending =>
    have : (MainWrite.dropHold h.id :: tail).filter MainWrite.sparesCursor = .dropHold h.id :: tail := by
      obtain rfl | ⟨r, rfl⟩ := ending <;> rfl
    rw [this]
    exact .holdEnded h l tail mem table ending
  | pinSet p x a l live state free table => exact .pinSet p x a l live state free table
  | pinEnded p e l pin table => exact .pinEnded p e l pin table
  | opened slot rest b free state funds => exact .opened slot rest b free state funds
  | retired slot a live bare => exact .retired slot a live bare
  | wiped => exact .wiped

end Sys2Proof.Machine
end

section
/-! PROOFS. The account table and main memory agree after what an event comes to. -/

namespace Sys2Proof.Machine

/-! Agreement, but for CLOSING accounts. -/

/-- The account table and main memory agree but for the CLOSING accounts. -/
structure Backing (r : Retained) (m : Main) : Prop where
  funds : Funded r m.pool
  holds : ∀ h ∈ m.pool, ∃ a, r.accounts.getD h.slot none = some a ∧ a.state ≠ .drained
  pins : ∀ p slot, m.Pinned p slot → ∃ a, r.accounts.getD slot none = some a ∧ a.state ≠ .drained
  onePin : ∀ p q slot, m.Pinned p slot → m.Pinned q slot → p = q
  cursors : ∀ p slot key, (m.sessions.get p).HasCursor (.sel slot key) →
    ∃ a, r.accounts.getD slot none = some a ∧ a.key = key

/-- A hold or a pin stands on a slot. -/
def Main.Occupied (m : Main) (slot : Nat) : Prop := (∃ h ∈ m.pool, h.slot = slot) ∨ ∃ p, m.Pinned p slot

/-- Agreement is that of all but the CLOSING accounts, and each of these has a hold or a pin (R28). -/
theorem agree_iff {r : Retained} {m : Main} : Agree r m ↔ Backing r m ∧
    ∀ i a, r.accounts.getD i none = some a → a.state = .closing → m.Occupied i :=
  ⟨fun h => ⟨⟨h.funds, h.holds, h.pins, h.onePin, h.cursors⟩, h.closing⟩,
    fun ⟨h, hc⟩ => ⟨h.funds, h.holds, h.pins, h.onePin, h.cursors, hc⟩⟩

/-- Agreement looks at the account table alone of retention memory. -/
theorem Agree.of_accounts {r r' : Retained} {m : Main} (h : Agree r m) (ha : r'.accounts = r.accounts) :
    Agree r' m := by
  constructor
  · rw [ha]; exact h.funds
  · rw [ha]; exact h.holds
  · rw [ha]; exact h.pins
  · exact h.onePin
  · rw [ha]; exact h.cursors
  · rw [ha]; exact h.closing

/-- Main memory with no hold, pin or cursor that was not there. -/
structure Main.Within (m' m : Main) : Prop where
  pool : m'.pool.Sublist m.pool
  pins : ∀ p slot, m'.Pinned p slot → m.Pinned p slot
  cursors : ∀ p slot key, (m'.sessions.get p).HasCursor (.sel slot key) →
    (m.sessions.get p).HasCursor (.sel slot key)

theorem Backing.within {r : Retained} {m m' : Main} (h : Backing r m) (hw : m'.Within m) : Backing r m' where
  funds := h.funds.sublist hw.pool
  holds g hg := h.holds g (hw.pool.subset hg)
  pins p slot hp := h.pins p slot (hw.pins p slot hp)
  onePin p q slot hp hq := h.onePin p q slot (hw.pins p slot hp) (hw.pins q slot hq)
  cursors p slot key hc := h.cursors p slot key (hw.cursors p slot key hc)

/-- Main memory without a hold, pin or cursor that was not there, and with every hold and pin that was. -/
theorem Agree.within {r : Retained} {m m' : Main} (h : Agree r m) (hw : m'.Within m)
    (hp : m'.pool = m.pool) (hq : ∀ p slot, m.Pinned p slot → m'.Pinned p slot) : Agree r m' := by
  obtain ⟨hb, hc⟩ := agree_iff.mp h
  refine agree_iff.mpr ⟨hb.within hw, fun i a ha hs => ?_⟩
  obtain hg | ⟨p, hp'⟩ := hc i a ha hs
  · exact .inl (hp ▸ hg)
  · exact .inr ⟨p, hq p i hp'⟩

/-! One account written. -/

/-- One account written, DRAINED only when it was or no hold and no pin stands on it. -/
theorem Backing.set {r r' : Retained} {m : Main} (h : Backing r m) {slot : Nat} {a b : Account}
    (hl : r.accounts.getD slot none = some a) (hr : r'.accounts = r.accounts.set slot (some b))
    (hk : b.key = a.key) (hf : (heldOn m.pool slot : Int) ≤ b.balance + b.floor)
    (hd : b.state = .drained → a.state = .drained ∨ ¬ m.Occupied slot) : Backing r' m := by
  have hread : ∀ i x, r.accounts.getD i none = some x →
      ∃ y, r'.accounts.getD i none = some y ∧ y.key = x.key ∧ (i = slot ∧ y = b ∧ x = a ∨ i ≠ slot ∧ y = x) := by
    intro i x hx
    rw [hr]
    by_cases hi : i = slot
    · subst hi
      rw [hl] at hx
      cases hx
      exact ⟨b, getD_set_self hl, hk, .inl ⟨rfl, rfl, rfl⟩⟩
    · exact ⟨x, getD_set_eq_some.mpr (.inr ⟨hi, hx⟩), rfl, .inr ⟨hi, rfl⟩⟩
  have hstate : ∀ i, m.Occupied i → (∃ x, r.accounts.getD i none = some x ∧ x.state ≠ .drained) →
      ∃ y, r'.accounts.getD i none = some y ∧ y.state ≠ .drained := by
    rintro i ho ⟨x, hx, hs⟩
    obtain ⟨y, hy, _, ⟨rfl, rfl, rfl⟩ | ⟨_, rfl⟩⟩ := hread i x hx
    · refine ⟨y, hy, fun hyd => ?_⟩
      obtain hxd | hn := hd hyd
      · exact hs hxd
      · exact hn ho
    · exact ⟨y, hy, hs⟩
  refine ⟨fun i x hx => ?_, fun g hg => ?_, fun p i hp => ?_, h.onePin, fun p i key hc => ?_⟩
  · rw [hr, getD_set_eq_some] at hx
    obtain ⟨rfl, _, he⟩ | ⟨_, hx⟩ := hx
    · cases he; exact hf
    · exact h.funds i x hx
  · exact hstate _ (.inl ⟨g, hg, rfl⟩) (h.holds g hg)
  · exact hstate _ (.inr ⟨p, hp⟩) (h.pins p i hp)
  · obtain ⟨x, hx, hxk⟩ := h.cursors p i key hc
    obtain ⟨y, hy, hyk, _⟩ := hread i x hx
    exact ⟨y, hy, hyk.trans hxk⟩

/-- One account written, and the CLOSING accounts beside it. -/
theorem agree_set {r r' : Retained} {m m' : Main} (h : Agree r m) (hb : Backing r m') {slot : Nat} {a b : Account}
    (hl : r.accounts.getD slot none = some a) (hr : r'.accounts = r.accounts.set slot (some b))
    (hk : b.key = a.key) (hf : (heldOn m'.pool slot : Int) ≤ b.balance + b.floor)
    (hd : b.state = .drained → a.state = .drained ∨ ¬ m'.Occupied slot)
    (hc : b.state = .closing → m'.Occupied slot)
    (ho : ∀ i, i ≠ slot → m.Occupied i → m'.Occupied i) : Agree r' m' := by
  refine agree_iff.mpr ⟨hb.set hl hr hk hf hd, fun i x hx hs => ?_⟩
  rw [hr, getD_set_eq_some] at hx
  obtain ⟨rfl, _, he⟩ | ⟨hi, hx⟩ := hx
  · cases he; exact hc hs
  · exact ho i hi (h.closing i x hx hs)

/-! Pins and cursors after main-memory effects. -/

@[simp] theorem Main.mapSession_sessions (m : Main) (p q : Port) (f : Session → Session) :
    (m.mapSession p f).sessions.get q = if q = p then f (m.sessions.get p) else m.sessions.get q := by
  simp [Main.mapSession, Four.get_set]

/-- The pins after a port's pin entry is written. -/
theorem Main.pinned_pin {m : Main} {p q : Port} {x : Option PinEntry} {slot : Nat} :
    (applyMain (.pin p x) m).Pinned q slot ↔
      q = p ∧ (∃ e, x = some e ∧ e.slot = slot) ∨ q ≠ p ∧ m.Pinned q slot := by
  unfold Main.Pinned
  simp only [applyMain, Main.mapSession_sessions]
  by_cases hq : q = p
  · subst hq; simp
  · simp [hq]

/-- The cursors after a port's pin entry is written. -/
theorem Main.hasCursor_pin {m : Main} {p q : Port} {x : Option PinEntry} {c : Cursor} :
    ((applyMain (.pin p x) m).sessions.get q).HasCursor c ↔ (m.sessions.get q).HasCursor c := by
  simp only [applyMain, Main.mapSession_sessions]
  split
  · subst_vars; rfl
  · rfl

/-- The cursors after a change of every cursor. -/
theorem Session.hasCursor_mapCursors {f : Cursor → Cursor} {x : Session} {c : Cursor}
    (h : (x.mapCursors f).HasCursor c) : ∃ d, x.HasCursor d ∧ f d = c := by
  obtain h | ⟨g, hg, hd⟩ := h
  · exact ⟨_, .inl rfl, h⟩
  · simp only [Session.mapCursors, Option.map_eq_some_iff] at hg
    obtain ⟨g, hg, rfl⟩ := hg
    simp only [Option.map_eq_some_iff] at hd
    obtain ⟨d, hd, rfl⟩ := hd
    exact ⟨d, .inr ⟨g, hg, hd⟩, rfl⟩

/-- A cursor that the freeing of a slot leaves SET was SET on another (R41). -/
theorem Cursor.afterFreeing_sel {slot i k : Nat} {c : Cursor} (h : c.afterFreeing slot = .sel i k) :
    c = .sel i k ∧ i ≠ slot := by
  cases c with
  | sel j l =>
    simp only [Cursor.afterFreeing] at h
    split at h
    · cases h
    · rename_i hj
      cases h
      exact ⟨rfl, by simpa using hj⟩
  | none => cases h
  | gone => cases h

/-- WIPE leaves no cursor SET (R152). -/
theorem Cursor.afterWipe_ne_sel (c : Cursor) (i k : Nat) : c.afterWipe ≠ .sel i k := by
  cases c <;> nofun

/-- Effects on the standby bank leave holds and sessions. -/
theorem Main.effects_load {ms : List MainWrite} (h : ∀ w ∈ ms, w.isLoad = true) (m : Main) :
    (m.effects ms).pool = m.pool ∧ (m.effects ms).sessions = m.sessions ∧ (m.effects ms).nextId = m.nextId ∧
      (m.effects ms).ended = m.ended := by
  induction ms generalizing m with
  | nil => exact ⟨rfl, rfl, rfl, rfl⟩
  | cons w ms ih =>
    obtain ⟨h1, h2, h3, h4⟩ := ih (fun x hx => h x (List.mem_cons_of_mem _ hx)) (applyMain w m)
    have hw := h w List.mem_cons_self
    have : (applyMain w m).pool = m.pool ∧ (applyMain w m).sessions = m.sessions ∧
        (applyMain w m).nextId = m.nextId ∧ (applyMain w m).ended = m.ended := by
      cases w with
      | standby | loaded => exact ⟨rfl, rfl, rfl, rfl⟩
      | _ => cases hw
    obtain ⟨k1, k2, k3, k4⟩ := this
    exact ⟨h1.trans k1, h2.trans k2, h3.trans k3, h4.trans k4⟩

/-- Main memory with the same holds and sessions. -/
theorem Agree.of_main {r : Retained} {m m' : Main} (h : Agree r m) (hp : m'.pool = m.pool)
    (hs : m'.sessions = m.sessions) : Agree r m' := by
  refine h.within ⟨hp ▸ List.Sublist.refl _, fun p slot => ?_, fun p slot key => ?_⟩ hp fun p slot => ?_
  · simp only [Main.Pinned, hs, imp_self]
  · simp only [hs, imp_self]
  · simp only [Main.Pinned, hs, imp_self]

/-! The end of a hold. -/

/-- The amounts held on a slot without one of its holds. -/
theorem heldOn_drop {pool : List Hold} (hn : (pool.map (·.id)).Nodup) {h : Hold} (hm : h ∈ pool) :
    heldOn (pool.filter (·.id != h.id)) h.slot + h.amount = heldOn pool h.slot := by
  induction pool with
  | nil => cases hm
  | cons g pool ih =>
    simp only [List.map_cons, List.nodup_cons] at hn
    obtain ⟨hg, hn⟩ := hn
    by_cases he : g.id = h.id
    · have hgh : g = h := by
        obtain rfl | hm := List.mem_cons.mp hm
        · rfl
        · exact absurd (he ▸ List.mem_map_of_mem hm) hg
      subst hgh
      have hrest : pool.filter (·.id != g.id) = pool :=
        List.filter_eq_self.mpr fun x hx => by
          simp only [bne_iff_ne]
          exact fun hid => hg (hid ▸ List.mem_map_of_mem hx)
      simp only [List.filter_cons, bne_self_eq_false, Bool.false_eq_true, if_false, hrest]
      simp [heldOn, Nat.add_comm]
    · have hm' : h ∈ pool := by
        obtain rfl | hm := List.mem_cons.mp hm
        · exact absurd rfl he
        · exact hm
      have := ih hn hm'
      have hfilter : (g :: pool).filter (·.id != h.id) = g :: pool.filter (·.id != h.id) := by
        simp [he]
      rw [hfilter]
      simp only [heldOn, List.filter_cons] at this ⊢
      split
      · simp only [List.map_cons, List.sum_cons]
        omega
      · exact this

/-- Two holds of the pool with one id are one. -/
theorem hold_eq_of_id {pool : List Hold} (hn : (pool.map (·.id)).Nodup) {g h : Hold} (hg : g ∈ pool)
    (hh : h ∈ pool) (he : g.id = h.id) : g = h := List.inj_on_of_nodup_map hn hg hh he

/-- A pin as the sessions and as main memory have it. -/
theorem State.pinned_iff {s : State} {p : Port} {slot : Nat} : s.main.Pinned p slot ↔ s.PinnedBy slot p := Iff.rfl

/-- The end of a hold, by its owner or not. -/
theorem effects_dropHold {h : Hold} {tail : List MainWrite}
    (ht : tail = [] ∨ ∃ r, tail = [.recordEnd h.owner h.id r]) (m : Main) :
    (m.effects (.dropHold h.id :: tail)).pool = m.pool.filter (·.id != h.id) ∧
      (m.effects (.dropHold h.id :: tail)).sessions = m.sessions := by
  obtain rfl | ⟨r, rfl⟩ := ht <;> exact ⟨rfl, rfl⟩

/-- A hold ends, and with a CLOSING account's last hold the account drains (R28, R93). -/
theorem Agree.holdEnded {s : State} (h : Agree s.ret s.main) (hn : (s.main.pool.map (·.id)).Nodup) {g : Hold}
    {l : List (Option Account)} {tail : List MainWrite} (hm : g ∈ s.main.pool)
    (table : s.Redone g.slot (s.Unheld g) l) (ending : tail = [] ∨ ∃ r, tail = [.recordEnd g.owner g.id r])
    {r : Retained} (hr : r.accounts = l) : Agree r (s.main.effects (.dropHold g.id :: tail)) := by
  obtain ⟨hpool, hses⟩ := effects_dropHold ending s.main
  generalize s.main.effects (.dropHold g.id :: tail) = m at hpool hses
  obtain ⟨a, hl, _⟩ := h.holds g hm
  obtain ⟨b, hk, ⟨hfunds, hstate⟩, rfl⟩ := table.live hl
  have hpin : ∀ p i, m.Pinned p i ↔ s.main.Pinned p i := fun p i => by simp only [Main.Pinned, hses]
  have hwithin : m.Within s.main :=
    ⟨hpool ▸ List.filter_sublist, fun p i => (hpin p i).mp, fun p i key => by rw [hses]; exact id⟩
  have hdrop := heldOn_drop hn hm
  rw [← hpool] at hdrop
  have hkeep : ∀ x ∈ s.main.pool, x.id ≠ g.id → x ∈ m.pool := fun x hx hid => by
    rw [hpool]; exact List.mem_filter.mpr ⟨hx, by simpa using hid⟩
  refine agree_set h ((agree_iff.mp h).1.within hwithin) hl hr hk ?_ (fun hd => ?_) (fun hc => ?_) fun i hi ho => ?_
  · have := hfunds (h.funds _ _ hl)
    have : s.held g.slot = heldOn s.main.pool g.slot := rfl
    omega
  · obtain ⟨hsame, _⟩ | ⟨_, hlast, hnopin⟩ := hstate
    · exact .inl (hsame ▸ hd)
    · refine .inr ?_
      rintro (⟨x, hx, hs⟩ | ⟨p, hp⟩)
      · rw [hpool, List.mem_filter] at hx
        have : x.id ≠ g.id := by simpa using hx.2
        exact this (hlast x hx.1 hs)
      · exact hnopin p ((hpin p _).mp hp)
  · obtain ⟨hsame, hlast⟩ | ⟨hd, _⟩ := hstate
    · have hlast := hlast (hsame ▸ hc)
      by_contra hno
      simp only [Main.Occupied, not_or, not_exists, not_and] at hno
      refine hlast ⟨fun x hx hs => ?_, fun p hp => hno.2 p ((hpin p _).mpr hp)⟩
      by_contra hid
      exact hno.1 x (hkeep x hx hid) hs
    · rw [hd] at hc; cases hc
  · obtain ⟨x, hx, rfl⟩ | ⟨p, hp⟩ := ho
    · refine .inl ⟨x, hkeep x hx fun hid => hi ?_, rfl⟩
      rw [hold_eq_of_id hn hx hm hid]
    · exact .inr ⟨p, (hpin p _).mpr hp⟩

/-! Pins. -/

/-- The end of a pin, its account draining when it was CLOSING without a hold, and a new pin of the port on an
account that no other port pins (R142, R144, R148). -/
theorem Agree.unpinned {s : State} (h : Agree s.ret s.main) {p : Port} {e : PinEntry} {x : Option PinEntry}
    {l : List (Option Account)} (hp : (s.session p).pin = some e)
    (table : s.Redone e.slot (s.Unpinned e.slot) l)
    (hx : ∀ y, x = some y → y.slot ≠ e.slot ∧ (∃ a, s.Live y.slot a ∧ a.state ≠ .drained) ∧
      ∀ q, s.PinnedBy y.slot q → q = p)
    {r : Retained} (hr : r.accounts = l) : Agree r (applyMain (.pin p x) s.main) := by
  have hold : s.main.Pinned p e.slot := ⟨e, hp, rfl⟩
  obtain ⟨a, hl, _⟩ := h.pins p e.slot hold
  obtain ⟨b, hk, ⟨hfunds, hstate⟩, rfl⟩ := table.live hl
  have hfree : ∀ q, ¬ (applyMain (.pin p x) s.main).Pinned q e.slot := fun q hq => by
    obtain ⟨_, y, hy, hs⟩ | ⟨hne, hq⟩ := Main.pinned_pin.mp hq
    · exact (hx y hy).1 hs
    · exact hne (h.onePin q p e.slot hq hold)
  have hb : Backing s.ret (applyMain (.pin p x) s.main) := by
    refine ⟨h.funds, h.holds, fun q i hq => ?_, fun q q' i hq hq' => ?_, fun q i key hc => ?_⟩
    · obtain ⟨_, y, hy, rfl⟩ | ⟨_, hq⟩ := Main.pinned_pin.mp hq
      · exact (hx y hy).2.1
      · exact h.pins q i hq
    · obtain ⟨rfl, y, hy, rfl⟩ | ⟨_, hold₁⟩ := Main.pinned_pin.mp hq <;>
        obtain ⟨rfl, y', hy', hs'⟩ | ⟨_, hold₂⟩ := Main.pinned_pin.mp hq'
      · rfl
      · exact ((hx y hy).2.2 q' hold₂).symm
      · exact (hx y' hy').2.2 q (hs' ▸ hold₁)
      · exact h.onePin q q' i hold₁ hold₂
    · exact h.cursors q i key (Main.hasCursor_pin.mp hc)
  refine agree_set h hb hl hr hk ?_ (fun hd => ?_) (fun hc => ?_) fun i hi ho => ?_
  · have := hfunds (h.funds _ _ hl)
    have h1 : s.held e.slot = heldOn s.main.pool e.slot := rfl
    have h2 : (applyMain (.pin p x) s.main).pool = s.main.pool := rfl
    rw [h2]
    omega
  · obtain ⟨hsame, _⟩ | ⟨_, hnone⟩ := hstate
    · exact .inl (hsame ▸ hd)
    · refine .inr ?_
      rintro (⟨g, hg, hs⟩ | ⟨q, hq⟩)
      · exact hnone g hg hs
      · exact hfree q hq
  · obtain ⟨hsame, hhold⟩ | ⟨hd, _⟩ := hstate
    · exact .inl (hhold (hsame ▸ hc))
    · rw [hd] at hc; cases hc
  · obtain hg | ⟨q, hq⟩ := ho
    · exact .inl hg
    · refine .inr ⟨q, Main.pinned_pin.mpr (.inr ⟨fun hqp => hi ?_, hq⟩)⟩
      subst hqp
      obtain ⟨e', he', hs'⟩ := hq
      have : e' = e := Option.some.inj (he'.symm.trans hp)
      exact hs' ▸ this ▸ rfl

/-- A port's pin on an account that no other port pins, where the port had none or one on the same slot
(R142). -/
theorem Agree.pinned {s : State} (h : Agree s.ret s.main) {p : Port} {x : PinEntry} {a : Account}
    (hl : s.Live x.slot a) (hs : a.state ≠ .drained) (hfree : ∀ q, s.PinnedBy x.slot q → q = p)
    (hold : ∀ e, (s.session p).pin = some e → e.slot = x.slot) :
    Agree s.ret (applyMain (.pin p (some x)) s.main) := by
  refine ⟨h.funds, h.holds, fun q i hq => ?_, fun q q' i hq hq' => ?_, fun q i key hc => ?_, fun i b hb hc => ?_⟩
  · obtain ⟨_, y, hy, rfl⟩ | ⟨_, hq⟩ := Main.pinned_pin.mp hq
    · cases hy; exact ⟨a, hl, hs⟩
    · exact h.pins q i hq
  · obtain ⟨rfl, y, hy, rfl⟩ | ⟨_, hold₁⟩ := Main.pinned_pin.mp hq <;>
      obtain ⟨rfl, y', hy', hs'⟩ | ⟨_, hold₂⟩ := Main.pinned_pin.mp hq'
    · rfl
    · cases hy; exact (hfree q' hold₂).symm
    · cases hy'; exact hfree q (hs' ▸ hold₁)
    · exact h.onePin q q' i hold₁ hold₂
  · exact h.cursors q i key (Main.hasCursor_pin.mp hc)
  · obtain hg | ⟨q, hq⟩ := h.closing i b hb hc
    · exact .inl hg
    · refine .inr ?_
      by_cases hqp : q = p
      · subst hqp
        obtain ⟨e, he, hes⟩ := hq
        exact ⟨q, Main.pinned_pin.mpr (.inl ⟨rfl, x, rfl, (hold e he).symm.trans hes⟩)⟩
      · exact ⟨q, Main.pinned_pin.mpr (.inr ⟨hqp, hq⟩)⟩

/-- No other port pins a slot that passed the pin check, for one port at most pins it (R146). -/
theorem Agree.only_pin {s : State} (h : Agree s.ret s.main) {p : Port} {slot : Nat}
    (hn : s.pinnedByOther p slot = none) : ∀ q, s.PinnedBy slot q → q = p := fun q hq => by
  unfold State.pinnedByOther at hn
  split at hn
  · rename_i q' e he
    split at hn
    · rename_i hqp
      obtain ⟨h1, h2⟩ := State.pinOn_some he
      have : q' = p := by simpa using hqp
      exact this ▸ h.onePin q q' slot hq ⟨e, h1, h2⟩
    · cases hn
  · rename_i hnone
    exact absurd hq (State.pinOn_none.mp hnone q)

/-! What an event comes to. -/

/-- A new hold with the funds for it on an OPEN account (R77, R81). -/
theorem Agree.held {s : State} (h : Agree s.ret s.main) {g : Hold} {a : Account} (hg : s.Grants g a) :
    Agree s.ret (s.main.effects [.addHold g, .nextId (nextIdAfter g.id), .forgetEnd g.id]) where
  funds := (show Funded s.ret s.main.pool from h.funds).addHold hg.live hg.funds
  holds x hx := by
    obtain hx | hx := List.mem_append.mp (show x ∈ s.main.pool ++ [g] from hx)
    · exact h.holds x hx
    · rw [List.mem_singleton.mp hx]
      exact ⟨a, hg.live, by rw [hg.opened]; nofun⟩
  pins := h.pins
  onePin := h.onePin
  cursors := h.cursors
  closing i b hb hc := by
    obtain ⟨x, hx, hs⟩ | hp := h.closing i b hb hc
    · exact .inl ⟨x, List.mem_append_left _ hx, hs⟩
    · exact .inr hp

/-- A cursor that is SET names a live slot by its key (R137). -/
theorem Agree.selected {r : Retained} {m : Main} (h : Agree r m) (p : Port) {c : Cursor}
    (hc : ∀ slot key, c = .sel slot key → ∃ a, r.accounts.getD slot none = some a ∧ a.key = key) :
    Agree r (applyMain (.cursor p c) m) := by
  have hpin : ∀ q i, (applyMain (.cursor p c) m).Pinned q i ↔ m.Pinned q i := fun q i => by
    simp only [Main.Pinned, applyMain, Main.mapSession_sessions]
    split
    · subst_vars; rfl
    · rfl
  refine ⟨h.funds, h.holds, fun q i hq => h.pins q i ((hpin q i).mp hq), fun q q' i hq hq' =>
    h.onePin q q' i ((hpin q i).mp hq) ((hpin q' i).mp hq'), fun q i key hk => ?_, fun i a ha hs => ?_⟩
  · simp only [applyMain, Main.mapSession_sessions] at hk
    split at hk
    · subst_vars
      obtain hk | hk := hk
      · exact hc i key hk
      · exact h.cursors _ i key (.inr hk)
    · exact h.cursors q i key hk
  · obtain hg | ⟨q, hq⟩ := h.closing i a ha hs
    · exact .inl hg
    · exact .inr ⟨q, (hpin q i).mpr hq⟩

/-- A FREE slot opened (R19). -/
theorem Agree.opened {r r' : Retained} {m : Main} (h : Agree r m) {slot : Nat} {b : Account}
    (hfree : r.accounts[slot]? = some none) (hr : r'.accounts = r.accounts.set slot (some b))
    (hs : b.state = .opened) (hf : 0 ≤ b.balance + b.floor) : Agree r' m := by
  have hdead : ∀ a, r.accounts.getD slot none ≠ some a := fun a ha => by
    rw [List.getD_eq_getElem?_getD, hfree] at ha; cases ha
  have hread : ∀ i a, r.accounts.getD i none = some a → r'.accounts.getD i none = some a := fun i a ha => by
    rw [hr, getD_set_eq_some]
    exact .inr ⟨fun hi => hdead a (hi ▸ ha), ha⟩
  refine ⟨fun i a ha => ?_, fun g hg => ?_, fun p i hp => ?_, h.onePin, fun p i key hc => ?_, fun i a ha hc => ?_⟩
  · rw [hr, getD_set_eq_some] at ha
    obtain ⟨rfl, _, he⟩ | ⟨_, ha⟩ := ha
    · cases he
      have hnone : m.pool.filter (·.slot == i) = [] := List.filter_eq_nil_iff.mpr fun g hg hgs => by
        obtain ⟨x, hx, _⟩ := h.holds g hg
        exact hdead x ((beq_iff_eq.mp hgs) ▸ hx)
      rw [hnone]
      exact hf
    · exact h.funds i a ha
  · obtain ⟨x, hx, hxs⟩ := h.holds g hg
    exact ⟨x, hread _ x hx, hxs⟩
  · obtain ⟨x, hx, hxs⟩ := h.pins p i hp
    exact ⟨x, hread _ x hx, hxs⟩
  · obtain ⟨x, hx, hxk⟩ := h.cursors p i key hc
    exact ⟨x, hread _ x hx, hxk⟩
  · rw [hr, getD_set_eq_some] at ha
    obtain ⟨_, _, he⟩ | ⟨_, ha⟩ := ha
    · cases he; rw [hs] at hc; cases hc
    · exact h.closing i a ha hc

/-- A slot without hold or pin freed, and the cursors on it GONE (R26, R41). -/
theorem Agree.retired {r r' : Retained} {m : Main} (h : Agree r m) {slot : Nat}
    (hfree : ¬ m.Occupied slot) (hr : r'.accounts = r.accounts.set slot none) :
    Agree r' (applyMain (.slotGone slot) m) := by
  have hread : ∀ i a, i ≠ slot → r.accounts.getD i none = some a → r'.accounts.getD i none = some a :=
    fun i a hi ha => by rw [hr, getD_set_eq_some]; exact .inr ⟨hi, ha⟩
  have hback : ∀ i a, r'.accounts.getD i none = some a → r.accounts.getD i none = some a := fun i a ha => by
    rw [hr, getD_set_eq_some] at ha
    obtain ⟨_, _, he⟩ | ⟨_, ha⟩ := ha
    · cases he
    · exact ha
  have hpin : ∀ p i, (applyMain (.slotGone slot) m).Pinned p i ↔ m.Pinned p i := fun p i => by
    simp [Main.Pinned, applyMain, Session.mapCursors]
  refine ⟨fun i a ha => h.funds i a (hback i a ha), fun g hg => ?_, fun p i hp => ?_, fun p q i hp hq =>
    h.onePin p q i ((hpin p i).mp hp) ((hpin q i).mp hq), fun p i key hc => ?_, fun i a ha hc => ?_⟩
  · obtain ⟨x, hx, hxs⟩ := h.holds g hg
    exact ⟨x, hread _ x (fun hs => hfree (.inl ⟨g, hg, hs⟩)) hx, hxs⟩
  · have hp := (hpin p i).mp hp
    obtain ⟨x, hx, hxs⟩ := h.pins p i hp
    exact ⟨x, hread _ x (fun hs => hfree (.inr ⟨p, hs ▸ hp⟩)) hx, hxs⟩
  · simp only [applyMain, Four.get_map] at hc
    obtain ⟨d, hd, hdc⟩ := Session.hasCursor_mapCursors hc
    obtain ⟨rfl, hi⟩ := Cursor.afterFreeing_sel hdc
    obtain ⟨x, hx, hxk⟩ := h.cursors p i key hd
    exact ⟨x, hread i x hi hx, hxk⟩
  · obtain hg | ⟨p, hp⟩ := h.closing i a (hback i a ha) hc
    · exact .inl hg
    · exact .inr ⟨p, (hpin p i).mpr hp⟩

/-- With no account and no hold, pin or SET cursor there is nothing to disagree. -/
theorem agree_of_none {r : Retained} {m : Main} (hr : ∀ i, r.accounts.getD i none = none) (hp : m.pool = [])
    (hpin : ∀ p, (m.sessions.get p).pin = none)
    (hc : ∀ p slot key, ¬ (m.sessions.get p).HasCursor (.sel slot key)) : Agree r m where
  funds i a ha := by rw [hr] at ha; cases ha
  holds g hg := by rw [hp] at hg; cases hg
  pins p i h := by obtain ⟨e, he, _⟩ := h; rw [hpin] at he; cases he
  onePin p q i h := by obtain ⟨e, he, _⟩ := h; rw [hpin] at he; cases he
  cursors p i key h := absurd h (hc p i key)
  closing i a ha := by rw [hr] at ha; cases ha

/-- WIPE leaves no account, hold, pin or SET cursor (R167). -/
theorem agree_wiped {r : Retained} (hr : r.accounts = List.replicate Config.slots none) (m : Main) :
    Agree r (applyMain .wipe m) := by
  refine agree_of_none (fun i => ?_) rfl (fun p => by simp [applyMain]) fun p i key hc => ?_
  · rw [hr, List.getD_eq_getElem?_getD, List.getElem?_replicate]
    split <;> rfl
  · simp only [applyMain, Four.get_map] at hc
    obtain ⟨d, _, hd⟩ := Session.hasCursor_mapCursors (f := Cursor.afterWipe) (x := m.sessions.get p) hc
    exact Cursor.afterWipe_ne_sel d i key hd

/-- The account table and main memory agree after what an event comes to. -/
theorem State.Settles.agree {s : State} (h : Agree s.ret s.main) (hn : (s.main.pool.map (·.id)).Nodup)
    (hf : ∀ i ∈ s.ret.free, s.ret.accounts[i]? = some none) {l : List (Option Account)} {ms : List MainWrite}
    (hs : s.Settles l ms) {r : Retained} (hr : r.accounts = l) : Agree r (s.main.effects ms) := by
  cases hs with
  | nothing ms load =>
    obtain ⟨hp, hses, _⟩ := Main.effects_load load s.main
    exact (h.of_accounts hr).of_main hp hses
  | selected p c named => exact (h.selected p named).of_accounts hr
  | held g a grants => exact (h.held grants).of_accounts hr
  | changed slot l table =>
    obtain ⟨rfl, _⟩ | ⟨a, b, hl, hk, ⟨hfunds, hstate⟩, rfl⟩ := table
    · exact h.of_accounts hr
    · refine agree_set h (agree_iff.mp h).1 hl hr hk ?_ (fun hd => ?_) (fun hc => ?_) fun _ _ ho => ho
      · have := hfunds (h.funds _ _ hl)
        rw [Int.natCast_zero, Int.add_zero] at this
        exact this
      · obtain hsame | ⟨hne, _⟩ := hstate
        · exact .inl (hsame ▸ hd)
        · exact absurd hd hne
      · obtain hsame | ⟨_, hocc⟩ := hstate
        · exact h.closing slot a hl (hsame ▸ hc)
        · exact hocc hc
  | holdEnded g l tail mem table ending => exact h.holdEnded hn mem table ending hr
  | pinSet p x a l live state free table =>
    have honly := h.only_pin free
    obtain ⟨rfl, hold⟩ | ⟨e, he, hne, table⟩ := table
    · exact (h.pinned live state.2 honly hold).of_accounts hr
    · refine h.unpinned he table (fun y hy => ?_) hr
      cases hy
      exact ⟨fun hs => hne hs.symm, ⟨a, live, state.2⟩, honly⟩
  | pinEnded p e l pin table => exact h.unpinned pin table (fun _ hy => by cases hy) hr
  | opened slot rest b free state funds =>
    exact h.opened (hf slot (by rw [free]; exact List.mem_cons_self)) hr state funds
  | retired slot a live bare =>
    refine h.retired ?_ hr
    obtain hd | ⟨hno, hnp⟩ := bare
    · have hl : s.ret.accounts.getD slot none = some a := live
      rintro (⟨g, hg, rfl⟩ | ⟨p, hp⟩)
      · obtain ⟨x, hx, hxs⟩ := h.holds g hg
        rw [hl] at hx
        cases hx
        exact hxs hd
      · obtain ⟨x, hx, hxs⟩ := h.pins p slot hp
        rw [hl] at hx
        cases hx
        exact hxs hd
    · rintro (⟨g, hg, hs⟩ | ⟨p, hp⟩)
      · exact hno g hg hs
      · exact hnp p hp
  | wiped => exact agree_wiped hr s.main

end Sys2Proof.Machine
end

section
/-! PROOFS. The hold pool is within its limits after what an event comes to. -/

namespace Sys2Proof.Machine

/-- The limits look at the pool, the next id and the ended-hold memories. -/
theorem Main.PoolOk.of_eq {m m' : Main} (h : m.PoolOk) (hp : m'.pool = m.pool) (hn : m'.nextId = m.nextId)
    (he : m'.ended = m.ended) : m'.PoolOk := by
  constructor
  · rw [hp]; exact h.size
  · rw [hp]; exact h.ids
  · rw [hp]; exact h.fields
  · rw [hp]; exact h.perPort
  · rw [hp]; exact h.perSlot
  · rw [hn]; exact h.counter
  · rw [he]; exact h.ended
  · rw [hp, he]; exact h.notActive

/-- Fewer holds, and the same ended-hold memories. -/
theorem Main.PoolOk.sublist {m m' : Main} (h : m.PoolOk) (hp : m'.pool.Sublist m.pool)
    (hn : m'.nextId = m.nextId) (he : m'.ended = m.ended) : m'.PoolOk where
  size := hp.length_le.trans h.size
  ids := h.ids.sublist (hp.map _)
  fields g hg := h.fields g (hp.subset hg)
  perPort p := (hp.countP_le (p := fun x => x.owner == p)).trans (h.perPort p)
  perSlot slot := ((hp.filter _).length_le).trans (h.perSlot slot)
  counter := hn ▸ h.counter
  ended p := by rw [he]; exact h.ended p
  notActive p e hm g hg := by
    rw [he] at hm
    exact h.notActive p e hm g (hp.subset hg)

/-- What an ended-hold memory holds after an ending: no more than before and the ending (R91). -/
theorem mem_pushEnded {l : List EndedHold} {e x : EndedHold} (h : x ∈ pushEnded l e) : x ∈ l ∨ x = e := by
  unfold pushEnded at h
  obtain h | h := List.mem_append.mp h
  · split at h
    · exact .inl h
    · exact .inl (List.mem_of_mem_drop h)
  · exact .inr (List.mem_singleton.mp h)

/-- An ended-hold memory holds four endings at most (R91). -/
theorem length_pushEnded {l : List EndedHold} (h : l.length ≤ Config.endedMemory) (e : EndedHold) :
    (pushEnded l e).length ≤ Config.endedMemory := by
  have : Config.endedMemory = 4 := rfl
  unfold pushEnded
  split
  · rw [List.length_append, List.length_singleton]; omega
  · rw [List.length_append, List.length_singleton, List.length_drop]; omega

/-- An id that was not among the endings is added to distinct ones. -/
theorem nodup_pushEnded {l : List EndedHold} (h : (l.map (·.id)).Nodup) {e : EndedHold}
    (he : ∀ x ∈ l, x.id ≠ e.id) : ((pushEnded l e).map (·.id)).Nodup := by
  have hsub : (if l.length < Config.endedMemory then l else l.drop 1).Sublist l := by
    split
    · exact List.Sublist.refl _
    · exact List.drop_sublist _ _
  unfold pushEnded
  rw [List.map_append, List.map_singleton]
  refine List.nodup_append.mpr ⟨h.sublist (hsub.map _), List.nodup_singleton _, fun a ha b hb => ?_⟩
  obtain ⟨x, hx, rfl⟩ := List.mem_map.mp ha
  rw [List.mem_singleton.mp hb]
  exact he x (hsub.subset hx)

/-- An ending is recorded for a hold that is no more in the pool (R91). -/
theorem Main.PoolOk.recordEnd {m : Main} (h : m.PoolOk) (p : Port) (r : EndReason) {id : Nat}
    (hended : ∀ q, ∀ x ∈ m.ended.get q, x.id ≠ id) (hpool : ∀ g ∈ m.pool, g.id ≠ id) :
    (applyMain (.recordEnd p id r) m).PoolOk := by
  have hget : ∀ q, (applyMain (.recordEnd p id r) m).ended.get q =
      if q = p then pushEnded (m.ended.get p) ⟨id, r⟩ else m.ended.get q := fun q => by
    simp [applyMain, Four.get_set]
  refine { h with ended := fun q => ?_, notActive := fun q x hx g hg => ?_ }
  · rw [hget]
    split
    · exact ⟨length_pushEnded (h.ended p).1 _, nodup_pushEnded (h.ended p).2 (hended p)⟩
    · exact h.ended q
  · rw [hget] at hx
    split at hx
    · obtain hx | rfl := mem_pushEnded hx
      · exact h.notActive p x hx g hg
      · exact fun hid => hpool g hg hid.symm
    · exact h.notActive q x hx g hg

/-- A hold that a HOLD made within the limits (R71, R73, R77). -/
theorem Main.PoolOk.held {s : State} (h : s.main.PoolOk) {g : Hold} {a : Account} (hg : s.Grants g a) :
    (s.main.effects [.addHold g, .nextId (nextIdAfter g.id), .forgetEnd g.id]).PoolOk := by
  have hissue := holdIdIsTheFirstUnused
  unfold Obligations.HoldIdIsTheFirstUnused at hissue
  obtain ⟨hunused, hlo, hhi, _⟩ := hissue s h.size h.counter.1 h.counter.2
  rw [← hg.id] at hunused hlo hhi
  have hmax : Config.maxWord = 65535 := rfl
  have hended : ∀ p, (s.main.effects [.addHold g, .nextId (nextIdAfter g.id), .forgetEnd g.id]).ended.get p =
      (s.main.ended.get p).filter (·.id != g.id) := fun p => by
    simp [applyMain]
  have hmem : ∀ x, x ∈ s.main.pool ++ [g] ↔ x ∈ s.main.pool ∨ x = g := fun x => by simp
  constructor
  · show (s.main.pool ++ [g]).length ≤ _
    have := hg.room
    rw [List.length_append, List.length_singleton]
    omega
  · show ((s.main.pool ++ [g]).map (·.id)).Nodup
    rw [List.map_append, List.map_singleton]
    refine List.nodup_append.mpr ⟨h.ids, List.nodup_singleton _, fun i hi j hj => ?_⟩
    obtain ⟨x, hx, rfl⟩ := List.mem_map.mp hi
    rw [List.mem_singleton.mp hj]
    exact hunused x hx
  · intro x hx
    obtain hx | rfl := (hmem x).mp hx
    · exact h.fields x hx
    · exact ⟨⟨hlo, hhi⟩, hg.amount, hg.expiry⟩
  · intro p
    show (s.main.pool ++ [g]).countP _ ≤ _
    rw [List.countP_append, List.countP_singleton]
    have := h.perPort p
    split
    · rename_i hp
      have : s.main.pool.countP (·.owner == p) < Config.portQuota := (beq_iff_eq.mp hp) ▸ hg.quota
      omega
    · exact this
  · intro slot
    show ((s.main.pool ++ [g]).filter _).length ≤ _
    rw [List.filter_append, List.length_append]
    by_cases hs : g.slot = slot
    · have : (s.main.pool.filter (·.slot == slot)).length < Config.holdsPerAccount := hs ▸ hg.slotLimit
      simp [hs]
      omega
    · have := h.perSlot slot
      simpa [hs] using this
  · show 1 ≤ nextIdAfter g.id ∧ nextIdAfter g.id ≤ _
    unfold nextIdAfter
    split <;> omega
  · intro p
    rw [hended]
    exact ⟨(List.length_filter_le _ _).trans (h.ended p).1, (h.ended p).2.sublist (List.filter_sublist.map _)⟩
  · intro p e he x hx
    rw [hended, List.mem_filter] at he
    obtain hx | rfl := (hmem x).mp hx
    · exact h.notActive p e he.1 x hx
    · simpa using he.2

/-- The hold pool is within its limits after what an event comes to. -/
theorem State.Settles.poolOk {s : State} (h : s.main.PoolOk) {l : List (Option Account)} {ms : List MainWrite}
    (hs : s.Settles l ms) : (s.main.effects ms).PoolOk := by
  cases hs with
  | nothing ms load =>
    obtain ⟨hp, _, hn, he⟩ := Main.effects_load load s.main
    exact h.of_eq hp hn he
  | held g a grants => exact h.held grants
  | holdEnded g l tail mem table ending =>
    have hdrop : (applyMain (.dropHold g.id) s.main).PoolOk := h.sublist List.filter_sublist rfl rfl
    obtain rfl | ⟨r, rfl⟩ := ending
    · exact hdrop
    · refine hdrop.recordEnd g.owner r (fun q x hx => h.notActive q x hx g mem) fun x hx => ?_
      simpa using (List.mem_filter.mp hx).2
  | wiped =>
    refine ⟨Nat.zero_le _, List.nodup_nil, nofun, fun _ => Nat.zero_le _, fun _ => Nat.zero_le _, h.counter,
      fun p => ?_, fun p e he => ?_⟩
    · simp [applyMain]
    · simp [applyMain] at he
  | _ => exact h.of_eq rfl rfl rfl

end Sys2Proof.Machine
end

section
/-! PROOFS. What the requests and the expiries come to. -/

namespace Sys2Proof.Machine

/-! Drains and balance events. -/

/-- No held amount is gone and balance + floor has not fallen. -/
theorem State.keepsFunds_of_le (s : State) (slot : Nat) {freed : Nat} {a b : Account}
    (h : a.balance + a.floor ≤ b.balance + b.floor) : s.KeepsFunds slot freed a b := fun _ => by omega

/-- An account whose balance and floor allow it is in the state it had. -/
theorem State.Changed.of_funds {s : State} {slot : Nat} {a b : Account} (hf : s.KeepsFunds slot 0 a b)
    (hs : b.state = a.state) : s.Changed slot a b := ⟨hf, .inl hs⟩

/-- The end of a pin (R148). -/
theorem State.redone_pinEndDrain (s : State) (slot : Nat) :
    s.Redone slot (s.Unpinned slot) (applyRets (s.pinEndDrain slot) s.ret).accounts := by
  by_cases hd : ∃ a, s.Live slot a ∧ a.state = .closing ∧ ∀ g ∈ s.main.pool, g.slot ≠ slot
  · obtain ⟨a, hl, hc, hno⟩ := hd
    rw [State.pinEndDrain_drains hl hc hno, applyRets_cons, applyRets_nil, applyRet_acctState hl]
    exact .set hl rfl ⟨s.keepsFunds_of_le slot (Int.le_refl _), .inr ⟨rfl, hno⟩⟩
  · refine .inl ⟨?_, fun a hl => ⟨s.keepsFunds_of_le slot (Int.le_refl _), .inl ⟨rfl, fun hc => ?_⟩⟩⟩
    · obtain hn | ⟨hn, a, hl, hc⟩ := s.pinEndDrain_cases slot
      · rw [hn]; rfl
      · by_cases hg : ∃ g ∈ s.main.pool, g.slot = slot
        · rw [State.pinEndDrain_spares hl (.inr hg)]; rfl
        · exact absurd ⟨a, hl, hc, fun g hm hs => hg ⟨g, hm, hs⟩⟩ hd
    · by_contra hno
      exact hd ⟨a, hl, hc, fun g hm hs => hno ⟨g, hm, hs⟩⟩

/-- The end of a hold (R28, R93). -/
theorem State.redone_holdEndDrain (s : State) (h : Hold) :
    s.Redone h.slot (s.Unheld h) (applyRets (s.holdEndDrain h) s.ret).accounts := by
  by_cases hd : ∃ a, s.Live h.slot a ∧ a.state = .closing ∧ s.LastHold h
  · obtain ⟨a, hl, hc, hlast⟩ := hd
    rw [State.holdEndDrain_drains hl hc hlast, applyRets_cons, applyRets_nil, applyRet_acctState hl]
    exact .set hl rfl ⟨s.keepsFunds_of_le _ (Int.le_refl _), .inr ⟨rfl, hlast⟩⟩
  · refine .inl ⟨?_, fun a hl => ⟨s.keepsFunds_of_le _ (Int.le_refl _), .inl ⟨rfl, fun hc hlast => ?_⟩⟩⟩
    · obtain hn | ⟨hn, a, hl, hc⟩ := s.holdEndDrain_cases h
      · rw [hn]; rfl
      · rw [State.holdEndDrain_spares hl (.inr fun hlast => hd ⟨a, hl, hc, hlast⟩)]; rfl
    · exact hd ⟨a, hl, hc, hlast⟩

/-- A CAPTURE of at most the amount of the hold (R85, R93). -/
theorem State.redone_capture {s : State} {h : Hold} {a : Account} (hl : s.Live h.slot a) {amount : Nat}
    (ha : amount ≤ h.amount) : s.Redone h.slot (s.Unheld h)
      (applyRets (s.balanceEvent h.slot a (-amount) ++ s.holdEndDrain h) s.ret).accounts := by
  have hfunds : ∀ st, s.KeepsFunds h.slot h.amount a { a with balance := a.balance + -amount, state := st } :=
    fun _ hf => by dsimp only; omega
  by_cases hd : a.state = .closing ∧ s.LastHold h
  · obtain ⟨hc, hlast⟩ := hd
    rw [State.holdEndDrain_drains hl hc hlast, applyRets_capture_drain hl]
    exact .set hl rfl ⟨hfunds _, .inr ⟨rfl, hlast⟩⟩
  · have hspares : a.state ≠ .closing ∨ ¬ s.LastHold h := by
      by_cases hc : a.state = .closing
      · exact .inr fun hlast => hd ⟨hc, hlast⟩
      · exact .inl hc
    rw [State.holdEndDrain_spares hl hspares, List.append_nil, applyRets_balanceEvent hl]
    exact .set hl rfl ⟨hfunds a.state, .inl ⟨rfl, fun hc hlast => hd ⟨hc, hlast⟩⟩⟩

/-- A balance event that leaves the funds behind the holds. -/
theorem State.settles_balanceEvent {s : State} {slot : Nat} {a : Account} (hl : s.Live slot a) {delta : Int}
    (hf : 0 ≤ delta ∨ -delta ≤ s.available slot a) :
    s.Settles (applyRets (s.balanceEvent slot a delta) s.ret).accounts [] := by
  rw [applyRets_balanceEvent hl]
  refine .changed slot _ (.set hl rfl (.of_funds (fun hfunds => ?_) rfl))
  unfold State.available at hf
  dsimp only
  omega

/-- A live account moved to another state. -/
theorem State.settles_acctState {s : State} {slot : Nat} {a : Account} (hl : s.Live slot a) {st : AcctState}
    (hd : st ≠ .drained)
    (hc : st = .closing → (∃ g ∈ s.main.pool, g.slot = slot) ∨ ∃ p, s.PinnedBy slot p) :
    s.Settles (applyRets [.acctState slot st] s.ret).accounts [] := by
  rw [applyRets_cons, applyRets_nil, applyRet_acctState hl]
  exact .changed slot _ (.set hl rfl ⟨s.keepsFunds_of_le slot (Int.le_refl _), .inr ⟨hd, hc⟩⟩)

/-! Station requests. -/

/-- A SELECT (R138). -/
theorem State.settles_judgeSelect (s : State) (p : Port) (key : Nat) :
    s.Settles (applyRets (judgeSelect p key s).writes s.ret).accounts (judgeSelect p key s).mains := by
  unfold judgeSelect
  split
  · exact .selected p .none nofun
  · rename_i slot hk
    split
    · exact .selected p .none nofun
    · obtain ⟨_, a, hl, hkey⟩ := State.lookup_some hk
      refine .selected p _ fun i k hc => ?_
      cases hc
      exact ⟨a, hl, hkey⟩

/-- A PIN (R142, R143). -/
theorem State.settles_judgePin (s : State) (p : Port) :
    s.Settles (applyRets (judgePin p s).writes s.ret).accounts (judgePin p s).mains := by
  unfold judgePin
  split
  · exact .refl s
  · rename_i slot key a hc
    obtain ⟨_, hl⟩ := State.cursorAccount_ok hc
    split
    · exact .refl s
    · rename_i hfree
      split
      · exact .refl s
      · rename_i hstate
        have hs : a.state ≠ .closing ∧ a.state ≠ .drained := by simpa using hstate
        dsimp only
        split
        · rename_i hp
          exact .pinSet p ⟨slot, _⟩ a _ hl hs hfree (.inl ⟨rfl, fun e he => by rw [hp] at he; cases he⟩)
        · rename_i e he
          split
          · rename_i hsame
            refine .pinSet p ⟨slot, _⟩ a _ hl hs hfree (.inl ⟨rfl, fun e' he' => ?_⟩)
            have : e = e' := Option.some.inj (he.symm.trans he')
            exact this ▸ hsame
          · rename_i hmoved
            exact .pinSet p ⟨slot, _⟩ a _ hl hs hfree (.inr ⟨e, he, hmoved, s.redone_pinEndDrain e.slot⟩)

/-- The end of a port's pin (R144, R145, R149). -/
theorem State.settles_pinEnd {s : State} {p : Port} {e : PinEntry} (he : (s.session p).pin = some e) :
    s.Settles (applyRets (s.pinEndDrain e.slot) s.ret).accounts [.pin p none] :=
  .pinEnded p e _ he (s.redone_pinEndDrain e.slot)

/-- A FARE (R115 to R119). -/
theorem State.settles_judgeFare (s : State) (p : Port) (entryZone exitZone : Nat) (trial : Bool) :
    s.Settles (applyRets (judgeFare p entryZone exitZone trial s).writes s.ret).accounts
      (judgeFare p entryZone exitZone trial s).mains := by
  unfold judgeFare
  split
  · exact .refl s
  · rename_i slot key a hc
    obtain ⟨_, hl⟩ := State.cursorAccount_ok hc
    have hcharged : ∀ charge : Nat, (charge : Int) ≤ s.available slot a →
        s.Settles (applyRets (s.fareWrites slot a charge) s.ret).accounts [] := fun charge hf => by
      rw [applyRets_fareWrites hl]
      refine .changed slot _ (.set hl rfl (.of_funds (fun hfunds => ?_) rfl))
      unfold State.available at hf
      dsimp only
      omega
    dsimp only
    repeat' split
    all_goals first
      | exact .refl s
      | exact hcharged _ (by omega)

/-- A HOLD that is not refused: on an OPEN account with the funds for it, and within the limits (R81). -/
theorem State.holdRefusal_none {s : State} {p : Port} {slot amount : Nat} {a : Account}
    (h : s.holdRefusal p slot a amount = none) :
    a.state = .opened ∧ (s.holdsOn slot).length < Config.holdsPerAccount ∧ (amount : Int) ≤ s.available slot a ∧
      s.portHolds p < Config.portQuota ∧ s.main.pool.length < Config.pool := by
  unfold State.holdRefusal at h
  split at h
  · cases h
  · rename_i hspend
    have hopen : a.state = .opened := by
      unfold State.spendRefusal at hspend
      split at hspend
      · cases hspend
      · split at hspend
        · cases hspend
        · rename_i ho
          simpa using ho
    split at h
    · cases h
    · split at h
      · cases h
      · split at h
        · cases h
        · split at h
          · cases h
          · exact ⟨hopen, by omega, by omega, by omega, by omega⟩

/-- A HOLD whose amount is in range (R81, R82). -/
theorem State.settles_judgeHold (s : State) (p : Port) {amount : Nat} (ha : 1 ≤ amount ∧ amount ≤ 999999)
    (lifetime : Nat) (trial : Bool) :
    s.Settles (applyRets (judgeHold p amount lifetime trial s).writes s.ret).accounts
      (judgeHold p amount lifetime trial s).mains := by
  unfold judgeHold
  split
  · exact .refl s
  · rename_i slot key a hc
    obtain ⟨_, hl⟩ := State.cursorAccount_ok hc
    dsimp only
    split
    · exact .refl s
    · rename_i hr
      dsimp only
      split
      · exact .refl s
      · obtain ⟨hopen, hslot, hfunds, hport, hpool⟩ := State.holdRefusal_none hr
        exact .held ⟨s.assignedId, slot, p, amount, _⟩ a
          { id := rfl, live := hl, opened := hopen, amount := ha, expiry := Nat.mod_lt _ (by decide),
            slotLimit := hslot, funds := hfunds, quota := hport, room := hpool }

/-- A CAPTURE (R84, R85). -/
theorem State.settles_judgeCapture (s : State) (p : Port) (id amount : Nat) (trial : Bool) :
    s.Settles (applyRets (judgeCapture p id amount trial s).writes s.ret).accounts
      (judgeCapture p id amount trial s).mains := by
  unfold judgeCapture
  split
  · exact .refl s
  · rename_i h a ho
    obtain ⟨hf, _, hl⟩ := State.ownedHold_ok ho
    split
    · exact .refl s
    · dsimp only
      split
      · exact .refl s
      · exact .holdEnded h _ [] (State.findHold_some hf).1 (State.redone_capture hl (by omega)) (.inl rfl)

/-- A RELEASE (R87). -/
theorem State.settles_judgeRelease (s : State) (p : Port) (id : Nat) :
    s.Settles (applyRets (judgeRelease p id s).writes s.ret).accounts (judgeRelease p id s).mains := by
  unfold judgeRelease
  split
  · exact .refl s
  · rename_i h a ho
    exact .holdEnded h _ [] (State.findHold_some (State.ownedHold_ok ho).1).1 (s.redone_holdEndDrain h) (.inl rfl)

/-- A TOP-UP (R64, R65). -/
theorem State.settles_judgeTopUp (s : State) (p : Port) (amount : Nat) (trial : Bool) :
    s.Settles (applyRets (judgeTopUp p amount trial s).writes s.ret).accounts
      (judgeTopUp p amount trial s).mains := by
  unfold judgeTopUp
  split
  · exact .refl s
  · rename_i slot key a hc
    obtain ⟨_, hl⟩ := State.cursorAccount_ok hc
    dsimp only
    split
    · exact .refl s
    · split
      · exact .refl s
      · dsimp only
        split
        · exact .refl s
        · exact State.settles_balanceEvent hl (.inl (by omega))

/-- The amount of a HOLD whose fields pass (R53, R130). -/
theorem holdAmount_inRange {amount : BitVec 24} {lifetime : BitVec 16} {trial : Byte}
    (h : (StationRequest.hold amount lifetime trial).fieldRefusal = none) :
    1 ≤ amount6 amount ∧ amount6 amount ≤ 999999 := by
  unfold StationRequest.fieldRefusal at h
  dsimp only at h
  split at h
  · cases h
  · rename_i hd
    split at h
    · cases h
    · rename_i hr
      simp only [Bool.not_eq_true', Bool.not_eq_false, Bool.or_eq_true, decide_eq_true_eq, not_or] at hd hr
      obtain ⟨⟨⟨h0, _⟩, _⟩, _⟩ := hr
      exact ⟨by omega, amount6_le hd⟩

/-- A station request's ladder and own checks (R129 to R131). -/
theorem State.settles_ladder (s : State) (r : StationRequest) (p : Port) :
    s.Settles (applyRets (r.ladder p s).writes s.ret).accounts (r.ladder p s).mains := by
  unfold StationRequest.ladder
  split
  · exact .refl s
  · split
    · exact .refl s
    · rename_i hr
      cases r with
      | select key => exact s.settles_judgeSelect p _
      | balance =>
        show s.Settles (applyRets (judgeBalance p s).writes s.ret).accounts (judgeBalance p s).mains
        unfold judgeBalance
        split <;> exact .refl s
      | stationStatus => exact .refl s
      | pin => exact s.settles_judgePin p
      | unpin =>
        show s.Settles (applyRets (judgeUnpin p s).writes s.ret).accounts (judgeUnpin p s).mains
        unfold judgeUnpin
        split
        · exact .refl s
        · exact State.settles_pinEnd ‹_›
      | fare => exact s.settles_judgeFare ..
      | hold => exact s.settles_judgeHold p (holdAmount_inRange hr) _ _
      | capture => exact s.settles_judgeCapture ..
      | release => exact s.settles_judgeRelease ..
      | topUp => exact s.settles_judgeTopUp ..
      | bad => exact .refl s

/-- A station request, its reply cache entry included. -/
theorem State.settles_station (s : State) (p : Port) (f : StationFrame) :
    s.Settles (applyRets (stationOutcome p f s).verdict.writes s.ret).accounts
      (stationOutcome p f s).verdict.mains := by
  have hcache : ∀ v : Verdict, s.Settles (applyRets v.writes s.ret).accounts v.mains →
      s.Settles (applyRets (withCache p f v s).writes s.ret).accounts (withCache p f v s).mains := by
    intro v hv
    unfold withCache
    split
    · exact hv
    · dsimp only
      rw [applyRets_append]
      exact hv
  unfold stationOutcome
  split
  · exact hcache _ (.refl s)
  · split
    · split <;> exact .refl s
    · exact hcache _ (s.settles_ladder _ p)

/-- A request in hand, which a session reset may have dropped (R150). -/
theorem State.settles_standing (s : State) (p : Port) (h : InHand) :
    s.Settles (applyRets (stationOutcome p h.frame (s.judgedFor p h)).verdict.writes s.ret).accounts
      (h.standing (stationOutcome p h.frame (s.judgedFor p h)).verdict.mains) := by
  have hj := (s.judgedFor p h).settles_station p h.frame
  rw [State.judgedFor_ret] at hj
  have hpins : ∀ q, (s.session q).pin = ((s.judgedFor p h).session q).pin := fun q => by
    unfold State.judgedFor
    split
    · rfl
    · simp only [State.session, State.setSession_main_sessions, Four.get_set]
      split
      · subst_vars; rfl
      · rfl
  have hs := hj.congr (t := s) (State.judgedFor_ret s p h).symm (s.judgedFor_pool p h).symm
    (by unfold State.judgedFor; split <;> rfl) hpins
  unfold InHand.standing
  split
  · exact hs.sparing
  · exact hs

/-! Supervisor requests. -/

/-- The retirement move of a slot without hold and pin (R26). -/
theorem State.settles_retirement {s : State} {slot : Nat} {a : Account} (hl : s.Live slot a)
    (hb : a.state = .drained ∨ (∀ g ∈ s.main.pool, g.slot ≠ slot) ∧ ∀ p, ¬ s.PinnedBy slot p) :
    s.Settles (applyRets (s.retirementWrites slot a) s.ret).accounts [.slotGone slot] := by
  rw [applyRets_retirementWrites hl]
  exact .retired slot a hl hb

/-- A RETIRE (R25). -/
theorem State.settles_judgeRetire (s : State) (key : BitVec 40) :
    s.Settles (applyRets (judgeRetire key s).writes s.ret).accounts (judgeRetire key s).mains := by
  unfold judgeRetire
  split
  · exact .refl s
  · rename_i slot a hk
    obtain ⟨_, hl⟩ := State.named_ok hk
    dsimp only
    split
    · exact .refl s
    · split
      · exact .refl s
      · split
        · exact .refl s
        · split
          · rename_i hocc
            refine State.settles_acctState hl nofun fun _ => ?_
            simp only [Bool.or_eq_true, decide_eq_true_eq] at hocc
            obtain hh | hp := hocc
            · obtain ⟨g, hg⟩ := List.exists_mem_of_length_pos hh
              obtain ⟨hg, hs⟩ := List.mem_filter.mp hg
              exact .inl ⟨g, hg, by simpa using hs⟩
            · refine .inr ?_
              by_contra hno
              have := State.pinOn_none.mpr fun q hq => hno ⟨q, hq⟩
              rw [this] at hp
              cases hp
          · rename_i hocc
            split
            · exact .refl s
            · refine State.settles_retirement hl (.inr ?_)
              simp only [Bool.or_eq_true, decide_eq_true_eq, not_or, Nat.not_lt, Nat.le_zero,
                Bool.not_eq_true, Option.isSome_eq_false_iff, Option.isNone_iff_eq_none,
                Option.map_eq_none_iff, List.length_eq_zero_iff] at hocc
              refine ⟨fun g hg hs => ?_, State.pinOn_none.mp hocc.2⟩
              have : g ∈ s.holdsOn slot := List.mem_filter.mpr ⟨hg, by simpa using hs⟩
              rw [hocc.1] at this
              cases this

/-- A CONFIRM RETIRE (R29). -/
theorem State.settles_judgeConfirmRetire (s : State) (key : BitVec 40) :
    s.Settles (applyRets (judgeConfirmRetire key s).writes s.ret).accounts (judgeConfirmRetire key s).mains := by
  unfold judgeConfirmRetire
  split
  · exact .refl s
  · rename_i slot a hk
    obtain ⟨_, hl⟩ := State.named_ok hk
    split
    · exact .refl s
    · rename_i hd
      split
      · exact .refl s
      · split
        · exact .refl s
        · exact State.settles_retirement hl (.inl (by simpa using hd))

/-- A SUSPEND or a RESUME (R23, R24). -/
theorem State.settles_judgeMove (s : State) (key : BitVec 40) (source : AcctState) {target : AcctState}
    (ht : target ≠ .drained ∧ target ≠ .closing) :
    s.Settles (applyRets (judgeMove key source target s).writes s.ret).accounts
      (judgeMove key source target s).mains := by
  unfold judgeMove
  split
  · exact .refl s
  · rename_i hk
    split
    · exact State.settles_acctState (State.named_ok hk).2 ht.1 fun hc => absurd hc ht.2
    · exact .refl s

/-- An OPEN ACCOUNT (R18, R19). -/
theorem State.settles_judgeOpenAccount (s : State) (key : BitVec 40) (cls sign : Byte)
    (initial : BitVec 32) (floor : BitVec 24) (vePresent : Byte) (ve : BitVec 16)
    (passPresent : Byte) (zones passEnd : BitVec 16) :
    s.Settles (applyRets (judgeOpenAccount key cls sign initial floor vePresent ve passPresent zones
      passEnd s).writes s.ret).accounts
      (judgeOpenAccount key cls sign initial floor vePresent ve passPresent zones passEnd s).mains := by
  unfold judgeOpenAccount
  split
  · exact .refl s
  · split
    · exact .refl s
    · split
      · exact .refl s
      · rename_i slot rest hfree
        exact .opened slot rest _ hfree rfl (by dsimp only [newAccount]; omega)

/-- A SET TERMS: a floor that falls leaves the funds behind the holds (R21, R22). -/
theorem State.settles_judgeSetTerms (s : State) (key : BitVec 40) (clsChange cls floorChange : Byte)
    (floor : BitVec 24) (veChange : Byte) (ve : BitVec 16) (passChange : Byte)
    (zones passEnd : BitVec 16) :
    s.Settles (applyRets (judgeSetTerms key clsChange cls floorChange floor veChange ve passChange
      zones passEnd s).writes s.ret).accounts
      (judgeSetTerms key clsChange cls floorChange floor veChange ve passChange zones passEnd s).mains := by
  unfold judgeSetTerms
  split
  · exact .refl s
  · split
    · exact .refl s
    · rename_i slot a hk
      obtain ⟨_, hl⟩ := State.byKey_some hk
      split
      · exact .refl s
      · dsimp only
        split
        · exact .refl s
        · rename_i hfunds
          have hw := congrArg Retained.accounts (applyRets_termsWrites hl clsChange cls floorChange floor veChange
            ve passChange zones passEnd)
          unfold termsWrites at hw
          dsimp only at hw
          rw [hw]
          generalize ht : a.withTerms clsChange cls floorChange floor veChange ve passChange zones passEnd = t
            at hfunds
          have hb : t.balance = a.balance ∧ t.key = a.key ∧ t.state = a.state := ht ▸ ⟨rfl, rfl, rfl⟩
          refine .changed slot _ (.set hl hb.2.1 (.of_funds (fun hf => ?_) hb.2.2))
          unfold State.available at hfunds
          rw [hb.1] at hfunds ⊢
          omega

/-- A CREDIT (R66). -/
theorem State.settles_judgeCredit (s : State) (key : BitVec 40) (amount : BitVec 32) :
    s.Settles (applyRets (judgeCredit key amount s).writes s.ret).accounts (judgeCredit key amount s).mains := by
  unfold judgeCredit
  split
  · exact .refl s
  · split
    · exact .refl s
    · split
      · exact .refl s
      · rename_i a hl
        have hl : s.Live _ a := hl
        dsimp only
        split
        · exact .refl s
        · dsimp only
          exact State.settles_balanceEvent (delta := amount8 amount) hl (.inl (Int.natCast_nonneg _))

/-- A DEBIT (R67). -/
theorem State.settles_judgeDebit (s : State) (key : BitVec 40) (amount : BitVec 32) :
    s.Settles (applyRets (judgeDebit key amount s).writes s.ret).accounts (judgeDebit key amount s).mains := by
  unfold judgeDebit
  split
  · exact .refl s
  · split
    · exact .refl s
    · split
      · exact .refl s
      · rename_i a hl
        have hl : s.Live _ a := hl
        dsimp only
        split
        · exact .refl s
        · rename_i hfunds
          dsimp only
          exact State.settles_balanceEvent (delta := -(amount8 amount : Int)) hl (.inr (by omega))

/-- The tariff requests and those on the parameter set (7.1). -/
theorem judge_isLoad {r : SupervisorRequest} (s : State)
    (h : match r with
      | .tariffBegin | .tariffRow .. | .tariffCap .. | .tariffCommit | .setParameters ..
      | .clearBackupFlag => True
      | _ => False) : ∀ w ∈ (r.judge s).mains, w.isLoad = true := by
  cases r with
  | tariffBegin | tariffRow | tariffCap | tariffCommit | setParameters | clearBackupFlag =>
    simp only [SupervisorRequest.judge, judgeTariffBegin, judgeTariffRow, judgeTariffCap, judgeTariffCommit,
      judgeSetParameters, judgeClearBackupFlag, report]
    repeat' split
    all_goals simp [MainWrite.isLoad]
  | _ => cases h

/-- A supervisor request. -/
theorem State.settles_supervisor (s : State) (r : SupervisorRequest) :
    s.Settles (applyRets (r.judge s).writes s.ret).accounts (r.judge s).mains := by
  have hspares : (∀ w ∈ (r.judge s).writes, w.sparesBooks = true) → (∀ w ∈ (r.judge s).mains, w.isLoad = true) →
      s.Settles (applyRets (r.judge s).writes s.ret).accounts (r.judge s).mains := fun hw hm => by
    have hb : (applyRets (r.judge s).writes s.ret).accounts = s.ret.accounts :=
      congrArg Books.accounts (applyRets_books hw s.ret)
    rw [hb]
    exact .nothing _ hm
  have hfree : r.needsArea = false → s.Settles (applyRets (r.judge s).writes s.ret).accounts (r.judge s).mains :=
    fun hn => by
      obtain ⟨hw, hm⟩ := judge_of_free hn s
      rw [hw, hm]
      exact .refl s
  cases r with
  | openAccount => exact s.settles_judgeOpenAccount ..
  | setTerms => exact s.settles_judgeSetTerms ..
  | suspend | resume => exact s.settles_judgeMove _ _ ⟨nofun, nofun⟩
  | retire => exact s.settles_judgeRetire _
  | confirmRetire => exact s.settles_judgeConfirmRetire _
  | dayRoll =>
    simp only [SupervisorRequest.judge, judgeDayRoll]
    split <;> exact .refl s
  | credit => exact s.settles_judgeCredit ..
  | debit => exact s.settles_judgeDebit ..
  | clearUnclaimed =>
    simp only [SupervisorRequest.judge, judgeClearUnclaimed]
    split <;> exact .refl s
  | cancelHold holdId =>
    simp only [SupervisorRequest.judge, judgeCancelHold]
    split
    · exact .refl s
    · split
      · exact .refl s
      · rename_i h hf
        exact .holdEnded h _ _ (State.findHold_some hf).1 (s.redone_holdEndDrain h) (.inr ⟨_, rfl⟩)
  | tariffBegin | tariffRow | tariffCap | tariffCommit | setParameters | clearBackupFlag =>
    exact hspares (judge_sparesBooks s trivial) (judge_isLoad s trivial)
  | wipe => exact .wiped
  | readAccount | enumerate | readTariffRow | status | readParameters | bad => exact hfree rfl

/-! Expiries. -/

/-- The expiry of a hold (R89). -/
theorem State.settles_holdExpiry {s : State} {h : Hold} (hm : h ∈ s.main.pool) :
    s.Settles (applyRets (holdExpiryVerdict h s).1 s.ret).accounts (holdExpiryVerdict h s).2 :=
  .holdEnded h _ _ hm (s.redone_holdEndDrain h) (.inr ⟨_, rfl⟩)

/-- A hold that is due is active (R89). -/
theorem State.dueHold_mem {s : State} {id : Nat} {h : Hold} (hd : s.dueHold id = some h) : h ∈ s.main.pool := by
  unfold State.dueHold at hd
  split at hd
  · rename_i g hg
    split at hd
    · cases hd; exact (State.findHold_some hg).1
    · cases hd
  · cases hd

/-- A pin that is due stands (R145). -/
theorem State.duePin_pin {s : State} {p : Port} {e : PinEntry} (hd : s.duePin p = some e) :
    (s.session p).pin = some e := by
  unfold State.duePin at hd
  split at hd
  · rename_i x hx
    split at hd
    · cases hd; exact hx
    · cases hd
  · cases hd

end Sys2Proof.Machine
end

section
/-! PROOFS. What a step of the part is made of: a few moves, said once, on which the conditions on main memory
rest. -/

namespace Sys2Proof.Machine

/-! Main memory with other links and flags. -/

/-- A session with the same cursor and pin, whose request in hand is under a cursor it was under. -/
structure Session.Like (x y : Session) : Prop where
  cursor : x.cursor = y.cursor
  pin : x.pin = y.pin
  dropped : ∀ h c, x.inHand = some h → h.dropped = some c → ∃ g, y.inHand = some g ∧ g.dropped = some c

theorem Session.Like.refl (x : Session) : x.Like x := ⟨rfl, rfl, fun h _ hh hc => ⟨h, hh, hc⟩⟩

/-- Main memory with the same holds, endings, cursors and pins. -/
structure Main.Like (m n : Main) : Prop where
  pool : m.pool = n.pool
  nextId : m.nextId = n.nextId
  ended : m.ended = n.ended
  sessions : ∀ p, (m.sessions.get p).Like (n.sessions.get p)

theorem Main.Like.refl (m : Main) : m.Like m := ⟨rfl, rfl, rfl, fun _ => .refl _⟩

theorem Main.Like.of_eq {m n : Main} (hp : m.pool = n.pool) (hn : m.nextId = n.nextId) (he : m.ended = n.ended)
    (hs : m.sessions = n.sessions) : m.Like n := ⟨hp, hn, he, fun _ => hs ▸ .refl _⟩

/-- A change of every cursor. -/
theorem Session.Like.mapCursors {x y : Session} (h : x.Like y) (f : Cursor → Cursor) :
    (x.mapCursors f).Like (y.mapCursors f) := by
  refine ⟨congrArg f h.cursor, h.pin, fun g c hg hc => ?_⟩
  simp only [Session.mapCursors, Option.map_eq_some_iff] at hg
  obtain ⟨g, hg, rfl⟩ := hg
  simp only [Option.map_eq_some_iff] at hc
  obtain ⟨c, hc, rfl⟩ := hc
  obtain ⟨k, hk, hkc⟩ := h.dropped g c hg hc
  exact ⟨{ k with dropped := k.dropped.map f }, by simp [Session.mapCursors, hk], by simp [hkc]⟩

/-- A change of one port's session. -/
theorem Main.Like.mapSession {m n : Main} (h : m.Like n) (p : Port) {f : Session → Session}
    (hf : ∀ x y : Session, x.Like y → (f x).Like (f y)) : (m.mapSession p f).Like (n.mapSession p f) := by
  refine ⟨h.pool, h.nextId, h.ended, fun q => ?_⟩
  simp only [Main.mapSession_sessions]
  split
  · exact hf _ _ (h.sessions p)
  · exact h.sessions q

/-- A main-memory effect on both. -/
theorem Main.Like.applyMain {m n : Main} (h : m.Like n) (w : MainWrite) :
    (applyMain w m).Like (Machine.applyMain w n) := by
  cases w with
  | cursor p c => exact h.mapSession p (f := fun x => { x with cursor := c }) fun _ _ hx => ⟨rfl, hx.pin, hx.dropped⟩
  | pin p e => exact h.mapSession p (f := fun x => { x with pin := e }) fun _ _ hx => ⟨hx.cursor, rfl, hx.dropped⟩
  | addHold g => exact ⟨congrArg (· ++ [g]) h.pool, h.nextId, h.ended, h.sessions⟩
  | dropHold id => exact ⟨by simp only [Machine.applyMain, h.pool], h.nextId, h.ended, h.sessions⟩
  | nextId v => exact ⟨h.pool, rfl, h.ended, h.sessions⟩
  | recordEnd p id r =>
    exact ⟨h.pool, h.nextId, congrArg (fun e => e.set p (pushEnded (e.get p) ⟨id, r⟩)) h.ended, h.sessions⟩
  | forgetEnd id =>
    exact ⟨h.pool, h.nextId, by simp only [Machine.applyMain, h.ended], h.sessions⟩
  | slotGone slot =>
    refine ⟨h.pool, h.nextId, h.ended, fun p => ?_⟩
    simp only [Machine.applyMain, Four.get_map]
    exact (h.sessions p).mapCursors _
  | standby => exact ⟨h.pool, h.nextId, h.ended, h.sessions⟩
  | loaded => exact ⟨h.pool, h.nextId, h.ended, h.sessions⟩
  | wipe =>
    refine ⟨rfl, h.nextId, rfl, fun p => ?_⟩
    simp only [Machine.applyMain, Four.get_map]
    have := (h.sessions p).mapCursors Cursor.afterWipe
    exact ⟨this.cursor, rfl, this.dropped⟩

theorem Main.Like.effects {m n : Main} (h : m.Like n) (ws : List MainWrite) :
    (m.effects ws).Like (n.effects ws) := by
  induction ws generalizing m n with
  | nil => exact h
  | cons w ws ih => exact ih (h.applyMain w)

theorem Main.Like.poolOk {m n : Main} (h : m.Like n) (hn : n.PoolOk) : m.PoolOk :=
  hn.of_eq h.pool h.nextId h.ended

/-- The pins are the same. -/
theorem Main.Like.pinned {m n : Main} (h : m.Like n) (p : Port) (slot : Nat) :
    m.Pinned p slot ↔ n.Pinned p slot := by simp only [Main.Pinned, (h.sessions p).pin]

theorem Main.Like.agree {m n : Main} (h : m.Like n) {r : Retained} (hn : Agree r n) : Agree r m := by
  refine hn.within ⟨h.pool ▸ List.Sublist.refl _, fun p slot => (h.pinned p slot).mp, fun p slot key hc => ?_⟩
    h.pool fun p slot => (h.pinned p slot).mpr
  obtain hc | ⟨g, hg, hc⟩ := hc
  · exact .inl ((h.sessions p).cursor ▸ hc)
  · obtain ⟨k, hk, hkc⟩ := (h.sessions p).dropped g _ hg hc
    exact .inr ⟨k, hk, hkc⟩

/-- The clock leaves the endings and the next id. -/
theorem catchUpN_like (n : Nat) (m : Main) : (catchUpN n m).Like m := by
  induction n generalizing m with
  | zero => exact .of_eq rfl rfl rfl rfl
  | succ n ih =>
    unfold catchUpN
    split
    · exact .of_eq rfl rfl rfl rfl
    · exact ⟨(ih _).pool, (ih _).nextId, (ih _).ended, (ih _).sessions⟩

/-- Effects and the clock advances they set free. -/
theorem applyMains_like (ws : List MainWrite) (m : Main) : (applyMains ws m).Like (m.effects ws) :=
  catchUpN_like _ _

/-! Moves. -/

/-- Two states that differ in links, flags, waiting events, the clock or the queue alone; in a stopped part the
requests in hand are the same too. -/
structure Frame (s t : State) : Prop where
  stands : Stands s t
  ret : t.ret = s.ret
  holder : t.main.holder = s.main.holder
  like : t.main.Like s.main
  inHand : s.running = false → ∀ p, (t.session p).inHand = (s.session p).inHand

/-- No event is on its way to the end of its apply phase. -/
def State.Applied (s : State) : Prop := ∀ h, s.main.holder = some h → h.phase = .clear

/-- A move of the part: one that touches neither accounts, holds, pins nor cursors; a session reset; the end of
an apply phase; effects made at once; the area given to an event; the area freed. -/
inductive Move : State → State → Prop
  | frame {s t : State} (h : Frame s t) : Move s t
  | reset {s : State} (p : Port) (h : s.running = true → s.Applied) : Move s (s.sessionReset p)
  | finish {s : State} (hr : s.running = true) : Move s s.finishApply
  | effects {s : State} (ms : List MainWrite) (hr : s.running = true) (ha : s.Applied)
      (hs : s.Settles s.ret.accounts ms) : Move s { s with main := applyMains ms s.main }
  | hold {s : State} (e : AreaEvent) (ws : List RetWrite) (ms : List MainWrite) (reply : Option Reply)
      (hr : s.running = true) (hh : s.main.holder = none) (hs : s.Settles (applyRets ws s.ret).accounts ms)
      (hk : ∀ P : Retained → Prop, KeptByChanges P → P s.ret → P (applyRets ws s.ret)) :
      Move s (s.holdArea e ws ms reply)
  | clear {s : State} (x : Holder) (hr : s.running = true) (hx : s.main.holder = some x) :
      Move s s.finishApply.clearArea

/-- One move after another. -/
def Path : State → State → Prop := Relation.ReflTransGen Move

theorem Path.refl (s : State) : Path s s := Relation.ReflTransGen.refl

theorem Path.single {s t : State} (h : Move s t) : Path s t := Relation.ReflTransGen.single h

theorem Path.trans {s t u : State} (h : Path s t) (g : Path t u) : Path s u := Relation.ReflTransGen.trans h g

theorem Move.stands {s t : State} (h : Move s t) : Stands s t := by
  cases h with
  | frame h => exact h.stands
  | finish hr => exact (moves_finishApply keptByChanges_true s).2
  | clear x hr hx => exact (moves_finishApply keptByChanges_true s).2
  | _ => exact ⟨rfl, rfl, rfl⟩

theorem Path.stands {s t : State} (h : Path s t) : Stands s t := by
  induction h with
  | refl => exact ⟨rfl, rfl, rfl⟩
  | tail _ hm ih => exact ⟨hm.stands.1.trans ih.1, hm.stands.2.1.trans ih.2.1, hm.stands.2.2.trans ih.2.2⟩

/-- A part that takes requests goes on taking them. -/
theorem Path.running {s t : State} (h : Path s t) (hr : s.running = true) : t.running = true :=
  h.stands.running.trans hr

/-- A condition that every move keeps is kept by one after another. -/
theorem Path.keeps {I : State → Prop} (hm : ∀ {s t}, Move s t → I s → I t) {s t : State} (h : Path s t)
    (hs : I s) : I t := by
  induction h with
  | refl => exact hs
  | tail _ hlast ih => exact hm hlast ih

theorem Frame.path {s t : State} (h : Frame s t) : Path s t := .single (.frame h)

/-! Frames. -/

/-- The same sessions, holds and endings. -/
theorem Frame.of_eq {s t : State} (hs : Stands s t) (hr : t.ret = s.ret) (hh : t.main.holder = s.main.holder)
    (hp : t.main.pool = s.main.pool) (hn : t.main.nextId = s.main.nextId) (he : t.main.ended = s.main.ended)
    (hx : t.main.sessions = s.main.sessions) : Frame s t :=
  ⟨hs, hr, hh, .of_eq hp hn he hx, fun _ p => by simp only [State.session, hx]⟩

theorem Frame.setLink (s : State) (p : Port) (x : Link) : Frame s (s.setLink p x) :=
  .of_eq ⟨rfl, rfl, rfl⟩ rfl rfl rfl rfl rfl rfl

theorem Frame.setSup (s : State) (x : SupLink) : Frame s (s.setSup x) :=
  .of_eq ⟨rfl, rfl, rfl⟩ rfl rfl rfl rfl rfl rfl

theorem Frame.wait (s : State) (e : AreaEvent) : Frame s (s.wait e) :=
  .of_eq ⟨rfl, rfl, rfl⟩ rfl rfl rfl rfl rfl rfl

theorem Frame.withWaiting (s : State) (w : List AreaEvent) : Frame s (s.withWaiting w) :=
  .of_eq ⟨rfl, rfl, rfl⟩ rfl rfl rfl rfl rfl rfl

theorem Frame.popped (s : State) (cs : List Instr) : Frame s { s with pending := cs } :=
  .of_eq ⟨rfl, rfl, rfl⟩ rfl rfl rfl rfl rfl rfl

/-- An advance of the clock, made or deferred (R74). -/
theorem Frame.clock (s : State) (n : Nat) :
    Frame s { s with main := { s.main with clockOwed := n }.catchUp } := by
  have hl := catchUpN_like n { s.main with clockOwed := n }
  obtain ⟨_, hx, _, _, hh, _⟩ := catchUpN_frame n { s.main with clockOwed := n }
  exact .of_eq ⟨rfl, rfl, rfl⟩ rfl hh hl.pool hl.nextId hl.ended hx

/-- A session with the same cursor and pin; in a stopped part with the same request in hand. -/
theorem Frame.setSession (s : State) (p : Port) {x : Session} (hx : x.Like (s.session p))
    (hi : s.running = false → x.inHand = (s.session p).inHand) : Frame s (s.setSession p x) := by
  refine ⟨⟨rfl, rfl, rfl⟩, rfl, rfl, ⟨rfl, rfl, rfl, fun q => ?_⟩, fun hr q => ?_⟩
  · simp only [State.setSession_main_sessions, Four.get_set]
    split
    · subst_vars; exact hx
    · exact .refl _
  · simp only [State.session, State.setSession_main_sessions, Four.get_set]
    split
    · subst_vars; exact hi hr
    · rfl

theorem Frame.trans {s t u : State} (h : Frame s t) (g : Frame t u) : Frame s u := by
  refine ⟨⟨g.stands.1.trans h.stands.1, g.stands.2.1.trans h.stands.2.1, g.stands.2.2.trans h.stands.2.2⟩,
    g.ret.trans h.ret, g.holder.trans h.holder, ⟨g.like.pool.trans h.like.pool, g.like.nextId.trans h.like.nextId,
    g.like.ended.trans h.like.ended, fun p => ?_⟩, fun hr p => ?_⟩
  · obtain ⟨hc, hp, hd⟩ := h.like.sessions p
    obtain ⟨gc, gp, gd⟩ := g.like.sessions p
    refine ⟨gc.trans hc, gp.trans hp, fun x c hx hxc => ?_⟩
    obtain ⟨y, hy, hyc⟩ := gd x c hx hxc
    exact hd y c hy hyc
  · exact (g.inHand (h.stands.running.trans hr) p).trans (h.inHand hr p)

/-- A session whose request in hand is gone or new, while requests are taken. -/
theorem Frame.setSession_running {s : State} (hr : s.running = true) (p : Port) {x : Session}
    (hc : x.cursor = (s.session p).cursor) (hp : x.pin = (s.session p).pin)
    (hd : ∀ h ∈ x.inHand, h.dropped = none) : Frame s (s.setSession p x) := by
  refine Frame.setSession s p ⟨hc, hp, fun h c hh hdc => ?_⟩ fun hn => by rw [hr] at hn; cases hn
  rw [hd h hh] at hdc
  cases hdc

theorem Frame.sendAnswer {s : State} (hr : s.running = true) (p : Port) (r : Reply) :
    Frame s (s.sendAnswer p r) := by
  unfold State.sendAnswer
  dsimp only
  split
  · exact .of_eq ⟨rfl, rfl, rfl⟩ rfl rfl rfl rfl rfl rfl
  · exact (Frame.setSession_running (x := { s.session p with fresh := false, overrun := false, inHand := none })
      hr p rfl rfl nofun).trans (.setLink _ _ _)

theorem Frame.dropAnswer {s : State} (hr : s.running = true) (p : Port) : Frame s (s.dropAnswer p) :=
  (Frame.setSession_running (x := { s.session p with inHand := none }) hr p rfl rfl nofun).trans (.setLink _ _ _)

theorem Frame.answerSupervisor (s : State) (a : Answer) : Frame s (s.answerSupervisor a) := by
  unfold State.answerSupervisor
  split
  · exact .of_eq ⟨rfl, rfl, rfl⟩ rfl rfl rfl rfl rfl rfl
  · exact .setSup _ _

/-- A frame is handed to the session unit. -/
theorem Frame.asked {s : State} (hr : s.running = true) (p : Port) (f : StationFrame) :
    Frame s (s.asked p f) :=
  (Frame.setSession_running (x := { s.session p with inHand := some ⟨f, none⟩ }) hr p rfl rfl fun h hh => by
    cases hh; rfl).trans (.setLink _ _ _)

/-! The paths of the part's operations. -/

theorem State.applied_finishApply (s : State) : s.finishApply.Applied := by
  intro x hx
  cases hh : s.main.holder with
  | none => rw [State.finishApply_of_free hh, hh] at hx; cases hx
  | some y =>
    by_cases hcl : y.phase = .clear
    · have : s.finishApply = s := by simp [State.finishApply, hh, hcl]
      rw [this, hh] at hx
      cases hx
      exact hcl
    · have : s.finishApply.main.holder = some { y with phase := .clear, mains := [] } := by
        simp [State.finishApply, hh, hcl]
      rw [this] at hx
      cases hx
      rfl

theorem State.applied_of_free {s : State} (hh : s.main.holder = none) : s.Applied := fun x hx => by
  rw [hh] at hx; cases hx

theorem path_settleForRead {s : State} (hr : s.running = true) : Path s s.settleForRead := by
  unfold State.settleForRead
  split
  · split
    · exact .refl _
    · exact .single (.finish hr)
  · exact .refl _

/-- Effects made at once. -/
theorem path_doMains {s : State} (hr : s.running = true) {ms : List MainWrite} (ha : s.Applied)
    (hs : s.Settles s.ret.accounts ms) : Path s (s.doMains ms) := by
  unfold State.doMains
  split
  · exact .refl _
  · exact .single (.effects ms hr ha hs)

/-- A station request that can change more than its session's flags needs no area (R175; log 4). -/
theorem stationNeedsArea_of_mayChange {f : StationFrame} (h : stationMayChange f = true) (p : Port) (s : State) :
    stationNeedsArea p f s = false := by
  obtain ⟨seq, r⟩ := f
  unfold stationMayChange at h
  cases r with
  | select | hold =>
    have hseq : seq = 0 := by simpa using h
    subst hseq
    simp [stationNeedsArea, StationRequest.stagesAlways]
  | _ => cases h

/-- Any other one that needs no area changes nothing in main memory (R175; log 4). -/
theorem stationOutcome_mains_nil {f : StationFrame} {p : Port} {s : State}
    (hn : stationNeedsArea p f s = false) (hc : stationMayChange f = false) :
    (stationOutcome p f s).verdict.mains = [] := by
  have hcache : ∀ v : Verdict, (withCache p f v s).mains = v.mains := by
    intro v; unfold withCache; split <;> rfl
  obtain ⟨seq, r⟩ := f
  unfold stationOutcome
  cases r with
  | bad => rw [hcache]; rfl
  | balance =>
    dsimp only
    split
    · split <;> rfl
    · rw [hcache, ladder_passed rfl rfl]
      show (judgeBalance p s).mains = []
      unfold judgeBalance
      split <;> rfl
  | stationStatus =>
    dsimp only
    split
    · split <;> rfl
    · rw [hcache, ladder_passed rfl rfl]; rfl
  | select | hold =>
    dsimp only
    split
    · split <;> rfl
    · rename_i hcached
      simp_all [stationNeedsArea, stationMayChange]
  | _ =>
    dsimp only
    split
    · split <;> rfl
    · rename_i hcached
      simp [stationNeedsArea, StationRequest.stagesAlways, hcached] at hn

theorem path_takeFree {s : State} (hr : s.running = true) {p : Port} {f : StationFrame}
    (hn : stationNeedsArea p f s = false) : Path s (s.takeFree p f) := by
  have hsettles : ∀ u : State, stationNeedsArea p f u = false →
      u.Settles u.ret.accounts (stationOutcome p f u).verdict.mains := fun u hu => by
    have := u.settles_station p f
    rwa [stationOutcome_writes_of_free hu] at this
  unfold State.takeFree
  dsimp only
  split
  · rename_i hc
    have h1 : Path s s.finishApply := .single (.finish hr)
    have h2 := path_doMains (h1.running hr) s.applied_finishApply
      (hsettles _ (stationNeedsArea_of_mayChange hc p _))
    exact (h1.trans h2).trans (Frame.sendAnswer ((h1.trans h2).running hr) p _).path
  · rename_i hc
    rw [stationOutcome_mains_nil hn (by simpa using hc)]
    exact (Frame.sendAnswer hr p _).path

theorem path_handOver {s : State} (hr : s.running = true) (p : Port) (f : StationFrame) :
    Path s (s.handOver p f) := by
  have h1 : Path s (s.asked p f).settleForRead :=
    (Frame.asked hr p f).path.trans (path_settleForRead hr)
  refine h1.trans ?_
  show Path _ (if stationNeedsArea p f (s.asked p f).settleForRead = true then
    (s.asked p f).settleForRead.wait (.station p) else (s.asked p f).settleForRead.takeFree p f)
  cases hn : stationNeedsArea p f (s.asked p f).settleForRead with
  | true => exact (Frame.wait _ _).path
  | false => exact path_takeFree (h1.running hr) hn

theorem path_handOn (s : State) (p : Port) : Path s (s.handOn p) := by
  unfold State.handOn
  split
  · split
    · rename_i hc
      simp only [Bool.and_eq_true] at hc
      exact (Frame.setLink s p _).path.trans (path_handOver (s := s.setLink p _) hc.1 p _)
    · exact .refl _
  · exact .refl _

theorem path_answerStation {s : State} (hr : s.running = true) (p : Port) (r : Reply) :
    Path s (s.answerStation p r) := by
  unfold State.answerStation
  split
  · split
    · exact (Frame.dropAnswer hr p).path.trans (path_handOn _ p)
    · exact (Frame.sendAnswer hr p r).path
  · exact .refl _

/-- An internal event is given the area. -/
theorem path_stageOrDo {s : State} (hr : s.running = true) (hh : s.main.holder = none) (e : AreaEvent)
    {v : List RetWrite × List MainWrite} (hs : s.Settles (applyRets v.1 s.ret).accounts v.2)
    (hk : ∀ P : Retained → Prop, KeptByChanges P → P s.ret → P (applyRets v.1 s.ret)) :
    Path s (s.stageOrDo e v) := by
  unfold State.stageOrDo
  split
  · rename_i hw
    rw [List.isEmpty_iff.mp hw] at hs
    exact path_doMains hr (State.applied_of_free hh) hs
  · exact .single (.hold e _ _ _ hr hh hs hk)

/-- A waiting event is given the area. -/
theorem path_takeWaiting {s : State} (hr : s.running = true) (hh : s.main.holder = none) (e : AreaEvent) :
    Path s (s.takeWaiting e) := by
  cases e with
  | station p =>
    unfold State.takeWaiting
    dsimp only
    split
    · exact .refl _
    · rename_i h _
      have hs := s.settles_standing p h
      split
      · rename_i hw
        rw [List.isEmpty_iff.mp hw] at hs
        have h1 := path_doMains hr (State.applied_of_free hh) hs
        exact h1.trans (path_answerStation (h1.running hr) p _)
      · refine .single (.hold _ _ _ _ hr hh hs fun P K hP => ?_)
        have := K.station (s.judgedFor p h) p h.frame
        rw [State.judgedFor_ret] at this
        exact this hP
  | supervisor =>
    unfold State.takeWaiting
    dsimp only
    split
    · exact .refl _
    · rename_i r _
      have hs := s.settles_supervisor r
      split
      · rename_i hw
        rw [List.isEmpty_iff.mp hw] at hs
        exact (path_doMains hr (State.applied_of_free hh) hs).trans (Frame.answerSupervisor _ _).path
      · exact .single (.hold _ _ _ _ hr hh hs fun P K => K.supervisor s r)
  | holdExpiry id =>
    unfold State.takeWaiting
    dsimp only
    split
    · exact path_stageOrDo hr hh _ (State.settles_holdExpiry (State.dueHold_mem ‹_›)) fun P K => K.holdEnd s _
    · exact .refl _
  | pinExpiry p =>
    unfold State.takeWaiting
    dsimp only
    split
    · exact path_stageOrDo hr hh _ (State.settles_pinEnd (State.duePin_pin ‹_›)) fun P K => K.pinEnd s _
    · exact .refl _
  | sessionPinEnd p =>
    unfold State.takeWaiting
    dsimp only
    split
    · exact path_stageOrDo hr hh _ (State.settles_pinEnd ‹_›) fun P K => K.pinEnd s _
    · exact .refl _
  | startUpDrain slot => exact .refl _

theorem path_giveAreaN (n : Nat) {s : State} (hr : s.running = true) : Path s (giveAreaN n s) := by
  induction n generalizing s with
  | zero => exact .refl _
  | succ n ih =>
    cases hh : s.main.holder with
    | some x => rw [giveAreaN_held _ (by simp [hh])]; exact .refl _
    | none =>
      cases hw : s.main.waiting with
      | nil => rw [giveAreaN_nothing _ hw]; exact .refl _
      | cons e rest =>
        rw [giveAreaN_next n hh hw]
        have h1 : Path s ((s.withWaiting rest).takeWaiting e) :=
          (Frame.withWaiting s rest).path.trans (path_takeWaiting (s := s.withWaiting rest) hr hh e)
        exact h1.trans (ih (h1.running hr))

theorem path_giveArea (s : State) : Path s s.giveArea := by
  unfold State.giveArea
  split
  · exact path_giveAreaN _ ‹_›
  · exact .refl _

theorem path_completeChange {s : State} (hr : s.running = true) : Path s s.completeChange := by
  unfold State.completeChange
  split
  · exact .refl _
  · rename_i x hx
    have h1 : Path s s.finishApply.clearArea := .single (.clear x hr hx)
    refine Path.trans (h1.trans ?_) (path_giveArea _)
    split
    · exact path_answerStation (h1.running hr) _ _
    · exact (Frame.answerSupervisor _ _).path
    · exact .refl _

/-! Arrivals. -/

theorem path_deliver (s : State) (p : Port) (f : StationFrame) : Path s (s.deliver p f) := by
  unfold State.deliver
  split
  · rename_i hc
    simp only [Bool.and_eq_true] at hc
    exact (path_handOver hc.1 p f).trans (path_giveArea _)
  · split
    · exact (Frame.setLink _ _ _).path
    · exact (Frame.setSession s p (x := { s.session p with overrun := true })
        ⟨rfl, rfl, fun h _ hh hc => ⟨h, hh, hc⟩⟩ fun _ => rfl).path

theorem path_arrive (s : State) (p : Port) (f : StationFrame) : Path s (s.arrive p f) := by
  unfold State.arrive
  split
  · exact path_deliver s p f
  · exact .refl _

theorem path_handSupervisor {s : State} (hr : s.running = true) : Path s s.handSupervisor := by
  unfold State.handSupervisor
  split
  · exact .refl _
  · split
    · exact (Frame.wait _ _).path
    · exact (path_settleForRead hr).trans (Frame.answerSupervisor _ _).path

theorem path_acceptSupervisor (s : State) (r : SupervisorRequest) (bytes : List Byte) :
    Path s (s.acceptSupervisor r bytes) := by
  unfold State.acceptSupervisor
  dsimp only
  split
  · exact (Frame.setSup _ _).path.trans ((path_handSupervisor ‹_›).trans (path_giveArea _))
  · exact (Frame.setSup _ _).path

theorem path_submit (s : State) (r : SupervisorRequest) : Path s (s.submit r) := by
  unfold State.submit
  split
  · exact .refl _
  · split
    · exact (Frame.setSup _ _).path
    · exact (Frame.setSup _ _).path.trans (path_acceptSupervisor _ _ _)

theorem path_submitBody (s : State) (code : Byte) (body : List Byte) : Path s (s.submitBody code body) := by
  unfold State.submitBody
  split
  · split
    · exact .refl _
    · split
      · exact (Frame.setSup _ _).path
      · exact (Frame.setSup _ _).path.trans (Frame.setSup _ _).path
  · exact path_submit _ _

theorem path_judgeWrite (s : State) (bytes : List Byte) : Path s (s.judgeWrite bytes) := by
  unfold State.judgeWrite
  split
  · exact .refl _
  · dsimp only
    split
    · exact (Frame.setSup _ _).path
    · split
      · exact (Frame.setSup _ _).path
      · split
        · exact (Frame.setSup _ _).path
        · split
          · exact path_acceptSupervisor _ _ _
          · exact (Frame.setSup _ _).path

theorem path_selectPeriod (s : State) (mosi : List Byte) : Path s (s.selectPeriod mosi) := by
  unfold State.selectPeriod
  split
  · exact .refl _
  · split
    · exact .refl _
    · split
      · unfold State.writePeriod
        split
        · exact (Frame.setSup _ _).path
        · exact (Frame.setSup _ _).path.trans (path_judgeWrite _ _)
      · split
        · exact (Frame.setSup _ _).path
        · split <;> exact (Frame.setSup _ _).path

theorem path_receive (s : State) (p : Port) (b : Byte) : Path s (s.receive p b) := by
  unfold State.receive
  dsimp only
  split
  · split
    · exact (Frame.setLink _ _ _).path
    · exact .refl _
  · split <;> exact (Frame.setLink _ _ _).path
  · split <;> exact (Frame.setLink _ _ _).path
  · unfold State.checkByte
    dsimp only
    split
    · exact (Frame.setLink _ _ _).path
    · split
      · exact (Frame.setLink _ _ _).path.trans (path_deliver _ _ _)
      · exact (Frame.setLink _ _ _).path

/-! Internal events. -/

/-- An internal event that may drain comes to be taken. -/
theorem path_raise {s : State} (hr : s.running = true) (ha : s.Applied) (e : AreaEvent)
    {v : List RetWrite × List MainWrite} (hs : s.Settles (applyRets v.1 s.ret).accounts v.2) :
    Path s (s.raise e v) := by
  unfold State.raise
  split
  · rename_i hw
    rw [List.isEmpty_iff.mp hw] at hs
    exact path_doMains hr ha hs
  · split
    · exact .refl _
    · exact (Frame.wait _ _).path.trans (path_giveArea _)

/-- A BREAK (R188). -/
theorem path_break {s t : State} (p : Port) (hst : execBreak p s = .next t) : Path s t := by
  unfold execBreak at hst
  split at hst
  · cases hst; exact .refl _
  · dsimp only at hst
    have h1 : Path s (if s.running = true then s.finishApply else s) ∧
        ((if s.running = true then s.finishApply else s).running = true →
          (if s.running = true then s.finishApply else s).Applied) := by
      split
      · exact ⟨.single (.finish ‹_›), fun _ => s.applied_finishApply⟩
      · rename_i hr
        exact ⟨.refl _, fun hr' => absurd hr' hr⟩
    generalize (if s.running = true then s.finishApply else s) = u at hst h1
    obtain ⟨hsu, ha⟩ := h1
    have h2 : Path s ((u.setLink p { (u.link p).hunt with lineLow := true }).sessionReset p) :=
      (hsu.trans (Frame.setLink u p _).path).trans (.single (.reset p ha))
    cases hst
    split
    · exact h2.trans (Frame.wait _ _).path
    · exact h2

/-- The hold clock and the expiries. -/
theorem path_internal {s t : State} {c : Instr} (hst : exec c s = .next t)
    (hc : match c with
      | .holdClockAdvance | .holdExpiry _ | .pinExpiry _ | .sessionResetPinEnd _ => True
      | _ => False) : Path s t := by
  cases c with
  | holdClockAdvance =>
    change execHoldClockAdvance s = _ at hst
    unfold execHoldClockAdvance at hst
    split at hst <;> cases hst
    · exact (Path.single (.finish ‹_›)).trans (Frame.clock _ _).path
    · exact .refl _
  | holdExpiry id =>
    change execHoldExpiry id s = _ at hst
    unfold execHoldExpiry at hst
    split at hst
    · have h1 : Path s s.finishApply := .single (.finish ‹_›)
      dsimp only at hst
      split at hst <;> cases hst
      · exact h1.trans (path_raise (h1.running ‹_›) s.applied_finishApply _
          (State.settles_holdExpiry (State.dueHold_mem ‹_›)))
      · exact h1
    · cases hst; exact .refl _
  | pinExpiry p =>
    change execPinExpiry p s = _ at hst
    unfold execPinExpiry at hst
    split at hst
    · have h1 : Path s s.finishApply := .single (.finish ‹_›)
      dsimp only at hst
      split at hst <;> cases hst
      · exact h1.trans (path_raise (h1.running ‹_›) s.applied_finishApply _
          (State.settles_pinEnd (State.duePin_pin ‹_›)))
      · exact h1
    · cases hst; exact .refl _
  | sessionResetPinEnd p =>
    change execSessionResetPinEnd p s = _ at hst
    unfold execSessionResetPinEnd at hst
    split at hst <;> cases hst
    · exact path_giveArea s
    · exact .refl _
  | _ => cases hc

/-- The station links' own commands. -/
theorem path_links {s t : State} {c : Instr} (hst : exec c s = .next t)
    (hc : match c with
      | .stationCharacterReceived .. | .gapTimeout _ | .framingError _ | .breakReceived _
      | .receiveLineReturnHigh _ | .answerTransmissionEnd _ => True
      | _ => False) : Path s t := by
  have hdiscard : ∀ p, Path s (s.discardFrame p) := fun p => by
    unfold State.discardFrame
    split
    · exact (Frame.setLink _ _ _).path
    · exact .refl _
  cases c with
  | stationCharacterReceived p b =>
    change execStationCharacterReceived p b s = _ at hst
    unfold execStationCharacterReceived at hst
    split at hst <;> cases hst
    · exact (Frame.setLink _ _ _).path.trans (path_receive _ p b)
    · exact .refl _
  | gapTimeout p => cases hst; exact hdiscard p
  | framingError p => cases hst; exact hdiscard p
  | breakReceived p => exact path_break p hst
  | receiveLineReturnHigh p =>
    change execReceiveLineReturnHigh p s = _ at hst
    unfold execReceiveLineReturnHigh at hst
    split at hst <;> cases hst
    · exact (Frame.setLink _ _ _).path
    · exact .refl _
  | answerTransmissionEnd p =>
    change execAnswerTransmissionEnd p s = _ at hst
    unfold execAnswerTransmissionEnd at hst
    split at hst <;> cases hst
    · exact (Frame.setLink _ _ _).path.trans ((path_handOn _ p).trans (path_giveArea _))
    · exact .refl _
  | _ => cases hc

/-! Steps. -/

/-- The start-up check has ended, and nothing that waited for it has been taken (R181). -/
def State.checkEnded (s : State) (c : Check) (n : Nat) : State :=
  { s with
    ret := s.ret.checked c
    main := { s.main with holder := none }
    check := none
    freeCount := n }

/-- What a step is. -/
inductive Stepped (s t : State) : Prop
  | path (h : Path s t)
  | supply (c : Instr) (hc : isSupply c = true) (h : exec c s = .next t)
  | notch (x : Holder) (hx : s.main.holder = some x) (hr : s.running = true) (h : t = s.advanceHolder x)
  | check (c : Check) (hp : s.powered = true) (hc : s.check = some c) (h : t = s.advanceCheck c)
  | drained (n : Nat) (x : Holder) (hp : s.powered = true) (hc : s.check = some (.drains n))
      (hx : s.main.holder = some x) (h : t = s.endDrain x)
  | started (c : Check) (n : Nat) (hp : s.powered = true) (hc : s.check = some c) (h : Path (s.checkEnded c n) t)

/-- What waited for the end of the check is taken. -/
theorem path_handWaiters (l : List Waiter) {s : State} (hr : s.running = true) :
    Path s (l.foldl State.handWaiter s) := by
  induction l generalizing s with
  | nil => exact .refl _
  | cons w l ih =>
    have h1 : Path s (s.handWaiter w) := by
      cases w with
      | port p => exact (path_handOn s p).trans (path_giveArea _)
      | supervisor => exact (path_handSupervisor hr).trans (path_giveArea _)
    exact h1.trans (ih (h1.running hr))

/-- Every command. -/
theorem exec_stepped {s t : State} {c : Instr} (hst : exec c s = .next t) : Stepped s t := by
  cases c with
  | powerLoss | vbatLoss | powerReturn | resetAssert | resetRelease | vbatReturn =>
    exact .supply _ rfl hst
  | holdClockAdvance | holdExpiry | pinExpiry | sessionResetPinEnd => exact .path (path_internal hst trivial)
  | stagedChangeComplete =>
    change execStagedChangeComplete s = _ at hst
    unfold execStagedChangeComplete at hst
    split at hst
    · cases hst; exact .path (path_completeChange ‹_›)
    · split at hst
      · split at hst <;> cases hst
        · exact .drained _ _ ‹_› ‹_› ‹_› rfl
        · exact .path (.refl _)
      · cases hst; exact .path (.refl _)
  | startUpCheckEnd =>
    change execStartUpCheckEnd s = _ at hst
    unfold execStartUpCheckEnd at hst
    split at hst
    · rename_i hp
      split at hst <;> cases hst
      · rename_i c hc
        refine .started c _ hp hc (path_handWaiters _ (s := s.checkEnded c _) ?_)
        simpa [State.running, State.checkEnded, State.powered] using hp
      · exact .path (.refl _)
    · cases hst; exact .path (.refl _)
  | stationCharacterReceived | gapTimeout | framingError | breakReceived | receiveLineReturnHigh
  | answerTransmissionEnd => exact .path (path_links hst trivial)
  | writeRequest | readAnswer | readLinkStatus => cases hst; exact .path (path_selectPeriod _ _)
  | stationBadRequest p seq code body =>
    change execStationBadRequest p seq code body s = _ at hst
    unfold execStationBadRequest at hst
    split at hst <;> cases hst
    · exact .path (.refl _)
    · exact .path (path_arrive _ _ _)
  | tariffRow cls entryZone fares =>
    change execTariffRow cls entryZone fares s = _ at hst
    unfold execTariffRow at hst
    split at hst <;> cases hst
    · exact .path (path_submit _ _)
    · exact .path (path_submitBody _ _ _)
  | supervisorBadRequest code body => cases hst; exact .path (path_submitBody _ _ _)
  | select | balance | stationStatus | pin | unpin | fare | hold | capture | release | topUp =>
    cases hst; exact .path (path_arrive _ _ _)
  | _ => cases hst; exact .path (path_submit _ _)

/-- Every step, after the front command has left the queue. -/
theorem step_stepped {s t : State} (hst : step s = .next t) : ∃ u, Frame s u ∧ Stepped u t := by
  unfold step at hst
  split at hst
  · refine ⟨s, .of_eq ⟨rfl, rfl, rfl⟩ rfl rfl rfl rfl rfl rfl, ?_⟩
    cases hst
    unfold State.idle
    split
    · rename_i hp
      split
      · exact .check _ hp ‹_› rfl
      · rename_i hc
        split
        · exact .notch _ ‹_› (by simp [State.running, hp, hc]) rfl
        · exact .path (path_giveArea s)
    · exact .path (.refl _)
  · exact ⟨_, Frame.popped s _, exec_stepped hst⟩

end Sys2Proof.Machine
end

section
/-! PROOFS. Every step keeps the hold pool within its limits. -/

namespace Sys2Proof.Machine

/-! The effects of the event that holds the area. -/

/-- An event whose effects are made, or none. -/
theorem State.Applied.main {s : State} (h : s.Applied) : s.appliedMain = s.main := by
  unfold State.appliedMain
  split
  · rename_i x hx
    rw [if_pos (h x hx)]
  · rfl

theorem State.appliedMain_of_free {s : State} (h : s.main.holder = none) : s.appliedMain = s.main :=
  (State.applied_of_free h).main

/-- An event whose effects are still to be made. -/
theorem State.appliedMain_eq {s : State} {x : Holder} (hx : s.main.holder = some x) (hp : x.phase ≠ .clear) :
    s.appliedMain = s.main.effects x.mains := by
  simp only [State.appliedMain, hx, if_neg hp, Main.effects]

/-- The effects look at the holder and at what they change. -/
theorem State.appliedMain_like {s t : State} (hh : t.main.holder = s.main.holder) (hl : t.main.Like s.main) :
    t.appliedMain.Like s.appliedMain := by
  unfold State.appliedMain
  rw [hh]
  split
  · split
    · exact hl
    · exact hl.effects _
  · exact hl

/-- The end of the apply phase makes the effects. -/
theorem State.finishApply_like (s : State) : s.finishApply.main.Like s.appliedMain := by
  cases hx : s.main.holder with
  | none => rw [State.finishApply_of_free hx, State.appliedMain_of_free hx]; exact .refl _
  | some x =>
    by_cases hcl : x.phase = .clear
    · have : s.finishApply = s := by simp [State.finishApply, hx, hcl]
      rw [this, State.Applied.main fun y hy => by rw [hx] at hy; cases hy; exact hcl]
      exact .refl _
    · have hm : s.finishApply.main =
          { applyMains x.mains s.main with holder := some { x with phase := .clear, mains := [] } } := by
        simp [State.finishApply, hx, hcl]
      have hl := applyMains_like x.mains s.main
      rw [hm, State.appliedMain_eq hx hcl]
      exact ⟨hl.pool, hl.nextId, hl.ended, hl.sessions⟩

/-- Effects on main memory with another holder. -/
theorem Main.effects_like_withHolder (m : Main) (x : Option Holder) (ms : List MainWrite) :
    (({ m with holder := x } : Main).effects ms).Like (m.effects ms) :=
  Main.Like.effects (m := { m with holder := x }) (n := m) (.of_eq rfl rfl rfl rfl) ms

/-- One notch of a staged change: what the change comes to is as before (R174). -/
theorem State.advanceHolder_settled {s : State} {x : Holder} (hx : s.main.holder = some x) :
    ∃ y, (s.advanceHolder x).main.holder = some y ∧ y.event = x.event ∧
      ((s.advanceHolder x).settledRet y).accounts = (s.settledRet x).accounts ∧
      (s.advanceHolder x).appliedMain.Like s.appliedMain := by
  unfold State.advanceHolder
  cases hph : x.phase with
  | write =>
    have hw : s.appliedMain = s.main.effects x.mains := State.appliedMain_eq hx (by rw [hph]; nofun)
    refine ⟨_, rfl, rfl, ?_, ?_⟩
    · rw [State.settledRet, if_neg nofun, State.settledRet, if_neg (by rw [hph]; nofun)]
      exact congrArg Books.accounts (applyRets_books_staged s.ret.staged s.ret s.ret.staged true)
    · rw [hw]
      exact Main.effects_like_withHolder _ _ _
  | mark =>
    have hw : s.appliedMain = s.main.effects x.mains := State.appliedMain_eq hx (by rw [hph]; nofun)
    refine ⟨_, rfl, rfl, ?_, ?_⟩
    · rw [State.settledRet, if_neg nofun, State.settledRet, if_neg (by rw [hph]; nofun)]
      rfl
    · rw [hw]
      exact Main.effects_like_withHolder _ _ _
  | apply n =>
    have hw : s.appliedMain = s.main.effects x.mains := State.appliedMain_eq hx (by rw [hph]; nofun)
    dsimp only
    split
    · rename_i w hmem
      refine ⟨_, rfl, rfl, ?_, ?_⟩
      · rw [State.settledRet, if_neg nofun, State.settledRet, if_neg (by rw [hph]; nofun)]
        show (applyRets (applyRet w s.ret).staged (applyRet w s.ret)).accounts = _
        rw [(applyRet_control w s.ret).1, applyRets_absorb (List.mem_of_getElem? hmem)]
        rfl
      · rw [hw]
        exact Main.effects_like_withHolder _ _ _
    · have hcl : x.phase ≠ .clear := by rw [hph]; nofun
      have hf : s.finishApply.main.holder = some { x with phase := .clear, mains := [] } := by
        simp [State.finishApply, hx, hcl]
      refine ⟨_, hf, rfl, ?_, ?_⟩
      · rw [State.settledRet, if_pos rfl]
        exact congrArg Books.accounts (State.finishApply_books hx)
      · rw [s.applied_finishApply.main]
        exact s.finishApply_like
  | clear => exact ⟨x, hx, rfl, rfl, .refl _⟩

/-! The hold pool. -/

/-- Main memory with the same holds, next id and endings. -/
def Main.SameHolds (m n : Main) : Prop := m.pool = n.pool ∧ m.nextId = n.nextId ∧ m.ended = n.ended

theorem Main.SameHolds.effects {m n : Main} (h : m.SameHolds n) (ws : List MainWrite) :
    (m.effects ws).SameHolds (n.effects ws) := by
  induction ws generalizing m n with
  | nil => exact h
  | cons w ws ih =>
    refine ih ?_
    obtain ⟨hp, hn, he⟩ := h
    cases w with
    | addHold | dropHold => exact ⟨by simp only [applyMain, hp], hn, he⟩
    | nextId => exact ⟨hp, rfl, he⟩
    | recordEnd | forgetEnd => exact ⟨hp, hn, by simp only [applyMain, he]⟩
    | wipe => exact ⟨rfl, hn, rfl⟩
    | _ => exact ⟨hp, hn, he⟩

theorem Main.SameHolds.poolOk {m n : Main} (h : m.SameHolds n) (hn : n.PoolOk) : m.PoolOk :=
  hn.of_eq h.1 h.2.1 h.2.2

theorem Main.Like.sameHolds {m n : Main} (h : m.Like n) : m.SameHolds n := ⟨h.pool, h.nextId, h.ended⟩

/-- The limits look at main memory alone. -/
theorem State.PoolSound.of_main {s t : State} (h : s.PoolSound) (hm : t.main = s.main) : t.PoolSound := by
  unfold State.PoolSound State.appliedMain
  rw [hm]
  exact h

/-- With the effects made, or no event in the area, there is one side to look at. -/
theorem State.PoolSound.of_applied {s : State} (ha : s.Applied) (h : s.main.PoolOk) : s.PoolSound :=
  ⟨h, by rw [ha.main]; exact h⟩

/-- The same holder over the same holds. -/
theorem State.PoolSound.of_sameHolds {s t : State} (h : s.PoolSound) (hh : t.main.holder = s.main.holder)
    (hm : t.main.SameHolds s.main) : t.PoolSound := by
  refine ⟨hm.poolOk h.1, Main.SameHolds.poolOk (n := s.appliedMain) ?_ h.2⟩
  unfold State.appliedMain
  rw [hh]
  split
  · split
    · exact hm
    · exact hm.effects _
  · exact hm

theorem State.PoolSound.finishApply {s : State} (h : s.PoolSound) : s.finishApply.PoolSound :=
  .of_applied s.applied_finishApply (s.finishApply_like.poolOk h.2)

/-- The area is freed once the effects are made. -/
theorem State.PoolSound.clear {s : State} (h : s.PoolSound) : s.finishApply.clearArea.PoolSound :=
  .of_applied (State.applied_of_free rfl) (h.finishApply.1.of_eq rfl rfl rfl)

/-- The area is given to an event with these effects. -/
theorem State.PoolSound.holdArea {s : State} (h : s.PoolSound) (e : AreaEvent) (ws : List RetWrite)
    {ms : List MainWrite} (reply : Option Reply) (hms : (s.main.effects ms).PoolOk) :
    (s.holdArea e ws ms reply).PoolSound := by
  refine ⟨h.1.of_eq rfl rfl rfl, ?_⟩
  rw [State.appliedMain_eq (x := ⟨e, .write, ms, reply⟩) rfl nofun]
  exact (Main.effects_like_withHolder s.main _ ms).poolOk hms

theorem Move.poolSound {s t : State} (h : Move s t) (hs : s.PoolSound) : t.PoolSound := by
  cases h with
  | frame h => exact hs.of_sameHolds h.holder h.like.sameHolds
  | reset p h => exact hs.of_sameHolds rfl ⟨rfl, rfl, rfl⟩
  | finish hr => exact hs.finishApply
  | effects ms hr ha hv =>
    refine .of_applied (fun x hx => ?_) ((applyMains_like ms s.main).poolOk (hv.poolOk hs.1))
    exact ha x ((applyMains_holder ms s.main) ▸ hx)
  | hold e ws ms reply hr hh hv hk => exact hs.holdArea e ws reply (hv.poolOk hs.1)
  | clear x hr hx => exact hs.clear

/-- One notch of a staged change. -/
theorem State.PoolSound.advanceHolder {s : State} (h : s.PoolSound) {x : Holder} (hx : s.main.holder = some x) :
    (s.advanceHolder x).PoolSound := by
  obtain ⟨_, _, _, _, hl⟩ := State.advanceHolder_settled hx
  refine ⟨?_, hl.poolOk h.2⟩
  unfold State.advanceHolder
  split
  · exact h.1.of_eq rfl rfl rfl
  · exact h.1.of_eq rfl rfl rfl
  · split
    · exact h.1.of_eq rfl rfl rfl
    · exact h.finishApply.1
  · exact h.1

/-- A start-up drain ends. -/
theorem State.PoolSound.endDrain {s : State} (h : s.PoolSound) (x : Holder) : (s.endDrain x).PoolSound := by
  unfold State.endDrain
  split
  · exact h.clear.of_main rfl
  · exact h

/-- One notch of the start-up check. -/
theorem State.PoolSound.advanceCheck {s : State} (h : s.PoolSound) (c : Check) : (s.advanceCheck c).PoolSound := by
  cases c with
  | drains n =>
    unfold State.advanceCheck
    dsimp only
    split
    · split
      · exact h.endDrain _
      · exact h.advanceHolder ‹_›
    · split
      · rename_i slot _
        exact (h.holdArea (.startUpDrain slot) [.acctState slot .drained] (ms := []) none h.1).of_main rfl
      · exact h.of_main rfl
  | settle | cold | coldMark | complete => exact h.of_main rfl

/-- Every step keeps the hold pool within its limits: one half of `EveryStepKeepsTheHoldPool`. -/
theorem State.PoolSound.step {s t : State} (h : s.PoolSound) (hst : step s = .next t) : t.PoolSound := by
  obtain ⟨u, hu, hst⟩ := step_stepped hst
  have h : u.PoolSound := (Move.frame hu).poolSound h
  cases hst with
  | path hp => exact hp.keeps (fun hm => hm.poolSound) h
  | supply c hc hx =>
    obtain ⟨_, hm | ⟨_, hm⟩⟩ | ⟨_, _, hm, _⟩ := supply_cases hc hx
    · exact .of_applied (fun x hx => by rw [hm] at hx; cases hx) (by rw [hm]; exact Main.poolOk_reset)
    · exact h.of_main hm
    · exact h.of_main hm
  | notch x hx hr ht => exact ht ▸ h.advanceHolder hx
  | check c hp hc ht => exact ht ▸ h.advanceCheck c
  | drained n x hp hc hx ht => exact ht ▸ h.endDrain x
  | started c n hp hc hpath =>
    refine hpath.keeps (fun hm => hm.poolSound) (.of_applied (State.applied_of_free rfl) ?_)
    exact h.1.of_eq rfl rfl rfl

end Sys2Proof.Machine
end

section
/-! PROOFS. The account table and main memory go on to agree: the moves of a part that takes requests, and the
notches of a staged change. -/

namespace Sys2Proof.Machine

/-! A part that takes requests. -/

/-- A part that takes requests, whose directory, hold pool and agreement stand on both sides of a staged
change. -/
structure State.Agreeing (s : State) : Prop where
  running : s.running = true
  mark : s.ret.mark = true
  directory : s.Keeps Retained.Directory
  pool : s.PoolSound
  now : s.ret.completion = false → Agree s.ret s.main
  next : ∀ h, s.main.holder = some h → Agree (s.settledRet h) s.appliedMain

/-- Outside the start-up check, that is the agreement of the statement. -/
theorem State.Agreeing.agrees {s : State} (h : s.Agreeing) : s.Agrees := by
  obtain ⟨_, hc⟩ := running_powered h.running
  refine ⟨fun _ _ _ => h.mark, fun hn => ?_, fun n hd => ?_, fun hd => ?_, fun _ => h.now, fun _ => h.next⟩
  · rw [h.running] at hn; cases hn
  · rw [hc] at hd; cases hd
  · rw [hc] at hd; obtain hd | hd := hd <;> cases hd

theorem State.Agrees.agreeing {s : State} (h : s.Agrees) (hr : s.running = true)
    (hd : s.Keeps Retained.Directory) (hp : s.PoolSound) : s.Agreeing := by
  obtain ⟨hw, hc⟩ := running_powered hr
  exact ⟨hr, h.mark hw (by rw [hc]; nofun) (by rw [hc]; nofun), hd, hp, h.now hr, h.next hr⟩

/-- With the area free the completion mark is clear (R174). -/
theorem State.Agreeing.completion {s : State} (h : s.Agreeing) (hh : s.main.holder = none) :
    s.ret.completion = false := by
  obtain ⟨hw, hc⟩ := running_powered h.running
  exact h.directory.1.free hw hh (by rw [hc]; nofun) (by rw [hc]; nofun)

/-- With the change written, or none, the account table and main memory agree as they stand. -/
theorem State.Agreeing.applied {s : State} (h : s.Agreeing) (ha : s.Applied) : Agree s.ret s.main := by
  cases hx : s.main.holder with
  | none => exact h.now (h.completion hx)
  | some x =>
    have := h.next x hx
    rwa [State.settledRet, if_pos (ha x hx), ha.main] at this

/-- With the change written, or none, the directory is sound as it stands. -/
theorem State.Agreeing.directory_applied {s : State} (h : s.Agreeing) (ha : s.Applied) : s.ret.Directory := by
  have hu := h.directory.2 (.inl h.mark)
  cases hx : s.main.holder with
  | none => exact hu.now (h.completion hx)
  | some x => exact hu.clear x hx (ha x hx)

/-- An agreement to look at on one side alone. -/
theorem State.Agreeing.of_applied {s : State} (hr : s.running = true) (hm : s.ret.mark = true)
    (hd : s.Keeps Retained.Directory) (hp : s.PoolSound) (ha : s.Applied) (h : Agree s.ret s.main) :
    s.Agreeing := by
  refine ⟨hr, hm, hd, hp, fun _ => h, fun x hx => ?_⟩
  rw [State.settledRet, if_pos (ha x hx), ha.main]
  exact h

/-! Moves. -/

/-- A session reset leaves no SET cursor but the one the request in hand goes on under (R149, R150). -/
theorem Agree.sessionReset {s : State} (h : Agree s.ret s.main) (p : Port) : Agree s.ret (s.sessionReset p).main := by
  have hget : ∀ q, (s.sessionReset p).main.sessions.get q =
      if q = p then { s.session p with
        cursor := .none
        fresh := true
        inHand := (s.session p).inHand.map fun h =>
          { h with dropped := some (h.dropped.getD (s.session p).cursor) } }
      else s.main.sessions.get q := fun q => by
    simp [State.sessionReset, State.setSession, State.setLink, Four.get_set]
  have hpin : ∀ q i, (s.sessionReset p).main.Pinned q i ↔ s.main.Pinned q i := fun q i => by
    simp only [Main.Pinned, hget]
    split
    · subst_vars; rfl
    · rfl
  refine h.within ⟨List.Sublist.refl _, fun q i => (hpin q i).mp, fun q i key hc => ?_⟩ rfl
    fun q i => (hpin q i).mpr
  rw [hget] at hc
  split at hc
  · subst_vars
    obtain hc | ⟨g, hg, hc⟩ := hc
    · cases hc
    · simp only [Option.map_eq_some_iff] at hg
      obtain ⟨k, hk, rfl⟩ := hg
      cases hd : k.dropped with
      | none =>
        have hc : (s.session q).cursor = .sel i key := by simpa [hd] using hc
        exact .inl hc
      | some c => exact .inr ⟨k, hk, by simpa [hd] using hc⟩
  · exact hc

/-- A move keeps a condition that every staged change keeps. -/
theorem Move.keeps {P : Retained → Prop} (K : KeptByChanges P) {s t : State} (h : Move s t) (hs : s.Keeps P) :
    t.Keeps P := by
  cases h with
  | frame h => exact (Moves.of_eq h.ret h.holder h.stands).1 hs
  | reset p h => exact (Moves.of_eq (s := s) (t := s.sessionReset p) rfl rfl ⟨rfl, rfl, rfl⟩).1 hs
  | finish hr => exact (moves_finishApply K s).1 hs
  | effects ms hr ha hv =>
    exact (Moves.of_eq (s := s) (t := { s with main := applyMains ms s.main }) rfl (applyMains_holder ms s.main)
      ⟨rfl, rfl, rfl⟩).1 hs
  | hold e ws ms reply hr hh hv hk => exact (moves_holdArea K hh hr e ms reply (hk P K)).1 hs
  | clear x hr hx => exact (moves_clearArea K hr).1 hs

/-- What the change in the area comes to is what the end of the apply phase leaves. -/
theorem State.Agreeing.finished {s : State} (h : s.Agreeing) : Agree s.finishApply.ret s.finishApply.main := by
  cases hx : s.main.holder with
  | none =>
    rw [State.finishApply_of_free hx]
    exact h.applied (State.applied_of_free hx)
  | some x =>
    exact (s.finishApply_like.agree (h.next x hx)).of_accounts (congrArg Books.accounts (State.finishApply_books hx))

/-- What a move from an agreeing part leaves agrees. -/
theorem Move.agreeing {s t : State} (hm : Move s t) (h : s.Agreeing) : t.Agreeing := by
  have hr := hm.stands.running.trans h.running
  have hd := hm.keeps keptByChanges_directory h.directory
  have hp := hm.poolSound h.pool
  cases hm with
  | frame hf =>
    refine ⟨hr, hf.ret ▸ h.mark, hd, hp, fun hc => ?_, fun x hx => ?_⟩
    · rw [hf.ret] at hc ⊢
      exact hf.like.agree (h.now hc)
    · rw [hf.holder] at hx
      have := (State.appliedMain_like hf.holder hf.like).agree (h.next x hx)
      simpa only [State.settledRet, State.appliedRet, hf.ret] using this
  | reset p ha =>
    have ha := ha h.running
    exact .of_applied hr h.mark hd hp ha ((h.applied ha).sessionReset p)
  | finish =>
    exact .of_applied hr (s.finishApply_mark.trans h.mark) hd hp s.applied_finishApply h.finished
  | effects ms _ ha hv =>
    refine .of_applied hr h.mark hd hp (fun x hx => ha x ((applyMains_holder ms s.main) ▸ hx)) ?_
    exact (applyMains_like ms s.main).agree
      (hv.agree (h.applied ha) h.pool.1.ids (h.directory_applied ha).freeSlots rfl)
  | hold e ws ms reply _ hh hv =>
    have ha := State.applied_of_free hh
    have hagree := h.applied ha
    refine ⟨hr, h.mark, hd, hp, fun _ => ?_, fun x hx => ?_⟩
    · exact (hagree.of_main (m' := (s.holdArea e ws ms reply).main) rfl rfl).of_accounts rfl
    · cases hx
      rw [State.appliedMain_eq (x := ⟨e, .write, ms, reply⟩) rfl nofun, State.settledRet, if_neg nofun]
      refine (Main.effects_like_withHolder s.main _ ms).agree
        (hv.agree hagree h.pool.1.ids (h.directory_applied ha).freeSlots ?_)
      exact congrArg Books.accounts (applyRets_books_staged ws s.ret ws false)
  | clear x _ hx =>
    refine .of_applied hr (s.finishApply_mark.trans h.mark) hd hp (State.applied_of_free rfl) ?_
    exact (h.finished.of_main (m' := s.finishApply.clearArea.main) rfl rfl).of_accounts rfl

/-- One notch of a staged change leaves supplies and start-up check as they stand. -/
theorem State.stands_advanceHolder (s : State) (x : Holder) : Stands s (s.advanceHolder x) := by
  unfold State.advanceHolder
  split
  · exact ⟨rfl, rfl, rfl⟩
  · exact ⟨rfl, rfl, rfl⟩
  · split
    · exact ⟨rfl, rfl, rfl⟩
    · exact (moves_finishApply keptByChanges_true s).2
  · exact ⟨rfl, rfl, rfl⟩

/-- Nor does it touch the retention mark. -/
theorem State.advanceHolder_mark (s : State) (x : Holder) : (s.advanceHolder x).ret.mark = s.ret.mark := by
  unfold State.advanceHolder
  split
  · rfl
  · rfl
  · split
    · exact (applyRet_control _ s.ret).2.2
    · exact s.finishApply_mark
  · rfl

/-- No holder is back in its write phase after a notch. -/
theorem State.advanceHolder_phase {s : State} {x : Holder} (hx : s.main.holder = some x) {y : Holder}
    (hy : (s.advanceHolder x).main.holder = some y) : y.phase ≠ .write := by
  unfold State.advanceHolder at hy
  split at hy
  · cases hy; nofun
  · cases hy; nofun
  · split at hy
    · cases hy; nofun
    · rw [s.applied_finishApply y hy]; nofun
  · rename_i hcl
    rw [hx] at hy
    cases hy
    rw [hcl]; nofun

/-- One notch of a staged change, while requests are taken. -/
theorem State.Agreeing.advanceHolder {s : State} (h : s.Agreeing) {x : Holder} (hx : s.main.holder = some x) :
    (s.advanceHolder x).Agreeing := by
  obtain ⟨y, hy, _, hret, hlike⟩ := State.advanceHolder_settled hx
  have hd := keeps_advanceHolder keptByChanges_directory h.directory hx
  refine ⟨(s.stands_advanceHolder x).running.trans h.running, (s.advanceHolder_mark x).trans h.mark, hd,
    h.pool.advanceHolder hx, fun hc => ?_, fun z hz => ?_⟩
  · have hset := (hd.1.phase y hy).mpr (State.advanceHolder_phase hx hy)
    rw [hset] at hc
    cases hc
  · rw [hy] at hz
    cases hz
    exact (hlike.agree (h.next x hx)).of_accounts hret

end Sys2Proof.Machine
end

section
/-! PROOFS. The account table and main memory go on to agree: a stopped part and its start-up check. -/

namespace Sys2Proof.Machine

/-! Main memory that names no account. -/

/-- Main memory without holds, effects to come, cursors, pins and requests in hand. -/
def Main.Unnamed (m : Main) : Prop :=
  m.pool = [] ∧ (∀ h, m.holder = some h → h.mains = []) ∧
    ∀ p, (m.sessions.get p).cursor = .none ∧ (m.sessions.get p).pin = none ∧ (m.sessions.get p).inHand = none

theorem Main.unnamed_reset : Main.reset.Unnamed :=
  ⟨rfl, fun _ h => (by cases h), fun p => by cases p <;> exact ⟨rfl, rfl, rfl⟩⟩

/-- Nothing is added. -/
theorem Main.Unnamed.of_sub {m n : Main} (h : m.Unnamed) (hp : n.pool = m.pool) (hs : n.sessions = m.sessions)
    (hm : ∀ x, n.holder = some x → x.mains = []) : n.Unnamed := by
  obtain ⟨hpool, -, hsess⟩ := h
  exact ⟨hp.trans hpool, hm, fun p => hs ▸ hsess p⟩

/-- Nothing is added, and the area is free. -/
theorem Main.Unnamed.of_free {m n : Main} (h : m.Unnamed) (hp : n.pool = m.pool) (hs : n.sessions = m.sessions)
    (hh : n.holder = none) : n.Unnamed := h.of_sub hp hs fun x hx => by rw [hh] at hx; cases hx

/-- Records in range agree with it when none of them is CLOSING. -/
theorem Main.Unnamed.agree {m : Main} (h : m.Unnamed) {r : Retained} (hr : r.Records)
    (hc : ∀ n, r.NoClosingBelow n) : Agree r m := by
  obtain ⟨hpool, -, hsess⟩ := h
  have hpin : ∀ p slot, ¬ m.Pinned p slot := by
    rintro p slot ⟨e, he, -⟩
    rw [(hsess p).2.1] at he
    cases he
  constructor
  · rw [hpool]; exact hr.funded_nil
  · rw [hpool]; nofun
  · exact fun p slot hp => absurd hp (hpin p slot)
  · exact fun p _ slot hp => absurd hp (hpin p slot)
  · rintro p slot key (hcur | ⟨g, hg, -⟩)
    · rw [(hsess p).1] at hcur; cases hcur
    · rw [(hsess p).2.2] at hg; cases hg
  · exact fun i a ha hs => absurd hs (hc (i + 1) i a (Nat.lt_succ_self i) ha)

/-! CLOSING accounts. -/

/-- The condition looks at the account table alone. -/
theorem Retained.NoClosingBelow.of_accounts {r r' : Retained} {n : Nat} (h : r.NoClosingBelow n)
    (ha : r'.accounts = r.accounts) : r'.NoClosingBelow n := fun i a hi hg => h i a hi (ha ▸ hg)

theorem Retained.noClosingBelow_zero (r : Retained) : r.NoClosingBelow 0 := fun _ _ hi => absurd hi (Nat.not_lt_zero _)

theorem Retained.Emptied.noClosingBelow {r : Retained} (h : r.Emptied) (n : Nat) : r.NoClosingBelow n := by
  intro i a _ ha
  have := getElem?_of_getD ha
  rw [h.accounts, List.getElem?_replicate] at this
  split at this <;> cases this

/-- The drains leave none (R179). -/
theorem Retained.noClosingBelow_drainAll (r : Retained) (n : Nat) : r.drainAll.NoClosingBelow n := by
  intro i a _ ha
  have hget := getElem?_of_getD ha
  rw [Retained.drainAll, List.getElem?_map, Option.map_eq_some_iff] at hget
  obtain ⟨x, -, hx⟩ := hget
  cases x with
  | none => cases hx
  | some b =>
    simp only [drainSlot, Option.some.injEq] at hx
    subst hx
    split
    · nofun
    · assumption

/-- No CLOSING account stands before the slot found. -/
theorem firstClosing_le {n i : Nat} {l : List (Option Account)} {a : Account} (hi : l[i]? = some (some a))
    (hc : a.state = .closing) : ∃ k, firstClosing n l = some k ∧ k ≤ n + i := by
  induction l generalizing n i with
  | nil => cases hi
  | cons x l ih =>
    have hrest : ∀ j, i = j + 1 → ∃ k, firstClosing (n + 1) l = some k ∧ k ≤ n + i := fun j hj => by
      subst hj
      obtain ⟨k, hk, hle⟩ := ih (n := n + 1) hi
      exact ⟨k, hk, by omega⟩
    cases x with
    | none =>
      cases i with
      | zero => cases hi
      | succ j => exact hrest j rfl
    | some b =>
      unfold firstClosing
      split
      · exact ⟨n, rfl, Nat.le_add_right n i⟩
      · rename_i hb
        cases i with
        | zero => cases hi; exact absurd hc hb
        | succ j => exact hrest j rfl

/-- A CLOSING account from a slot on is found. -/
theorem Retained.firstClosing_le {r : Retained} {n i : Nat} {a : Account} (ha : r.accounts.getD i none = some a)
    (hc : a.state = .closing) (hn : n ≤ i) : ∃ k, firstClosing n (r.accounts.drop n) = some k ∧ k ≤ i := by
  have hi : (r.accounts.drop n)[i - n]? = some (some a) := by
    rw [List.getElem?_drop, Nat.add_sub_cancel' hn]
    exact getElem?_of_getD ha
  obtain ⟨k, hk, hle⟩ := Machine.firstClosing_le (n := n) hi hc
  exact ⟨k, hk, by omega⟩

/-- None is found, and none stood before: there is none. -/
theorem Retained.noClosingBelow_of_firstClosing {r : Retained} {n : Nat} (h : r.NoClosingBelow n)
    (hf : firstClosing n (r.accounts.drop n) = none) (m : Nat) : r.NoClosingBelow m := by
  intro i a _ ha hc
  by_cases hi : i < n
  · exact h i a hi ha hc
  · obtain ⟨k, hk, -⟩ := Retained.firstClosing_le ha hc (Nat.le_of_not_lt hi)
    rw [hf] at hk
    cases hk

/-- Once the slot found is drained, none stands up to it. -/
theorem Retained.noClosingBelow_drained {r : Retained} {n slot : Nat} (h : r.NoClosingBelow n)
    (hf : firstClosing n (r.accounts.drop n) = some slot) :
    (applyRets [.acctState slot .drained] r).NoClosingBelow (slot + 1) := by
  obtain ⟨b, hle, hb, _⟩ := firstClosing_live hf
  rw [List.getElem?_drop, Nat.add_sub_cancel' hle] at hb
  have hl : r.accounts.getD slot none = some b := by rw [List.getD_eq_getElem?_getD, hb]; rfl
  rw [applyRets_cons, applyRets_nil, applyRet_acctState hl]
  intro i a hi ha hc
  obtain ⟨-, -, hx⟩ | ⟨hne, ha⟩ := getD_set_eq_some.mp ha
  · cases hx; cases hc
  · by_cases hin : i < n
    · exact h i a hin ha hc
    · obtain ⟨k, hk, hki⟩ := Retained.firstClosing_le ha hc (Nat.le_of_not_lt hin)
      rw [hf] at hk
      cases hk
      omega

/-! A stopped part. -/

theorem State.Agrees.unnamed {s : State} (h : s.Agrees) (hr : s.running = false) : s.main.Unnamed := h.stopped hr

/-- What the agreement says of a part that takes no requests. -/
theorem State.Agrees.of_stopped {t : State} (hr : t.running = false) (hu : t.main.Unnamed)
    (hm : t.powered = true → t.check ≠ some .cold → t.check ≠ some .coldMark → t.ret.mark = true)
    (hd : ∀ n, t.check = some (.drains n) → (t.main.holder = none → t.ret.NoClosingBelow n) ∧
      ∀ h slot, t.main.holder = some h → h.event = .startUpDrain slot →
        (t.settledRet h).NoClosingBelow (slot + 1))
    (hc : t.check = some .coldMark ∨ t.check = some .complete → ∀ n, t.ret.NoClosingBelow n) : t.Agrees :=
  ⟨hm, fun _ => hu, hd, hc, fun h => (by rw [hr] at h; cases h), fun h => (by rw [hr] at h; cases h)⟩

/-- The part goes on standing still, with the same retention memory. -/
theorem State.Agrees.of_stands {s t : State} (h : s.Agrees) (hr : s.running = false) (hs : Stands s t)
    (hret : t.ret = s.ret) (hh : t.main.holder = s.main.holder) (hu : t.main.Unnamed) : t.Agrees := by
  refine .of_stopped (hs.running.trans hr) hu (fun hp => ?_) (fun n hc => ?_) (fun hc => ?_)
  · rw [hs.1, hret]
    exact h.mark (hs.powered ▸ hp)
  · have := h.drains n (hs.1 ▸ hc)
    rw [hh]
    simpa only [State.settledRet, State.appliedRet, hret] using this
  · rw [hret]
    exact h.checked (hs.1 ▸ hc)

/-- A part that does not work, with everything else as it was. -/
theorem State.Agrees.of_off {s t : State} (h : s.Agrees) (hs : s.powered = false) (ht : t.powered = false)
    (hret : t.ret = s.ret) (hm : t.main = s.main) (hc : t.check = s.check) : t.Agrees := by
  refine .of_stopped (by simp [State.running, ht]) (hm ▸ h.unnamed (by simp [State.running, hs]))
    (fun hp => by rw [ht] at hp; cases hp) (fun n hn => ?_) (fun hn => ?_)
  · have := h.drains n (hc ▸ hn)
    rw [hm]
    simpa only [State.settledRet, State.appliedRet, hret] using this
  · rw [hret]
    exact h.checked (hc ▸ hn)

/-- A move of a part that takes no requests. -/
theorem Move.agrees_stopped {s t : State} (hm : Move s t) (hr : s.running = false) (h : s.Agrees) : t.Agrees := by
  obtain ⟨hpool, hmains, hsess⟩ := h.unnamed hr
  cases hm with
  | frame hf =>
    refine h.of_stands hr hf.stands hf.ret hf.holder
      ⟨hf.like.pool.trans hpool, fun x hx => hmains x (hf.holder ▸ hx), fun p => ?_⟩
    exact ⟨(hf.like.sessions p).cursor.trans (hsess p).1, (hf.like.sessions p).pin.trans (hsess p).2.1,
      (hf.inHand hr p).trans (hsess p).2.2⟩
  | reset p =>
    refine h.of_stands hr ⟨rfl, rfl, rfl⟩ rfl rfl ⟨hpool, hmains, fun q => ?_⟩
    have hsp : (s.session p).pin = none ∧ (s.session p).inHand = none := (hsess p).2
    simp only [State.sessionReset, State.setSession, State.setLink, Four.get_set]
    split
    · exact ⟨rfl, hsp.1, by simp [hsp.2]⟩
    · exact hsess q
  | finish hr' | effects _ hr' | hold _ _ _ _ hr' | clear _ hr' => rw [hr] at hr'; cases hr'

theorem Path.agrees_stopped {s t : State} (hp : Path s t) (hr : s.running = false) (h : s.Agrees) : t.Agrees :=
  (hp.keeps (I := fun u => u.running = false ∧ u.Agrees)
    (fun hm hu => ⟨hm.stands.running.trans hu.1, hm.agrees_stopped hu.1 hu.2⟩) ⟨hr, h⟩).2

/-! Supplies. -/

/-- The part stops (R170, R171). -/
theorem State.agrees_stop {t : State} (hp : t.powered = false) (hm : t.main = Main.reset) (hc : t.check = none) :
    t.Agrees :=
  .of_stopped (by simp [State.running, hp]) (hm ▸ Main.unnamed_reset) (fun h => by rw [hp] at h; cases h)
    (fun n h => by rw [hc] at h; cases h) (fun h => by rw [hc] at h; obtain h | h := h <;> cases h)

/-- The start-up check begins (R177). -/
theorem State.agrees_beginCheck (s : State) : s.beginCheck.Agrees := by
  cases hm : s.ret.mark with
  | true =>
    have hc : s.beginCheck.check = some .settle := by simp [State.beginCheck, hm]
    exact .of_stopped (by simp [State.running, hc]) Main.unnamed_reset (fun _ _ _ => hm)
      (fun n h => by rw [hc] at h; cases h) (fun h => by rw [hc] at h; obtain h | h := h <;> cases h)
  | false =>
    have hc : s.beginCheck.check = some .cold := by simp [State.beginCheck, hm]
    exact .of_stopped (by simp [State.running, hc]) Main.unnamed_reset (fun _ h => absurd hc h)
      (fun n h => by rw [hc] at h; cases h) (fun h => by rw [hc] at h; obtain h | h := h <;> cases h)

/-- A part that does not work loses retention memory to a free value without CLOSING accounts (R170; log 12). -/
theorem State.Agrees.loseRetention {s : State} (h : s.Agrees) (hoff : s.powered = false)
    (hfree : s.main.holder = none) (H : ∀ n, (Config.lostRetention s.freeCount).NoClosingBelow n) (b : Bool) :
    ({ s with vbat := b } : State).loseRetention.Agrees := by
  have hH : ∀ n, ({ s with vbat := b } : State).loseRetention.ret.NoClosingBelow n := fun n =>
    (H n).of_accounts rfl
  have hr : ∀ u : State, u.powered = false → u.running = false := fun u hu => by simp [State.running, hu]
  refine .of_stopped (hr _ hoff) (h.unnamed (hr s hoff)) (fun hp => ?_) (fun n _ => ⟨fun _ => hH n, ?_⟩)
    fun _ => hH
  · exact absurd (hp.symm.trans hoff) nofun
  · exact fun x _ hx => absurd (hfree.symm.trans hx) nofun

/-- The supplies and RESET_N keep the agreement, if no free value holds a CLOSING account. -/
theorem State.Agrees.supply (H : ∀ k n, (Config.lostRetention k).NoClosingBelow n) {s t : State} (h : s.Agrees)
    (hco : s.Coherent) {c : Instr} (hc : isSupply c = true) (hst : exec c s = .next t) : t.Agrees := by
  cases c with
  | powerLoss =>
    change execPowerLoss s = _ at hst
    unfold execPowerLoss at hst
    split at hst <;> cases hst
    · dsimp only
      split <;> exact State.agrees_stop rfl rfl rfl
    · exact h
  | vbatLoss =>
    change execVbatLoss s = _ at hst
    unfold execVbatLoss at hst
    cases hst
    split
    · exact ⟨h.mark, h.stopped, h.drains, h.checked, h.now, h.next⟩
    · rename_i hv
      simp only [Bool.or_eq_true, not_or, Bool.not_eq_true] at hv
      have hoff : s.powered = false := by simp [State.powered, hv.1]
      exact h.loseRetention hoff (hco.off hoff) (H _) false
  | powerReturn =>
    change execPowerReturn s = _ at hst
    unfold execPowerReturn at hst
    split at hst <;> cases hst
    · exact h
    · rename_i hv
      dsimp only
      split
      · rename_i hl
        exact h.of_off (by simp [State.powered, hv]) (by simp [State.powered, hl]) rfl rfl rfl
      · exact State.agrees_beginCheck _
  | resetAssert =>
    change execResetAssert s = _ at hst
    unfold execResetAssert at hst
    split at hst <;> cases hst
    · exact h
    · exact State.agrees_stop (by simp [State.powered]) rfl rfl
  | resetRelease =>
    change execResetRelease s = _ at hst
    unfold execResetRelease at hst
    split at hst <;> cases hst
    · rename_i hl
      dsimp only
      split
      · exact State.agrees_beginCheck _
      · rename_i hv
        exact h.of_off (by simp [State.powered, hl]) (by simp [State.powered, hv]) rfl rfl rfl
    · exact h
  | vbatReturn =>
    cases hst
    exact ⟨h.mark, h.stopped, h.drains, h.checked, h.now, h.next⟩
  | _ => cases hc

/-! The start-up check. -/

/-- No request is taken while the start-up check is in progress (R181). -/
theorem State.running_of_check {s : State} {c : Check} (hc : s.check = some c) : s.running = false := by
  simp [State.running, hc]

/-- The end of an apply phase without effects names no account. -/
theorem Main.Unnamed.finishApply {s : State} (h : s.main.Unnamed) : s.finishApply.main.Unnamed := by
  cases hx : s.main.holder with
  | none => rw [State.finishApply_of_free hx]; exact h
  | some x =>
    by_cases hcl : x.phase = .clear
    · have : s.finishApply = s := by simp [State.finishApply, hx, hcl]
      rw [this]; exact h
    · have hm : s.finishApply.main =
          { applyMains x.mains s.main with holder := some { x with phase := .clear, mains := [] } } := by
        simp [State.finishApply, hx, hcl]
      obtain ⟨_, hsess, hpool, _⟩ := catchUpN_frame s.main.clockOwed s.main
      rw [hm, h.2.1 x hx]
      exact h.of_sub hpool hsess fun y hy => by cases hy; rfl

/-- Nor does a notch of a staged change without effects. -/
theorem Main.Unnamed.advanceHolder {s : State} (h : s.main.Unnamed) {x : Holder} (hx : s.main.holder = some x) :
    (s.advanceHolder x).main.Unnamed := by
  have hm := h.2.1 x hx
  unfold State.advanceHolder
  split
  · exact h.of_sub rfl rfl fun y hy => by cases hy; exact hm
  · exact h.of_sub rfl rfl fun y hy => by cases hy; exact hm
  · split
    · exact h.of_sub rfl rfl fun y hy => by cases hy; exact hm
    · exact h.finishApply
  · exact h

/-- Nor does the freed area. -/
theorem Main.Unnamed.clearArea {s : State} (h : s.main.Unnamed) : s.clearArea.main.Unnamed :=
  h.of_free rfl rfl rfl

/-- A start-up drain ends. -/
theorem State.Agrees.endDrain {s : State} (h : s.Agrees) (hp : s.powered = true) {n : Nat}
    (hc : s.check = some (.drains n)) {x : Holder} (hx : s.main.holder = some x) : (s.endDrain x).Agrees := by
  have hu := (h.unnamed (State.running_of_check hc)).finishApply.clearArea
  have hm := s.finishApply_mark.trans (h.mark hp (by rw [hc]; nofun) (by rw [hc]; nofun))
  unfold State.endDrain
  split
  · rename_i slot he
    have hn : s.finishApply.clearArea.ret.NoClosingBelow (slot + 1) :=
      ((h.drains n hc).2 x slot hx he).of_accounts (congrArg Books.accounts (State.finishApply_books hx))
    refine .of_stopped (State.running_of_check rfl) hu (fun _ _ _ => hm) (fun m hcc => ⟨fun _ => ?_, ?_⟩)
      (fun hcc => by obtain hcc | hcc := hcc <;> cases hcc)
    · cases hcc
      exact hn
    · exact fun y _ hy => absurd (s.finishApply.clearArea_holder.symm.trans hy) nofun
  · exact h

/-- A notch of a start-up drain. -/
theorem State.Agrees.advanceDrain {s : State} (h : s.Agrees) (hp : s.powered = true) {n : Nat}
    (hc : s.check = some (.drains n)) {x : Holder} (hx : s.main.holder = some x) :
    (s.advanceHolder x).Agrees := by
  obtain ⟨y, hy, hev, hret, _⟩ := State.advanceHolder_settled hx
  have hck : (s.advanceHolder x).check = some (.drains n) := (s.stands_advanceHolder x).1.trans hc
  refine .of_stopped (State.running_of_check hck) ((h.unnamed (State.running_of_check hc)).advanceHolder hx)
    (fun _ _ _ => ?_) (fun m hm => ⟨fun hn => ?_, fun z slot hz he => ?_⟩)
    (fun hcc => by rw [hck] at hcc; obtain hcc | hcc := hcc <;> cases hcc)
  · exact (s.advanceHolder_mark x).trans (h.mark hp (by rw [hc]; nofun) (by rw [hc]; nofun))
  · rw [hy] at hn; cases hn
  · rw [hy] at hz
    cases hz
    exact ((h.drains n hc).2 x slot hx (hev.symm.trans he)).of_accounts hret

/-- The next slot to drain is given the area, or there is none (R179). -/
theorem State.Agrees.nextDrain {s : State} (h : s.Agrees) (hp : s.powered = true) {n : Nat}
    (hc : s.check = some (.drains n)) (hx : s.main.holder = none) : (s.advanceCheck (.drains n)).Agrees := by
  have hu := h.unnamed (State.running_of_check hc)
  have hm := h.mark hp (by rw [hc]; nofun) (by rw [hc]; nofun)
  have hn := (h.drains n hc).1 hx
  unfold State.advanceCheck
  rw [hx]
  dsimp only
  split
  · rename_i slot hf
    refine .of_stopped (State.running_of_check rfl) (hu.of_sub rfl rfl fun y hy => by cases hy; rfl)
      (fun _ _ _ => hm) (fun m _ => ⟨nofun, fun y k hy he => ?_⟩)
      (fun hcc => by obtain hcc | hcc := hcc <;> cases hcc)
    cases hy
    cases he
    exact (Retained.noClosingBelow_drained hn hf).of_accounts
      (congrArg Books.accounts (applyRets_books_staged [.acctState slot .drained] s.ret _ false))
  · rename_i hf
    exact .of_stopped (State.running_of_check rfl) hu (fun _ _ _ => hm) (fun m hcc => by cases hcc)
      (fun _ => Retained.noClosingBelow_of_firstClosing hn hf)

/-- One notch of the start-up check. -/
theorem State.Agrees.advanceCheck {s : State} (h : s.Agrees) (hco : s.Coherent) (hp : s.powered = true) {c : Check}
    (hc : s.check = some c) : (s.advanceCheck c).Agrees := by
  have hu := h.unnamed (State.running_of_check hc)
  have none_of : (∀ n, c ≠ .drains n) → s.main.holder = none := hco.check c hc
  cases c with
  | settle =>
    have hx := none_of nofun
    refine .of_stopped (State.running_of_check rfl) hu (fun _ _ _ => ?_)
      (fun n hn => ⟨fun _ => ?_, fun y _ hy => absurd (hx.symm.trans hy) nofun⟩)
      (fun hcc => by obtain hcc | hcc := hcc <;> cases hcc)
    · exact (settle_mark s.ret).trans (h.mark hp (by rw [hc]; nofun) (by rw [hc]; nofun))
    · cases hn
      exact Retained.noClosingBelow_zero _
  | drains n =>
    cases hx : s.main.holder with
    | none => exact h.nextDrain hp hc hx
    | some x =>
      unfold State.advanceCheck
      rw [hx]
      dsimp only
      split
      · exact h.endDrain hp hc hx
      · exact h.advanceDrain hp hc hx
  | cold =>
    exact .of_stopped (State.running_of_check rfl) hu (fun _ _ hcm => absurd rfl hcm) (fun n hn => by cases hn)
      (fun _ n => (Retained.emptied_cold.noClosingBelow n).of_accounts rfl)
  | coldMark =>
    exact .of_stopped (State.running_of_check rfl) hu (fun _ _ _ => rfl) (fun n hn => by cases hn)
      (fun _ n => (h.checked (.inl hc) n).of_accounts rfl)
  | complete => exact h

/-! The end of the start-up check. -/

/-- Whatever the check has come to, retention memory is left with its mark and without CLOSING accounts (R178 to
R180). -/
theorem State.Agrees.checked_mark {s : State} (h : s.Agrees) (hp : s.powered = true) {c : Check}
    (hc : s.check = some c) : (s.ret.checked c).mark = true := by
  have hm : c ≠ .cold → c ≠ .coldMark → s.ret.mark = true := fun h1 h2 =>
    h.mark hp (by rw [hc]; exact fun e => h1 (by cases e; rfl)) (by rw [hc]; exact fun e => h2 (by cases e; rfl))
  cases c with
  | settle | drains => exact (settle_mark s.ret).trans (hm nofun nofun)
  | cold | coldMark => rfl
  | complete => exact hm nofun nofun

theorem State.Agrees.checked_noClosing {s : State} (h : s.Agrees) {c : Check} (hc : s.check = some c) (n : Nat) :
    (s.ret.checked c).NoClosingBelow n := by
  cases c with
  | settle | drains => exact Retained.noClosingBelow_drainAll _ n
  | cold => exact Retained.emptied_cold.noClosingBelow n
  | coldMark => exact (h.checked (.inl hc) n).of_accounts rfl
  | complete => exact h.checked (.inr hc) n

/-- The records are in range. -/
theorem State.Agrees.checked_records {s : State} (h : s.Agrees) (hr : s.Keeps Retained.Records)
    (hp : s.powered = true) {c : Check} (hc : s.check = some c) : (s.ret.checked c).Records := by
  have hcut : (c ≠ .cold → c ≠ .coldMark → s.ret.settle.Records) := fun h1 h2 => hr.records_cut <| .inl <|
    h.mark hp (by rw [hc]; exact fun e => h1 (by cases e; rfl)) (by rw [hc]; exact fun e => h2 (by cases e; rfl))
  have hfree : (∀ n, c ≠ .drains n) → c ≠ .settle → c ≠ .cold → s.ret.completion = false := fun hd hs hcold =>
    hr.1.free hp (hr.1.check c hc hd) (by rw [hc]; exact fun e => hs (by cases e; rfl))
      (by rw [hc]; exact fun e => hcold (by cases e; rfl))
  cases c with
  | settle | drains => exact (hcut nofun nofun).drainAll
  | cold => exact Retained.emptied_cold.records
  | coldMark =>
    exact (hr.records_cut (.inr ⟨hp, hc⟩)).of_books
      (Retained.settle_books_clear (hfree nofun nofun nofun)).symm
  | complete => exact (hcut nofun nofun).of_books (Retained.settle_books_clear (hfree nofun nofun nofun)).symm

/-- The end of the start-up check leaves a part that takes requests and agrees (R181). -/
theorem State.Agrees.checkEnded {s : State} (h : s.Agrees) (hd : s.Keeps Retained.Directory)
    (hr : s.Keeps Retained.Records) (hpool : s.PoolSound) (hp : s.powered = true) {c : Check}
    (hc : s.check = some c) (n : Nat) : (s.checkEnded c n).Agreeing := by
  have hfree : (s.checkEnded c n).main.holder = none := rfl
  have hu : (s.checkEnded c n).main.Unnamed :=
    (h.unnamed (State.running_of_check hc)).of_free rfl rfl rfl
  refine .of_applied ?_ (h.checked_mark hp hc) ?_ ?_ (State.applied_of_free hfree)
    (hu.agree (h.checked_records hr hp hc) (h.checked_noClosing hc))
  · exact show (s.powered && true) = true by rw [hp]; rfl
  · exact keeps_checked keptByChanges_directory (fun r hr => hr.restated (sameRecords_drainAll r) rfl rfl) hd hp hc
      rfl rfl rfl
  · exact .of_applied (State.applied_of_free hfree) (hpool.1.of_eq rfl rfl rfl)

/-! Steps. -/

/-- Every step keeps the agreement, if no free value holds a CLOSING account. -/
theorem State.Agrees.step (H : ∀ k n, (Config.lostRetention k).NoClosingBelow n) {s t : State}
    (hd₀ : s.Keeps Retained.Directory) (hr₀ : s.Keeps Retained.Records) (hpool₀ : s.PoolSound) (h : s.Agrees)
    (hst : step s = .next t) : t.Agrees := by
  obtain ⟨u, hu, hst⟩ := step_stepped hst
  have hd : u.Keeps Retained.Directory := (Move.frame hu).keeps keptByChanges_directory hd₀
  have hr : u.Keeps Retained.Records := (Moves.of_eq hu.ret hu.holder hu.stands).1 hr₀
  have hpool : u.PoolSound := (Move.frame hu).poolSound hpool₀
  have h : u.Agrees := by
    cases hrun : s.running with
    | true => exact ((Move.frame hu).agreeing (h.agreeing hrun hd₀ hpool₀)).agrees
    | false => exact (Move.frame hu).agrees_stopped hrun h
  cases hst with
  | path hp =>
    cases hrun : u.running with
    | true => exact (hp.keeps Move.agreeing (h.agreeing hrun hd hpool)).agrees
    | false => exact hp.agrees_stopped hrun h
  | supply c hc hx => exact h.supply H hd.1 hc hx
  | notch x hx hrun ht => exact ht ▸ ((h.agreeing hrun hd hpool).advanceHolder hx).agrees
  | check c hp hc ht => exact ht ▸ h.advanceCheck hd.1 hp hc
  | drained n x hp hc hx ht => exact ht ▸ h.endDrain hp hc hx
  | started c n hp hc hpath =>
    exact (hpath.keeps Move.agreeing (h.checkEnded hd hr hpool hp hc n)).agrees

/-- `EveryStepKeepsTheHoldPool` holds exactly when no value that retention memory is left with by its loss holds a
CLOSING account. That value is free (log 12): nothing is known of it. -/
theorem everyStepKeepsTheHoldPool_iff : Obligations.EveryStepKeepsTheHoldPool ↔
    ∀ k n, (Config.lostRetention k).NoClosingBelow n where
  mp := lostRetention_noClosingBelow_of_everyStepKeepsTheHoldPool
  mpr H := ⟨fun _ _ => .step, fun _ _ hd hr hpool h hst => h.step H hd hr hpool hst⟩

end Sys2Proof.Machine
end
